-- ==== Sys2Proof/Word.lean ====
section
/-! DEFINITION. The word types of the block: bytes, 32-bit bus words, 16-bit lengths and timers, 3-bit sequence
numbers (00_scope.md rules R11, R12). -/

namespace Sys2Proof

/-- A byte of a byte port, a frame or buffer memory (10_state.md R21, R49). -/
abbrev Byte := BitVec 8

/-- A 16-bit length, timer or configuration value (10_state.md R29, R43, R48). -/
abbrev Half := BitVec 16

/-- A 32-bit host register or bus word (10_state.md R23). -/
abbrev Word := BitVec 32

/-- A sequence number: all its arithmetic is modulo 8 (00_scope.md R11, 44_arq_data.md R296). -/
abbrev SeqNum := BitVec 3

/-- The eight sequence numbers in increasing order, the range of every `for q in 0..7` of the spec. -/
def SeqNum.all : List SeqNum := [0, 1, 2, 3, 4, 5, 6, 7]

end Sys2Proof
end

