-- ==== Sys2Proof/Config.lean ====
section
/-! DEFINITION. What a built block fixes and the spec leaves open (00_scope.md R7): the sizes of the reference
block, the checksum functions other than the defaults of 41_fcs.md, and the byte on `tx_data_o` while none is
offered. -/

namespace Sys2Proof

/-- P_NBUF of the block that `Machine.State.reset` describes. DESIGN CHOICE (log 1): the spec leaves it open
(D47) and its vectors use 4. Unsafe only for statements about that one state. -/
def Config.refNbuf : Nat := 4

/-- P_BUFCAP of the block that `Machine.State.reset` describes. DESIGN CHOICE (log 1): the spec leaves it open
(D47) and its vectors use 64. Unsafe only for statements about that one state. -/
def Config.refBufcap : Nat := 64

/-- Any mode-1 checksum function other than the default, one for each number (00_scope.md R7, 41_fcs.md R182,
D9). A free value with no body (log 2). -/
opaque Config.otherFcs8 : Nat → List Byte → BitVec 8

/-- Any mode-2 checksum function other than the default (41_fcs.md R183, D10). A free value with no body (log 2). -/
opaque Config.otherFcs16 : Nat → List Byte → BitVec 16

/-- Any mode-3 checksum function other than the default (41_fcs.md R184, D11). A free value with no body (log 2). -/
opaque Config.otherFcs32 : Nat → List Byte → BitVec 32

/-- `tx_data_o` where `enc.wire` has no byte at `enc.pos`, one value for each number of bytes handed over so far:
10_state.md R21 gives none. A free value with no body (log 16). -/
opaque Config.idleTxData : Nat → BitVec 8

end Sys2Proof
end

