-- ==== Sys2Proof/Syntax.lean ====
section
/-! DEFINITION. The instruction set: one constructor for each row of spec/opcode_table.json, the host commands of
30_encoding.md R110 and the received frames of R105 and R106.

Every field an encoding has is kept, the ignored ones too (log 8): `buf` and `len` are CMD bits 15..8 and 31..16,
`pf` is the P/F bit, `info` is the frame's info field (R103). -/

namespace Sys2Proof

/-- What the block executes (00_scope.md R2): the command of a CMD write, or a received frame. -/
inductive Instr where
  /-- NOP (45_host_interface.md R333). -/
  | nop (buf : BitVec 8) (len : BitVec 16)
  /-- ACQUIRE (42_buffer_pool.md R200). -/
  | acquire (buf : BitVec 8) (len : BitVec 16)
  /-- RELEASE (42_buffer_pool.md R202). -/
  | release (buf : BitVec 8) (len : BitVec 16)
  /-- SEND (44_arq_data.md R270). -/
  | send (buf : BitVec 8) (len : BitVec 16)
  /-- READ (42_buffer_pool.md R203). -/
  | read (buf : BitVec 8) (len : BitVec 16)
  /-- CONNECT (43_arq_connection.md R230). -/
  | connect (buf : BitVec 8) (len : BitVec 16)
  /-- DISCONNECT (43_arq_connection.md R233). -/
  | disconnect (buf : BitVec 8) (len : BitVec 16)
  /-- SOFT_RESET (45_host_interface.md R334). -/
  | softReset (buf : BitVec 8) (len : BitVec 16)
  /-- A CMD word with a reserved opcode (30_encoding.md R113). -/
  | reservedOpcode (op : BitVec 8) (buf : BitVec 8) (len : BitVec 16)
  /-- Information frame (44_arq_data.md R280). -/
  | iFrame (ns nr : SeqNum) (pf : Bool) (info : List Byte)
  /-- Receive-ready frame (44_arq_data.md R287). -/
  | rr (nr : SeqNum) (pf : Bool) (info : List Byte)
  /-- Reject frame (44_arq_data.md R288). -/
  | rej (nr : SeqNum) (pf : Bool) (info : List Byte)
  /-- Connect-request frame (43_arq_connection.md R235). -/
  | sabm (pf : Bool) (info : List Byte)
  /-- Connect-ack frame (43_arq_connection.md R236). -/
  | ua (pf : Bool) (info : List Byte)
  /-- Disconnect-request frame (43_arq_connection.md R237). -/
  | disc (pf : Bool) (info : List Byte)
  /-- Reserved S-frame with SS = 01 (30_encoding.md R106). -/
  | rnrReserved (nr : SeqNum) (pf : Bool) (info : List Byte)
  /-- Reserved S-frame with SS = 11 (30_encoding.md R106). -/
  | srejReserved (nr : SeqNum) (pf : Bool) (info : List Byte)
  /-- Reserved U-frame; `m` is the modifier M[4:0] of 30_encoding.md R104 (R106). -/
  | uReserved (m : BitVec 5) (pf : Bool) (info : List Byte)
  deriving DecidableEq, Repr

end Sys2Proof
end

