-- ==== Sys2Proof/Machine/State.lean ====
section
/-! DEFINITION. The state of one block, exactly what 10_state.md R17 lists, as plain data; beside it the
construction-time parameters (00_scope.md R7, log 1) and the model's own view of the environment (log 3, log 4);
the reasons a step can stop; and the state after reset (70_reset_and_hazards.md R391). -/

namespace Sys2Proof.Machine

/-- Checksum mode, CFG.FCS_MODE 0 to 3 (00_scope.md R16). -/
inductive FcsMode where
  | off
  | sum8
  | crc16
  | crc32
  deriving DecidableEq, Repr

/-- Which checksum function a block was built with (00_scope.md R7): the default of 41_fcs.md, or another one,
whose values are free (Config, log 2). -/
inductive FcsFn where
  | dflt
  | other (k : Nat)
  deriving DecidableEq, Repr

/-- Construction-time parameters (00_scope.md R7). P_NBUF is the length of `State.pool` (log 1). -/
structure Params where
  /-- P_BUFCAP, 1..4096. -/
  bufcap : Nat
  /-- FCS8_FN. -/
  fcs8 : FcsFn
  /-- FCS16_FN. -/
  fcs16 : FcsFn
  /-- FCS32_FN. -/
  fcs32 : FcsFn
  deriving DecidableEq, Repr

/-- The configuration registers (10_state.md R28 to R31). -/
structure CfgRegs where
  /-- CFG[1:0] FCS_MODE (R28). -/
  fcsMode : FcsMode
  /-- CFG[4:2] WINDOW (R28). -/
  window : BitVec 3
  /-- CFG[15:8] MAX_RETRIES (R28). -/
  maxRetries : BitVec 8
  /-- CFG_MTU[15:0] (R29). -/
  mtu : Half
  /-- CFG_TIMEOUT[15:0] (R30). -/
  timeout : Half
  /-- CFG_ACKDELAY[15:0] (R31). -/
  ackDelay : Half
  deriving DecidableEq, Repr

/-- Connection state (10_state.md R41). -/
inductive Conn where
  | disconnected
  | connecting
  | connected
  | disconnecting
  deriving DecidableEq, Repr

/-- A pending-acknowledgment slot (10_state.md R43). The default has every field 0. -/
structure Slot where
  valid : Bool := false
  /-- The pool buffer it names, an index (6 bits in the block, log 7). -/
  buf : Nat := 0
  needsTx : Bool := false
  timer : Half := 0
  deriving DecidableEq, Repr

/-- Ownership state of a pool buffer (10_state.md R48). -/
inductive BufState where
  | free
  | app
  | pendTx
  | pendAck
  | delivered
  deriving DecidableEq, Repr

/-- A pool descriptor: bstate[i] and blen[i] (10_state.md R48). -/
structure BufDesc where
  state : BufState := .free
  len : Half := 0
  deriving DecidableEq, Repr

/-- The kinds of frame the block sends (10_state.md R51). -/
inductive FrameKind where
  | ua
  | sabm
  | disc
  | rej
  | i
  | rr
  deriving DecidableEq, Repr

/-- Encoder state (10_state.md R51). The default is its reset value. -/
structure Encoder where
  active : Bool := false
  kind : FrameKind := .ua
  seq : SeqNum := 0
  /-- The buffer of an I-frame, an index (6 bits in the block, log 7). -/
  buf : Nat := 0
  orphan : Bool := false
  wire : List Byte := []
  pos : Nat := 0
  deriving DecidableEq, Repr

/-- De-stuffer states (10_state.md R52). -/
inductive RxState where
  | hunt
  | data
  | esc
  deriving DecidableEq, Repr

/-- De-stuffer (10_state.md R52). The default is its reset value. -/
structure Destuffer where
  state : RxState := .hunt
  acc : List Byte := []
  deriving DecidableEq, Repr

/-- One port event (10_state.md R22). -/
inductive PortEvent where
  /-- A cycle with `rst_i = 1`. -/
  | reset
  /-- A read transaction: address and size code (R21). -/
  | hostRead (addr : BitVec 20) (size : BitVec 2)
  /-- A write transaction: address, size code, data (R21). -/
  | hostWrite (addr : BitVec 20) (size : BitVec 2) (data : Word)
  /-- A byte offered on the RX port. -/
  | rxByte (b : Byte)
  /-- A timer tick. -/
  | tick
  /-- The transport is ready for a byte: a `TxByte` step if the encoder is active, else no step (log 5). -/
  | txReady
  deriving DecidableEq, Repr

/-- The model's own view of the environment; none of it is state of the block (log 3, log 4). -/
structure Env where
  /-- The port events still to come, oldest first. -/
  inbox : List PortEvent := []
  /-- The words the block returned on `hb_rdata_o`, oldest first. -/
  reads : List Word := []
  /-- The bytes the block handed over on `tx_data_o`, oldest first. -/
  sent : List Byte := []
  deriving DecidableEq, Repr

/-- The state of one instance (10_state.md R17). -/
structure State where
  /-- Construction-time parameters; no step changes them (log 1). -/
  params : Params
  /-- CFG, CFG_MTU, CFG_TIMEOUT, CFG_ACKDELAY (R28 to R31). -/
  cfg : CfgRegs
  /-- IRQ_EN[10:0] (R36); the reserved bits are not held. -/
  irqEn : BitVec 11
  /-- RESULT (R33). -/
  result : Word
  /-- EVENT[10:0] (R35); the reserved bits are not held. -/
  event : BitVec 11
  /-- CNT_LOST (R37). -/
  cntLost : Word
  /-- CNT_OVERSIZE (R38). -/
  cntOversize : Word
  /-- Connection state (R41). -/
  conn : Conn
  /-- V(S) (R42). -/
  vs : SeqNum
  /-- V(R) (R42). -/
  vr : SeqNum
  /-- V(A) (R42). -/
  va : SeqNum
  /-- The slot file, keyed by sequence number (R43). -/
  slots : Vector Slot 8
  /-- Shared retry counter (R44). -/
  retry : BitVec 8
  /-- Timer of the outstanding SABM or DISC (R45). -/
  uTimer : Half
  /-- An accepted I-frame is not yet acknowledged (R46). -/
  ackPending : Bool
  /-- Remaining grace period (R46). -/
  ackTimer : Half
  /-- A REJ is due (R47). -/
  rejPending : Bool
  /-- A UA is due (R47). -/
  uaPending : Bool
  /-- A SABM is due (R47). -/
  sabmPending : Bool
  /-- A DISC is due (R47). -/
  discPending : Bool
  /-- Pool descriptors, one for each buffer, so P_NBUF of them (R48, log 1). -/
  pool : List BufDesc
  /-- Buffer memory as the bytes that differ from 0, keyed by host address, rising (R49, R72, log 6). -/
  bmem : List Host.Cell
  /-- Delivered queue, head first (R50). -/
  rxq : List Nat
  /-- Encoder (R51). -/
  enc : Encoder
  /-- De-stuffer (R52). -/
  rx : Destuffer
  /-- The environment (log 3, log 4). -/
  env : Env
  deriving DecidableEq, Repr

/-- P_NBUF, the number of pool buffers (00_scope.md R7, 42_buffer_pool.md R206). -/
def State.nbuf (s : State) : Nat := s.pool.length

/-- Why a step stops with a fault. None exists: "The block raises no exception and takes no trap"
(60_exceptions.md R360), so nothing raises one, which is safe (log 9). -/
inductive Fault where
  deriving DecidableEq, Repr

/-- Why a step is refused. -/
inductive Refusal where
  /-- Raised by `exec` for an instruction that has no meaning yet; safe, since the machine stops. -/
  | notModelled (mnemonic : String)
  deriving DecidableEq, Repr

/-- The configuration after a hardware reset of a block of capacity `bufcap` (70_reset_and_hazards.md R391,
log 15). -/
def CfgRegs.reset (bufcap : Nat) : CfgRegs where
  fcsMode := .crc16
  window := 7
  maxRetries := 2
  mtu := BitVec.ofNat 16 (min 32 bufcap)
  timeout := 200
  ackDelay := 10

/-- The state after a hardware reset of a block with parameters `params` and `nbuf` buffers, whose buffer memory
holds `bmem` (unchanged by reset) and whose environment is `env` (70_reset_and_hazards.md R391). -/
def State.afterReset (params : Params) (nbuf : Nat) (bmem : List Host.Cell) (env : Env) : State where
  params := params
  cfg := CfgRegs.reset params.bufcap
  irqEn := 0
  result := 0
  event := 0
  cntLost := 0
  cntOversize := 0
  conn := .disconnected
  vs := 0
  vr := 0
  va := 0
  slots := #v[{}, {}, {}, {}, {}, {}, {}, {}]
  retry := 0
  uTimer := 0
  ackPending := false
  ackTimer := 0
  rejPending := false
  uaPending := false
  sabmPending := false
  discPending := false
  pool := List.replicate nbuf {}
  bmem := bmem
  rxq := []
  enc := {}
  rx := {}
  env := env

/-- The reference block right after reset (R391): its size is the model's choice (log 1), its buffer memory lists
nothing (log 6), and no event is waiting (log 3). -/
def State.reset : State :=
  State.afterReset { bufcap := Config.refBufcap, fcs8 := .dflt, fcs16 := .dflt, fcs32 := .dflt } Config.refNbuf [] {}

end Sys2Proof.Machine
end

