-- ==== Sys2Proof/Machine/Fcs.lean ====
section
/-! DEFINITION. Frame check sequences (41_fcs.md) and the wire image of a frame: stuffing and delimiters
(30_encoding.md R100 to R102, 40_framecodec.md R143). -/

namespace Sys2Proof.Machine

/-- DELIM (00_scope.md R10, log 14). -/
def delim : Byte := 0x7E

/-- ESC (00_scope.md R10, log 14). -/
def esc : Byte := 0x7D

/-- MASK (00_scope.md R10, log 14). -/
def mask : Byte := 0x20

/-- FCS_LEN: 0, 1, 2, 4 bytes (00_scope.md R16). -/
def FcsMode.fcsLen : FcsMode → Nat
  | .off => 0
  | .sum8 => 1
  | .crc16 => 2
  | .crc32 => 4

/-- The sum of the bytes, modulo 256 (41_fcs.md R182). -/
def byteSum : List Byte → Byte
  | [] => 0
  | b :: s => b + byteSum s

/-- `n` rounds of "shift right, and XOR the polynomial if bit 0 was 1" (41_fcs.md R183, R184). -/
def crcRounds {w : Nat} (poly : BitVec w) : Nat → BitVec w → BitVec w
  | 0, crc => crc
  | n + 1, crc => crcRounds poly n (if crc.getLsbD 0 then (crc >>> 1) ^^^ poly else crc >>> 1)

/-- The CRC register after the bytes, from the value `crc` (41_fcs.md R183, R184). -/
def crcBytes {w : Nat} (poly : BitVec w) : BitVec w → List Byte → BitVec w
  | crc, [] => crc
  | crc, b :: s => crcBytes poly (crcRounds poly 8 (crc ^^^ b.setWidth w)) s

/-- Default FCS8_FN: one's complement of the byte sum (41_fcs.md R182). -/
def defaultFcs8 (s : List Byte) : BitVec 8 := ~~~ byteSum s

/-- Default FCS16_FN: RFC 1662 FCS-16 (41_fcs.md R183, log 2). -/
def defaultFcs16 (s : List Byte) : BitVec 16 := crcBytes 0x8408#16 0xFFFF#16 s ^^^ 0xFFFF#16

/-- Default FCS32_FN: RFC 1662 FCS-32 (41_fcs.md R184, log 2). -/
def defaultFcs32 (s : List Byte) : BitVec 32 := crcBytes 0xEDB88320#32 0xFFFFFFFF#32 s ^^^ 0xFFFFFFFF#32

/-- FCS8_FN of the block (00_scope.md R7). -/
def Params.fcs8Fn (p : Params) (s : List Byte) : BitVec 8 :=
  match p.fcs8 with
  | .dflt => defaultFcs8 s
  | .other k => Config.otherFcs8 k s

/-- FCS16_FN of the block (00_scope.md R7). -/
def Params.fcs16Fn (p : Params) (s : List Byte) : BitVec 16 :=
  match p.fcs16 with
  | .dflt => defaultFcs16 s
  | .other k => Config.otherFcs16 k s

/-- FCS32_FN of the block (00_scope.md R7). -/
def Params.fcs32Fn (p : Params) (s : List Byte) : BitVec 32 :=
  match p.fcs32 with
  | .dflt => defaultFcs32 s
  | .other k => Config.otherFcs32 k s

/-- `FCS_m(s)` in transmission order, least significant byte first (41_fcs.md R180, R181, R185). -/
def fcs (p : Params) (m : FcsMode) (s : List Byte) : List Byte :=
  match m with
  | .off => []
  | .sum8 => [p.fcs8Fn s]
  | .crc16 => [(p.fcs16Fn s).extractLsb' 0 8, (p.fcs16Fn s).extractLsb' 8 8]
  | .crc32 => [(p.fcs32Fn s).extractLsb' 0 8, (p.fcs32Fn s).extractLsb' 8 8,
      (p.fcs32Fn s).extractLsb' 16 8, (p.fcs32Fn s).extractLsb' 24 8]

/-- The bytes that stand for one byte inside a frame (30_encoding.md R102). -/
def stuffByte (b : Byte) : List Byte :=
  if b = delim ∨ b = esc then [esc, b ^^^ mask] else [b]

/-- `stuff` (30_encoding.md R102). -/
def stuff : List Byte → List Byte
  | [] => []
  | b :: s => stuffByte b ++ stuff s

/-- The unstuffed frame `ctrl ‖ info ‖ FCS_m(ctrl ‖ info)` (30_encoding.md R100). -/
def unstuffed (p : Params) (m : FcsMode) (c : Byte) (info : List Byte) : List Byte :=
  (c :: info) ++ fcs p m (c :: info)

/-- `build(c, info, m)`, the wire frame (30_encoding.md R101, 40_framecodec.md R143). -/
def build (p : Params) (m : FcsMode) (c : Byte) (info : List Byte) : List Byte :=
  [delim] ++ stuff (unstuffed p m c info) ++ [delim]

end Sys2Proof.Machine
end

