-- ==== Sys2Proof/Machine/Operands.lean ====
section
/-! DEFINITION. Operand forms: the BUF and LEN fields of a command (30_encoding.md R112), the byte lanes of a host
transaction (20_memory.md R74), and the encodings of enumerated register fields (10_state.md R28, R34, R40). -/

namespace Sys2Proof.Machine

/-- `b = zext(CMD[15:8])`, a buffer index (30_encoding.md R112). -/
def bufOperand (buf : BitVec 8) : Nat := buf.toNat

/-- Bytes moved by a transaction of size code 0, 1 or 2 (20_memory.md R73); code 3 is refused before this is used. -/
def busBytes (size : BitVec 2) : Nat := 2 ^ size.toNat

/-- Lanes 0 to n − 1 of a bus word, lowest address first (20_memory.md R74). -/
def lanes : Nat → Word → List Byte
  | 0, _ => []
  | n + 1, v => v.extractLsb' 0 8 :: lanes n (v >>> 8)

/-- The bus word whose lanes are these bytes, the other lanes 0 (20_memory.md R74). -/
def laneWord : List Byte → Word
  | [] => 0
  | b :: s => (laneWord s <<< 8) ||| b.setWidth 32

/-- FCS_MODE from its two bits (00_scope.md R16). -/
def FcsMode.ofBits (v : BitVec 2) : FcsMode :=
  if v = 0 then .off else if v = 1 then .sum8 else if v = 2 then .crc16 else .crc32

/-- FCS_MODE's code (00_scope.md R16). -/
def FcsMode.code : FcsMode → BitVec 2
  | .off => 0
  | .sum8 => 1
  | .crc16 => 2
  | .crc32 => 3

/-- STATUS.CONN's code (10_state.md R34, R41). -/
def Conn.code : Conn → BitVec 2
  | .disconnected => 0
  | .connecting => 1
  | .connected => 2
  | .disconnecting => 3

/-- STATUS.RX_STATE's code (10_state.md R34). -/
def RxState.code : RxState → BitVec 2
  | .hunt => 0
  | .data => 1
  | .esc => 2

/-- BUF_STATE.STATE's code (10_state.md R40). -/
def BufState.code : BufState → BitVec 3
  | .free => 0
  | .app => 1
  | .pendTx => 2
  | .pendAck => 3
  | .delivered => 4

end Sys2Proof.Machine
end

