-- ==== Sys2Proof/Machine/Ops.lean ====
section
/-! DEFINITION. The shared operations over buffer memory, the pool, the slot file, EVENT and RESULT, and the
hardware reset. The block takes no exception and has no return from one (60_exceptions.md R360, R367, R368): the one
operation by which it reports a condition is `State.signal`, the `event(E)` of 00_scope.md R13. -/

namespace Sys2Proof.Machine

/-! ### Buffer memory -/

/-- The byte at an address; a byte that is not listed reads 0 (log 6). -/
def memRead : List Host.Cell → Nat → Byte
  | [], _ => 0
  | (b, w) :: m, a => if a = b then w else memRead m a

/-- Memory with the byte at `a` set to `v`, in the canonical form: addresses rising, no listed 0 (log 6). -/
def memWrite : List Host.Cell → Nat → Byte → List Host.Cell
  | [], a, v => if v = 0 then [] else [(a, v)]
  | (b, w) :: m, a, v =>
    if a < b then (if v = 0 then (b, w) :: m else (a, v) :: (b, w) :: m)
    else if a = b then (if v = 0 then m else (a, v) :: m)
    else (b, w) :: memWrite m a v

/-- The canonical form from address `lo` on: addresses strictly rising, every listed byte other than 0. -/
def Memory.wfFrom : Nat → List Host.Cell → Bool
  | _, [] => true
  | lo, (a, v) :: m => decide (lo ≤ a) && v != 0 && Memory.wfFrom (a + 1) m

/-- The canonical form of a memory (log 6). -/
def Memory.wf (m : List Host.Cell) : Bool := Memory.wfFrom 0 m

/-- `n` bytes from address `a` up. -/
def memReadBytes (m : List Host.Cell) (a : Nat) : Nat → List Byte
  | 0 => []
  | n + 1 => memRead m a :: memReadBytes m (a + 1) n

/-- Memory with bytes written from address `a` up. -/
def memWriteBytes (m : List Host.Cell) (a : Nat) : List Byte → List Host.Cell
  | [] => m
  | b :: s => memWriteBytes (memWrite m a b) (a + 1) s

/-- The host address of byte j of buffer i (20_memory.md R72). -/
def bufAddr (i j : Nat) : Nat := 0x10000 + 0x1000 * i + j

/-- `BufRead(i, j)` (00_scope.md R13): the byte `bmem[i][j]`. -/
def State.bufRead (s : State) (i j : Nat) : Byte := memRead s.bmem (bufAddr i j)

/-- `bmem[i][j .. j + n − 1]`. -/
def State.bufReadBytes (s : State) (i j n : Nat) : List Byte := memReadBytes s.bmem (bufAddr i j) n

/-- `bmem[i][j + k] <- bytes[k]` for every k. -/
def State.bufWriteBytes (s : State) (i j : Nat) (bytes : List Byte) : State :=
  { s with bmem := memWriteBytes s.bmem (bufAddr i j) bytes }

/-! ### EVENT and RESULT -/

/-- The bits of EVENT, in the order of 10_state.md R35. -/
inductive Event where
  | rxDelivered
  | windowFreed
  | poolFreed
  | connected
  | disconnected
  | linkFail
  | hsFail
  | peerReset
  | ownErr
  | cfgErr
  | busErr
  deriving DecidableEq, Repr

/-- The bit position of an event (10_state.md R35, 60_exceptions.md R363). -/
def Event.bit : Event → Nat
  | .rxDelivered => 0
  | .windowFreed => 1
  | .poolFreed => 2
  | .connected => 3
  | .disconnected => 4
  | .linkFail => 5
  | .hsFail => 6
  | .peerReset => 7
  | .ownErr => 8
  | .cfgErr => 9
  | .busErr => 10

/-- The EVENT word with only this event's bit set. -/
def Event.flag (e : Event) : BitVec 11 := BitVec.twoPow 11 e.bit

/-- `event(E)`: set the bit, which stays set (00_scope.md R13, 10_state.md R35). -/
def State.signal (s : State) (e : Event) : State := { s with event := s.event ||| e.flag }

/-- RESULT.CODE values (30_encoding.md R111). -/
inductive Code where
  | ok
  | none
  | windowFull
  | badState
  | badArg
  | badCmd
  deriving DecidableEq, Repr

/-- The number of a result code (30_encoding.md R111). -/
def Code.num : Code → BitVec 8
  | .ok => 0
  | .none => 1
  | .windowFull => 2
  | .badState => 3
  | .badArg => 4
  | .badCmd => 5

/-- `RESULT <- (len[15:0] << 16) | (buf[7:0] << 8) | code` (45_host_interface.md R332). -/
def resultWord (c : Code) (buf : BitVec 8) (len : BitVec 16) : Word := len ++ buf ++ c.num

/-- `result(code, buf, len)` (00_scope.md R13). -/
def State.setResult (s : State) (c : Code) (buf : BitVec 8) (len : BitVec 16) : State :=
  { s with result := resultWord c buf len }

/-! ### Pool -/

/-- Descriptor of buffer i; a buffer that does not exist has none and reads as FREE, length 0, which no rule uses
(log 12). -/
def State.desc (s : State) (i : Nat) : BufDesc := s.pool.getD i {}

/-- `bstate[i]` (10_state.md R48). -/
def State.bstate (s : State) (i : Nat) : BufState := (s.desc i).state

/-- `blen[i]` (10_state.md R48). -/
def State.blen (s : State) (i : Nat) : Half := (s.desc i).len

/-- Write the descriptor of buffer i; nothing changes if there is no such buffer. -/
def State.setDesc (s : State) (i : Nat) (d : BufDesc) : State := { s with pool := s.pool.set i d }

/-- `bstate[i] <- b`. -/
def State.setBstate (s : State) (i : Nat) (b : BufState) : State := s.setDesc i { s.desc i with state := b }

/-- The host holds buffer b: b < P_NBUF and bstate[b] = APP. -/
def State.hostOwns (s : State) (b : Nat) : Bool := decide (b < s.nbuf) && s.bstate b == .app

/-- `pool_acquire()`: the least index of a FREE buffer, if there is one (42_buffer_pool.md R201). -/
def State.poolAcquire (s : State) : Option Nat := s.pool.findIdx? fun d => d.state == .free

/-! ### Slot file -/

/-- `slot[q]` (10_state.md R43). -/
def State.slot (s : State) (q : SeqNum) : Slot := s.slots[q.toNat]'q.isLt

/-- `slot[q] <- v`. -/
def State.setSlot (s : State) (q : SeqNum) (v : Slot) : State :=
  { s with slots := s.slots.set q.toNat v q.isLt }

/-- The slot file whose slot q is `f q`. -/
def slotsOf (f : SeqNum → Slot) : Vector Slot 8 := #v[f 0, f 1, f 2, f 3, f 4, f 5, f 6, f 7]

/-- The q of least age (distance from `va`) that satisfies `p`, if there is one (10_state.md R53). -/
def oldest (va : SeqNum) (p : SeqNum → Bool) : Option SeqNum :=
  (SeqNum.all.map fun k => va + k).find? p

/-! ### Reset -/

/-- The reset action (70_reset_and_hazards.md R391): buffer memory is unchanged. The parameters and the environment
are not the block's state and stay (log 1, log 3). -/
def State.hardReset (s : State) : State := State.afterReset s.params s.nbuf s.bmem s.env

end Sys2Proof.Machine
end

