-- ==== Sys2Proof/Machine/Flags.lean ====
section
/-! DEFINITION. The derived functions of 10_state.md R53, the output pins of R21, and the register views that hold
no state of their own (R17). -/

namespace Sys2Proof.Machine

/-- `outstanding = vs −₈ va` (10_state.md R53). -/
def State.outstanding (s : State) : SeqNum := s.vs - s.va

/-- `WIN_OPEN` (10_state.md R53). -/
def State.winOpen (s : State) : Bool :=
  s.conn == .connected && decide (s.outstanding.toNat < s.cfg.window.toNat)

/-- `MAXFRAME = 1 + MTU + FCS_LEN(FCS_MODE)` (10_state.md R53). -/
def State.maxFrame (s : State) : Nat := 1 + s.cfg.mtu.toNat + s.cfg.fcsMode.fcsLen

/-- `nr_valid(nr)` (10_state.md R53). -/
def State.nrValid (s : State) (nr : SeqNum) : Bool := decide ((nr - s.va).toNat ≤ s.outstanding.toNat)

/-- `age(q) = q −₈ va` (10_state.md R53). -/
def State.age (s : State) (q : SeqNum) : SeqNum := q - s.va

/-- The FCS of the block's current mode (41_fcs.md R180). -/
def State.fcsNow (s : State) (body : List Byte) : List Byte := fcs s.params s.cfg.fcsMode body

/-- `irq_o` (10_state.md R36, 45_host_interface.md R337). -/
def State.irq (s : State) : Bool := (s.event &&& s.irqEn) != 0

/-- `tx_valid_o` (10_state.md R21). -/
def State.txValid (s : State) : Bool := s.enc.active

/-- `tx_data_o = enc.wire[enc.pos]` (10_state.md R21). Where the wire has no such byte, as after a reset, R21 gives no
value and the pin shows a free one. DESIGN CHOICE (log 16): no legal state hands such a byte over. -/
def State.txData (s : State) : Byte := s.enc.wire.getD s.enc.pos (Config.idleTxData s.env.sent.length)

/-- The number of FREE buffers (10_state.md R34). -/
def State.freeCount (s : State) : Nat := s.pool.countP fun d => d.state == .free

/-- `ID` (10_state.md R26). -/
def idWord : Word := 0x54504C45

/-- `PARAM` (10_state.md R27). -/
def State.paramWord (s : State) : Word := BitVec.ofNat 16 s.params.bufcap ++ 0#8 ++ BitVec.ofNat 8 s.nbuf

/-- `CFG` as read (45_host_interface.md R335): MAX_RETRIES, reserved, WINDOW, FCS_MODE. -/
def State.cfgWord (s : State) : Word := 0#16 ++ s.cfg.maxRetries ++ 0#3 ++ s.cfg.window ++ s.cfg.fcsMode.code

/-- `STATUS` (10_state.md R34), from bit 31 down. -/
def State.statusWord (s : State) : Word :=
  0#8 ++ BitVec.ofNat 8 s.rxq.length ++ BitVec.ofNat 8 s.freeCount ++ s.rx.state.code ++
    BitVec.ofBool s.enc.active ++ BitVec.ofBool (decide (0 < s.freeCount)) ++ BitVec.ofBool s.winOpen ++
    BitVec.ofBool (decide (0 < s.rxq.length)) ++ s.conn.code

/-- `SEQ` (10_state.md R39), from bit 31 down. -/
def State.seqWord (s : State) : Word :=
  0#3 ++ BitVec.ofBool s.discPending ++ BitVec.ofBool s.sabmPending ++ BitVec.ofBool s.uaPending ++
    BitVec.ofBool s.rejPending ++ BitVec.ofBool s.ackPending ++ s.retry ++ 0#1 ++ s.outstanding ++ 0#1 ++ s.va ++
    0#1 ++ s.vr ++ 0#1 ++ s.vs

/-- `BUF_STATE[i]` (10_state.md R40). -/
def State.bufStateWord (s : State) (i : Nat) : Word := s.blen i ++ 0#13 ++ (s.bstate i).code

end Sys2Proof.Machine
end

