-- ==== Sys2Proof/Machine/Arq.lean ====
section
/-! DEFINITION. Operations of the ARQ engine that several instructions share: slot retirement, flush, cumulative
acknowledgment, go-back-N, and the entries to CONNECTED and DISCONNECTED (43_arq_connection.md R231, R232, R234,
44_arq_data.md R283 to R285). -/

namespace Sys2Proof.Machine

/-- The encoder is sending an I-frame from buffer b (44_arq_data.md R284). -/
def State.sending (s : State) (b : Nat) : Bool := s.enc.active && s.enc.kind == .i && s.enc.buf == b

/-- Return a buffer to the pool: `bstate[b] <- FREE; event(POOL_FREED)` (42_buffer_pool.md R205). -/
def State.freeBuffer (s : State) (b : Nat) : State := (s.setBstate b .free).signal .poolFreed

/-- `retire(q)` (44_arq_data.md R284). -/
def State.retire (s : State) (q : SeqNum) : State :=
  let b := (s.slot q).buf
  let t := s.setSlot q {}
  if t.sending b then { t with enc := { t.enc with orphan := true } } else t.freeBuffer b

/-- `retire(q)` for each valid slot of a list, in order. -/
def State.retireValid (s : State) : List SeqNum → State
  | [] => s
  | q :: qs => State.retireValid (if (s.slot q).valid then s.retire q else s) qs

/-- `flush()` (43_arq_connection.md R234). -/
def State.flush (s : State) : State := s.retireValid SeqNum.all

/-- `n` rounds of `retire(va); va <- va +₈ 1` (44_arq_data.md R283). -/
def State.retireOldest (s : State) : Nat → State
  | 0 => s
  | n + 1 =>
    let t := s.retire s.va
    State.retireOldest { t with va := t.va + 1 } n

/-- `ack_process(nr)` (44_arq_data.md R283): the loop from `va` to `nr` makes `nr −₈ va` rounds. -/
def State.ackProcess (s : State) (nr : SeqNum) : State :=
  if s.va = nr then s
  else
    let t := s.retireOldest (nr - s.va).toNat
    State.signal { t with retry := 0 } .windowFreed

/-- Mark slot q for (re)transmission and reload its timer (44_arq_data.md R285). -/
def State.markForTx (s : State) (q : SeqNum) : State :=
  s.setSlot q { s.slot q with needsTx := true, timer := s.cfg.timeout }

/-- Mark `n` slots from q on. -/
def State.markFrom (s : State) (q : SeqNum) : Nat → State
  | 0 => s
  | n + 1 => State.markFrom (s.markForTx q) (q + 1) n

/-- `go_back_n(s)` (44_arq_data.md R285): the loop from `q` to `vs` makes `vs −₈ q` rounds. -/
def State.goBackN (s : State) (q : SeqNum) : State := s.markFrom q (s.vs - q).toNat

/-- What both entries write (43_arq_connection.md R231, R232), with the state they enter. -/
def State.restartLink (s : State) (c : Conn) : State :=
  { s with
    conn := c, vs := 0, vr := 0, va := 0, retry := 0, uTimer := 0, sabmPending := false, discPending := false,
    ackPending := false, ackTimer := 0, rejPending := false }

/-- `enter_connected()` (43_arq_connection.md R231). -/
def State.enterConnected (s : State) : State := (s.restartLink .connected).signal .connected

/-- `enter_disconnected()` (43_arq_connection.md R232). -/
def State.enterDisconnected (s : State) : State := (s.flush.restartLink .disconnected).signal .disconnected

end Sys2Proof.Machine
end

