-- ==== Sys2Proof/Machine/Encoder.lean ====
section
/-! DEFINITION. The transmit half of the FrameCodec: which frame is due, its load, the hand-off of its bytes and
its end (40_framecodec.md R140 to R146). -/

namespace Sys2Proof.Machine

/-- A frame that is due, an I-frame with its N(S) (40_framecodec.md R141). -/
inductive Due where
  | ua
  | sabm
  | disc
  | rej
  | i (q : SeqNum)
  | rr
  deriving DecidableEq, Repr

/-- The kind of a due frame (10_state.md R51). -/
def Due.kind : Due → FrameKind
  | .ua => .ua
  | .sabm => .sabm
  | .disc => .disc
  | .rej => .rej
  | .i _ => .i
  | .rr => .rr

/-- The slot holds a frame due for transmission (40_framecodec.md R141). -/
def Slot.due (v : Slot) : Bool := v.valid && v.needsTx

/-- The oldest slot needing transmission (40_framecodec.md R141). -/
def State.oldestDue (s : State) : Option SeqNum := oldest s.va fun q => (s.slot q).due

/-- The data part of `next_frame()`, in CONNECTED only: REJ, then the oldest I-frame, then RR (40_framecodec.md R141). -/
def State.nextDataFrame (s : State) : Option Due :=
  if s.rejPending then some .rej
  else
    match s.oldestDue with
    | some q => some (.i q)
    | none => if s.ackPending && s.ackTimer == 0 then some .rr else none

/-- `next_frame()` (40_framecodec.md R141). -/
def State.nextFrame (s : State) : Option Due :=
  if s.uaPending then some .ua
  else if s.conn = .connecting ∧ s.sabmPending then some .sabm
  else if s.conn = .disconnecting ∧ s.discPending then some .disc
  else if s.conn = .connected then s.nextDataFrame
  else none

/-- The control byte of a frame the block sends, with N(R) = V(R) (30_encoding.md R108). -/
def Due.ctrl (vr : SeqNum) : Due → Byte
  | .ua => 0x73
  | .sabm => 0x3F
  | .disc => 0x53
  | .rej => (vr.setWidth 8 <<< 5) ||| 0x09
  | .i q => (vr.setWidth 8 <<< 5) ||| (q.setWidth 8 <<< 1)
  | .rr => (vr.setWidth 8 <<< 5) ||| 0x01

/-- The payload of buffer b, `bmem[b][0 .. blen[b] − 1]` (40_framecodec.md R142). -/
def State.payload (s : State) (b : Nat) : List Byte := s.bufReadBytes b 0 (s.blen b).toNat

/-- The info field of a due frame (40_framecodec.md R142). -/
def State.infoOf (s : State) : Due → List Byte
  | .i q => s.payload (s.slot q).buf
  | .ua | .sabm | .disc | .rej | .rr => []

/-- The wire image of a due frame, fixed at its load (40_framecodec.md R142, R143). -/
def State.wireOf (s : State) (k : Due) : List Byte :=
  build s.params s.cfg.fcsMode (k.ctrl s.vr) (s.infoOf k)

/-- The frame-start effects of `load(k)` other than the encoder's (40_framecodec.md R142). -/
def State.startFrame (s : State) : Due → State
  | .ua => { s with uaPending := false }
  | .sabm => { s with sabmPending := false }
  | .disc => { s with discPending := false }
  | .rej => { s with rejPending := false, ackPending := false, ackTimer := 0 }
  | .i q => { s.setSlot q { s.slot q with needsTx := false } with ackPending := false, ackTimer := 0 }
  | .rr => { s with ackPending := false }

/-- The encoder with the due frame loaded; only an I-frame writes `seq` and `buf` (40_framecodec.md R142). -/
def State.loadedEncoder (s : State) (k : Due) : Encoder where
  active := true
  kind := k.kind
  seq := match k with
    | .i q => q
    | .ua | .sabm | .disc | .rej | .rr => s.enc.seq
  buf := match k with
    | .i q => (s.slot q).buf
    | .ua | .sabm | .disc | .rej | .rr => s.enc.buf
  orphan := false
  wire := s.wireOf k
  pos := 0

/-- `load(k)` (40_framecodec.md R142). -/
def State.load (s : State) (k : Due) : State := { s.startFrame k with enc := s.loadedEncoder k }

/-- `encoder_load()`, the last part of every step but `Reset` (40_framecodec.md R141, 10_state.md R22). -/
def State.encoderLoad (s : State) : State :=
  if s.enc.active then s
  else
    match s.nextFrame with
    | some k => s.load k
    | none => s

/-- `frame_end()` (40_framecodec.md R145). -/
def State.frameEnd (s : State) : State :=
  let t : State := { s with enc := { s.enc with active := false, pos := 0, orphan := false } }
  if s.enc.kind = .i then
    if s.enc.orphan then t.freeBuffer s.enc.buf
    else if s.bstate s.enc.buf = .pendTx then t.setBstate s.enc.buf .pendAck
    else t
  else t

/-- `emit(b)`: the byte is handed to the transport (00_scope.md R13, log 4). -/
def State.emit (s : State) (b : Byte) : State := { s with env := { s.env with sent := s.env.sent ++ [b] } }

/-- `TxByte()` up to its encoder load, when the encoder is active (40_framecodec.md R144). -/
def State.txByte (s : State) : State :=
  let t := s.emit s.txData
  let u : State := { t with enc := { t.enc with pos := t.enc.pos + 1 } }
  if u.enc.pos = u.enc.wire.length then u.frameEnd else u

end Sys2Proof.Machine
end

