-- ==== Sys2Proof/WellFormed.lean ====
section
/-! DEFINITION. Which instructions an encoding can hold: a reserved opcode is one the table reserves, a reserved
modifier is none of SABM, UA and DISC, and an info field fits the largest frame the block can accumulate. -/

namespace Sys2Proof

/-- The opcodes that 30_encoding.md R113 reserves: 0x07..0x0E and 0x10..0xFF. -/
def opReserved (op : BitVec 8) : Bool :=
  (decide (0x07 ≤ op.toNat) && decide (op.toNat ≤ 0x0E)) || decide (0x10 ≤ op.toNat)

/-- The modifiers M[4:0] of SABM (ctrl 0x2F), DISC (0x43) and UA (0x63) under mask 0xEF (30_encoding.md R105). -/
def modifierUsed (m : BitVec 5) : Bool :=
  m == 0b00111#5 || m == 0b01000#5 || m == 0b01100#5

/-- The longest info field: P_BUFCAP is at most 4096 (00_scope.md R7) and MTU at most P_BUFCAP (10_state.md R29). -/
def maxInfo : Nat := 4096

/-- An instruction that some encoding holds. -/
def Instr.wellFormed : Instr → Bool
  | .nop _ _ => true
  | .acquire _ _ => true
  | .release _ _ => true
  | .send _ _ => true
  | .read _ _ => true
  | .connect _ _ => true
  | .disconnect _ _ => true
  | .softReset _ _ => true
  | .reservedOpcode op _ _ => opReserved op
  | .iFrame _ _ _ info => decide (info.length ≤ maxInfo)
  | .rr _ _ info => decide (info.length ≤ maxInfo)
  | .rej _ _ info => decide (info.length ≤ maxInfo)
  | .sabm _ info => decide (info.length ≤ maxInfo)
  | .ua _ info => decide (info.length ≤ maxInfo)
  | .disc _ info => decide (info.length ≤ maxInfo)
  | .rnrReserved _ _ info => decide (info.length ≤ maxInfo)
  | .srejReserved _ _ info => decide (info.length ≤ maxInfo)
  | .uReserved m _ info => !modifierUsed m && decide (info.length ≤ maxInfo)

end Sys2Proof
end

