-- ==== Sys2Proof/Decode.lean ====
section
/-! DEFINITION. The decoder and the encoder. A CMD word is decoded by its OP field (30_encoding.md R110, R112), a
frame body by its control byte (R107). The encoder is written from the format tables of R104 and R110 instead, so
that the two can be proved to agree. -/

namespace Sys2Proof

/-- The two places an instruction comes from (00_scope.md R2): the CMD register, or the receiver. -/
inductive Source where
  /-- A 32-bit word written to CMD (10_state.md R32). -/
  | command
  /-- The body `ctrl ‖ info` of a received frame (30_encoding.md R100). -/
  | frame
  deriving DecidableEq, Repr

/-- Why bytes hold no instruction. -/
inductive DecodeError where
  /-- A CMD word is exactly four bytes (20_memory.md R75). Safe: no such write executes a command. -/
  | commandNotFourBytes
  /-- A frame body holds at least its control byte (40_framecodec.md R155). Safe: such a frame is discarded. -/
  | frameHasNoControlByte
  deriving DecidableEq, Repr

/-- The CMD word's instruction, by OP = bits 7..0 (30_encoding.md R110, R113). -/
def decodeCommand (w : Word) : Instr :=
  let op : BitVec 8 := w.extractLsb' 0 8
  let buf : BitVec 8 := w.extractLsb' 8 8
  let len : BitVec 16 := w.extractLsb' 16 16
  if op = 0x00 then .nop buf len
  else if op = 0x01 then .acquire buf len
  else if op = 0x02 then .release buf len
  else if op = 0x03 then .send buf len
  else if op = 0x04 then .read buf len
  else if op = 0x05 then .connect buf len
  else if op = 0x06 then .disconnect buf len
  else if op = 0x0F then .softReset buf len
  else .reservedOpcode op buf len

/-- `classify` of 30_encoding.md R107, total on the 256 control bytes; the reserved bytes are told apart by R106
(log 14). -/
def classify (c : Byte) (info : List Byte) : Instr :=
  let nr : SeqNum := c.extractLsb' 5 3
  let pf : Bool := c.getLsbD 4
  if c &&& 0x01 = 0x00 then .iFrame (c.extractLsb' 1 3) nr pf info
  else if c &&& 0x0F = 0x01 then .rr nr pf info
  else if c &&& 0x0F = 0x09 then .rej nr pf info
  else if c &&& 0xEF = 0x2F then .sabm pf info
  else if c &&& 0xEF = 0x43 then .disc pf info
  else if c &&& 0xEF = 0x63 then .ua pf info
  else if c &&& 0x0F = 0x05 then .rnrReserved nr pf info
  else if c &&& 0x0F = 0x0D then .srejReserved nr pf info
  else .uReserved (c.extractLsb' 5 3 ++ c.extractLsb' 2 2) pf info

/-- The instruction of a string of bytes, or why there is none: a CMD word lowest-addressed byte first
(20_memory.md R74), a frame body first byte first (30_encoding.md R103). -/
def decode : Source → List Byte → Except DecodeError Instr
  | .command, [b0, b1, b2, b3] => .ok (decodeCommand (b3 ++ b2 ++ b1 ++ b0))
  | .command, _ => .error .commandNotFourBytes
  | .frame, [] => .error .frameHasNoControlByte
  | .frame, c :: info => .ok (classify c info)

/-- A CMD word: LEN, BUF, OP from bit 31 down (30_encoding.md R110). -/
def commandWord (op buf : BitVec 8) (len : BitVec 16) : Word := len ++ buf ++ op

/-- An I control byte: N(R), P/F, N(S), 0 from bit 7 down (30_encoding.md R104). -/
def ctrlI (nr ns : SeqNum) (pf : Bool) : Byte := nr ++ BitVec.ofBool pf ++ ns ++ 0#1

/-- An S control byte: N(R), P/F, SS, 01 from bit 7 down (30_encoding.md R104). -/
def ctrlS (nr : SeqNum) (pf : Bool) (ss : BitVec 2) : Byte := nr ++ BitVec.ofBool pf ++ ss ++ 0b01#2

/-- A U control byte: M[4:2], P/F, M[1:0], 11 from bit 7 down (30_encoding.md R104). -/
def ctrlU (m : BitVec 5) (pf : Bool) : Byte :=
  (m.extractLsb' 2 3 : BitVec 3) ++ BitVec.ofBool pf ++ (m.extractLsb' 0 2 : BitVec 2) ++ 0b11#2

/-- Where an instruction comes from. -/
def Instr.source : Instr → Source
  | .nop _ _ | .acquire _ _ | .release _ _ | .send _ _ | .read _ _ | .connect _ _ | .disconnect _ _
  | .softReset _ _ | .reservedOpcode _ _ _ => .command
  | .iFrame _ _ _ _ | .rr _ _ _ | .rej _ _ _ | .sabm _ _ | .ua _ _ | .disc _ _ | .rnrReserved _ _ _
  | .srejReserved _ _ _ | .uReserved _ _ _ => .frame

/-- The bytes of a CMD word, lowest-addressed first (20_memory.md R74). -/
def wordBytes (w : Word) : List Byte :=
  [w.extractLsb' 0 8, w.extractLsb' 8 8, w.extractLsb' 16 8, w.extractLsb' 24 8]

/-- The bytes that stand for an instruction at its source (30_encoding.md R104, R105, R110). -/
def encode : Instr → List Byte
  | .nop buf len => wordBytes (commandWord 0x00 buf len)
  | .acquire buf len => wordBytes (commandWord 0x01 buf len)
  | .release buf len => wordBytes (commandWord 0x02 buf len)
  | .send buf len => wordBytes (commandWord 0x03 buf len)
  | .read buf len => wordBytes (commandWord 0x04 buf len)
  | .connect buf len => wordBytes (commandWord 0x05 buf len)
  | .disconnect buf len => wordBytes (commandWord 0x06 buf len)
  | .softReset buf len => wordBytes (commandWord 0x0F buf len)
  | .reservedOpcode op buf len => wordBytes (commandWord op buf len)
  | .iFrame ns nr pf info => ctrlI nr ns pf :: info
  | .rr nr pf info => ctrlS nr pf 0b00 :: info
  | .rej nr pf info => ctrlS nr pf 0b10 :: info
  | .sabm pf info => ctrlU 0b00111 pf :: info
  | .ua pf info => ctrlU 0b01100 pf :: info
  | .disc pf info => ctrlU 0b01000 pf :: info
  | .rnrReserved nr pf info => ctrlS nr pf 0b01 :: info
  | .srejReserved nr pf info => ctrlS nr pf 0b11 :: info
  | .uReserved m pf info => ctrlU m pf :: info

/-- The instruction the decoder reads from a word of spec/opcode_table.json: 32 bits are a CMD word, 8 bits the
control byte of a frame with an empty info field (log 8). -/
def decodeTableWord (nbits w : Nat) : Option Instr :=
  if nbits = 32 then (decode .command (wordBytes (BitVec.ofNat 32 w))).toOption
  else if nbits = 8 then (decode .frame [BitVec.ofNat 8 w]).toOption
  else none

end Sys2Proof
end

