-- ==== Sys2Proof/Machine/Connection.lean ====
section
/-! DEFINITION. Connection management: CONNECT, DISCONNECT, and the received SABM, UA and DISC frames
(43_arq_connection.md). A U-frame with an info field is discarded (44_arq_data.md R289). -/

namespace Sys2Proof.Machine

/-- CONNECT (43_arq_connection.md R230). -/
def execConnect (_buf : BitVec 8) (_len : BitVec 16) (s : State) : Host.Outcome State Fault Refusal :=
  if s.conn = .disconnected then
    .next (State.setResult
      { s with
        conn := .connecting, vs := 0, vr := 0, va := 0, retry := 0, sabmPending := true, uTimer := s.cfg.timeout }
      .ok 0 0)
  else .next (s.setResult .badState 0 0)

/-- The state changes of an accepted DISCONNECT (43_arq_connection.md R233). -/
def State.startDisconnect (s : State) : State :=
  let t := s.flush
  { t with
    conn := .disconnecting, retry := 0, sabmPending := false, ackPending := false, ackTimer := 0,
    rejPending := false, discPending := true, uTimer := t.cfg.timeout }

/-- DISCONNECT (43_arq_connection.md R233). -/
def execDisconnect (_buf : BitVec 8) (_len : BitVec 16) (s : State) : Host.Outcome State Fault Refusal :=
  if s.conn = .connected ∨ s.conn = .connecting then .next (s.startDisconnect.setResult .ok 0 0)
  else .next (s.setResult .badState 0 0)

/-- `rx_SABM()` (43_arq_connection.md R235). -/
def State.rxSabm (s : State) : State :=
  match s.conn with
  | .disconnected => State.enterConnected { s with uaPending := true }
  | .connecting => State.enterConnected { s with uaPending := true }
  | .connected => (State.enterConnected { s.flush with uaPending := true }).signal .peerReset
  | .disconnecting => s

/-- A received SABM (43_arq_connection.md R235, 44_arq_data.md R289). -/
def execSabm (_pf : Bool) (info : List Byte) (s : State) : Host.Outcome State Fault Refusal :=
  if info = [] then .next s.rxSabm else .next s

/-- `rx_UA()` (43_arq_connection.md R236). -/
def State.rxUa (s : State) : State :=
  match s.conn with
  | .connecting => s.enterConnected
  | .disconnecting => s.enterDisconnected
  | .disconnected => s
  | .connected => s

/-- A received UA (43_arq_connection.md R236, 44_arq_data.md R289). -/
def execUa (_pf : Bool) (info : List Byte) (s : State) : Host.Outcome State Fault Refusal :=
  if info = [] then .next s.rxUa else .next s

/-- `rx_DISC()` (43_arq_connection.md R237). -/
def State.rxDisc (s : State) : State :=
  let t : State := { s with uaPending := true }
  match s.conn with
  | .disconnected => t
  | .connecting => t.enterDisconnected.signal .hsFail
  | .connected => t.enterDisconnected
  | .disconnecting => t.enterDisconnected

/-- A received DISC (43_arq_connection.md R237, 44_arq_data.md R289). -/
def execDisc (_pf : Bool) (info : List Byte) (s : State) : Host.Outcome State Fault Refusal :=
  if info = [] then .next s.rxDisc else .next s

end Sys2Proof.Machine
end

