-- ==== Sys2Proof/Machine/Control.lean ====
section
/-! DEFINITION. The commands of 45_host_interface.md: NOP (R333), SOFT_RESET (R334), and a reserved opcode
(30_encoding.md R113). -/

namespace Sys2Proof.Machine

/-- NOP (45_host_interface.md R333). -/
def execNop (_buf : BitVec 8) (_len : BitVec 16) (s : State) : Host.Outcome State Fault Refusal :=
  .next (s.setResult .ok 0 0)

/-- What SOFT_RESET resets: everything of R17 but the configuration, IRQ_EN and buffer memory
(45_host_interface.md R334). -/
def State.softReset (s : State) : State :=
  { s.hardReset with cfg := s.cfg, irqEn := s.irqEn }

/-- SOFT_RESET (45_host_interface.md R334). -/
def execSoftReset (_buf : BitVec 8) (_len : BitVec 16) (s : State) : Host.Outcome State Fault Refusal :=
  .next (s.softReset.setResult .ok 0 0)

/-- A reserved opcode changes nothing but RESULT (30_encoding.md R113). -/
def execReservedOpcode (_op : BitVec 8) (_buf : BitVec 8) (_len : BitVec 16) (s : State) :
    Host.Outcome State Fault Refusal :=
  .next (s.setResult .badCmd 0 0)

end Sys2Proof.Machine
end

