-- ==== Sys2Proof/Machine/Data.lean ====
section
/-! DEFINITION. Data transfer: SEND and the received I, RR and REJ frames (44_arq_data.md). An RR or REJ with an
info field is discarded (R289). -/

namespace Sys2Proof.Machine

/-- The state changes of an accepted SEND (44_arq_data.md R270). -/
def State.enqueue (s : State) (b : Nat) (n : Half) : State :=
  let t := s.setSlot s.vs { valid := true, buf := b, needsTx := true, timer := s.cfg.timeout }
  let u := t.setDesc b { state := .pendTx, len := n }
  { u with vs := u.vs + 1 }

/-- SEND (44_arq_data.md R270). -/
def execSend (buf : BitVec 8) (len : BitVec 16) (s : State) : Host.Outcome State Fault Refusal :=
  if s.hostOwns (bufOperand buf) = false ∨ s.cfg.mtu.toNat < len.toNat then .next (s.setResult .badArg buf len)
  else if s.conn ≠ .connected then .next (s.setResult .badState buf len)
  else if s.cfg.window.toNat ≤ s.outstanding.toNat then .next (s.setResult .windowFull buf len)
  else .next ((s.enqueue (bufOperand buf) len).setResult .ok buf len)

/-- The state changes of a delivery into buffer b (44_arq_data.md R281). -/
def State.deliverTo (s : State) (b : Nat) (info : List Byte) : State :=
  let t := s.bufWriteBytes b 0 info
  let u := t.setDesc b { state := .delivered, len := BitVec.ofNat 16 info.length }
  let w := State.signal { u with rxq := u.rxq ++ [b], vr := u.vr + 1 } .rxDelivered
  if w.ackPending then w else { w with ackPending := true, ackTimer := w.cfg.ackDelay }

/-- `deliver(info)` (44_arq_data.md R281, R282). -/
def State.deliver (s : State) (info : List Byte) : State :=
  match s.poolAcquire with
  | none => { s with cntLost := s.cntLost + 1 }
  | some b => s.deliverTo b info

/-- `rx_I(ns, nr, info)` (44_arq_data.md R280). -/
def State.rxI (s : State) (ns nr : SeqNum) (info : List Byte) : State :=
  if s.conn ≠ .connected then s
  else if s.nrValid nr = false then s
  else
    let t := s.ackProcess nr
    if ns ≠ t.vr then { t with rejPending := true } else t.deliver info

/-- A received I-frame (44_arq_data.md R280, R289). -/
def execIFrame (ns nr : SeqNum) (_pf : Bool) (info : List Byte) (s : State) : Host.Outcome State Fault Refusal :=
  .next (s.rxI ns nr info)

/-- `rx_RR(nr)` (44_arq_data.md R287). -/
def State.rxRr (s : State) (nr : SeqNum) : State :=
  if s.conn ≠ .connected ∨ s.nrValid nr = false then s else s.ackProcess nr

/-- A received RR (44_arq_data.md R287, R289). -/
def execRr (nr : SeqNum) (_pf : Bool) (info : List Byte) (s : State) : Host.Outcome State Fault Refusal :=
  if info = [] then .next (s.rxRr nr) else .next s

/-- `rx_REJ(nr)` (44_arq_data.md R288). -/
def State.rxRej (s : State) (nr : SeqNum) : State :=
  if s.conn ≠ .connected ∨ s.nrValid nr = false then s
  else
    let t := s.ackProcess nr
    t.goBackN t.va

/-- A received REJ (44_arq_data.md R288, R289). -/
def execRej (nr : SeqNum) (_pf : Bool) (info : List Byte) (s : State) : Host.Outcome State Fault Refusal :=
  if info = [] then .next (s.rxRej nr) else .next s

end Sys2Proof.Machine
end

