-- ==== Sys2Proof/Machine/Pool.lean ====
section
/-! DEFINITION. The commands of the FrameBufferPool: ACQUIRE, RELEASE, READ (42_buffer_pool.md R200 to R203). -/

namespace Sys2Proof.Machine

/-- ACQUIRE (42_buffer_pool.md R200). -/
def execAcquire (_buf : BitVec 8) (_len : BitVec 16) (s : State) : Host.Outcome State Fault Refusal :=
  match s.poolAcquire with
  | none => .next (s.setResult .none 0 0)
  | some b => .next ((s.setDesc b { state := .app, len := 0 }).setResult .ok (BitVec.ofNat 8 b) 0)

/-- RELEASE (42_buffer_pool.md R202). -/
def execRelease (buf : BitVec 8) (_len : BitVec 16) (s : State) : Host.Outcome State Fault Refusal :=
  if s.hostOwns (bufOperand buf) then .next ((s.freeBuffer (bufOperand buf)).setResult .ok buf 0)
  else .next (s.setResult .badArg buf 0)

/-- READ (42_buffer_pool.md R203). -/
def execRead (_buf : BitVec 8) (_len : BitVec 16) (s : State) : Host.Outcome State Fault Refusal :=
  match s.rxq with
  | [] => .next (s.setResult .none 0 0)
  | b :: q =>
    .next ((State.setBstate { s with rxq := q } b .app).setResult .ok (BitVec.ofNat 8 b) (s.blen b))

end Sys2Proof.Machine
end

