-- ==== Sys2Proof/Machine/Reserved.lean ====
section
/-! DEFINITION. Received frames with a reserved control byte: discarded with no effect at all
(30_encoding.md R106, 44_arq_data.md R289). -/

namespace Sys2Proof.Machine

/-- A received S-frame with SS = 01 (30_encoding.md R106). -/
def execRnrReserved (_nr : SeqNum) (_pf : Bool) (_info : List Byte) (s : State) : Host.Outcome State Fault Refusal :=
  .next s

/-- A received S-frame with SS = 11 (30_encoding.md R106). -/
def execSrejReserved (_nr : SeqNum) (_pf : Bool) (_info : List Byte) (s : State) : Host.Outcome State Fault Refusal :=
  .next s

/-- A received U-frame with any other modifier (30_encoding.md R106). -/
def execUReserved (_m : BitVec 5) (_pf : Bool) (_info : List Byte) (s : State) : Host.Outcome State Fault Refusal :=
  .next s

end Sys2Proof.Machine
end

