-- ==== Sys2Proof/Machine/Dispatch.lean ====
section
/-! DEFINITION. The effect of each instruction: a command is executed in the step of its CMD write
(45_host_interface.md R332), a frame in the step of its closing DELIM (44_arq_data.md R289). -/

namespace Sys2Proof.Machine

def exec (i : Instr) (s : State) : Host.Outcome State Fault Refusal :=
  match i with
  -- 45_host_interface.md
  | .nop buf len => Sys2Proof.Machine.execNop buf len s
  -- 42_buffer_pool.md
  | .acquire buf len => Sys2Proof.Machine.execAcquire buf len s
  | .release buf len => Sys2Proof.Machine.execRelease buf len s
  -- 44_arq_data.md
  | .send buf len => Sys2Proof.Machine.execSend buf len s
  | .read buf len => Sys2Proof.Machine.execRead buf len s
  -- 43_arq_connection.md
  | .connect buf len => Sys2Proof.Machine.execConnect buf len s
  | .disconnect buf len => Sys2Proof.Machine.execDisconnect buf len s
  | .softReset buf len => Sys2Proof.Machine.execSoftReset buf len s
  | .reservedOpcode op buf len => Sys2Proof.Machine.execReservedOpcode op buf len s
  -- received frames
  | .iFrame ns nr pf info => Sys2Proof.Machine.execIFrame ns nr pf info s
  | .rr nr pf info => Sys2Proof.Machine.execRr nr pf info s
  | .rej nr pf info => Sys2Proof.Machine.execRej nr pf info s
  | .sabm pf info => Sys2Proof.Machine.execSabm pf info s
  | .ua pf info => Sys2Proof.Machine.execUa pf info s
  | .disc pf info => Sys2Proof.Machine.execDisc pf info s
  | .rnrReserved nr pf info => Sys2Proof.Machine.execRnrReserved nr pf info s
  | .srejReserved nr pf info => Sys2Proof.Machine.execSrejReserved nr pf info s
  | .uReserved m pf info => Sys2Proof.Machine.execUReserved m pf info s

end Sys2Proof.Machine
end

