-- ==== Sys2Proof/Machine/HostBus.lean ====
section
/-! DEFINITION. Host bus transactions: address decode and checks, register reads and writes, the buffer window
(20_memory.md, 45_host_interface.md R330 to R336). -/

namespace Sys2Proof.Machine

/-- Carry on after a step's first part if it answered a next state. -/
def andThen (o : Host.Outcome State Fault Refusal) (f : State → State) : Host.Outcome State Fault Refusal :=
  match o with
  | .next s => .next (f s)
  | .fault r => .fault r
  | .refused r => .refused r

/-- The host-visible registers (10_state.md R23). -/
inductive Reg where
  | id
  | param
  | cfg
  | cfgMtu
  | cfgTimeout
  | cfgAckDelay
  | cmd
  | result
  | status
  | event
  | irqEn
  | cntLost
  | cntOversize
  | seq
  | bufState (i : Nat)
  deriving DecidableEq, Repr

/-- The register at a 4-byte aligned address below 0x200, or none where the address is reserved
(10_state.md R23, R25, 45_host_interface.md R330). -/
def regAt (nbuf a : Nat) : Option Reg :=
  if a = 0x000 then some .id
  else if a = 0x004 then some .param
  else if a = 0x008 then some .cfg
  else if a = 0x00C then some .cfgMtu
  else if a = 0x010 then some .cfgTimeout
  else if a = 0x014 then some .cfgAckDelay
  else if a = 0x018 then some .cmd
  else if a = 0x01C then some .result
  else if a = 0x020 then some .status
  else if a = 0x024 then some .event
  else if a = 0x028 then some .irqEn
  else if a = 0x02C then some .cntLost
  else if a = 0x030 then some .cntOversize
  else if a = 0x034 then some .seq
  else if 0x100 ≤ a ∧ a < 0x200 ∧ (a - 0x100) / 4 < nbuf then some (.bufState ((a - 0x100) / 4))
  else none

/-- What a transaction reaches after its checks. -/
inductive Target where
  /-- A register. -/
  | reg (r : Reg)
  /-- Bytes j to j + n − 1 of buffer i. -/
  | window (i j n : Nat)
  /-- Nothing: the transaction only reports this error. -/
  | error (e : Event)
  deriving DecidableEq, Repr

/-- The buffer part of the address decode (20_memory.md R72, R77). -/
def State.windowTarget (s : State) (a n : Nat) : Target :=
  let i := (a - 0x10000) / 0x1000
  let j := a % 0x1000
  if s.nbuf ≤ i ∨ s.params.bufcap < j + n then .error .busErr
  else if s.bstate i = .app then .window i j n
  else .error .ownErr

/-- The register part of the address decode (20_memory.md R75, R76). -/
def State.regTarget (s : State) (a n : Nat) : Target :=
  if n = 4 then
    match regAt s.nbuf a with
    | some r => .reg r
    | none => .error .busErr
  else .error .busErr

/-- The checks of a transaction, in the order of 60_exceptions.md R366 (45_host_interface.md R330, R331). -/
def State.target (s : State) (addr : BitVec 20) (size : BitVec 2) : Target :=
  if size = 3 then .error .busErr
  else if addr.toNat % busBytes size ≠ 0 then .error .busErr
  else if addr.toNat < 0x200 then s.regTarget addr.toNat (busBytes size)
  else if 0x10000 ≤ addr.toNat ∧ addr.toNat < 0x50000 then s.windowTarget addr.toNat (busBytes size)
  else .error .busErr

/-- The value of a register as read (45_host_interface.md R335). -/
def State.regValue (s : State) : Reg → Word
  | .id => idWord
  | .param => s.paramWord
  | .cfg => s.cfgWord
  | .cfgMtu => s.cfg.mtu.setWidth 32
  | .cfgTimeout => s.cfg.timeout.setWidth 32
  | .cfgAckDelay => s.cfg.ackDelay.setWidth 32
  | .cmd => 0
  | .result => s.result
  | .status => s.statusWord
  | .event => s.event.setWidth 32
  | .irqEn => s.irqEn.setWidth 32
  | .cntLost => s.cntLost
  | .cntOversize => s.cntOversize
  | .seq => s.seqWord
  | .bufState i => s.bufStateWord i

/-- The side effect of reading a register: EVENT clears the bits it returns, every other register has none
(45_host_interface.md R335, 20_memory.md R81). -/
def State.afterRegRead (s : State) : Reg → State
  | .event => { s with event := 0 }
  | .id | .param | .cfg | .cfgMtu | .cfgTimeout | .cfgAckDelay | .cmd | .result | .status | .irqEn | .cntLost
  | .cntOversize | .seq | .bufState _ => s

/-- The data of a read transaction (45_host_interface.md R330). -/
def State.readValue (s : State) (addr : BitVec 20) (size : BitVec 2) : Word :=
  match s.target addr size with
  | .reg r => s.regValue r
  | .window i j n => laneWord (s.bufReadBytes i j n)
  | .error _ => 0

/-- The state after a read transaction, but for its encoder load (45_host_interface.md R330). -/
def State.afterRead (s : State) (addr : BitVec 20) (size : BitVec 2) : State :=
  match s.target addr size with
  | .reg r => s.afterRegRead r
  | .window _ _ _ => s
  | .error e => s.signal e

/-- `HostRead(a, s) -> data` but for its encoder load; the data goes to the environment (R330, log 4). -/
def State.hostRead (s : State) (addr : BitVec 20) (size : BitVec 2) : State :=
  let t := s.afterRead addr size
  { t with env := { t.env with reads := t.env.reads ++ [s.readValue addr size] } }

/-- A write of a locked register: dropped, with CFG_ERR, unless DISCONNECTED (10_state.md R24, R336). -/
def State.lockedWrite (s : State) (cfg : CfgRegs) : State :=
  if s.conn = .disconnected then { s with cfg := cfg } else s.signal .cfgErr

/-- WINDOW as stored (10_state.md R28). -/
def legalWindow (v : BitVec 3) : BitVec 3 := if v = 0 then 1 else v

/-- MTU as stored (10_state.md R29). -/
def legalMtu (bufcap : Nat) (v : Half) : Half :=
  if v = 0 then 1 else BitVec.ofNat 16 (min v.toNat bufcap)

/-- TIMEOUT as stored (10_state.md R30). -/
def legalTimeout (v : Half) : Half := if v = 0 then 1 else v

/-- `execute(w)` (45_host_interface.md R332). -/
def State.execute (s : State) (w : Word) : Host.Outcome State Fault Refusal := exec (decodeCommand w) s

/-- `reg_write` (45_host_interface.md R336). -/
def State.regWrite (s : State) (r : Reg) (v : Word) : Host.Outcome State Fault Refusal :=
  match r with
  | .cfg => .next (s.lockedWrite { s.cfg with
      fcsMode := FcsMode.ofBits (v.extractLsb' 0 2)
      window := legalWindow (v.extractLsb' 2 3)
      maxRetries := v.extractLsb' 8 8 })
  | .cfgMtu => .next (s.lockedWrite { s.cfg with mtu := legalMtu s.params.bufcap (v.extractLsb' 0 16) })
  | .cfgTimeout => .next (s.lockedWrite { s.cfg with timeout := legalTimeout (v.extractLsb' 0 16) })
  | .cfgAckDelay => .next (s.lockedWrite { s.cfg with ackDelay := v.extractLsb' 0 16 })
  | .cmd => s.execute v
  | .irqEn => .next { s with irqEn := v.extractLsb' 0 11 }
  | .cntLost => .next { s with cntLost := 0 }
  | .cntOversize => .next { s with cntOversize := 0 }
  | .id | .param | .result | .status | .event | .seq | .bufState _ => .next s

/-- `HostWrite(a, s, v)` but for its encoder load (45_host_interface.md R331). -/
def State.hostWrite (s : State) (addr : BitVec 20) (size : BitVec 2) (v : Word) :
    Host.Outcome State Fault Refusal :=
  match s.target addr size with
  | .reg r => s.regWrite r v
  | .window i j n => .next (s.bufWriteBytes i j (lanes n v))
  | .error e => .next (s.signal e)

end Sys2Proof.Machine
end

