-- ==== Sys2Proof/Machine/Receiver.lean ====
section
/-! DEFINITION. The receive half of the FrameCodec: de-stuffer, delimiter, size bound, FCS check, and the dispatch
of a good frame (40_framecodec.md R150 to R155, 44_arq_data.md R289). -/

namespace Sys2Proof.Machine

/-- Count an oversize frame (10_state.md R38). -/
def State.countOversize (s : State) : State := { s with cntOversize := s.cntOversize + 1 }

/-- `append(x)` (40_framecodec.md R154). -/
def State.append (s : State) (x : Byte) : State :=
  if s.maxFrame ≤ s.rx.acc.length then { s.countOversize with rx := { state := .hunt, acc := [] } }
  else { s with rx := { s.rx with acc := s.rx.acc ++ [x] } }

/-- `receive_frame(c, info)` for the body `c ‖ info` (44_arq_data.md R289); a body has at least its control byte. -/
def State.receiveFrame (s : State) (body : List Byte) : Host.Outcome State Fault Refusal :=
  match decode .frame body with
  | .ok i => exec i s
  | .error _ => .next s

/-- `complete(acc)` (40_framecodec.md R155). -/
def State.complete (s : State) (acc : List Byte) : Host.Outcome State Fault Refusal :=
  let n := s.cfg.fcsMode.fcsLen
  let body := acc.take (acc.length - n)
  if s.maxFrame < acc.length then .next s.countOversize
  else if acc.length < 1 + n then .next s
  else if s.fcsNow body ≠ acc.drop (acc.length - n) then .next s
  else s.receiveFrame body

/-- The de-stuffer ready for a new frame. -/
def State.openFrame (s : State) : State := { s with rx := { state := .data, acc := [] } }

/-- `RxByte(b)` up to its encoder load (40_framecodec.md R150 to R153). -/
def State.rxByte (s : State) (b : Byte) : Host.Outcome State Fault Refusal :=
  match s.rx.state with
  | .hunt => if b = delim then .next s.openFrame else .next s
  | .data =>
    if b = delim then
      andThen (if s.rx.acc = [] then .next s else s.complete s.rx.acc)
        fun t => { t with rx := { t.rx with acc := [] } }
    else if b = esc then .next { s with rx := { s.rx with state := .esc } }
    else .next (s.append b)
  | .esc =>
    if b = delim then .next s.openFrame
    else .next (State.append { s with rx := { s.rx with state := .data } } (b ^^^ mask))

end Sys2Proof.Machine
end

