-- ==== Sys2Proof/Machine/Timers.lean ====
section
/-! DEFINITION. The Tick step and the two expiries (44_arq_data.md R286, R292, R293, 43_arq_connection.md R239). -/

namespace Sys2Proof.Machine

/-- One tick of a down-counter, which stops at 0 (44_arq_data.md R292, R297). -/
def tickDown (t : Half) : Half := if t = 0 then 0 else t - 1

/-- `u_expire()` (43_arq_connection.md R239). -/
def State.uExpire (s : State) : State :=
  if s.retry = s.cfg.maxRetries then
    if s.conn = .connecting then s.enterDisconnected.signal .hsFail else s.enterDisconnected
  else
    let t : State := { s with retry := s.retry + 1, uTimer := s.cfg.timeout }
    if s.conn = .connecting then { t with sabmPending := true } else { t with discPending := true }

/-- `slot_expire(s)` (44_arq_data.md R286). -/
def State.slotExpire (s : State) (q : SeqNum) : State :=
  if s.retry = s.cfg.maxRetries then s.enterDisconnected.signal .linkFail
  else State.goBackN { s with retry := s.retry + 1 } q

/-- Every running timer counts one tick (44_arq_data.md R292). -/
def State.countTick (s : State) : State :=
  { s with
    uTimer := tickDown s.uTimer
    ackTimer := tickDown s.ackTimer
    slots := slotsOf fun q => { s.slot q with timer := tickDown (s.slot q).timer } }

/-- The slot's timer is about to expire: q ∈ E of 44_arq_data.md R292. -/
def Slot.expiring (v : Slot) : Bool := v.valid && v.timer == 1

/-- `Tick()` up to its encoder load (44_arq_data.md R292). -/
def State.tick (s : State) : State :=
  let t := s.countTick
  let u := if s.uTimer = 1 ∧ (t.conn = .connecting ∨ t.conn = .disconnecting) then t.uExpire else t
  match oldest u.va fun q => (s.slot q).expiring with
  | some q => if u.conn = .connected then u.slotExpire q else u
  | none => u

end Sys2Proof.Machine
end

