-- ==== Sys2Proof/Machine/Events.lean ====
section
/-! DEFINITION. One port event as one atomic step (00_scope.md R14, 10_state.md R22), and the events of one clock
cycle in their fixed order. -/

namespace Sys2Proof.Machine

/-- The effect of one port event, the encoder load included (10_state.md R22, 40_framecodec.md R141). -/
def State.handle (s : State) (e : PortEvent) : Host.Outcome State Fault Refusal :=
  match e with
  | .reset => .next s.hardReset
  | .hostRead addr size => .next (s.hostRead addr size).encoderLoad
  | .hostWrite addr size data => andThen (s.hostWrite addr size data) State.encoderLoad
  | .rxByte b => andThen (s.rxByte b) State.encoderLoad
  | .tick => .next s.tick.encoderLoad
  | .txReady => if s.enc.active then .next s.txByte.encoderLoad else .next s

/-- The environment's inbox without its oldest event. -/
def State.dropEvent (s : State) : State := { s with env := { s.env with inbox := s.env.inbox.tail } }

/-- The environment's inbox with events put before the others. -/
def State.offerFirst (s : State) (es : List PortEvent) : State :=
  { s with env := { s.env with inbox := es ++ s.env.inbox } }

/-- The inputs of one clock cycle (10_state.md R20, R21); a host transaction is given as its event. -/
structure Cycle where
  rst : Bool := false
  host : Option PortEvent := none
  rx : Option Byte := none
  tick : Bool := false
  txReady : Bool := false
  deriving DecidableEq, Repr

/-- The events of one cycle: Reset suppresses the others; else host transaction, RxByte, Tick, TxByte
(10_state.md R22, log 10). -/
def Cycle.events (c : Cycle) : List PortEvent :=
  if c.rst then [.reset]
  else
    c.host.toList ++ (c.rx.map PortEvent.rxByte).toList ++ (if c.tick then [.tick] else []) ++
      (if c.txReady then [.txReady] else [])

end Sys2Proof.Machine
end

