-- ==== Sys2Proof/Machine/Step.lean ====
section
/-! DEFINITION. One step: the oldest port event the environment offers (10_state.md R22, log 3), and how the model
is given an instruction as its next one. -/

namespace Sys2Proof.Machine

/-- One step. With no event offered nothing happens: "if the platform stops `clk_i`, no step happens and all state is
kept" (60_exceptions.md R376, log 3). -/
def step (s : State) : Host.Outcome State Fault Refusal :=
  match s.env.inbox with
  | [] => .next s
  | e :: _ => s.dropEvent.handle e

/-- `s` with an instruction where the next step meets it. A command is a 4-byte write of CMD (45_host_interface.md
R332). A frame is a de-stuffed body with its FCS, whose closing DELIM is the next byte (40_framecodec.md R155); its
info field is empty (log 8). -/
def State.withFetchWord (s : State) (nbits w : Nat) : State :=
  if nbits = 32 then s.offerFirst [.hostWrite 0x018 2 (BitVec.ofNat 32 w)]
  else if nbits = 8 then
    let body : List Byte := [BitVec.ofNat 8 w]
    State.offerFirst { s with rx := { state := .data, acc := body ++ s.fcsNow body } } [.rxByte delim]
  else s

end Sys2Proof.Machine
end

