-- ==== Sys2Proof/Machine/Assembler.lean ====
section
/-! DEFINITION. The statement syntax of 30_encoding.md R114 and R115 as port events, and runs of such statements. -/

namespace Sys2Proof.Machine

/-- The statements of one instance (30_encoding.md R114, R115). `DRAIN` and `LINK` repeat as long as a byte is
offered, so they are runs (`State.drain`, `Pair.link`), not lists of events. -/
inductive Stmt where
  | wr (a : BitVec 20) (v : Word)
  | wrh (a : BitVec 20) (v : Word)
  | wrb (a : BitVec 20) (v : Word)
  | rd (a : BitVec 20)
  | rdh (a : BitVec 20)
  | rdb (a : BitVec 20)
  | rxb (b : Byte)
  | txb
  | tick
  | reset
  | nop
  | acquire
  | release (b : BitVec 8)
  | send (b : BitVec 8) (n : BitVec 16)
  | read
  | connect
  | disconnect
  | softReset
  | rxs (bytes : List Byte)
  | ticks (n : Nat)
  | fill (b : Nat) (bytes : List Byte)
  | cfgset (mode : FcsMode) (w : BitVec 3) (r : BitVec 8) (mtu t d : Word)
  deriving DecidableEq, Repr

/-- A 4-byte write. -/
def write4 (a : BitVec 20) (v : Word) : PortEvent := .hostWrite a 2 v

/-- `WR 0x018, (n << 16) | (b << 8) | OP` (30_encoding.md R114). -/
def cmdWrite (op b : BitVec 8) (n : BitVec 16) : PortEvent := write4 0x018 (commandWord op b n)

/-- `WRB 0x10000 + 0x1000·b + m, xm` for each byte from offset m on (30_encoding.md R115). -/
def fillFrom (b m : Nat) : List Byte → List PortEvent
  | [] => []
  | x :: xs => .hostWrite (BitVec.ofNat 20 (bufAddr b m)) 0 (x.setWidth 32) :: fillFrom b (m + 1) xs

/-- The port events a statement stands for (30_encoding.md R114, R115). -/
def Stmt.events : Stmt → List PortEvent
  | .wr a v => [write4 a v]
  | .wrh a v => [.hostWrite a 1 v]
  | .wrb a v => [.hostWrite a 0 v]
  | .rd a => [.hostRead a 2]
  | .rdh a => [.hostRead a 1]
  | .rdb a => [.hostRead a 0]
  | .rxb b => [.rxByte b]
  | .txb => [.txReady]
  | .tick => [.tick]
  | .reset => [.reset]
  | .nop => [cmdWrite 0x00 0 0]
  | .acquire => [cmdWrite 0x01 0 0]
  | .release b => [cmdWrite 0x02 b 0]
  | .send b n => [cmdWrite 0x03 b n]
  | .read => [cmdWrite 0x04 0 0]
  | .connect => [cmdWrite 0x05 0 0]
  | .disconnect => [cmdWrite 0x06 0 0]
  | .softReset => [cmdWrite 0x0F 0 0]
  | .rxs bytes => bytes.map PortEvent.rxByte
  | .ticks n => List.replicate n .tick
  | .fill b bytes => fillFrom b 0 bytes
  | .cfgset mode w r mtu t d =>
    [write4 0x008 (0#16 ++ r ++ 0#3 ++ w ++ mode.code), write4 0x00C mtu, write4 0x010 t, write4 0x014 d]

/-- The steps of a list of events, in order. -/
def State.handleAll (s : State) : List PortEvent → Host.Outcome State Fault Refusal
  | [] => .next s
  | e :: es =>
    match s.handle e with
    | .next t => State.handleAll t es
    | .fault r => .fault r
    | .refused r => .refused r

/-- The steps of a list of statements, in order. -/
def State.runStmts (s : State) (ps : List Stmt) : Host.Outcome State Fault Refusal :=
  s.handleAll (ps.flatMap Stmt.events)

/-- `DRAIN`: TXB while `tx_valid_o = 1`, at most `n` times (30_encoding.md R115); the bytes join `env.sent`. -/
def State.drain (s : State) : Nat → Host.Outcome State Fault Refusal
  | 0 => .next s
  | n + 1 =>
    if s.txValid then
      match s.handle .txReady with
      | .next t => State.drain t n
      | .fault r => .fault r
      | .refused r => .refused r
    else .next s

end Sys2Proof.Machine
end

