-- ==== Sys2Proof/Machine/Pair.lean ====
section
/-! DEFINITION. Two instances that share nothing, the product of two copies of the state (60_exceptions.md R374,
log 13). The environment chooses which instance takes the next step and with which port event; the transport, which
may drop, corrupt, duplicate or delay bytes, is the environment's choice of the `RxByte` events. -/

namespace Sys2Proof.Machine

/-- Two instances (60_exceptions.md R374). -/
structure Pair where
  a : State
  b : State
  deriving DecidableEq, Repr

/-- Which instance takes a step. -/
inductive Side where
  | a
  | b
  deriving DecidableEq, Repr

/-- One step of one instance; the other keeps its state (60_exceptions.md R374). -/
def Pair.handle (p : Pair) (side : Side) (e : PortEvent) : Host.Outcome Pair Fault Refusal :=
  match side with
  | .a =>
    match p.a.handle e with
    | .next t => .next { p with a := t }
    | .fault r => .fault r
    | .refused r => .refused r
  | .b =>
    match p.b.handle e with
    | .next t => .next { p with b := t }
    | .fault r => .fault r
    | .refused r => .refused r

/-- The instance on a side. -/
def Pair.side (p : Pair) : Side → State
  | .a => p.a
  | .b => p.b

/-- The opposite side. -/
def Side.other : Side → Side
  | .a => .b
  | .b => .a

/-- One round of `LINK`: TXB on one side, RXB of that byte on the other (30_encoding.md R115). -/
def Pair.carry (p : Pair) (src : Side) : Host.Outcome Pair Fault Refusal :=
  match p.handle src .txReady with
  | .next q => q.handle src.other (.rxByte (p.side src).txData)
  | .fault r => .fault r
  | .refused r => .refused r

/-- `LINK`: rounds while the source offers a byte, at most `n` (30_encoding.md R115). -/
def Pair.link (p : Pair) (src : Side) : Nat → Host.Outcome Pair Fault Refusal
  | 0 => .next p
  | n + 1 =>
    if (p.side src).txValid then
      match p.carry src with
      | .next q => Pair.link q src n
      | .fault r => .fault r
      | .refused r => .refused r
    else .next p

end Sys2Proof.Machine
end

