-- ==== Sys2Proof/Safety.lean ====
section
/-! DEFINITION. What a legal state is, in the terms the statements use: the invariants of 10_state.md R54 with the
facts they rest on (the register ranges, the reset values of idle fields, the eager encoder load). Then the relations
between the state before and the state after that the statements share. -/

namespace Sys2Proof.Machine

/-- The block is engaged with buffer i: PEND_TX or PEND_ACK (10_state.md R48). -/
def State.pending (s : State) (i : Nat) : Prop := s.bstate i = .pendTx ∨ s.bstate i = .pendAck

/-- Construction-time parameters in their legal ranges (00_scope.md R7). -/
structure State.SizesLegal (s : State) : Prop where
  nbuf_pos : 1 ≤ s.nbuf
  nbuf_le : s.nbuf ≤ 64
  bufcap_pos : 1 ≤ s.params.bufcap
  bufcap_le : s.params.bufcap ≤ 4096

/-- Configuration registers hold legal values (10_state.md R28 to R30). -/
structure State.CfgLegal (s : State) : Prop where
  window_ne : s.cfg.window ≠ 0
  mtu_ne : s.cfg.mtu ≠ 0
  mtu_le : s.cfg.mtu.toNat ≤ s.params.bufcap
  timeout_ne : s.cfg.timeout ≠ 0

/-- Buffer memory is in canonical form and lists only bytes that exist (10_state.md R49, log 6). -/
structure State.MemLegal (s : State) : Prop where
  wf : Memory.wf s.bmem = true
  exist : ∀ c ∈ s.bmem, ∃ i j, i < s.nbuf ∧ j < s.params.bufcap ∧ c.1 = bufAddr i j

/-- Each timer and request flag is set only in the connection state that uses it (43_arq_connection.md R230 to R233,
44_arq_data.md R292). -/
structure State.LinkLegal (s : State) : Prop where
  disconnected : s.conn = .disconnected → s.vs = 0 ∧ s.vr = 0 ∧ s.va = 0 ∧ s.retry = 0
  uTimer : s.uTimer ≠ 0 ↔ s.conn = .connecting ∨ s.conn = .disconnecting
  ackPending : s.ackPending = true → s.conn = .connected
  ackTimer : s.ackTimer ≠ 0 → s.ackPending = true
  rejPending : s.rejPending = true → s.conn = .connected
  sabmPending : s.sabmPending = true → s.conn = .connecting
  discPending : s.discPending = true → s.conn = .disconnecting
  window : s.conn = .connected → s.outstanding.toNat ≤ s.cfg.window.toNat
  retry : s.retry.toNat ≤ s.cfg.maxRetries.toNat

/-- The valid slots are exactly the outstanding sequence numbers of a connection (10_state.md R43, R54 item 2). -/
def State.SlotsKeyed (s : State) : Prop :=
  ∀ q, (s.slot q).valid = true ↔ s.conn = .connected ∧ (s.age q).toNat < s.outstanding.toNat

/-- The slots' contents (10_state.md R43, R54 items 2 and 3). -/
structure State.SlotsLegal (s : State) : Prop where
  empty : ∀ q, (s.slot q).valid = false → s.slot q = {}
  buf : ∀ q, (s.slot q).valid = true → (s.slot q).buf < s.nbuf ∧ s.pending (s.slot q).buf
  distinct : ∀ q r, (s.slot q).valid = true → (s.slot r).valid = true → (s.slot q).buf = (s.slot r).buf → q = r

/-- Every outstanding frame has its retransmit timer running (10_state.md R54 item 2, 44_arq_data.md R293). -/
def State.TimersRun (s : State) : Prop := ∀ q, (s.slot q).valid = true → (s.slot q).timer ≠ 0

/-- The encoder (10_state.md R51, R54 items 3 and 6, 40_framecodec.md R141, R145). -/
structure State.EncLegal (s : State) : Prop where
  pos : s.enc.active = true → s.enc.pos < s.enc.wire.length
  idle : s.enc.active = false → s.enc.pos = 0 ∧ s.enc.orphan = false
  wire : s.enc.wire.length ≤ 2 + 2 * (s.params.bufcap + 5)
  /-- A frame whose slot is gone keeps its buffer until it ends. -/
  orphan : s.enc.orphan = true → s.enc.kind = .i ∧ s.enc.buf < s.nbuf ∧ s.pending s.enc.buf ∧
    ∀ q, (s.slot q).valid = true → (s.slot q).buf ≠ s.enc.buf
  /-- An I-frame that is not orphaned is that of its slot. -/
  owned : s.enc.active = true → s.enc.kind = .i → s.enc.orphan = false →
    (s.slot s.enc.seq).valid = true ∧ (s.slot s.enc.seq).buf = s.enc.buf
  /-- A frame never sent in full is due or on the wire. -/
  first : ∀ q, (s.slot q).valid = true → s.bstate (s.slot q).buf = .pendTx → (s.slot q).needsTx = false →
    s.enc.active = true ∧ s.enc.kind = .i ∧ s.enc.seq = q ∧ s.enc.orphan = false

/-- No frame is due while the encoder is idle: the load is eager (40_framecodec.md R141). -/
def State.Eager (s : State) : Prop := s.enc.active = false → s.nextFrame = none

/-- The pool and the delivered queue (10_state.md R48, R50, R54 item 3). -/
structure State.PoolLegal (s : State) : Prop where
  len : ∀ i, (s.blen i).toNat ≤ s.params.bufcap
  pend : ∀ i, i < s.nbuf → s.pending i →
    (∃ q, (s.slot q).valid = true ∧ (s.slot q).buf = i) ∨ (s.enc.orphan = true ∧ s.enc.buf = i)
  nodup : s.rxq.Nodup
  delivered : ∀ i, i ∈ s.rxq ↔ i < s.nbuf ∧ s.bstate i = .delivered

/-- The de-stuffer (10_state.md R52, R54 item 5). -/
structure State.RxLegal (s : State) : Prop where
  acc : s.rx.acc.length ≤ s.params.bufcap + 5
  hunt : s.rx.state = .hunt → s.rx.acc = []

/-- All of it: the invariant that every step keeps (10_state.md R54). -/
structure State.Legal (s : State) : Prop where
  sizes : s.SizesLegal
  cfg : s.CfgLegal
  mem : s.MemLegal
  link : s.LinkLegal
  keyed : s.SlotsKeyed
  timers : s.TimersRun
  slots : s.SlotsLegal
  enc : s.EncLegal
  pool : s.PoolLegal
  rx : s.RxLegal
  eager : s.Eager

/-! ### What a statement says about a step's two states -/

/-- Every byte of buffer memory reads as before. -/
def State.MemorySame (s t : State) : Prop := ∀ a, memRead t.bmem a = memRead s.bmem a

/-- Every byte of buffer memory but the `n` from address `a` up reads as before. -/
def State.MemorySameOutside (s t : State) (a n : Nat) : Prop :=
  ∀ x, x < a ∨ a + n ≤ x → memRead t.bmem x = memRead s.bmem x

/-- EVENT has the bits it had and those of `p`, no others (10_state.md R35). -/
def State.EventsAdded (s t : State) (p : Nat → Prop) : Prop :=
  ∀ i, t.event.getLsbD i = true ↔ s.event.getLsbD i = true ∨ p i

/-- RESULT has these fields (10_state.md R33). -/
def State.ResultIs (t : State) (code buf len : Nat) : Prop :=
  t.result.toNat = code + 256 * buf + 65536 * len

/-- The number of buffers is the same, and so is every descriptor but that of buffer b. -/
def State.PoolSameBut (s t : State) (b : Nat) : Prop :=
  t.nbuf = s.nbuf ∧ ∀ i, i ≠ b → t.desc i = s.desc i

/-- Buffer i is that of an outstanding frame which is not on the wire (44_arq_data.md R284). -/
def State.Abandoned (s : State) (i : Nat) : Prop :=
  (∃ q, (s.slot q).valid = true ∧ (s.slot q).buf = i) ∧ s.sending i = false

/-- What a flush leaves (43_arq_connection.md R234, 44_arq_data.md R284): no slot; the abandoned buffers FREE; a frame
on the wire orphaned. -/
structure State.Flushed (s t : State) : Prop where
  slots : ∀ q, t.slot q = { valid := false, buf := 0, needsTx := false, timer := 0 }
  freed : ∀ i, s.Abandoned i → t.bstate i = .free
  kept : ∀ i, ¬ s.Abandoned i → t.bstate i = s.bstate i
  blen : ∀ i, t.blen i = s.blen i
  nbuf : t.nbuf = s.nbuf
  enc : t.enc = { s.enc with orphan := s.enc.active && s.enc.kind == .i }

/-- What an entry to DISCONNECTED leaves, EVENT and the UA request apart (43_arq_connection.md R232). -/
structure State.WentDown (s t : State) : Prop where
  flushed : s.Flushed t
  rest : t = { s with
    conn := .disconnected, vs := 0, vr := 0, va := 0, retry := 0, uTimer := 0, sabmPending := false,
    discPending := false, ackPending := false, ackTimer := 0, rejPending := false, slots := t.slots, pool := t.pool,
    enc := t.enc, event := t.event, uaPending := t.uaPending }
  memory : s.MemorySame t

/-- Sequence number q is acknowledged by N(R) = `nr` (44_arq_data.md R283). -/
def State.Acknowledged (s : State) (nr q : SeqNum) : Prop := (q - s.va).toNat < (nr - s.va).toNat

/-- Buffer i is that of an acknowledged frame which is not on the wire (44_arq_data.md R283, R284). -/
def State.Released (s : State) (nr : SeqNum) (i : Nat) : Prop :=
  (∃ q, s.Acknowledged nr q ∧ (s.slot q).buf = i) ∧ s.sending i = false

/-- What a cumulative acknowledgment by N(R) = `nr` leaves (44_arq_data.md R283, R284). -/
structure State.Acked (s : State) (nr : SeqNum) (t : State) : Prop where
  va : t.va = nr
  emptied : ∀ q, s.Acknowledged nr q → t.slot q = { valid := false, buf := 0, needsTx := false, timer := 0 }
  others : ∀ q, ¬ s.Acknowledged nr q → t.slot q = s.slot q
  retry : t.retry = if nr = s.va then s.retry else 0
  freed : ∀ i, s.Released nr i → t.bstate i = .free
  kept : ∀ i, ¬ s.Released nr i → t.bstate i = s.bstate i
  blen : ∀ i, t.blen i = s.blen i
  nbuf : t.nbuf = s.nbuf
  orphan : t.enc.orphan = true ↔
    s.enc.orphan = true ∨ ∃ q, s.Acknowledged nr q ∧ s.sending (s.slot q).buf = true
  events : s.EventsAdded t fun i => (i = 1 ∧ nr ≠ s.va) ∨ (i = 2 ∧ ∃ b, s.Released nr b)
  rest : t = { s with
    va := t.va, slots := t.slots, retry := t.retry, pool := t.pool, event := t.event,
    enc := { s.enc with orphan := t.enc.orphan } }
  memory : s.MemorySame t

/-- What both resets leave, the configuration and IRQ_EN apart (70_reset_and_hazards.md R391, 45_host_interface.md
R334). -/
structure State.EngineReset (s t : State) : Prop where
  conn : t.conn = .disconnected
  seq : t.vs = 0 ∧ t.vr = 0 ∧ t.va = 0 ∧ t.retry = 0
  slots : ∀ q, t.slot q = { valid := false, buf := 0, needsTx := false, timer := 0 }
  timers : t.uTimer = 0 ∧ t.ackPending = false ∧ t.ackTimer = 0
  flags : t.rejPending = false ∧ t.uaPending = false ∧ t.sabmPending = false ∧ t.discPending = false
  pool : t.nbuf = s.nbuf ∧ ∀ i, t.bstate i = .free ∧ t.blen i = 0
  rxq : t.rxq = []
  enc : t.enc = { active := false, kind := .ua, seq := 0, buf := 0, orphan := false, wire := [], pos := 0 }
  rx : t.rx = { state := .hunt, acc := [] }
  counters : t.result = 0 ∧ t.event = 0 ∧ t.cntLost = 0 ∧ t.cntOversize = 0
  bmem : t.bmem = s.bmem
  others : t.params = s.params ∧ t.env = s.env

/-- The event is a command with opcode `op` (10_state.md R32). -/
def PortEvent.IsCommand (e : PortEvent) (op : Nat) : Prop :=
  ∃ v : Word, e = .hostWrite 0x018 2 v ∧ v.toNat % 256 = op

/-- The event is one of the two resets (70_reset_and_hazards.md R390). -/
def PortEvent.IsReset (e : PortEvent) : Prop := e = .reset ∨ e.IsCommand 0x0F

/-- The event is the closing DELIM of a good frame that holds instruction i (40_framecodec.md R155). -/
def State.Receives (s : State) (e : PortEvent) (i : Instr) : Prop :=
  e = .rxByte delim ∧ s.rx.state = .data ∧ ∃ body, s.rx.acc = body ++ s.fcsNow body ∧
    s.rx.acc.length ≤ s.maxFrame ∧ decode .frame body = .ok i

/-- A transaction that 20_memory.md R73, R75 and R76 call a bus error. -/
def State.BusError (s : State) (a : BitVec 20) (z : BitVec 2) : Prop :=
  let n := 2 ^ z.toNat
  z = 3 ∨ a.toNat % n ≠ 0 ∨
  (a.toNat < 0x200 ∧ (n ≠ 4 ∨ (0x038 ≤ a.toNat ∧ a.toNat < 0x100) ∨ 0x100 + 4 * s.nbuf ≤ a.toNat)) ∨
  (0x200 ≤ a.toNat ∧ a.toNat < 0x10000) ∨ 0x50000 ≤ a.toNat ∨
  (0x10000 ≤ a.toNat ∧ a.toNat < 0x50000 ∧
    (s.nbuf ≤ (a.toNat - 0x10000) / 0x1000 ∨ s.params.bufcap < a.toNat % 0x1000 + n))

/-- Two blocks built with the same checksum functions (70_reset_and_hazards.md R396). -/
def Params.SameChecks (p q : Params) : Prop := p.fcs8 = q.fcs8 ∧ p.fcs16 = q.fcs16 ∧ p.fcs32 = q.fcs32

/-- The four FCS modes as numbers (00_scope.md R16). -/
def FcsMode.num : FcsMode → Nat
  | .off => 0
  | .sum8 => 1
  | .crc16 => 2
  | .crc32 => 3

/-- The codes of `conn` (10_state.md R41). -/
def Conn.num : Conn → Nat
  | .disconnected => 0
  | .connecting => 1
  | .connected => 2
  | .disconnecting => 3

/-- The codes of the de-stuffer's state (10_state.md R34). -/
def RxState.num : RxState → Nat
  | .hunt => 0
  | .data => 1
  | .esc => 2

/-- The codes of `bstate` (10_state.md R40). -/
def BufState.num : BufState → Nat
  | .free => 0
  | .app => 1
  | .pendTx => 2
  | .pendAck => 3
  | .delivered => 4

/-- The number of FREE buffers, counted over the indices (10_state.md R34). -/
def State.numFree (s : State) : Nat := (List.range s.nbuf).countP fun i => s.bstate i == .free

/-- Address and value of every readable register (45_host_interface.md R335; 10_state.md R26 to R40). -/
def State.registerTable (s : State) : List (Nat × Nat) :=
  [(0x000, 0x54504C45),
   (0x004, s.nbuf + 65536 * s.params.bufcap),
   (0x008, s.cfg.fcsMode.num + 4 * s.cfg.window.toNat + 256 * s.cfg.maxRetries.toNat),
   (0x00C, s.cfg.mtu.toNat),
   (0x010, s.cfg.timeout.toNat),
   (0x014, s.cfg.ackDelay.toNat),
   (0x018, 0),
   (0x01C, s.result.toNat),
   (0x020, s.conn.num + 4 * (decide (0 < s.rxq.length)).toNat +
      8 * (decide (s.conn = .connected ∧ s.outstanding.toNat < s.cfg.window.toNat)).toNat +
      16 * (decide (0 < s.numFree)).toNat + 32 * s.enc.active.toNat + 64 * s.rx.state.num +
      256 * s.numFree + 65536 * s.rxq.length),
   (0x024, s.event.toNat),
   (0x028, s.irqEn.toNat),
   (0x02C, s.cntLost.toNat),
   (0x030, s.cntOversize.toNat),
   (0x034, s.vs.toNat + 16 * s.vr.toNat + 256 * s.va.toNat + 4096 * s.outstanding.toNat + 65536 * s.retry.toNat +
      2 ^ 24 * s.ackPending.toNat + 2 ^ 25 * s.rejPending.toNat + 2 ^ 26 * s.uaPending.toNat +
      2 ^ 27 * s.sabmPending.toNat + 2 ^ 28 * s.discPending.toNat)] ++
  (List.range s.nbuf).map fun i => (0x100 + 4 * i, (s.bstate i).num + 65536 * (s.blen i).toNat)

end Sys2Proof.Machine
end

