-- ==== Sys2Proof/Certificates/Slice0/Obligations.lean ====
section
/-! DEFINITION. The statements about the block, each from the numbered rules of the spec that its docstring names.
`s.handle e` is one step with the port event `e`; it ends in the encoder load of 40_framecodec.md R141, written
`State.encoderLoad`, whose own effect is `Obligations.EncoderLoad`. -/

open Sys2Proof Sys2Proof.Machine

/-! ### Encoding -/

/-- Decoding the encoding of a well-formed instruction gives it back (30_encoding.md R104 to R107, R110, R113). -/
def Obligations.DecodeOfEncode : Prop :=
  ∀ i : Instr, i.wellFormed = true → decode i.source (encode i) = .ok i

/-- Bytes that decode are the encoding of what they decode to, so every bit of them has its place in the instruction;
and what they decode to is well-formed (30_encoding.md R104 to R107, R110, R113). -/
def Obligations.EncodeOfDecode : Prop :=
  ∀ (src : Source) (bytes : List Byte) (i : Instr), decode src bytes = .ok i →
    i.source = src ∧ encode i = bytes ∧ (bytes.length ≤ 4097 → i.wellFormed = true)

/-- A few words and control bytes, written out from 30_encoding.md R104, R105 and R110, decode to what they stand
for. -/
def Obligations.SampleWordsDecode : Prop :=
  decode .command [0x03#8, 0x05#8, 0x34#8, 0x12#8] = .ok (.send 0x05 0x1234) ∧
  decode .command [0x02#8, 0x3F#8, 0x00#8, 0x00#8] = .ok (.release 0x3F 0) ∧
  decode .command [0x0F#8, 0x00#8, 0x00#8, 0x00#8] = .ok (.softReset 0 0) ∧
  decode .command [0x10#8, 0x00#8, 0x00#8, 0x00#8] = .ok (.reservedOpcode 0x10 0 0) ∧
  decode .frame [0b10110110#8, 0x41#8] = .ok (.iFrame 3 5 true [0x41]) ∧
  decode .frame [0b01100001#8] = .ok (.rr 3 false []) ∧
  decode .frame [0b11101001#8] = .ok (.rej 7 false []) ∧
  decode .frame [0b00111111#8] = .ok (.sabm true []) ∧
  decode .frame [0b01110011#8] = .ok (.ua true []) ∧
  decode .frame [0b01010011#8] = .ok (.disc true []) ∧
  decode .frame [0b00000101#8] = .ok (.rnrReserved 0 false []) ∧
  decode .frame [0b00001101#8] = .ok (.srejReserved 0 false []) ∧
  decode .frame [0b00001111#8] = .ok (.uReserved 0b00011 false [])

/-! ### Wire frames and their checks -/

/-- Stuffing (30_encoding.md R102): its equations; and what the spec infers from them, that its result holds no DELIM
and has ESC only as the first byte of a pair; its length. -/
def Obligations.Stuffing : Prop :=
  stuff [] = [] ∧
  (∀ (b : Byte) (s : List Byte), b = 0x7E ∨ b = 0x7D → stuff (b :: s) = [0x7D, b ^^^ 0x20] ++ stuff s) ∧
  (∀ (b : Byte) (s : List Byte), b ≠ 0x7E → b ≠ 0x7D → stuff (b :: s) = [b] ++ stuff s) ∧
  (∀ s : List Byte, 0x7E ∉ stuff s) ∧
  (∀ (s : List Byte) (i : Nat), (stuff s)[i]? = some 0x7D →
    (stuff s)[i + 1]? = some 0x5E ∨ (stuff s)[i + 1]? = some 0x5D) ∧
  (∀ s : List Byte, (stuff s).length = s.length + s.countP fun b => b == 0x7E || b == 0x7D)

/-- Feeding a built frame to the de-stuffer calls the frame's instruction exactly once, at the closing DELIM
(40_framecodec.md R156): the bytes before it only fill the accumulator, and the closing DELIM runs the instruction. -/
def Obligations.RoundTripOnTheWire : Prop :=
  ∀ (s : State) (c : Byte) (info : List Byte) (i : Instr),
    s.Eager → info.length ≤ s.cfg.mtu.toNat →
    s.rx.state = .hunt ∨ (s.rx.state = .data ∧ s.rx.acc = []) →
    decode .frame (c :: info) = .ok i →
    let w := build s.params s.cfg.fcsMode c info
    let filled : State := { s with rx := { state := .data, acc := unstuffed s.params s.cfg.fcsMode c info } }
    w.getLast? = some 0x7E ∧
    s.handleAll (w.dropLast.map PortEvent.rxByte) = .next filled ∧
    ∃ t, exec i filled = .next t ∧
      s.handleAll (w.map PortEvent.rxByte) = .next (State.encoderLoad { t with rx := { t.rx with acc := [] } })

/-- The check values of the default checksum functions, for "123456789" and for the empty string (41_fcs.md R182 to
R185). -/
def Obligations.FcsCheckValues : Prop :=
  let digits : List Byte := [0x31, 0x32, 0x33, 0x34, 0x35, 0x36, 0x37, 0x38, 0x39]
  let p : Params := { bufcap := 64, fcs8 := .dflt, fcs16 := .dflt, fcs32 := .dflt }
  fcs p .off digits = [] ∧
  fcs p .sum8 digits = [0x22] ∧ fcs p .sum8 [] = [0xFF] ∧
  fcs p .crc16 digits = [0x6E, 0x90] ∧ fcs p .crc16 [] = [0x00, 0x00] ∧
  fcs p .crc32 digits = [0x26, 0x39, 0xF4, 0xCB] ∧ fcs p .crc32 [] = [0x00, 0x00, 0x00, 0x00]

/-- A received frame that differs from the one sent in exactly one de-stuffed byte is discarded, in every mode with a
check, under the default functions (41_fcs.md R187). -/
def Obligations.OneByteErrorDiscarded : Prop :=
  ∀ (s : State) (c : Byte) (info : List Byte) (k : Nat) (b : Byte),
    s.params.fcs8 = .dflt → s.params.fcs16 = .dflt → s.params.fcs32 = .dflt → s.cfg.fcsMode ≠ .off →
    info.length ≤ s.cfg.mtu.toNat →
    let u := unstuffed s.params s.cfg.fcsMode c info
    k < u.length → u[k]? ≠ some b →
    s.complete (u.set k b) = .next s

/-- One received byte other than the closing DELIM of a frame (40_framecodec.md R151, R153, R154). -/
def Obligations.DeStuffer : Prop :=
  (∀ s : State, s.hardReset.rx.state = .hunt) ∧
  ∀ (s : State) (b : Byte),
    let room := 1 + s.cfg.mtu.toNat + s.cfg.fcsMode.fcsLen
    (s.rx.state = .hunt → b ≠ 0x7E → s.rxByte b = .next s) ∧
    (s.rx.state = .hunt → b = 0x7E → s.rxByte b = .next { s with rx := { state := .data, acc := [] } }) ∧
    (s.rx.state = .data → b = 0x7D → s.rxByte b = .next { s with rx := { state := .esc, acc := s.rx.acc } }) ∧
    (s.rx.state = .data → b ≠ 0x7E → b ≠ 0x7D → s.rx.acc.length < room →
      s.rxByte b = .next { s with rx := { state := .data, acc := s.rx.acc ++ [b] } }) ∧
    (s.rx.state = .esc → b = 0x7E → s.rxByte b = .next { s with rx := { state := .data, acc := [] } }) ∧
    (s.rx.state = .esc → b ≠ 0x7E → s.rx.acc.length < room →
      s.rxByte b = .next { s with rx := { state := .data, acc := s.rx.acc ++ [b ^^^ 0x20] } }) ∧
    ((s.rx.state = .data ∧ b ≠ 0x7E ∧ b ≠ 0x7D) ∨ (s.rx.state = .esc ∧ b ≠ 0x7E) → room ≤ s.rx.acc.length →
      s.rxByte b = .next { s with cntOversize := s.cntOversize + 1, rx := { state := .hunt, acc := [] } })

/-- DELIM in state DATA closes the accumulated frame, if any, and opens the next; a run of DELIMs makes no frame
(40_framecodec.md R152). -/
def Obligations.DelimitersOpenAndClose : Prop :=
  (∀ s : State, s.rx.state = .data → s.rx.acc ≠ [] → ∃ t, s.complete s.rx.acc = .next t ∧
    s.rxByte 0x7E = .next { t with rx := { t.rx with acc := [] } }) ∧
  (∀ (s : State) (n : Nat), s.Eager → s.rx = { state := .data, acc := [] } →
    s.handleAll (List.replicate n (.rxByte 0x7E)) = .next s) ∧
  (∀ (s : State) (n : Nat), s.Eager → s.rx.state = .hunt →
    s.handleAll (List.replicate (n + 1) (.rxByte 0x7E)) = .next { s with rx := { state := .data, acc := [] } })

/-- The end of a received frame (40_framecodec.md R155): too long, too short, failing its check, or good. -/
def Obligations.FrameCompletion : Prop :=
  ∀ (s : State) (acc : List Byte),
    let n := s.cfg.fcsMode.fcsLen
    let room := 1 + s.cfg.mtu.toNat + n
    (room < acc.length → s.complete acc = .next { s with cntOversize := s.cntOversize + 1 }) ∧
    (acc.length ≤ room → acc.length < 1 + n → s.complete acc = .next s) ∧
    (∀ body check, acc = body ++ check → check.length = n → body ≠ [] → acc.length ≤ room →
      (fcs s.params s.cfg.fcsMode body ≠ check → s.complete acc = .next s) ∧
      (fcs s.params s.cfg.fcsMode body = check →
        ∃ i, decode .frame body = .ok i ∧ s.complete acc = exec i s))

/-! ### Steps -/

/-- A 4-byte write of CMD runs the command its word decodes to (45_host_interface.md R332, R336). -/
def Obligations.StepRunsCommand : Prop :=
  ∀ (s : State) (w : Word) (later : List PortEvent) (i : Instr),
    s.env.inbox = .hostWrite 0x018 2 w :: later → decode .command (wordBytes w) = .ok i →
    ∃ t, exec i { s with env := { s.env with inbox := later } } = .next t ∧ step s = .next t.encoderLoad

/-- The closing DELIM of a good frame runs the instruction its body decodes to, and empties the accumulator
(40_framecodec.md R150, R155, 44_arq_data.md R289). -/
def Obligations.StepRunsFrame : Prop :=
  ∀ (s : State) (body : List Byte) (later : List PortEvent) (i : Instr),
    s.env.inbox = .rxByte 0x7E :: later → s.rx.state = .data →
    s.rx.acc = body ++ fcs s.params s.cfg.fcsMode body → body.length ≤ 1 + s.cfg.mtu.toNat →
    decode .frame body = .ok i →
    ∃ t, exec i { s with env := { s.env with inbox := later } } = .next t ∧
      step s = .next (State.encoderLoad { t with rx := { t.rx with acc := [] } })

/-- What `withFetchWord` places is what the next step runs, on an otherwise unchanged state. The placing is the model's
own (log 3, log 8). -/
def Obligations.FetchedWordRuns : Prop :=
  (∀ (s : State) (w : Nat) (i : Instr), decodeTableWord 32 w = some i →
    ∃ t, exec i s = .next t ∧ step (s.withFetchWord 32 w) = .next t.encoderLoad) ∧
  (∀ (s : State) (w : Nat) (i : Instr), decodeTableWord 8 w = some i →
    let body : List Byte := [BitVec.ofNat 8 w]
    ∃ t, exec i { s with rx := { state := .data, acc := body ++ fcs s.params s.cfg.fcsMode body } } = .next t ∧
      step (s.withFetchWord 8 w) = .next (State.encoderLoad { t with rx := { t.rx with acc := [] } }))

/-- Every step is carried through: none is abandoned (60_exceptions.md R360). Without a port event nothing happens
(R376, log 3), nor when the transport is ready while the encoder is idle (40_framecodec.md R144, log 5). -/
def Obligations.EveryStepCompletes : Prop :=
  (∀ s : State, ∃ t, step s = .next t) ∧
  (∀ s : State, s.env.inbox = [] → step s = .next s) ∧
  (∀ s : State, s.enc.active = false → s.handle .txReady = .next s)

/-! ### Resets -/

/-- The two resets (70_reset_and_hazards.md R391, 45_host_interface.md R334). -/
def Obligations.ResetAction : Prop :=
  (∀ s : State, ∃ t, s.handle .reset = .next t ∧ s.EngineReset t ∧
    t.cfg = { fcsMode := .crc16, window := 7, maxRetries := 2, mtu := BitVec.ofNat 16 (min 32 s.params.bufcap),
              timeout := 200, ackDelay := 10 } ∧
    t.irqEn = 0 ∧ t.txValid = false ∧ t.irq = false ∧ t.regValue .id = s.regValue .id ∧
    t.regValue .param = s.regValue .param ∧ s.MemorySame t) ∧
  (∀ (s : State) (buf : BitVec 8) (len : BitVec 16), ∃ t, exec (.softReset buf len) s = .next t ∧ s.EngineReset t ∧
    t.cfg = s.cfg ∧ t.irqEn = s.irqEn ∧ s.MemorySame t)

/-! ### Commands -/

/-- NOP writes RESULT = 0 and nothing else (45_host_interface.md R333); a reserved opcode writes BAD_CMD and nothing
else (30_encoding.md R113). -/
def Obligations.NopAndReservedOpcode : Prop :=
  (∀ (s : State) (buf : BitVec 8) (len : BitVec 16), exec (.nop buf len) s = .next { s with result := 0 }) ∧
  (∀ (s : State) (op buf : BitVec 8) (len : BitVec 16),
    (0x07 ≤ op.toNat ∧ op.toNat ≤ 0x0E) ∨ 0x10 ≤ op.toNat →
    decode .command (wordBytes (commandWord op buf len)) = .ok (.reservedOpcode op buf len) ∧
    exec (.reservedOpcode op buf len) s = .next { s with result := 5 })

/-- A command ignores the operand fields its row does not list (30_encoding.md R112). -/
def Obligations.UnusedOperandsIgnored : Prop :=
  ∀ (s : State) (buf buf' : BitVec 8) (len len' : BitVec 16),
    exec (.nop buf len) s = exec (.nop buf' len') s ∧ exec (.acquire buf len) s = exec (.acquire buf' len') s ∧
    exec (.release buf len) s = exec (.release buf len') s ∧ exec (.read buf len) s = exec (.read buf' len') s ∧
    exec (.connect buf len) s = exec (.connect buf' len') s ∧
    exec (.disconnect buf len) s = exec (.disconnect buf' len') s ∧
    exec (.softReset buf len) s = exec (.softReset buf' len') s

/-- ACQUIRE claims the FREE buffer of least index, or answers NONE (42_buffer_pool.md R200, by the choice of R201). -/
def Obligations.Acquire : Prop :=
  ∀ (s : State) (buf : BitVec 8) (len : BitVec 16),
    ((∀ i, i < s.nbuf → s.bstate i ≠ .free) → exec (.acquire buf len) s = .next { s with result := 1 }) ∧
    (∀ b, b < s.nbuf → s.bstate b = .free → (∀ i, i < b → s.bstate i ≠ .free) →
      ∃ t, exec (.acquire buf len) s = .next t ∧ t.desc b = { state := .app, len := 0 } ∧ t.ResultIs 0 (b % 256) 0 ∧
        s.PoolSameBut t b ∧ s.MemorySame t ∧ t = { s with pool := t.pool, result := t.result })

/-- RELEASE returns a buffer the host holds, and refuses any other (42_buffer_pool.md R202). -/
def Obligations.Release : Prop :=
  ∀ (s : State) (buf : BitVec 8) (len : BitVec 16),
    let b := buf.toNat
    (b < s.nbuf ∧ s.bstate b = .app →
      ∃ t, exec (.release buf len) s = .next t ∧ t.desc b = { state := .free, len := s.blen b } ∧
        t.ResultIs 0 b 0 ∧ s.EventsAdded t (fun i => i = 2) ∧ s.PoolSameBut t b ∧ s.MemorySame t ∧
        t = { s with pool := t.pool, result := t.result, event := t.event }) ∧
    (s.nbuf ≤ b ∨ s.bstate b ≠ .app →
      ∃ t, exec (.release buf len) s = .next t ∧ t.ResultIs 4 b 0 ∧ s.MemorySame t ∧ t = { s with result := t.result })

/-- READ pops the delivered queue, or answers NONE (42_buffer_pool.md R203). In a legal state the buffers in the queue
exist (`Obligations.LegalKeptByEveryStep`). -/
def Obligations.Read : Prop :=
  ∀ (s : State) (buf : BitVec 8) (len : BitVec 16), s.Legal →
    (s.rxq = [] → exec (.read buf len) s = .next { s with result := 1 }) ∧
    (∀ b queue, s.rxq = b :: queue →
      ∃ t, exec (.read buf len) s = .next t ∧ t.desc b = { state := .app, len := s.blen b } ∧
        t.ResultIs 0 b (s.blen b).toNat ∧ t.rxq = queue ∧ s.PoolSameBut t b ∧ s.MemorySame t ∧
        t = { s with rxq := t.rxq, pool := t.pool, result := t.result })

/-- SEND (44_arq_data.md R270): its three refusals, in their order, and what an accepted one writes. -/
def Obligations.Send : Prop :=
  ∀ (s : State) (buf : BitVec 8) (len : BitVec 16),
    let b := buf.toNat
    let held := b < s.nbuf ∧ s.bstate b = .app ∧ len.toNat ≤ s.cfg.mtu.toNat
    let refused (code : Nat) := ∃ t, exec (.send buf len) s = .next t ∧ t.ResultIs code b len.toNat ∧
      s.MemorySame t ∧ t = { s with result := t.result }
    (¬ held → refused 4) ∧
    (held → s.conn ≠ .connected → refused 3) ∧
    (held → s.conn = .connected → s.cfg.window.toNat ≤ (s.vs - s.va).toNat → refused 2) ∧
    (held → s.conn = .connected → (s.vs - s.va).toNat < s.cfg.window.toNat →
      ∃ t, exec (.send buf len) s = .next t ∧ t.ResultIs 0 b len.toNat ∧
        t.slot s.vs = { valid := true, buf := b, needsTx := true, timer := s.cfg.timeout } ∧
        (∀ q, q ≠ s.vs → t.slot q = s.slot q) ∧ t.desc b = { state := .pendTx, len := len } ∧ t.vs = s.vs + 1 ∧
        s.PoolSameBut t b ∧ s.MemorySame t ∧
        t = { s with slots := t.slots, pool := t.pool, vs := t.vs, result := t.result })

/-- CONNECT (43_arq_connection.md R230). -/
def Obligations.Connect : Prop :=
  ∀ (s : State) (buf : BitVec 8) (len : BitVec 16),
    (s.conn = .disconnected → exec (.connect buf len) s = .next { s with
      conn := .connecting, vs := 0, vr := 0, va := 0, retry := 0, sabmPending := true, uTimer := s.cfg.timeout,
      result := 0 }) ∧
    (s.conn ≠ .disconnected → exec (.connect buf len) s = .next { s with result := 3 })

/-- DISCONNECT (43_arq_connection.md R233), with its flush (R234). -/
def Obligations.Disconnect : Prop :=
  ∀ (s : State) (buf : BitVec 8) (len : BitVec 16), s.Legal →
    (s.conn = .connected ∨ s.conn = .connecting →
      ∃ t, exec (.disconnect buf len) s = .next t ∧ s.Flushed t ∧
        s.EventsAdded t (fun i => i = 2 ∧ ∃ b, s.Abandoned b) ∧ s.MemorySame t ∧
        t = { s with
          conn := .disconnecting, retry := 0, sabmPending := false, ackPending := false, ackTimer := 0,
          rejPending := false, discPending := true, uTimer := s.cfg.timeout, result := 0,
          slots := t.slots, pool := t.pool, enc := t.enc, event := t.event }) ∧
    (s.conn = .disconnected ∨ s.conn = .disconnecting →
      exec (.disconnect buf len) s = .next { s with result := 3 })

/-! ### Received frames -/

/-- A received SABM, in each connection state (43_arq_connection.md R235). -/
def Obligations.ReceivedSabm : Prop :=
  ∀ (s : State) (pf : Bool), s.Legal →
    (s.conn = .disconnected ∨ s.conn = .connecting →
      ∃ t, exec (.sabm pf []) s = .next t ∧ s.EventsAdded t (fun i => i = 3) ∧ s.MemorySame t ∧
        t = { s with
          conn := .connected, uaPending := true, vs := 0, vr := 0, va := 0, retry := 0, uTimer := 0,
          sabmPending := false, discPending := false, ackPending := false, ackTimer := 0, rejPending := false,
          event := t.event }) ∧
    (s.conn = .connected →
      ∃ t, exec (.sabm pf []) s = .next t ∧ s.Flushed t ∧
        s.EventsAdded t (fun i => i = 3 ∨ i = 7 ∨ (i = 2 ∧ ∃ b, s.Abandoned b)) ∧ s.MemorySame t ∧
        t = { s with
          conn := .connected, uaPending := true, vs := 0, vr := 0, va := 0, retry := 0, uTimer := 0,
          sabmPending := false, discPending := false, ackPending := false, ackTimer := 0, rejPending := false,
          slots := t.slots, pool := t.pool, enc := t.enc, event := t.event }) ∧
    (s.conn = .disconnecting → exec (.sabm pf []) s = .next s)

/-- A received UA, in each connection state (43_arq_connection.md R236). -/
def Obligations.ReceivedUa : Prop :=
  ∀ (s : State) (pf : Bool), s.Legal →
    (s.conn = .connecting →
      ∃ t, exec (.ua pf []) s = .next t ∧ s.EventsAdded t (fun i => i = 3) ∧ s.MemorySame t ∧
        t = { s with
          conn := .connected, vs := 0, vr := 0, va := 0, retry := 0, uTimer := 0, sabmPending := false,
          discPending := false, ackPending := false, ackTimer := 0, rejPending := false, event := t.event }) ∧
    (s.conn = .disconnecting →
      ∃ t, exec (.ua pf []) s = .next t ∧ s.WentDown t ∧ t.uaPending = s.uaPending ∧
        s.EventsAdded t (fun i => i = 4 ∨ (i = 2 ∧ ∃ b, s.Abandoned b))) ∧
    (s.conn = .disconnected ∨ s.conn = .connected → exec (.ua pf []) s = .next s)

/-- A received DISC, in each connection state (43_arq_connection.md R237). -/
def Obligations.ReceivedDisc : Prop :=
  ∀ (s : State) (pf : Bool), s.Legal →
    (s.conn = .disconnected → exec (.disc pf []) s = .next { s with uaPending := true }) ∧
    (s.conn ≠ .disconnected →
      ∃ t, exec (.disc pf []) s = .next t ∧ s.WentDown t ∧ t.uaPending = true ∧
        s.EventsAdded t (fun i => i = 4 ∨ (i = 6 ∧ s.conn = .connecting) ∨ (i = 2 ∧ ∃ b, s.Abandoned b)))

/-- Frames discarded with no effect at all: reserved control bytes, S- and U-frames with an info field, and I-, RR- and
REJ-frames outside CONNECTED or with an invalid N(R) (44_arq_data.md R289, 30_encoding.md R106). -/
def Obligations.DiscardedFrames : Prop :=
  ∀ (s : State) (nr ns : SeqNum) (m : BitVec 5) (pf : Bool) (info : List Byte),
    exec (.rnrReserved nr pf info) s = .next s ∧ exec (.srejReserved nr pf info) s = .next s ∧
    exec (.uReserved m pf info) s = .next s ∧
    (info ≠ [] → exec (.rr nr pf info) s = .next s ∧ exec (.rej nr pf info) s = .next s ∧
      exec (.sabm pf info) s = .next s ∧ exec (.ua pf info) s = .next s ∧ exec (.disc pf info) s = .next s) ∧
    (s.conn ≠ .connected ∨ (s.vs - s.va).toNat < (nr - s.va).toNat →
      exec (.iFrame ns nr pf info) s = .next s ∧ exec (.rr nr pf []) s = .next s ∧ exec (.rej nr pf []) s = .next s)

/-- The P/F bit of a received frame has no effect (44_arq_data.md R289, 30_encoding.md R107). -/
def Obligations.PollFinalIgnored : Prop :=
  ∀ (s : State) (nr ns : SeqNum) (info : List Byte) (p q : Bool),
    exec (.iFrame ns nr p info) s = exec (.iFrame ns nr q info) s ∧ exec (.rr nr p info) s = exec (.rr nr q info) s ∧
    exec (.rej nr p info) s = exec (.rej nr q info) s ∧ exec (.sabm p info) s = exec (.sabm q info) s ∧
    exec (.ua p info) s = exec (.ua q info) s ∧ exec (.disc p info) s = exec (.disc q info) s

/-- An expected I-frame, after its N(R) has been processed (44_arq_data.md R280): it is delivered into the FREE buffer
of least index (R281), or, with no buffer FREE, dropped and counted (R282). The stored bytes are those of the buffer
from `bufAddr b 0` up. -/
def Obligations.IFrameExpected : Prop :=
  ∀ (s : State) (ns nr : SeqNum) (pf : Bool) (info : List Byte),
    Memory.wf s.bmem = true → s.conn = .connected → (nr - s.va).toNat ≤ (s.vs - s.va).toNat → ns = s.vr →
    ∃ a, s.Acked nr a ∧
      (∀ b, b < a.nbuf → a.bstate b = .free → (∀ i, i < b → a.bstate i ≠ .free) →
        ∃ t, exec (.iFrame ns nr pf info) s = .next t ∧
          t.desc b = { state := .delivered, len := BitVec.ofNat 16 info.length } ∧ t.rxq = s.rxq ++ [b] ∧
          t.vr = s.vr + 1 ∧ a.EventsAdded t (fun i => i = 0) ∧
          t.ackPending = true ∧ t.ackTimer = (if s.ackPending then s.ackTimer else s.cfg.ackDelay) ∧
          (∀ j, j < info.length → some (t.bufRead b j) = info[j]?) ∧
          a.MemorySameOutside t (bufAddr b 0) info.length ∧ a.PoolSameBut t b ∧
          t = { a with
            bmem := t.bmem, pool := t.pool, rxq := t.rxq, vr := t.vr, event := t.event, ackPending := t.ackPending,
            ackTimer := t.ackTimer }) ∧
      ((∀ i, i < a.nbuf → a.bstate i ≠ .free) →
        exec (.iFrame ns nr pf info) s = .next { a with cntLost := a.cntLost + 1 })

/-- An I-frame with an unexpected N(S) has its N(R) processed and requests a REJ, nothing more (44_arq_data.md R280,
R290). -/
def Obligations.IFrameOutOfSequence : Prop :=
  ∀ (s : State) (ns nr : SeqNum) (pf : Bool) (info : List Byte),
    s.conn = .connected → (nr - s.va).toNat ≤ (s.vs - s.va).toNat → ns ≠ s.vr →
    ∃ a, s.Acked nr a ∧ exec (.iFrame ns nr pf info) s = .next { a with rejPending := true }

/-- A received RR (44_arq_data.md R287): a valid one is a cumulative acknowledgment (R283), any other is ignored. -/
def Obligations.ReceivedRr : Prop :=
  ∀ (s : State) (nr : SeqNum) (pf : Bool),
    let valid := s.conn = .connected ∧ (nr - s.va).toNat ≤ (s.vs - s.va).toNat
    (valid → ∃ a, s.Acked nr a ∧ exec (.rr nr pf []) s = .next a) ∧ (¬ valid → exec (.rr nr pf []) s = .next s)

/-- A received REJ (44_arq_data.md R288): a valid one is a cumulative acknowledgment (R283), then marks every frame
still outstanding for retransmission and reloads its timer (R285); any other is ignored. -/
def Obligations.ReceivedRej : Prop :=
  ∀ (s : State) (nr : SeqNum) (pf : Bool),
    let valid := s.conn = .connected ∧ (nr - s.va).toNat ≤ (s.vs - s.va).toNat
    (valid → ∃ a t, s.Acked nr a ∧ exec (.rej nr pf []) s = .next t ∧
      (∀ q, (q - nr).toNat < (s.vs - nr).toNat →
        t.slot q = { a.slot q with needsTx := true, timer := s.cfg.timeout }) ∧
      (∀ q, (s.vs - nr).toNat ≤ (q - nr).toNat → t.slot q = a.slot q) ∧
      a.MemorySame t ∧ t = { a with slots := t.slots }) ∧
    (¬ valid → exec (.rej nr pf []) s = .next s)

/-! ### Timers -/

/-- A tick in which nothing expires counts every running timer down by one, and stops at 0 (44_arq_data.md R292). -/
def Obligations.TickCounts : Prop :=
  ∀ s : State, s.uTimer ≠ 1 → (∀ q, (s.slot q).valid = true → (s.slot q).timer ≠ 1) →
    ∃ t, s.handle .tick = .next t.encoderLoad ∧ t.uTimer.toNat = s.uTimer.toNat - 1 ∧
      t.ackTimer.toNat = s.ackTimer.toNat - 1 ∧
      (∀ q, t.slot q = { s.slot q with timer := (t.slot q).timer } ∧
        (t.slot q).timer.toNat = (s.slot q).timer.toNat - 1) ∧
      s.MemorySame t ∧ t = { s with uTimer := t.uTimer, ackTimer := t.ackTimer, slots := t.slots }

/-- A tick in which slot timers expire: a go-back-N from the oldest of them and one retry, or, with the retries used
up, the end of the link (44_arq_data.md R286, R292). -/
def Obligations.SlotExpiry : Prop :=
  ∀ (s : State) (q : SeqNum), s.Legal → (s.slot q).valid = true → (s.slot q).timer = 1 →
    (∀ r, (s.slot r).valid = true → (s.slot r).timer = 1 → (q - s.va).toNat ≤ (r - s.va).toNat) →
    (s.retry = s.cfg.maxRetries →
      ∃ t, s.handle .tick = .next t.encoderLoad ∧ s.WentDown t ∧ t.uaPending = s.uaPending ∧
        s.EventsAdded t (fun i => i = 4 ∨ i = 5 ∨ (i = 2 ∧ ∃ b, s.Abandoned b))) ∧
    (s.retry ≠ s.cfg.maxRetries →
      ∃ t, s.handle .tick = .next t.encoderLoad ∧ t.retry.toNat = s.retry.toNat + 1 ∧
        t.ackTimer.toNat = s.ackTimer.toNat - 1 ∧
        (∀ r, (q - s.va).toNat ≤ (r - s.va).toNat → (r - s.va).toNat < (s.vs - s.va).toNat →
          t.slot r = { s.slot r with needsTx := true, timer := s.cfg.timeout }) ∧
        (∀ r, (r - s.va).toNat < (q - s.va).toNat ∨ (s.vs - s.va).toNat ≤ (r - s.va).toNat →
          t.slot r = { s.slot r with timer := (t.slot r).timer } ∧
          (t.slot r).timer.toNat = (s.slot r).timer.toNat - 1) ∧
        s.MemorySame t ∧ t = { s with retry := t.retry, ackTimer := t.ackTimer, slots := t.slots })

/-- A tick in which the timer of an unanswered SABM or DISC expires: one retry, or the end of the attempt
(43_arq_connection.md R239). -/
def Obligations.RequestExpiry : Prop :=
  ∀ s : State, s.Legal → s.uTimer = 1 →
    (s.retry = s.cfg.maxRetries →
      ∃ t, s.handle .tick = .next t.encoderLoad ∧ s.WentDown t ∧ t.uaPending = s.uaPending ∧
        s.EventsAdded t (fun i => i = 4 ∨ (i = 6 ∧ s.conn = .connecting))) ∧
    (s.retry ≠ s.cfg.maxRetries →
      ∃ t, s.handle .tick = .next t.encoderLoad ∧ t.retry.toNat = s.retry.toNat + 1 ∧ t.uTimer = s.cfg.timeout ∧
        t.sabmPending = (s.sabmPending || s.conn == .connecting) ∧
        t.discPending = (s.discPending || s.conn == .disconnecting) ∧ s.MemorySame t ∧
        t = { s with
          retry := t.retry, uTimer := t.uTimer, sabmPending := t.sabmPending, discPending := t.discPending })

/-- An unanswered CONNECT fails at the `(r + 1) · TIMEOUT`-th tick and not before, whatever bytes the transport takes
meanwhile (43_arq_connection.md R239). -/
def Obligations.ConnectGivesUp : Prop :=
  ∀ (s : State) (buf : BitVec 8) (len : BitVec 16) (es : List PortEvent), s.Legal → s.conn = .disconnected →
    (∀ e ∈ es, e = .tick ∨ e = .txReady) →
    let limit := (s.cfg.maxRetries.toNat + 1) * s.cfg.timeout.toNat
    ∃ t, s.handleAll (.hostWrite 0x018 2 (commandWord 0x05 buf len) :: es) = .next t ∧
      (es.count .tick < limit → t.conn = .connecting ∧ t.event.getLsbD 6 = s.event.getLsbD 6) ∧
      (limit ≤ es.count .tick → t.conn = .disconnected ∧ t.event.getLsbD 4 = true ∧ t.event.getLsbD 6 = true)

/-! ### Encoder -/

/-- The encoder load: nothing at all while a frame is on the wire; else the frame that is due, in R141's order of
priority, and how it is loaded (40_framecodec.md R141, R142). -/
def Obligations.EncoderLoad : Prop :=
  (∀ s : State, s.enc.active = true → s.encoderLoad = s) ∧
  ∀ s : State, s.enc.active = false →
    let loaded (k : FrameKind) (c : Nat) : Encoder :=
      { s.enc with active := true, kind := k, orphan := false, pos := 0,
                   wire := build s.params s.cfg.fcsMode (BitVec.ofNat 8 c) [] }
    let sabm := s.conn = .connecting ∧ s.sabmPending = true
    let disc := s.conn = .disconnecting ∧ s.discPending = true
    let waiting (q : SeqNum) := (s.slot q).valid = true ∧ (s.slot q).needsTx = true
    (s.uaPending = true → s.encoderLoad = { s with uaPending := false, enc := loaded .ua 0x73 }) ∧
    (s.uaPending = false → sabm → s.encoderLoad = { s with sabmPending := false, enc := loaded .sabm 0x3F }) ∧
    (s.uaPending = false → disc → s.encoderLoad = { s with discPending := false, enc := loaded .disc 0x53 }) ∧
    (s.uaPending = false → s.conn = .connected → s.rejPending = true →
      s.encoderLoad = { s with
        rejPending := false, ackPending := false, ackTimer := 0, enc := loaded .rej (32 * s.vr.toNat + 9) }) ∧
    (∀ q, s.uaPending = false → s.conn = .connected → s.rejPending = false → waiting q →
      (∀ r, waiting r → (q - s.va).toNat ≤ (r - s.va).toNat) →
      let b := (s.slot q).buf
      ∃ info, info.length = (s.blen b).toNat ∧ (∀ j, j < info.length → info[j]? = some (s.bufRead b j)) ∧
        s.encoderLoad.slot q = { s.slot q with needsTx := false } ∧
        (∀ r, r ≠ q → s.encoderLoad.slot r = s.slot r) ∧
        s.encoderLoad = { s with
          ackPending := false, ackTimer := 0, slots := s.encoderLoad.slots,
          enc := { active := true, kind := .i, seq := q, buf := b, orphan := false, pos := 0,
                   wire := build s.params s.cfg.fcsMode (BitVec.ofNat 8 (32 * s.vr.toNat + 2 * q.toNat)) info } }) ∧
    (s.uaPending = false → s.conn = .connected → s.rejPending = false → (∀ q, ¬ waiting q) →
      s.ackPending = true → s.ackTimer = 0 →
      s.encoderLoad = { s with ackPending := false, enc := loaded .rr (32 * s.vr.toNat + 1) }) ∧
    (s.uaPending = false → ¬ sabm → ¬ disc →
      (s.conn = .connected → s.rejPending = false ∧ (∀ q, ¬ waiting q) ∧ (s.ackPending = true → s.ackTimer ≠ 0)) →
      s.encoderLoad = s)

/-- The hand-off of one byte, and the end of a frame (40_framecodec.md R145, in the step of R144). -/
def Obligations.ByteHandOff : Prop :=
  ∀ s : State, s.Legal → s.enc.active = true →
    let e := s.enc
    let idle : Encoder := { e with active := false, pos := 0, orphan := false }
    ∃ (x : Byte) (t : State), e.wire[e.pos]? = some x ∧ s.handle .txReady = .next t.encoderLoad ∧
      t.env = { s.env with sent := s.env.sent ++ [x] } ∧ s.MemorySame t ∧
      (e.pos + 1 < e.wire.length → t = { s with enc := { e with pos := e.pos + 1 }, env := t.env }) ∧
      (e.pos + 1 = e.wire.length → t.enc = idle ∧ s.PoolSameBut t e.buf ∧
        t = { s with enc := idle, env := t.env, pool := t.pool, event := t.event } ∧
        (e.kind = .i → e.orphan = true → t.desc e.buf = { s.desc e.buf with state := .free } ∧
          s.EventsAdded t (fun i => i = 2)) ∧
        (e.kind = .i → e.orphan = false → s.bstate e.buf = .pendTx →
          t.desc e.buf = { s.desc e.buf with state := .pendAck } ∧ t.event = s.event) ∧
        (e.kind ≠ .i ∨ (e.orphan = false ∧ s.bstate e.buf ≠ .pendTx) →
          t.desc e.buf = s.desc e.buf ∧ t.event = s.event))

/-- A loaded frame is handed over to its end: no step but a reset changes its bytes or its place, except that `TxByte`
hands over the next one (40_framecodec.md R140). -/
def Obligations.FrameNeverTruncated : Prop :=
  ∀ (s t : State) (e : PortEvent), s.enc.active = true → s.handle e = .next t → ¬ e.IsReset →
    (e ≠ .txReady → t.env.sent = s.env.sent ∧ t.enc.active = true ∧ t.enc.wire = s.enc.wire ∧ t.enc.pos = s.enc.pos ∧
      t.enc.kind = s.enc.kind ∧ t.enc.seq = s.enc.seq ∧ t.enc.buf = s.enc.buf) ∧
    (e = .txReady → s.enc.pos + 1 < s.enc.wire.length →
      t.env.sent = s.env.sent ++ [s.txData] ∧ t.enc = { s.enc with pos := s.enc.pos + 1 })

/-! ### Host bus -/

/-- Reading a register returns its value; only a read of EVENT has a side effect, and clears it (45_host_interface.md
R335). -/
def Obligations.RegisterReads : Prop :=
  ∀ (s : State) (a : BitVec 20) (v : Nat), s.Legal → (a.toNat, v) ∈ s.registerTable →
    ∃ t, s.handle (.hostRead a 2) = .next t ∧ t.env.reads = s.env.reads ++ [BitVec.ofNat 32 v] ∧ v < 2 ^ 32 ∧
      s.MemorySame t ∧ t = { s with event := if a = 0x024 then 0 else s.event, env := { s.env with reads := t.env.reads } }

/-- Writing a register (45_host_interface.md R336): the configuration lock, the legalised values, and the registers
that ignore writes. A write of CMD is `Obligations.StepRunsCommand`. -/
def Obligations.RegisterWrites : Prop :=
  ∀ (s : State) (v : Word), s.SizesLegal →
    let half := v.toNat % 65536
    let locked (a : BitVec 20) := s.conn ≠ .disconnected → ∃ t, s.handle (.hostWrite a 2 v) = .next t.encoderLoad ∧
      s.EventsAdded t (fun i => i = 9) ∧ t = { s with event := t.event }
    let stores (a : BitVec 20) (t : State) := s.handle (.hostWrite a 2 v) = .next t.encoderLoad
    locked 0x008 ∧ locked 0x00C ∧ locked 0x010 ∧ locked 0x014 ∧
    (s.conn = .disconnected →
      (∃ t, stores 0x008 t ∧ t.cfg.fcsMode.num = v.toNat % 4 ∧
        t.cfg.window.toNat = (if v.toNat / 4 % 8 = 0 then 1 else v.toNat / 4 % 8) ∧
        t.cfg.maxRetries.toNat = v.toNat / 256 % 256 ∧
        t = { s with cfg := { s.cfg with
          fcsMode := t.cfg.fcsMode, window := t.cfg.window, maxRetries := t.cfg.maxRetries } }) ∧
      (∃ t, stores 0x00C t ∧ t.cfg.mtu.toNat = (if half = 0 then 1 else min half s.params.bufcap) ∧
        t = { s with cfg := { s.cfg with mtu := t.cfg.mtu } }) ∧
      (∃ t, stores 0x010 t ∧ t.cfg.timeout.toNat = (if half = 0 then 1 else half) ∧
        t = { s with cfg := { s.cfg with timeout := t.cfg.timeout } }) ∧
      (∃ t, stores 0x014 t ∧ t.cfg.ackDelay.toNat = half ∧
        t = { s with cfg := { s.cfg with ackDelay := t.cfg.ackDelay } })) ∧
    (∃ t, stores 0x018 t ∧ exec (decodeCommand v) s = .next t) ∧
    (∃ t, stores 0x028 t ∧ t.irqEn.toNat = v.toNat % 2048 ∧ t = { s with irqEn := t.irqEn }) ∧
    stores 0x02C { s with cntLost := 0 } ∧ stores 0x030 { s with cntOversize := 0 } ∧
    stores 0x000 s ∧ stores 0x004 s ∧ stores 0x01C s ∧ stores 0x020 s ∧ stores 0x024 s ∧ stores 0x034 s ∧
    (∀ i, i < s.nbuf → stores (BitVec.ofNat 20 (0x100 + 4 * i)) s)

/-- A bus error reads 0, writes nothing, and sets BUS_ERR (20_memory.md R73, R75, R76). -/
def Obligations.BusErrors : Prop :=
  ∀ (s : State) (a : BitVec 20) (z : BitVec 2) (v : Word), s.BusError a z →
    (∃ t, s.handle (.hostRead a z) = .next t.encoderLoad ∧ t.env.reads = s.env.reads ++ [0] ∧
      s.EventsAdded t (fun i => i = 10) ∧ s.MemorySame t ∧
      t = { s with event := t.event, env := { s.env with reads := t.env.reads } }) ∧
    (∃ t, s.handle (.hostWrite a z v) = .next t.encoderLoad ∧ s.EventsAdded t (fun i => i = 10) ∧ s.MemorySame t ∧
      t = { s with event := t.event })

/-- An access to a buffer the host does not hold reads 0, writes nothing, and sets OWN_ERR (20_memory.md R77). -/
def Obligations.OwnershipErrors : Prop :=
  ∀ (s : State) (a : BitVec 20) (z : BitVec 2) (v : Word), ¬ s.BusError a z → 0x10000 ≤ a.toNat →
    s.bstate ((a.toNat - 0x10000) / 0x1000) ≠ .app →
    (∃ t, s.handle (.hostRead a z) = .next t.encoderLoad ∧ t.env.reads = s.env.reads ++ [0] ∧
      s.EventsAdded t (fun i => i = 8) ∧ s.MemorySame t ∧
      t = { s with event := t.event, env := { s.env with reads := t.env.reads } }) ∧
    (∃ t, s.handle (.hostWrite a z v) = .next t.encoderLoad ∧ s.EventsAdded t (fun i => i = 8) ∧ s.MemorySame t ∧
      t = { s with event := t.event })

/-- A performed access to a buffer the host holds moves its bytes, lowest address in the lowest lane, and does nothing
else (20_memory.md R74, R78). -/
def Obligations.BufferAccess : Prop :=
  ∀ (s : State) (a : BitVec 20) (z : BitVec 2) (v : Word), s.Legal → ¬ s.BusError a z → 0x10000 ≤ a.toNat →
    s.bstate ((a.toNat - 0x10000) / 0x1000) = .app →
    let i := (a.toNat - 0x10000) / 0x1000
    let j := a.toNat % 0x1000
    let n := 2 ^ z.toNat
    bufAddr i j = a.toNat ∧
    (∃ t, s.handle (.hostRead a z) = .next t ∧
      (∃ x : Word, t.env.reads = s.env.reads ++ [x] ∧
        ∀ k, k < 4 → x.extractLsb' (8 * k) 8 = if k < n then s.bufRead i (j + k) else 0) ∧
      s.MemorySame t ∧ t = { s with env := { s.env with reads := t.env.reads } }) ∧
    (∃ t, s.handle (.hostWrite a z v) = .next t ∧
      (∀ k, k < n → t.bufRead i (j + k) = v.extractLsb' (8 * k) 8) ∧ s.MemorySameOutside t (bufAddr i j) n ∧
      t = { s with bmem := t.bmem })

/-- The interrupt output is 1 exactly when some event is set and enabled, and goes to 0 only at a read of EVENT, a
write of IRQ_EN or a reset (45_host_interface.md R337). -/
def Obligations.InterruptLevel : Prop :=
  (∀ s : State, s.irq = true ↔ ∃ i, s.event.getLsbD i = true ∧ s.irqEn.getLsbD i = true) ∧
  (∀ (s t : State) (e : PortEvent), s.handle e = .next t → s.irq = true → t.irq = false →
    e = .hostRead 0x024 2 ∨ (∃ v, e = .hostWrite 0x028 2 v) ∨ e.IsReset)

/-! ### Rules about every step -/

/-- An EVENT bit, once set, is cleared only by a read of EVENT or by a reset (10_state.md R35, 60_exceptions.md
R364). -/
def Obligations.EventsSticky : Prop :=
  ∀ (s t : State) (e : PortEvent) (i : Nat), s.handle e = .next t → ¬ e.IsReset → e ≠ .hostRead 0x024 2 →
    s.event.getLsbD i = true → t.event.getLsbD i = true

/-- Every change of a buffer's ownership state is one of the table's, made by its cause (42_buffer_pool.md R204); a
received frame may free a buffer and deliver into it in one step, two of the table's changes. -/
def Obligations.OwnershipTransitions : Prop :=
  ∀ (s t : State) (e : PortEvent) (i : Nat), s.Legal → s.handle e = .next t → t.bstate i ≠ s.bstate i →
    let received := ∃ x, e = .rxByte x
    (t.bstate i = .free ∧ e.IsReset) ∨
    (s.bstate i = .free ∧ t.bstate i = .app ∧ e.IsCommand 0x01) ∨
    (s.bstate i = .app ∧ t.bstate i = .free ∧ e.IsCommand 0x02) ∨
    (s.bstate i = .app ∧ t.bstate i = .pendTx ∧ e.IsCommand 0x03) ∨
    (s.bstate i = .delivered ∧ t.bstate i = .app ∧ e.IsCommand 0x04) ∨
    (s.pending i ∧ t.bstate i = .free ∧ (e.IsCommand 0x06 ∨ received ∨ e = .tick ∨ e = .txReady)) ∨
    (s.bstate i = .pendTx ∧ t.bstate i = .pendAck ∧ e = .txReady) ∨
    ((s.bstate i = .free ∨ s.pending i) ∧ t.bstate i = .delivered ∧ received)

/-- A buffer that becomes FREE otherwise than by a reset sets POOL_FREED (42_buffer_pool.md R205). -/
def Obligations.FreeingIsSignalled : Prop :=
  ∀ (s t : State) (e : PortEvent) (i : Nat), s.handle e = .next t → ¬ e.IsReset → s.bstate i ≠ .free →
    t.bstate i = .free → t.event.getLsbD 2 = true

/-- Every change of the connection state is one of the table's, made by its cause and reported as it says
(43_arq_connection.md R238). -/
def Obligations.ConnectionTransitions : Prop :=
  ∀ (s t : State) (e : PortEvent), s.Legal → s.handle e = .next t → t.conn ≠ s.conn →
    let sabm := ∃ pf, s.Receives e (.sabm pf [])
    let ua := ∃ pf, s.Receives e (.ua pf [])
    let disc := ∃ pf, s.Receives e (.disc pf [])
    (s.conn = .disconnected ∧ t.conn = .connecting ∧ e.IsCommand 0x05) ∨
    (s.conn = .disconnected ∧ t.conn = .connected ∧ sabm) ∨
    (s.conn = .connecting ∧ t.conn = .connected ∧ (ua ∨ sabm)) ∨
    (s.conn = .connecting ∧ t.conn = .disconnecting ∧ e.IsCommand 0x06) ∨
    (s.conn = .connecting ∧ t.conn = .disconnected ∧ t.event.getLsbD 6 = true ∧
      (disc ∨ (e = .tick ∧ s.retry = s.cfg.maxRetries))) ∨
    (s.conn = .connected ∧ t.conn = .disconnecting ∧ e.IsCommand 0x06) ∨
    (s.conn = .connected ∧ t.conn = .disconnected ∧
      (disc ∨ (e = .tick ∧ s.retry = s.cfg.maxRetries ∧ t.event.getLsbD 5 = true))) ∨
    (s.conn = .disconnecting ∧ t.conn = .disconnected ∧
      (ua ∨ disc ∨ (e = .tick ∧ s.retry = s.cfg.maxRetries))) ∨
    (t.conn = .disconnected ∧ t.event = 0 ∧ e.IsReset)

/-- The construction-time parameters, the number of buffers among them, never change (42_buffer_pool.md R206,
00_scope.md R7). -/
def Obligations.ParametersConstant : Prop :=
  ∀ s t : State, step s = .next t → t.params = s.params ∧ t.nbuf = s.nbuf

/-- In-order, duplicate-free delivery (44_arq_data.md R300): a step adds to the delivered queue only the payload of a
received I-frame with N(S) = V(R), one buffer at its end, and then V(R) advances by one in the same connection.
Otherwise the queue only loses its head to READ or is emptied by a reset, and V(R) is kept, or restarts at 0 with the
connection: at a change of the connection state, or at a SABM received while CONNECTED. -/
def Obligations.InOrderDelivery : Prop :=
  ∀ (s t : State) (e : PortEvent), s.Legal → s.handle e = .next t →
    let restarts := t.conn ≠ s.conn ∨ (s.conn = .connected ∧ ∃ pf, s.Receives e (.sabm pf []))
    (t.rxq = s.rxq ∧ (t.vr = s.vr ∨ (t.vr = 0 ∧ restarts))) ∨
    (e.IsCommand 0x04 ∧ s.rxq ≠ [] ∧ t.rxq = s.rxq.tail ∧ t.vr = s.vr) ∨
    (e.IsReset ∧ t.rxq = [] ∧ t.vr = 0) ∨
    (∃ nr pf info b, s.Receives e (.iFrame s.vr nr pf info) ∧ s.conn = .connected ∧ t.conn = .connected ∧ b < s.nbuf ∧
      t.rxq = s.rxq ++ [b] ∧ t.vr = s.vr + 1 ∧ t.bstate b = .delivered ∧ (t.blen b).toNat = info.length ∧
      ∀ j, j < info.length → some (t.bufRead b j) = info[j]?)

/-- One writer for each buffer (42_buffer_pool.md R204, 20_memory.md R79): a step changes a buffer's bytes only if it
is a host write and the host holds the buffer, or if it delivers a received frame into the buffer. -/
def Obligations.SingleWriter : Prop :=
  ∀ (s t : State) (e : PortEvent) (i j : Nat), s.Legal → s.handle e = .next t → i < s.nbuf → j < s.params.bufcap →
    t.bufRead i j ≠ s.bufRead i j →
    (s.bstate i = .app ∧ t.bstate i = .app ∧ ∃ a z v, e = .hostWrite a z v) ∨
    (s.bstate i ≠ .delivered ∧ s.bstate i ≠ .app ∧ t.bstate i = .delivered ∧ ∃ x, e = .rxByte x)

/-- The reset state is legal (10_state.md R54). Its size is the model's choice (log 1). -/
def Obligations.LegalAtReset : Prop := State.reset.Legal

/-- Every step keeps a legal state legal (10_state.md R54, the invariants of its six items and those they rest on). -/
def Obligations.LegalKeptByEveryStep : Prop :=
  ∀ s t : State, s.Legal → step s = .next t → t.Legal

/-! ### Two instances -/

/-- Two blocks with the same checksums, both DISCONNECTED, shake hands: after CONNECT on one side and both directions
carried, both are CONNECTED at sequence number 0 (43_arq_connection.md R230, R235, R236, 60_exceptions.md R374). -/
def Obligations.Handshake : Prop :=
  ∀ (p : Pair) (n : Nat), p.a.Legal → p.b.Legal → p.a.params.SameChecks p.b.params → p.a.cfg.fcsMode = p.b.cfg.fcsMode →
    p.a.conn = .disconnected → p.b.conn = .disconnected → p.a.enc.active = false → p.b.enc.active = false →
    p.a.rx.acc = [] → p.a.rx.state ≠ .esc → p.b.rx.acc = [] → p.b.rx.state ≠ .esc → 12 ≤ n →
    ∃ p1 p2 p3, p.handle .a (.hostWrite 0x018 2 (commandWord 0x05 0 0)) = .next p1 ∧ p1.link .a n = .next p2 ∧
      p2.link .b n = .next p3 ∧ p3.a.conn = .connected ∧ p3.b.conn = .connected ∧
      p3.a.vs = 0 ∧ p3.a.vr = 0 ∧ p3.a.va = 0 ∧ p3.b.vs = 0 ∧ p3.b.vr = 0 ∧ p3.b.va = 0 ∧
      p3.a.event.getLsbD 3 = true ∧ p3.b.event.getLsbD 3 = true ∧ p3.a.enc.active = false ∧ p3.b.enc.active = false

/-- A payload crosses the link: between two CONNECTED blocks with nothing outstanding and nothing due, what one side
sends the other delivers, byte for byte, into its FREE buffer of least index (44_arq_data.md R270, R281,
40_framecodec.md R156, 60_exceptions.md R374). -/
def Obligations.PayloadCrossesTheLink : Prop :=
  ∀ (p : Pair) (n : Nat) (src : BitVec 8) (len : BitVec 16) (dst : Nat),
    p.a.Legal → p.b.Legal → p.a.params.SameChecks p.b.params → p.a.cfg.fcsMode = p.b.cfg.fcsMode →
    p.a.conn = .connected → p.b.conn = .connected → p.a.enc.active = false → p.b.enc.active = false →
    p.b.rx.acc = [] → p.b.rx.state ≠ .esc → p.a.vs = p.a.va → p.b.vs = p.b.va →
    p.a.vs = p.b.vr → p.a.vr = p.b.va →
    src.toNat < p.a.nbuf → p.a.bstate src.toNat = .app → len.toNat ≤ p.a.cfg.mtu.toNat →
    len.toNat ≤ p.b.cfg.mtu.toNat →
    dst < p.b.nbuf → p.b.bstate dst = .free → (∀ i, i < dst → p.b.bstate i ≠ .free) →
    2 + 2 * (1 + len.toNat + p.a.cfg.fcsMode.fcsLen) ≤ n →
    ∃ p1 p2, p.handle .a (.hostWrite 0x018 2 (commandWord 0x03 src len)) = .next p1 ∧ p1.link .a n = .next p2 ∧
      p2.b.rxq = p.b.rxq ++ [dst] ∧ p2.b.bstate dst = .delivered ∧ p2.b.blen dst = len ∧
      p2.b.vr = p.b.vr + 1 ∧ p2.a.vs = p.a.vs + 1 ∧ p2.a.bstate src.toNat = .pendAck ∧
      ∀ j, j < len.toNat → p2.b.bufRead dst j = p.a.bufRead src.toNat j
end

