-- ==== Sys2Proof/Laws/State.lean ====
section
/-! SUPPORT. One lemma for each field of State and each plain update, true by rfl, and the same for the accessors
`slot`, `desc`, `bstate`, `blen` and `nbuf`. -/

namespace Sys2Proof.Machine

variable (s : State)

/-! ### `State.signal` -/

@[simp] theorem signal_params (e : Event) : (s.signal e).params = s.params := rfl
@[simp] theorem signal_cfg (e : Event) : (s.signal e).cfg = s.cfg := rfl
@[simp] theorem signal_irqEn (e : Event) : (s.signal e).irqEn = s.irqEn := rfl
@[simp] theorem signal_result (e : Event) : (s.signal e).result = s.result := rfl
@[simp] theorem signal_event (e : Event) : (s.signal e).event = s.event ||| e.flag := rfl
@[simp] theorem signal_cntLost (e : Event) : (s.signal e).cntLost = s.cntLost := rfl
@[simp] theorem signal_cntOversize (e : Event) : (s.signal e).cntOversize = s.cntOversize := rfl
@[simp] theorem signal_conn (e : Event) : (s.signal e).conn = s.conn := rfl
@[simp] theorem signal_vs (e : Event) : (s.signal e).vs = s.vs := rfl
@[simp] theorem signal_vr (e : Event) : (s.signal e).vr = s.vr := rfl
@[simp] theorem signal_va (e : Event) : (s.signal e).va = s.va := rfl
@[simp] theorem signal_slots (e : Event) : (s.signal e).slots = s.slots := rfl
@[simp] theorem signal_retry (e : Event) : (s.signal e).retry = s.retry := rfl
@[simp] theorem signal_uTimer (e : Event) : (s.signal e).uTimer = s.uTimer := rfl
@[simp] theorem signal_ackPending (e : Event) : (s.signal e).ackPending = s.ackPending := rfl
@[simp] theorem signal_ackTimer (e : Event) : (s.signal e).ackTimer = s.ackTimer := rfl
@[simp] theorem signal_rejPending (e : Event) : (s.signal e).rejPending = s.rejPending := rfl
@[simp] theorem signal_uaPending (e : Event) : (s.signal e).uaPending = s.uaPending := rfl
@[simp] theorem signal_sabmPending (e : Event) : (s.signal e).sabmPending = s.sabmPending := rfl
@[simp] theorem signal_discPending (e : Event) : (s.signal e).discPending = s.discPending := rfl
@[simp] theorem signal_pool (e : Event) : (s.signal e).pool = s.pool := rfl
@[simp] theorem signal_bmem (e : Event) : (s.signal e).bmem = s.bmem := rfl
@[simp] theorem signal_rxq (e : Event) : (s.signal e).rxq = s.rxq := rfl
@[simp] theorem signal_enc (e : Event) : (s.signal e).enc = s.enc := rfl
@[simp] theorem signal_rx (e : Event) : (s.signal e).rx = s.rx := rfl
@[simp] theorem signal_env (e : Event) : (s.signal e).env = s.env := rfl
@[simp] theorem signal_slot (e : Event) (q' : SeqNum) : (s.signal e).slot q' = s.slot q' := rfl
@[simp] theorem signal_desc (e : Event) (i' : Nat) : (s.signal e).desc i' = s.desc i' := rfl
@[simp] theorem signal_bstate (e : Event) (i' : Nat) : (s.signal e).bstate i' = s.bstate i' := rfl
@[simp] theorem signal_blen (e : Event) (i' : Nat) : (s.signal e).blen i' = s.blen i' := rfl
@[simp] theorem signal_nbuf (e : Event) : (s.signal e).nbuf = s.nbuf := rfl

/-! ### `State.setResult` -/

@[simp] theorem setResult_params (c : Code) (b : BitVec 8) (n : BitVec 16) : (s.setResult c b n).params = s.params := rfl
@[simp] theorem setResult_cfg (c : Code) (b : BitVec 8) (n : BitVec 16) : (s.setResult c b n).cfg = s.cfg := rfl
@[simp] theorem setResult_irqEn (c : Code) (b : BitVec 8) (n : BitVec 16) : (s.setResult c b n).irqEn = s.irqEn := rfl
@[simp] theorem setResult_result (c : Code) (b : BitVec 8) (n : BitVec 16) : (s.setResult c b n).result = resultWord c b n := rfl
@[simp] theorem setResult_event (c : Code) (b : BitVec 8) (n : BitVec 16) : (s.setResult c b n).event = s.event := rfl
@[simp] theorem setResult_cntLost (c : Code) (b : BitVec 8) (n : BitVec 16) : (s.setResult c b n).cntLost = s.cntLost := rfl
@[simp] theorem setResult_cntOversize (c : Code) (b : BitVec 8) (n : BitVec 16) : (s.setResult c b n).cntOversize = s.cntOversize := rfl
@[simp] theorem setResult_conn (c : Code) (b : BitVec 8) (n : BitVec 16) : (s.setResult c b n).conn = s.conn := rfl
@[simp] theorem setResult_vs (c : Code) (b : BitVec 8) (n : BitVec 16) : (s.setResult c b n).vs = s.vs := rfl
@[simp] theorem setResult_vr (c : Code) (b : BitVec 8) (n : BitVec 16) : (s.setResult c b n).vr = s.vr := rfl
@[simp] theorem setResult_va (c : Code) (b : BitVec 8) (n : BitVec 16) : (s.setResult c b n).va = s.va := rfl
@[simp] theorem setResult_slots (c : Code) (b : BitVec 8) (n : BitVec 16) : (s.setResult c b n).slots = s.slots := rfl
@[simp] theorem setResult_retry (c : Code) (b : BitVec 8) (n : BitVec 16) : (s.setResult c b n).retry = s.retry := rfl
@[simp] theorem setResult_uTimer (c : Code) (b : BitVec 8) (n : BitVec 16) : (s.setResult c b n).uTimer = s.uTimer := rfl
@[simp] theorem setResult_ackPending (c : Code) (b : BitVec 8) (n : BitVec 16) : (s.setResult c b n).ackPending = s.ackPending := rfl
@[simp] theorem setResult_ackTimer (c : Code) (b : BitVec 8) (n : BitVec 16) : (s.setResult c b n).ackTimer = s.ackTimer := rfl
@[simp] theorem setResult_rejPending (c : Code) (b : BitVec 8) (n : BitVec 16) : (s.setResult c b n).rejPending = s.rejPending := rfl
@[simp] theorem setResult_uaPending (c : Code) (b : BitVec 8) (n : BitVec 16) : (s.setResult c b n).uaPending = s.uaPending := rfl
@[simp] theorem setResult_sabmPending (c : Code) (b : BitVec 8) (n : BitVec 16) : (s.setResult c b n).sabmPending = s.sabmPending := rfl
@[simp] theorem setResult_discPending (c : Code) (b : BitVec 8) (n : BitVec 16) : (s.setResult c b n).discPending = s.discPending := rfl
@[simp] theorem setResult_pool (c : Code) (b : BitVec 8) (n : BitVec 16) : (s.setResult c b n).pool = s.pool := rfl
@[simp] theorem setResult_bmem (c : Code) (b : BitVec 8) (n : BitVec 16) : (s.setResult c b n).bmem = s.bmem := rfl
@[simp] theorem setResult_rxq (c : Code) (b : BitVec 8) (n : BitVec 16) : (s.setResult c b n).rxq = s.rxq := rfl
@[simp] theorem setResult_enc (c : Code) (b : BitVec 8) (n : BitVec 16) : (s.setResult c b n).enc = s.enc := rfl
@[simp] theorem setResult_rx (c : Code) (b : BitVec 8) (n : BitVec 16) : (s.setResult c b n).rx = s.rx := rfl
@[simp] theorem setResult_env (c : Code) (b : BitVec 8) (n : BitVec 16) : (s.setResult c b n).env = s.env := rfl
@[simp] theorem setResult_slot (c : Code) (b : BitVec 8) (n : BitVec 16) (q' : SeqNum) : (s.setResult c b n).slot q' = s.slot q' := rfl
@[simp] theorem setResult_desc (c : Code) (b : BitVec 8) (n : BitVec 16) (i' : Nat) : (s.setResult c b n).desc i' = s.desc i' := rfl
@[simp] theorem setResult_bstate (c : Code) (b : BitVec 8) (n : BitVec 16) (i' : Nat) : (s.setResult c b n).bstate i' = s.bstate i' := rfl
@[simp] theorem setResult_blen (c : Code) (b : BitVec 8) (n : BitVec 16) (i' : Nat) : (s.setResult c b n).blen i' = s.blen i' := rfl
@[simp] theorem setResult_nbuf (c : Code) (b : BitVec 8) (n : BitVec 16) : (s.setResult c b n).nbuf = s.nbuf := rfl

/-! ### `State.setDesc` -/

@[simp] theorem setDesc_params (i : Nat) (d : BufDesc) : (s.setDesc i d).params = s.params := rfl
@[simp] theorem setDesc_cfg (i : Nat) (d : BufDesc) : (s.setDesc i d).cfg = s.cfg := rfl
@[simp] theorem setDesc_irqEn (i : Nat) (d : BufDesc) : (s.setDesc i d).irqEn = s.irqEn := rfl
@[simp] theorem setDesc_result (i : Nat) (d : BufDesc) : (s.setDesc i d).result = s.result := rfl
@[simp] theorem setDesc_event (i : Nat) (d : BufDesc) : (s.setDesc i d).event = s.event := rfl
@[simp] theorem setDesc_cntLost (i : Nat) (d : BufDesc) : (s.setDesc i d).cntLost = s.cntLost := rfl
@[simp] theorem setDesc_cntOversize (i : Nat) (d : BufDesc) : (s.setDesc i d).cntOversize = s.cntOversize := rfl
@[simp] theorem setDesc_conn (i : Nat) (d : BufDesc) : (s.setDesc i d).conn = s.conn := rfl
@[simp] theorem setDesc_vs (i : Nat) (d : BufDesc) : (s.setDesc i d).vs = s.vs := rfl
@[simp] theorem setDesc_vr (i : Nat) (d : BufDesc) : (s.setDesc i d).vr = s.vr := rfl
@[simp] theorem setDesc_va (i : Nat) (d : BufDesc) : (s.setDesc i d).va = s.va := rfl
@[simp] theorem setDesc_slots (i : Nat) (d : BufDesc) : (s.setDesc i d).slots = s.slots := rfl
@[simp] theorem setDesc_retry (i : Nat) (d : BufDesc) : (s.setDesc i d).retry = s.retry := rfl
@[simp] theorem setDesc_uTimer (i : Nat) (d : BufDesc) : (s.setDesc i d).uTimer = s.uTimer := rfl
@[simp] theorem setDesc_ackPending (i : Nat) (d : BufDesc) : (s.setDesc i d).ackPending = s.ackPending := rfl
@[simp] theorem setDesc_ackTimer (i : Nat) (d : BufDesc) : (s.setDesc i d).ackTimer = s.ackTimer := rfl
@[simp] theorem setDesc_rejPending (i : Nat) (d : BufDesc) : (s.setDesc i d).rejPending = s.rejPending := rfl
@[simp] theorem setDesc_uaPending (i : Nat) (d : BufDesc) : (s.setDesc i d).uaPending = s.uaPending := rfl
@[simp] theorem setDesc_sabmPending (i : Nat) (d : BufDesc) : (s.setDesc i d).sabmPending = s.sabmPending := rfl
@[simp] theorem setDesc_discPending (i : Nat) (d : BufDesc) : (s.setDesc i d).discPending = s.discPending := rfl
@[simp] theorem setDesc_pool (i : Nat) (d : BufDesc) : (s.setDesc i d).pool = s.pool.set i d := rfl
@[simp] theorem setDesc_bmem (i : Nat) (d : BufDesc) : (s.setDesc i d).bmem = s.bmem := rfl
@[simp] theorem setDesc_rxq (i : Nat) (d : BufDesc) : (s.setDesc i d).rxq = s.rxq := rfl
@[simp] theorem setDesc_enc (i : Nat) (d : BufDesc) : (s.setDesc i d).enc = s.enc := rfl
@[simp] theorem setDesc_rx (i : Nat) (d : BufDesc) : (s.setDesc i d).rx = s.rx := rfl
@[simp] theorem setDesc_env (i : Nat) (d : BufDesc) : (s.setDesc i d).env = s.env := rfl
@[simp] theorem setDesc_slot (i : Nat) (d : BufDesc) (q' : SeqNum) : (s.setDesc i d).slot q' = s.slot q' := rfl

/-! ### `State.setBstate` -/

@[simp] theorem setBstate_params (i : Nat) (b : BufState) : (s.setBstate i b).params = s.params := rfl
@[simp] theorem setBstate_cfg (i : Nat) (b : BufState) : (s.setBstate i b).cfg = s.cfg := rfl
@[simp] theorem setBstate_irqEn (i : Nat) (b : BufState) : (s.setBstate i b).irqEn = s.irqEn := rfl
@[simp] theorem setBstate_result (i : Nat) (b : BufState) : (s.setBstate i b).result = s.result := rfl
@[simp] theorem setBstate_event (i : Nat) (b : BufState) : (s.setBstate i b).event = s.event := rfl
@[simp] theorem setBstate_cntLost (i : Nat) (b : BufState) : (s.setBstate i b).cntLost = s.cntLost := rfl
@[simp] theorem setBstate_cntOversize (i : Nat) (b : BufState) : (s.setBstate i b).cntOversize = s.cntOversize := rfl
@[simp] theorem setBstate_conn (i : Nat) (b : BufState) : (s.setBstate i b).conn = s.conn := rfl
@[simp] theorem setBstate_vs (i : Nat) (b : BufState) : (s.setBstate i b).vs = s.vs := rfl
@[simp] theorem setBstate_vr (i : Nat) (b : BufState) : (s.setBstate i b).vr = s.vr := rfl
@[simp] theorem setBstate_va (i : Nat) (b : BufState) : (s.setBstate i b).va = s.va := rfl
@[simp] theorem setBstate_slots (i : Nat) (b : BufState) : (s.setBstate i b).slots = s.slots := rfl
@[simp] theorem setBstate_retry (i : Nat) (b : BufState) : (s.setBstate i b).retry = s.retry := rfl
@[simp] theorem setBstate_uTimer (i : Nat) (b : BufState) : (s.setBstate i b).uTimer = s.uTimer := rfl
@[simp] theorem setBstate_ackPending (i : Nat) (b : BufState) : (s.setBstate i b).ackPending = s.ackPending := rfl
@[simp] theorem setBstate_ackTimer (i : Nat) (b : BufState) : (s.setBstate i b).ackTimer = s.ackTimer := rfl
@[simp] theorem setBstate_rejPending (i : Nat) (b : BufState) : (s.setBstate i b).rejPending = s.rejPending := rfl
@[simp] theorem setBstate_uaPending (i : Nat) (b : BufState) : (s.setBstate i b).uaPending = s.uaPending := rfl
@[simp] theorem setBstate_sabmPending (i : Nat) (b : BufState) : (s.setBstate i b).sabmPending = s.sabmPending := rfl
@[simp] theorem setBstate_discPending (i : Nat) (b : BufState) : (s.setBstate i b).discPending = s.discPending := rfl
@[simp] theorem setBstate_pool (i : Nat) (b : BufState) : (s.setBstate i b).pool = s.pool.set i { s.desc i with state := b } := rfl
@[simp] theorem setBstate_bmem (i : Nat) (b : BufState) : (s.setBstate i b).bmem = s.bmem := rfl
@[simp] theorem setBstate_rxq (i : Nat) (b : BufState) : (s.setBstate i b).rxq = s.rxq := rfl
@[simp] theorem setBstate_enc (i : Nat) (b : BufState) : (s.setBstate i b).enc = s.enc := rfl
@[simp] theorem setBstate_rx (i : Nat) (b : BufState) : (s.setBstate i b).rx = s.rx := rfl
@[simp] theorem setBstate_env (i : Nat) (b : BufState) : (s.setBstate i b).env = s.env := rfl
@[simp] theorem setBstate_slot (i : Nat) (b : BufState) (q' : SeqNum) : (s.setBstate i b).slot q' = s.slot q' := rfl

/-! ### `State.setSlot` -/

@[simp] theorem setSlot_params (q : SeqNum) (v : Slot) : (s.setSlot q v).params = s.params := rfl
@[simp] theorem setSlot_cfg (q : SeqNum) (v : Slot) : (s.setSlot q v).cfg = s.cfg := rfl
@[simp] theorem setSlot_irqEn (q : SeqNum) (v : Slot) : (s.setSlot q v).irqEn = s.irqEn := rfl
@[simp] theorem setSlot_result (q : SeqNum) (v : Slot) : (s.setSlot q v).result = s.result := rfl
@[simp] theorem setSlot_event (q : SeqNum) (v : Slot) : (s.setSlot q v).event = s.event := rfl
@[simp] theorem setSlot_cntLost (q : SeqNum) (v : Slot) : (s.setSlot q v).cntLost = s.cntLost := rfl
@[simp] theorem setSlot_cntOversize (q : SeqNum) (v : Slot) : (s.setSlot q v).cntOversize = s.cntOversize := rfl
@[simp] theorem setSlot_conn (q : SeqNum) (v : Slot) : (s.setSlot q v).conn = s.conn := rfl
@[simp] theorem setSlot_vs (q : SeqNum) (v : Slot) : (s.setSlot q v).vs = s.vs := rfl
@[simp] theorem setSlot_vr (q : SeqNum) (v : Slot) : (s.setSlot q v).vr = s.vr := rfl
@[simp] theorem setSlot_va (q : SeqNum) (v : Slot) : (s.setSlot q v).va = s.va := rfl
@[simp] theorem setSlot_slots (q : SeqNum) (v : Slot) : (s.setSlot q v).slots = s.slots.set q.toNat v q.isLt := rfl
@[simp] theorem setSlot_retry (q : SeqNum) (v : Slot) : (s.setSlot q v).retry = s.retry := rfl
@[simp] theorem setSlot_uTimer (q : SeqNum) (v : Slot) : (s.setSlot q v).uTimer = s.uTimer := rfl
@[simp] theorem setSlot_ackPending (q : SeqNum) (v : Slot) : (s.setSlot q v).ackPending = s.ackPending := rfl
@[simp] theorem setSlot_ackTimer (q : SeqNum) (v : Slot) : (s.setSlot q v).ackTimer = s.ackTimer := rfl
@[simp] theorem setSlot_rejPending (q : SeqNum) (v : Slot) : (s.setSlot q v).rejPending = s.rejPending := rfl
@[simp] theorem setSlot_uaPending (q : SeqNum) (v : Slot) : (s.setSlot q v).uaPending = s.uaPending := rfl
@[simp] theorem setSlot_sabmPending (q : SeqNum) (v : Slot) : (s.setSlot q v).sabmPending = s.sabmPending := rfl
@[simp] theorem setSlot_discPending (q : SeqNum) (v : Slot) : (s.setSlot q v).discPending = s.discPending := rfl
@[simp] theorem setSlot_pool (q : SeqNum) (v : Slot) : (s.setSlot q v).pool = s.pool := rfl
@[simp] theorem setSlot_bmem (q : SeqNum) (v : Slot) : (s.setSlot q v).bmem = s.bmem := rfl
@[simp] theorem setSlot_rxq (q : SeqNum) (v : Slot) : (s.setSlot q v).rxq = s.rxq := rfl
@[simp] theorem setSlot_enc (q : SeqNum) (v : Slot) : (s.setSlot q v).enc = s.enc := rfl
@[simp] theorem setSlot_rx (q : SeqNum) (v : Slot) : (s.setSlot q v).rx = s.rx := rfl
@[simp] theorem setSlot_env (q : SeqNum) (v : Slot) : (s.setSlot q v).env = s.env := rfl
@[simp] theorem setSlot_desc (q : SeqNum) (v : Slot) (i' : Nat) : (s.setSlot q v).desc i' = s.desc i' := rfl
@[simp] theorem setSlot_bstate (q : SeqNum) (v : Slot) (i' : Nat) : (s.setSlot q v).bstate i' = s.bstate i' := rfl
@[simp] theorem setSlot_blen (q : SeqNum) (v : Slot) (i' : Nat) : (s.setSlot q v).blen i' = s.blen i' := rfl
@[simp] theorem setSlot_nbuf (q : SeqNum) (v : Slot) : (s.setSlot q v).nbuf = s.nbuf := rfl

/-! ### `State.bufWriteBytes` -/

@[simp] theorem bufWriteBytes_params (i j : Nat) (l : List Byte) : (s.bufWriteBytes i j l).params = s.params := rfl
@[simp] theorem bufWriteBytes_cfg (i j : Nat) (l : List Byte) : (s.bufWriteBytes i j l).cfg = s.cfg := rfl
@[simp] theorem bufWriteBytes_irqEn (i j : Nat) (l : List Byte) : (s.bufWriteBytes i j l).irqEn = s.irqEn := rfl
@[simp] theorem bufWriteBytes_result (i j : Nat) (l : List Byte) : (s.bufWriteBytes i j l).result = s.result := rfl
@[simp] theorem bufWriteBytes_event (i j : Nat) (l : List Byte) : (s.bufWriteBytes i j l).event = s.event := rfl
@[simp] theorem bufWriteBytes_cntLost (i j : Nat) (l : List Byte) : (s.bufWriteBytes i j l).cntLost = s.cntLost := rfl
@[simp] theorem bufWriteBytes_cntOversize (i j : Nat) (l : List Byte) : (s.bufWriteBytes i j l).cntOversize = s.cntOversize := rfl
@[simp] theorem bufWriteBytes_conn (i j : Nat) (l : List Byte) : (s.bufWriteBytes i j l).conn = s.conn := rfl
@[simp] theorem bufWriteBytes_vs (i j : Nat) (l : List Byte) : (s.bufWriteBytes i j l).vs = s.vs := rfl
@[simp] theorem bufWriteBytes_vr (i j : Nat) (l : List Byte) : (s.bufWriteBytes i j l).vr = s.vr := rfl
@[simp] theorem bufWriteBytes_va (i j : Nat) (l : List Byte) : (s.bufWriteBytes i j l).va = s.va := rfl
@[simp] theorem bufWriteBytes_slots (i j : Nat) (l : List Byte) : (s.bufWriteBytes i j l).slots = s.slots := rfl
@[simp] theorem bufWriteBytes_retry (i j : Nat) (l : List Byte) : (s.bufWriteBytes i j l).retry = s.retry := rfl
@[simp] theorem bufWriteBytes_uTimer (i j : Nat) (l : List Byte) : (s.bufWriteBytes i j l).uTimer = s.uTimer := rfl
@[simp] theorem bufWriteBytes_ackPending (i j : Nat) (l : List Byte) : (s.bufWriteBytes i j l).ackPending = s.ackPending := rfl
@[simp] theorem bufWriteBytes_ackTimer (i j : Nat) (l : List Byte) : (s.bufWriteBytes i j l).ackTimer = s.ackTimer := rfl
@[simp] theorem bufWriteBytes_rejPending (i j : Nat) (l : List Byte) : (s.bufWriteBytes i j l).rejPending = s.rejPending := rfl
@[simp] theorem bufWriteBytes_uaPending (i j : Nat) (l : List Byte) : (s.bufWriteBytes i j l).uaPending = s.uaPending := rfl
@[simp] theorem bufWriteBytes_sabmPending (i j : Nat) (l : List Byte) : (s.bufWriteBytes i j l).sabmPending = s.sabmPending := rfl
@[simp] theorem bufWriteBytes_discPending (i j : Nat) (l : List Byte) : (s.bufWriteBytes i j l).discPending = s.discPending := rfl
@[simp] theorem bufWriteBytes_pool (i j : Nat) (l : List Byte) : (s.bufWriteBytes i j l).pool = s.pool := rfl
@[simp] theorem bufWriteBytes_bmem (i j : Nat) (l : List Byte) : (s.bufWriteBytes i j l).bmem = memWriteBytes s.bmem (bufAddr i j) l := rfl
@[simp] theorem bufWriteBytes_rxq (i j : Nat) (l : List Byte) : (s.bufWriteBytes i j l).rxq = s.rxq := rfl
@[simp] theorem bufWriteBytes_enc (i j : Nat) (l : List Byte) : (s.bufWriteBytes i j l).enc = s.enc := rfl
@[simp] theorem bufWriteBytes_rx (i j : Nat) (l : List Byte) : (s.bufWriteBytes i j l).rx = s.rx := rfl
@[simp] theorem bufWriteBytes_env (i j : Nat) (l : List Byte) : (s.bufWriteBytes i j l).env = s.env := rfl
@[simp] theorem bufWriteBytes_slot (i j : Nat) (l : List Byte) (q' : SeqNum) : (s.bufWriteBytes i j l).slot q' = s.slot q' := rfl
@[simp] theorem bufWriteBytes_desc (i j : Nat) (l : List Byte) (i' : Nat) : (s.bufWriteBytes i j l).desc i' = s.desc i' := rfl
@[simp] theorem bufWriteBytes_bstate (i j : Nat) (l : List Byte) (i' : Nat) : (s.bufWriteBytes i j l).bstate i' = s.bstate i' := rfl
@[simp] theorem bufWriteBytes_blen (i j : Nat) (l : List Byte) (i' : Nat) : (s.bufWriteBytes i j l).blen i' = s.blen i' := rfl
@[simp] theorem bufWriteBytes_nbuf (i j : Nat) (l : List Byte) : (s.bufWriteBytes i j l).nbuf = s.nbuf := rfl

/-! ### `State.freeBuffer` -/

@[simp] theorem freeBuffer_params (i : Nat) : (s.freeBuffer i).params = s.params := rfl
@[simp] theorem freeBuffer_cfg (i : Nat) : (s.freeBuffer i).cfg = s.cfg := rfl
@[simp] theorem freeBuffer_irqEn (i : Nat) : (s.freeBuffer i).irqEn = s.irqEn := rfl
@[simp] theorem freeBuffer_result (i : Nat) : (s.freeBuffer i).result = s.result := rfl
@[simp] theorem freeBuffer_event (i : Nat) : (s.freeBuffer i).event = s.event ||| Event.poolFreed.flag := rfl
@[simp] theorem freeBuffer_cntLost (i : Nat) : (s.freeBuffer i).cntLost = s.cntLost := rfl
@[simp] theorem freeBuffer_cntOversize (i : Nat) : (s.freeBuffer i).cntOversize = s.cntOversize := rfl
@[simp] theorem freeBuffer_conn (i : Nat) : (s.freeBuffer i).conn = s.conn := rfl
@[simp] theorem freeBuffer_vs (i : Nat) : (s.freeBuffer i).vs = s.vs := rfl
@[simp] theorem freeBuffer_vr (i : Nat) : (s.freeBuffer i).vr = s.vr := rfl
@[simp] theorem freeBuffer_va (i : Nat) : (s.freeBuffer i).va = s.va := rfl
@[simp] theorem freeBuffer_slots (i : Nat) : (s.freeBuffer i).slots = s.slots := rfl
@[simp] theorem freeBuffer_retry (i : Nat) : (s.freeBuffer i).retry = s.retry := rfl
@[simp] theorem freeBuffer_uTimer (i : Nat) : (s.freeBuffer i).uTimer = s.uTimer := rfl
@[simp] theorem freeBuffer_ackPending (i : Nat) : (s.freeBuffer i).ackPending = s.ackPending := rfl
@[simp] theorem freeBuffer_ackTimer (i : Nat) : (s.freeBuffer i).ackTimer = s.ackTimer := rfl
@[simp] theorem freeBuffer_rejPending (i : Nat) : (s.freeBuffer i).rejPending = s.rejPending := rfl
@[simp] theorem freeBuffer_uaPending (i : Nat) : (s.freeBuffer i).uaPending = s.uaPending := rfl
@[simp] theorem freeBuffer_sabmPending (i : Nat) : (s.freeBuffer i).sabmPending = s.sabmPending := rfl
@[simp] theorem freeBuffer_discPending (i : Nat) : (s.freeBuffer i).discPending = s.discPending := rfl
@[simp] theorem freeBuffer_pool (i : Nat) : (s.freeBuffer i).pool = s.pool.set i { s.desc i with state := .free } := rfl
@[simp] theorem freeBuffer_bmem (i : Nat) : (s.freeBuffer i).bmem = s.bmem := rfl
@[simp] theorem freeBuffer_rxq (i : Nat) : (s.freeBuffer i).rxq = s.rxq := rfl
@[simp] theorem freeBuffer_enc (i : Nat) : (s.freeBuffer i).enc = s.enc := rfl
@[simp] theorem freeBuffer_rx (i : Nat) : (s.freeBuffer i).rx = s.rx := rfl
@[simp] theorem freeBuffer_env (i : Nat) : (s.freeBuffer i).env = s.env := rfl
@[simp] theorem freeBuffer_slot (i : Nat) (q' : SeqNum) : (s.freeBuffer i).slot q' = s.slot q' := rfl

/-! ### `State.markForTx` -/

@[simp] theorem markForTx_params (q : SeqNum) : (s.markForTx q).params = s.params := rfl
@[simp] theorem markForTx_cfg (q : SeqNum) : (s.markForTx q).cfg = s.cfg := rfl
@[simp] theorem markForTx_irqEn (q : SeqNum) : (s.markForTx q).irqEn = s.irqEn := rfl
@[simp] theorem markForTx_result (q : SeqNum) : (s.markForTx q).result = s.result := rfl
@[simp] theorem markForTx_event (q : SeqNum) : (s.markForTx q).event = s.event := rfl
@[simp] theorem markForTx_cntLost (q : SeqNum) : (s.markForTx q).cntLost = s.cntLost := rfl
@[simp] theorem markForTx_cntOversize (q : SeqNum) : (s.markForTx q).cntOversize = s.cntOversize := rfl
@[simp] theorem markForTx_conn (q : SeqNum) : (s.markForTx q).conn = s.conn := rfl
@[simp] theorem markForTx_vs (q : SeqNum) : (s.markForTx q).vs = s.vs := rfl
@[simp] theorem markForTx_vr (q : SeqNum) : (s.markForTx q).vr = s.vr := rfl
@[simp] theorem markForTx_va (q : SeqNum) : (s.markForTx q).va = s.va := rfl
@[simp] theorem markForTx_retry (q : SeqNum) : (s.markForTx q).retry = s.retry := rfl
@[simp] theorem markForTx_uTimer (q : SeqNum) : (s.markForTx q).uTimer = s.uTimer := rfl
@[simp] theorem markForTx_ackPending (q : SeqNum) : (s.markForTx q).ackPending = s.ackPending := rfl
@[simp] theorem markForTx_ackTimer (q : SeqNum) : (s.markForTx q).ackTimer = s.ackTimer := rfl
@[simp] theorem markForTx_rejPending (q : SeqNum) : (s.markForTx q).rejPending = s.rejPending := rfl
@[simp] theorem markForTx_uaPending (q : SeqNum) : (s.markForTx q).uaPending = s.uaPending := rfl
@[simp] theorem markForTx_sabmPending (q : SeqNum) : (s.markForTx q).sabmPending = s.sabmPending := rfl
@[simp] theorem markForTx_discPending (q : SeqNum) : (s.markForTx q).discPending = s.discPending := rfl
@[simp] theorem markForTx_pool (q : SeqNum) : (s.markForTx q).pool = s.pool := rfl
@[simp] theorem markForTx_bmem (q : SeqNum) : (s.markForTx q).bmem = s.bmem := rfl
@[simp] theorem markForTx_rxq (q : SeqNum) : (s.markForTx q).rxq = s.rxq := rfl
@[simp] theorem markForTx_enc (q : SeqNum) : (s.markForTx q).enc = s.enc := rfl
@[simp] theorem markForTx_rx (q : SeqNum) : (s.markForTx q).rx = s.rx := rfl
@[simp] theorem markForTx_env (q : SeqNum) : (s.markForTx q).env = s.env := rfl
@[simp] theorem markForTx_desc (q : SeqNum) (i' : Nat) : (s.markForTx q).desc i' = s.desc i' := rfl
@[simp] theorem markForTx_bstate (q : SeqNum) (i' : Nat) : (s.markForTx q).bstate i' = s.bstate i' := rfl
@[simp] theorem markForTx_blen (q : SeqNum) (i' : Nat) : (s.markForTx q).blen i' = s.blen i' := rfl
@[simp] theorem markForTx_nbuf (q : SeqNum) : (s.markForTx q).nbuf = s.nbuf := rfl

/-! ### `State.restartLink` -/

@[simp] theorem restartLink_params (c : Conn) : (s.restartLink c).params = s.params := rfl
@[simp] theorem restartLink_cfg (c : Conn) : (s.restartLink c).cfg = s.cfg := rfl
@[simp] theorem restartLink_irqEn (c : Conn) : (s.restartLink c).irqEn = s.irqEn := rfl
@[simp] theorem restartLink_result (c : Conn) : (s.restartLink c).result = s.result := rfl
@[simp] theorem restartLink_event (c : Conn) : (s.restartLink c).event = s.event := rfl
@[simp] theorem restartLink_cntLost (c : Conn) : (s.restartLink c).cntLost = s.cntLost := rfl
@[simp] theorem restartLink_cntOversize (c : Conn) : (s.restartLink c).cntOversize = s.cntOversize := rfl
@[simp] theorem restartLink_conn (c : Conn) : (s.restartLink c).conn = c := rfl
@[simp] theorem restartLink_vs (c : Conn) : (s.restartLink c).vs = 0 := rfl
@[simp] theorem restartLink_vr (c : Conn) : (s.restartLink c).vr = 0 := rfl
@[simp] theorem restartLink_va (c : Conn) : (s.restartLink c).va = 0 := rfl
@[simp] theorem restartLink_slots (c : Conn) : (s.restartLink c).slots = s.slots := rfl
@[simp] theorem restartLink_retry (c : Conn) : (s.restartLink c).retry = 0 := rfl
@[simp] theorem restartLink_uTimer (c : Conn) : (s.restartLink c).uTimer = 0 := rfl
@[simp] theorem restartLink_ackPending (c : Conn) : (s.restartLink c).ackPending = false := rfl
@[simp] theorem restartLink_ackTimer (c : Conn) : (s.restartLink c).ackTimer = 0 := rfl
@[simp] theorem restartLink_rejPending (c : Conn) : (s.restartLink c).rejPending = false := rfl
@[simp] theorem restartLink_uaPending (c : Conn) : (s.restartLink c).uaPending = s.uaPending := rfl
@[simp] theorem restartLink_sabmPending (c : Conn) : (s.restartLink c).sabmPending = false := rfl
@[simp] theorem restartLink_discPending (c : Conn) : (s.restartLink c).discPending = false := rfl
@[simp] theorem restartLink_pool (c : Conn) : (s.restartLink c).pool = s.pool := rfl
@[simp] theorem restartLink_bmem (c : Conn) : (s.restartLink c).bmem = s.bmem := rfl
@[simp] theorem restartLink_rxq (c : Conn) : (s.restartLink c).rxq = s.rxq := rfl
@[simp] theorem restartLink_enc (c : Conn) : (s.restartLink c).enc = s.enc := rfl
@[simp] theorem restartLink_rx (c : Conn) : (s.restartLink c).rx = s.rx := rfl
@[simp] theorem restartLink_env (c : Conn) : (s.restartLink c).env = s.env := rfl
@[simp] theorem restartLink_slot (c : Conn) (q' : SeqNum) : (s.restartLink c).slot q' = s.slot q' := rfl
@[simp] theorem restartLink_desc (c : Conn) (i' : Nat) : (s.restartLink c).desc i' = s.desc i' := rfl
@[simp] theorem restartLink_bstate (c : Conn) (i' : Nat) : (s.restartLink c).bstate i' = s.bstate i' := rfl
@[simp] theorem restartLink_blen (c : Conn) (i' : Nat) : (s.restartLink c).blen i' = s.blen i' := rfl
@[simp] theorem restartLink_nbuf (c : Conn) : (s.restartLink c).nbuf = s.nbuf := rfl

/-! ### `State.emit` -/

@[simp] theorem emit_params (b : Byte) : (s.emit b).params = s.params := rfl
@[simp] theorem emit_cfg (b : Byte) : (s.emit b).cfg = s.cfg := rfl
@[simp] theorem emit_irqEn (b : Byte) : (s.emit b).irqEn = s.irqEn := rfl
@[simp] theorem emit_result (b : Byte) : (s.emit b).result = s.result := rfl
@[simp] theorem emit_event (b : Byte) : (s.emit b).event = s.event := rfl
@[simp] theorem emit_cntLost (b : Byte) : (s.emit b).cntLost = s.cntLost := rfl
@[simp] theorem emit_cntOversize (b : Byte) : (s.emit b).cntOversize = s.cntOversize := rfl
@[simp] theorem emit_conn (b : Byte) : (s.emit b).conn = s.conn := rfl
@[simp] theorem emit_vs (b : Byte) : (s.emit b).vs = s.vs := rfl
@[simp] theorem emit_vr (b : Byte) : (s.emit b).vr = s.vr := rfl
@[simp] theorem emit_va (b : Byte) : (s.emit b).va = s.va := rfl
@[simp] theorem emit_slots (b : Byte) : (s.emit b).slots = s.slots := rfl
@[simp] theorem emit_retry (b : Byte) : (s.emit b).retry = s.retry := rfl
@[simp] theorem emit_uTimer (b : Byte) : (s.emit b).uTimer = s.uTimer := rfl
@[simp] theorem emit_ackPending (b : Byte) : (s.emit b).ackPending = s.ackPending := rfl
@[simp] theorem emit_ackTimer (b : Byte) : (s.emit b).ackTimer = s.ackTimer := rfl
@[simp] theorem emit_rejPending (b : Byte) : (s.emit b).rejPending = s.rejPending := rfl
@[simp] theorem emit_uaPending (b : Byte) : (s.emit b).uaPending = s.uaPending := rfl
@[simp] theorem emit_sabmPending (b : Byte) : (s.emit b).sabmPending = s.sabmPending := rfl
@[simp] theorem emit_discPending (b : Byte) : (s.emit b).discPending = s.discPending := rfl
@[simp] theorem emit_pool (b : Byte) : (s.emit b).pool = s.pool := rfl
@[simp] theorem emit_bmem (b : Byte) : (s.emit b).bmem = s.bmem := rfl
@[simp] theorem emit_rxq (b : Byte) : (s.emit b).rxq = s.rxq := rfl
@[simp] theorem emit_enc (b : Byte) : (s.emit b).enc = s.enc := rfl
@[simp] theorem emit_rx (b : Byte) : (s.emit b).rx = s.rx := rfl
@[simp] theorem emit_env (b : Byte) : (s.emit b).env = { s.env with sent := s.env.sent ++ [b] } := rfl
@[simp] theorem emit_slot (b : Byte) (q' : SeqNum) : (s.emit b).slot q' = s.slot q' := rfl
@[simp] theorem emit_desc (b : Byte) (i' : Nat) : (s.emit b).desc i' = s.desc i' := rfl
@[simp] theorem emit_bstate (b : Byte) (i' : Nat) : (s.emit b).bstate i' = s.bstate i' := rfl
@[simp] theorem emit_blen (b : Byte) (i' : Nat) : (s.emit b).blen i' = s.blen i' := rfl
@[simp] theorem emit_nbuf (b : Byte) : (s.emit b).nbuf = s.nbuf := rfl

/-! ### `State.dropEvent` -/

@[simp] theorem dropEvent_params : (s.dropEvent).params = s.params := rfl
@[simp] theorem dropEvent_cfg : (s.dropEvent).cfg = s.cfg := rfl
@[simp] theorem dropEvent_irqEn : (s.dropEvent).irqEn = s.irqEn := rfl
@[simp] theorem dropEvent_result : (s.dropEvent).result = s.result := rfl
@[simp] theorem dropEvent_event : (s.dropEvent).event = s.event := rfl
@[simp] theorem dropEvent_cntLost : (s.dropEvent).cntLost = s.cntLost := rfl
@[simp] theorem dropEvent_cntOversize : (s.dropEvent).cntOversize = s.cntOversize := rfl
@[simp] theorem dropEvent_conn : (s.dropEvent).conn = s.conn := rfl
@[simp] theorem dropEvent_vs : (s.dropEvent).vs = s.vs := rfl
@[simp] theorem dropEvent_vr : (s.dropEvent).vr = s.vr := rfl
@[simp] theorem dropEvent_va : (s.dropEvent).va = s.va := rfl
@[simp] theorem dropEvent_slots : (s.dropEvent).slots = s.slots := rfl
@[simp] theorem dropEvent_retry : (s.dropEvent).retry = s.retry := rfl
@[simp] theorem dropEvent_uTimer : (s.dropEvent).uTimer = s.uTimer := rfl
@[simp] theorem dropEvent_ackPending : (s.dropEvent).ackPending = s.ackPending := rfl
@[simp] theorem dropEvent_ackTimer : (s.dropEvent).ackTimer = s.ackTimer := rfl
@[simp] theorem dropEvent_rejPending : (s.dropEvent).rejPending = s.rejPending := rfl
@[simp] theorem dropEvent_uaPending : (s.dropEvent).uaPending = s.uaPending := rfl
@[simp] theorem dropEvent_sabmPending : (s.dropEvent).sabmPending = s.sabmPending := rfl
@[simp] theorem dropEvent_discPending : (s.dropEvent).discPending = s.discPending := rfl
@[simp] theorem dropEvent_pool : (s.dropEvent).pool = s.pool := rfl
@[simp] theorem dropEvent_bmem : (s.dropEvent).bmem = s.bmem := rfl
@[simp] theorem dropEvent_rxq : (s.dropEvent).rxq = s.rxq := rfl
@[simp] theorem dropEvent_enc : (s.dropEvent).enc = s.enc := rfl
@[simp] theorem dropEvent_rx : (s.dropEvent).rx = s.rx := rfl
@[simp] theorem dropEvent_env : (s.dropEvent).env = { s.env with inbox := s.env.inbox.tail } := rfl
@[simp] theorem dropEvent_slot (q' : SeqNum) : (s.dropEvent).slot q' = s.slot q' := rfl
@[simp] theorem dropEvent_desc (i' : Nat) : (s.dropEvent).desc i' = s.desc i' := rfl
@[simp] theorem dropEvent_bstate (i' : Nat) : (s.dropEvent).bstate i' = s.bstate i' := rfl
@[simp] theorem dropEvent_blen (i' : Nat) : (s.dropEvent).blen i' = s.blen i' := rfl
@[simp] theorem dropEvent_nbuf : (s.dropEvent).nbuf = s.nbuf := rfl

/-! ### `State.offerFirst` -/

@[simp] theorem offerFirst_params (l : List PortEvent) : (s.offerFirst l).params = s.params := rfl
@[simp] theorem offerFirst_cfg (l : List PortEvent) : (s.offerFirst l).cfg = s.cfg := rfl
@[simp] theorem offerFirst_irqEn (l : List PortEvent) : (s.offerFirst l).irqEn = s.irqEn := rfl
@[simp] theorem offerFirst_result (l : List PortEvent) : (s.offerFirst l).result = s.result := rfl
@[simp] theorem offerFirst_event (l : List PortEvent) : (s.offerFirst l).event = s.event := rfl
@[simp] theorem offerFirst_cntLost (l : List PortEvent) : (s.offerFirst l).cntLost = s.cntLost := rfl
@[simp] theorem offerFirst_cntOversize (l : List PortEvent) : (s.offerFirst l).cntOversize = s.cntOversize := rfl
@[simp] theorem offerFirst_conn (l : List PortEvent) : (s.offerFirst l).conn = s.conn := rfl
@[simp] theorem offerFirst_vs (l : List PortEvent) : (s.offerFirst l).vs = s.vs := rfl
@[simp] theorem offerFirst_vr (l : List PortEvent) : (s.offerFirst l).vr = s.vr := rfl
@[simp] theorem offerFirst_va (l : List PortEvent) : (s.offerFirst l).va = s.va := rfl
@[simp] theorem offerFirst_slots (l : List PortEvent) : (s.offerFirst l).slots = s.slots := rfl
@[simp] theorem offerFirst_retry (l : List PortEvent) : (s.offerFirst l).retry = s.retry := rfl
@[simp] theorem offerFirst_uTimer (l : List PortEvent) : (s.offerFirst l).uTimer = s.uTimer := rfl
@[simp] theorem offerFirst_ackPending (l : List PortEvent) : (s.offerFirst l).ackPending = s.ackPending := rfl
@[simp] theorem offerFirst_ackTimer (l : List PortEvent) : (s.offerFirst l).ackTimer = s.ackTimer := rfl
@[simp] theorem offerFirst_rejPending (l : List PortEvent) : (s.offerFirst l).rejPending = s.rejPending := rfl
@[simp] theorem offerFirst_uaPending (l : List PortEvent) : (s.offerFirst l).uaPending = s.uaPending := rfl
@[simp] theorem offerFirst_sabmPending (l : List PortEvent) : (s.offerFirst l).sabmPending = s.sabmPending := rfl
@[simp] theorem offerFirst_discPending (l : List PortEvent) : (s.offerFirst l).discPending = s.discPending := rfl
@[simp] theorem offerFirst_pool (l : List PortEvent) : (s.offerFirst l).pool = s.pool := rfl
@[simp] theorem offerFirst_bmem (l : List PortEvent) : (s.offerFirst l).bmem = s.bmem := rfl
@[simp] theorem offerFirst_rxq (l : List PortEvent) : (s.offerFirst l).rxq = s.rxq := rfl
@[simp] theorem offerFirst_enc (l : List PortEvent) : (s.offerFirst l).enc = s.enc := rfl
@[simp] theorem offerFirst_rx (l : List PortEvent) : (s.offerFirst l).rx = s.rx := rfl
@[simp] theorem offerFirst_env (l : List PortEvent) : (s.offerFirst l).env = { s.env with inbox := l ++ s.env.inbox } := rfl
@[simp] theorem offerFirst_slot (l : List PortEvent) (q' : SeqNum) : (s.offerFirst l).slot q' = s.slot q' := rfl
@[simp] theorem offerFirst_desc (l : List PortEvent) (i' : Nat) : (s.offerFirst l).desc i' = s.desc i' := rfl
@[simp] theorem offerFirst_bstate (l : List PortEvent) (i' : Nat) : (s.offerFirst l).bstate i' = s.bstate i' := rfl
@[simp] theorem offerFirst_blen (l : List PortEvent) (i' : Nat) : (s.offerFirst l).blen i' = s.blen i' := rfl
@[simp] theorem offerFirst_nbuf (l : List PortEvent) : (s.offerFirst l).nbuf = s.nbuf := rfl

/-! ### `State.countTick` -/

@[simp] theorem countTick_params : (s.countTick).params = s.params := rfl
@[simp] theorem countTick_cfg : (s.countTick).cfg = s.cfg := rfl
@[simp] theorem countTick_irqEn : (s.countTick).irqEn = s.irqEn := rfl
@[simp] theorem countTick_result : (s.countTick).result = s.result := rfl
@[simp] theorem countTick_event : (s.countTick).event = s.event := rfl
@[simp] theorem countTick_cntLost : (s.countTick).cntLost = s.cntLost := rfl
@[simp] theorem countTick_cntOversize : (s.countTick).cntOversize = s.cntOversize := rfl
@[simp] theorem countTick_conn : (s.countTick).conn = s.conn := rfl
@[simp] theorem countTick_vs : (s.countTick).vs = s.vs := rfl
@[simp] theorem countTick_vr : (s.countTick).vr = s.vr := rfl
@[simp] theorem countTick_va : (s.countTick).va = s.va := rfl
@[simp] theorem countTick_retry : (s.countTick).retry = s.retry := rfl
@[simp] theorem countTick_uTimer : (s.countTick).uTimer = tickDown s.uTimer := rfl
@[simp] theorem countTick_ackPending : (s.countTick).ackPending = s.ackPending := rfl
@[simp] theorem countTick_ackTimer : (s.countTick).ackTimer = tickDown s.ackTimer := rfl
@[simp] theorem countTick_rejPending : (s.countTick).rejPending = s.rejPending := rfl
@[simp] theorem countTick_uaPending : (s.countTick).uaPending = s.uaPending := rfl
@[simp] theorem countTick_sabmPending : (s.countTick).sabmPending = s.sabmPending := rfl
@[simp] theorem countTick_discPending : (s.countTick).discPending = s.discPending := rfl
@[simp] theorem countTick_pool : (s.countTick).pool = s.pool := rfl
@[simp] theorem countTick_bmem : (s.countTick).bmem = s.bmem := rfl
@[simp] theorem countTick_rxq : (s.countTick).rxq = s.rxq := rfl
@[simp] theorem countTick_enc : (s.countTick).enc = s.enc := rfl
@[simp] theorem countTick_rx : (s.countTick).rx = s.rx := rfl
@[simp] theorem countTick_env : (s.countTick).env = s.env := rfl
@[simp] theorem countTick_desc (i' : Nat) : (s.countTick).desc i' = s.desc i' := rfl
@[simp] theorem countTick_bstate (i' : Nat) : (s.countTick).bstate i' = s.bstate i' := rfl
@[simp] theorem countTick_blen (i' : Nat) : (s.countTick).blen i' = s.blen i' := rfl
@[simp] theorem countTick_nbuf : (s.countTick).nbuf = s.nbuf := rfl

/-! ### `State.countOversize` -/

@[simp] theorem countOversize_params : (s.countOversize).params = s.params := rfl
@[simp] theorem countOversize_cfg : (s.countOversize).cfg = s.cfg := rfl
@[simp] theorem countOversize_irqEn : (s.countOversize).irqEn = s.irqEn := rfl
@[simp] theorem countOversize_result : (s.countOversize).result = s.result := rfl
@[simp] theorem countOversize_event : (s.countOversize).event = s.event := rfl
@[simp] theorem countOversize_cntLost : (s.countOversize).cntLost = s.cntLost := rfl
@[simp] theorem countOversize_cntOversize : (s.countOversize).cntOversize = s.cntOversize + 1 := rfl
@[simp] theorem countOversize_conn : (s.countOversize).conn = s.conn := rfl
@[simp] theorem countOversize_vs : (s.countOversize).vs = s.vs := rfl
@[simp] theorem countOversize_vr : (s.countOversize).vr = s.vr := rfl
@[simp] theorem countOversize_va : (s.countOversize).va = s.va := rfl
@[simp] theorem countOversize_slots : (s.countOversize).slots = s.slots := rfl
@[simp] theorem countOversize_retry : (s.countOversize).retry = s.retry := rfl
@[simp] theorem countOversize_uTimer : (s.countOversize).uTimer = s.uTimer := rfl
@[simp] theorem countOversize_ackPending : (s.countOversize).ackPending = s.ackPending := rfl
@[simp] theorem countOversize_ackTimer : (s.countOversize).ackTimer = s.ackTimer := rfl
@[simp] theorem countOversize_rejPending : (s.countOversize).rejPending = s.rejPending := rfl
@[simp] theorem countOversize_uaPending : (s.countOversize).uaPending = s.uaPending := rfl
@[simp] theorem countOversize_sabmPending : (s.countOversize).sabmPending = s.sabmPending := rfl
@[simp] theorem countOversize_discPending : (s.countOversize).discPending = s.discPending := rfl
@[simp] theorem countOversize_pool : (s.countOversize).pool = s.pool := rfl
@[simp] theorem countOversize_bmem : (s.countOversize).bmem = s.bmem := rfl
@[simp] theorem countOversize_rxq : (s.countOversize).rxq = s.rxq := rfl
@[simp] theorem countOversize_enc : (s.countOversize).enc = s.enc := rfl
@[simp] theorem countOversize_rx : (s.countOversize).rx = s.rx := rfl
@[simp] theorem countOversize_env : (s.countOversize).env = s.env := rfl
@[simp] theorem countOversize_slot (q' : SeqNum) : (s.countOversize).slot q' = s.slot q' := rfl
@[simp] theorem countOversize_desc (i' : Nat) : (s.countOversize).desc i' = s.desc i' := rfl
@[simp] theorem countOversize_bstate (i' : Nat) : (s.countOversize).bstate i' = s.bstate i' := rfl
@[simp] theorem countOversize_blen (i' : Nat) : (s.countOversize).blen i' = s.blen i' := rfl
@[simp] theorem countOversize_nbuf : (s.countOversize).nbuf = s.nbuf := rfl

/-! ### `State.openFrame` -/

@[simp] theorem openFrame_params : (s.openFrame).params = s.params := rfl
@[simp] theorem openFrame_cfg : (s.openFrame).cfg = s.cfg := rfl
@[simp] theorem openFrame_irqEn : (s.openFrame).irqEn = s.irqEn := rfl
@[simp] theorem openFrame_result : (s.openFrame).result = s.result := rfl
@[simp] theorem openFrame_event : (s.openFrame).event = s.event := rfl
@[simp] theorem openFrame_cntLost : (s.openFrame).cntLost = s.cntLost := rfl
@[simp] theorem openFrame_cntOversize : (s.openFrame).cntOversize = s.cntOversize := rfl
@[simp] theorem openFrame_conn : (s.openFrame).conn = s.conn := rfl
@[simp] theorem openFrame_vs : (s.openFrame).vs = s.vs := rfl
@[simp] theorem openFrame_vr : (s.openFrame).vr = s.vr := rfl
@[simp] theorem openFrame_va : (s.openFrame).va = s.va := rfl
@[simp] theorem openFrame_slots : (s.openFrame).slots = s.slots := rfl
@[simp] theorem openFrame_retry : (s.openFrame).retry = s.retry := rfl
@[simp] theorem openFrame_uTimer : (s.openFrame).uTimer = s.uTimer := rfl
@[simp] theorem openFrame_ackPending : (s.openFrame).ackPending = s.ackPending := rfl
@[simp] theorem openFrame_ackTimer : (s.openFrame).ackTimer = s.ackTimer := rfl
@[simp] theorem openFrame_rejPending : (s.openFrame).rejPending = s.rejPending := rfl
@[simp] theorem openFrame_uaPending : (s.openFrame).uaPending = s.uaPending := rfl
@[simp] theorem openFrame_sabmPending : (s.openFrame).sabmPending = s.sabmPending := rfl
@[simp] theorem openFrame_discPending : (s.openFrame).discPending = s.discPending := rfl
@[simp] theorem openFrame_pool : (s.openFrame).pool = s.pool := rfl
@[simp] theorem openFrame_bmem : (s.openFrame).bmem = s.bmem := rfl
@[simp] theorem openFrame_rxq : (s.openFrame).rxq = s.rxq := rfl
@[simp] theorem openFrame_enc : (s.openFrame).enc = s.enc := rfl
@[simp] theorem openFrame_rx : (s.openFrame).rx = { state := .data, acc := [] } := rfl
@[simp] theorem openFrame_env : (s.openFrame).env = s.env := rfl
@[simp] theorem openFrame_slot (q' : SeqNum) : (s.openFrame).slot q' = s.slot q' := rfl
@[simp] theorem openFrame_desc (i' : Nat) : (s.openFrame).desc i' = s.desc i' := rfl
@[simp] theorem openFrame_bstate (i' : Nat) : (s.openFrame).bstate i' = s.bstate i' := rfl
@[simp] theorem openFrame_blen (i' : Nat) : (s.openFrame).blen i' = s.blen i' := rfl
@[simp] theorem openFrame_nbuf : (s.openFrame).nbuf = s.nbuf := rfl

end Sys2Proof.Machine
end

