-- ==== Sys2Proof/Laws/Pool.lean ====
section
/-! SUPPORT. The pool: what writing a descriptor changes, and which buffer `poolAcquire` finds. -/

namespace Sys2Proof.Machine

variable (s : State)

@[simp] theorem setDesc_nbuf (i : Nat) (d : BufDesc) : (s.setDesc i d).nbuf = s.nbuf := by simp [State.nbuf]
@[simp] theorem setBstate_nbuf (i : Nat) (b : BufState) : (s.setBstate i b).nbuf = s.nbuf := by simp [State.nbuf]
@[simp] theorem freeBuffer_nbuf (i : Nat) : (s.freeBuffer i).nbuf = s.nbuf := by simp [State.nbuf]

theorem setDesc_desc (i j : Nat) (d : BufDesc) :
    (s.setDesc i d).desc j = if i = j ∧ i < s.nbuf then d else s.desc j := by
  simp only [State.desc, setDesc_pool, State.nbuf, List.getD_eq_getElem?_getD, List.getElem?_set]
  grind

theorem setBstate_bstate (i j : Nat) (b : BufState) :
    (s.setBstate i b).bstate j = if i = j ∧ i < s.nbuf then b else s.bstate j := by
  simp only [State.bstate, State.setBstate, setDesc_desc]; grind

@[simp] theorem setBstate_blen (i j : Nat) (b : BufState) : (s.setBstate i b).blen j = s.blen j := by
  simp only [State.blen, State.setBstate, setDesc_desc]; grind

@[simp] theorem signal_freeCount (e : Event) : (s.signal e).freeCount = s.freeCount := rfl

theorem freeBuffer_bstate (i j : Nat) :
    (s.freeBuffer i).bstate j = if i = j ∧ i < s.nbuf then .free else s.bstate j := by
  simp only [State.freeBuffer, signal_bstate, setBstate_bstate]

@[simp] theorem freeBuffer_blen (i j : Nat) : (s.freeBuffer i).blen j = s.blen j := by
  simp only [State.freeBuffer, signal_blen, setBstate_blen]

theorem setDesc_bstate (i j : Nat) (d : BufDesc) :
    (s.setDesc i d).bstate j = if i = j ∧ i < s.nbuf then d.state else s.bstate j := by
  simp only [State.bstate, setDesc_desc]; grind

theorem setDesc_blen (i j : Nat) (d : BufDesc) :
    (s.setDesc i d).blen j = if i = j ∧ i < s.nbuf then d.len else s.blen j := by
  simp only [State.blen, setDesc_desc]; grind

theorem desc_of_lt {i : Nat} (h : i < s.nbuf) : s.desc i = s.pool[i]'h := by
  simp [State.desc, List.getD_eq_getElem?_getD, List.getElem?_eq_getElem h]

theorem bstate_of_ge {i : Nat} (h : s.nbuf ≤ i) : s.bstate i = .free := by
  simp [State.bstate, State.desc, List.getD_eq_getElem?_getD, List.getElem?_eq_none h]

theorem lt_of_bstate_ne_free {i : Nat} (h : s.bstate i ≠ .free) : i < s.nbuf := by
  refine Nat.lt_of_not_le fun hc => h (bstate_of_ge s hc)

/-- `poolAcquire` answers exactly the least FREE buffer (42_buffer_pool.md R201). -/
theorem poolAcquire_eq_some {b : Nat} :
    s.poolAcquire = some b ↔ b < s.nbuf ∧ s.bstate b = .free ∧ ∀ i, i < b → s.bstate i ≠ .free := by
  simp only [State.poolAcquire, List.findIdx?_eq_some_iff_getElem, beq_iff_eq]
  constructor
  · rintro ⟨h, h1, h2⟩
    refine ⟨h, ?_, fun i hi => ?_⟩
    · rw [State.bstate, desc_of_lt s h]; exact h1
    · rw [State.bstate, desc_of_lt s (Nat.lt_trans hi h)]; exact h2 i hi
  · rintro ⟨h, h1, h2⟩
    refine ⟨h, ?_, fun i hi => ?_⟩
    · rw [State.bstate, desc_of_lt s h] at h1; exact h1
    · have := h2 i hi
      rw [State.bstate, desc_of_lt s (Nat.lt_trans hi h)] at this; exact this

/-- `poolAcquire` finds nothing exactly when no buffer is FREE (42_buffer_pool.md R201). -/
theorem poolAcquire_eq_none : s.poolAcquire = none ↔ ∀ i, i < s.nbuf → s.bstate i ≠ .free := by
  simp only [State.poolAcquire, List.findIdx?_eq_none_iff, beq_eq_false_iff_ne, ne_eq]
  constructor
  · intro h i hi
    rw [State.bstate, desc_of_lt s hi]; exact h _ (List.getElem_mem hi)
  · intro h d hd
    obtain ⟨i, hi, rfl⟩ := List.getElem_of_mem hd
    have := h i hi
    rwa [State.bstate, desc_of_lt s hi] at this

theorem hostOwns_iff (b : Nat) : s.hostOwns b = true ↔ b < s.nbuf ∧ s.bstate b = .app := by
  simp [State.hostOwns]

end Sys2Proof.Machine
end

