-- ==== Sys2Proof/Laws/Slots.lean ====
section
/-! SUPPORT. The slot file: reading after writing, the oldest slot of a kind, and the slots that go-back-N marks. -/

namespace Sys2Proof.Machine

variable (s : State)

theorem setSlot_slot (q r : SeqNum) (v : Slot) : (s.setSlot q v).slot r = if q = r then v else s.slot r := by
  simp only [State.slot, State.setSlot, Vector.getElem_set, ← BitVec.toNat_inj]

@[simp] theorem setSlot_slot_self (q : SeqNum) (v : Slot) : (s.setSlot q v).slot q = v := by
  simp [setSlot_slot]

theorem SeqNum.mem_all (q : SeqNum) : q ∈ SeqNum.all := by
  revert q; decide

theorem SeqNum.nodup_all : SeqNum.all.Nodup := by decide

theorem slotsOf_get (f : SeqNum → Slot) (q : SeqNum) : (slotsOf f)[q.toNat]'q.isLt = f q := by
  have : q ∈ SeqNum.all := SeqNum.mem_all q
  simp only [SeqNum.all, List.mem_cons, List.not_mem_nil, or_false] at this
  rcases this with h | h | h | h | h | h | h | h <;> subst h <;> rfl

@[simp] theorem countTick_slot (q : SeqNum) :
    s.countTick.slot q = { s.slot q with timer := tickDown (s.slot q).timer } := slotsOf_get _ q

theorem SeqNum.all_getElem (i : Nat) (h : i < SeqNum.all.length) : SeqNum.all[i] = BitVec.ofNat 3 i := by
  have : ∀ j : Fin 8, SeqNum.all[j.val]'j.isLt = BitVec.ofNat 3 j := by decide
  exact this ⟨i, h⟩

/-- Searching the eight sequence numbers in order finds the least one with the property. -/
theorem SeqNum.find?_all_eq_some {f : SeqNum → Bool} {k : SeqNum} :
    SeqNum.all.find? f = some k ↔ f k = true ∧ ∀ j, j.toNat < k.toNat → f j = false := by
  rw [List.find?_eq_some_iff_getElem]
  refine and_congr_right fun _ => ⟨?_, fun h => ?_⟩
  · rintro ⟨i, hi, rfl, hlt⟩ j hj
    rw [SeqNum.all_getElem, BitVec.toNat_ofNat] at hj
    have hi8 : i < 8 := hi
    have := hlt j.toNat (by omega)
    simpa [SeqNum.all_getElem] using this
  · refine ⟨k.toNat, show k.toNat < SeqNum.all.length from k.isLt, by rw [SeqNum.all_getElem]; simp, fun j hj => ?_⟩
    have hk := k.isLt
    rw [SeqNum.all_getElem]
    simpa using h (BitVec.ofNat 3 j) (by rw [BitVec.toNat_ofNat]; omega)

/-- `oldest` answers exactly the q of least age with the property (10_state.md R53). -/
theorem oldest_eq_some {va q : SeqNum} {p : SeqNum → Bool} :
    oldest va p = some q ↔ p q = true ∧ ∀ r, (r - va).toNat < (q - va).toNat → p r = false := by
  have hk : ∀ k : SeqNum, va + k - va = k := fun k => by rw [add_sub_cancel_left]
  have hq : ∀ q : SeqNum, va + (q - va) = q := fun q => by rw [add_sub_cancel]
  rw [oldest, List.find?_map, Option.map_eq_some_iff]
  constructor
  · rintro ⟨k, h, rfl⟩
    rw [SeqNum.find?_all_eq_some] at h
    refine ⟨h.1, fun r hr => ?_⟩
    have := h.2 (r - va) (by rwa [hk] at hr)
    rwa [Function.comp_apply, hq] at this
  · rintro ⟨h1, h2⟩
    refine ⟨q - va, SeqNum.find?_all_eq_some.2 ⟨by rwa [Function.comp_apply, hq], fun j hj => ?_⟩, hq q⟩
    exact h2 _ (by rwa [hk])

theorem oldest_eq_none {va : SeqNum} {p : SeqNum → Bool} : oldest va p = none ↔ ∀ q, p q = false := by
  simp only [oldest, List.find?_eq_none, List.mem_map, forall_exists_index, and_imp, forall_apply_eq_imp_iff₂,
    Bool.not_eq_true]
  refine ⟨fun h q => ?_, fun h k _ => h _⟩
  have := h (q - va) (SeqNum.mem_all _)
  rwa [add_sub_cancel] at this

/-- Which slots `n` rounds of marking reach: those less than `n` after q (44_arq_data.md R285). -/
theorem markFrom_slot (s : State) (q : SeqNum) (n : Nat) (hn : n ≤ 8) (r : SeqNum) :
    (s.markFrom q n).slot r =
      if (r - q).toNat < n then { s.slot r with needsTx := true, timer := s.cfg.timeout } else s.slot r := by
  induction n generalizing s q with
  | zero => simp [State.markFrom]
  | succ n ih =>
    rw [State.markFrom, ih _ _ (by omega)]
    have h1 : (r - (q + 1)).toNat = ((r - q).toNat + 7) % 8 := by
      simp only [BitVec.toNat_sub, BitVec.toNat_add, show (1 : SeqNum).toNat = 1 from rfl]; omega
    have h2 : q = r ↔ (r - q).toNat = 0 := by
      rw [← BitVec.toNat_inj, BitVec.toNat_sub]; have := q.isLt; have := r.isLt; omega
    have h3 := (r - q).isLt
    rw [h1, State.markForTx, setSlot_slot, setSlot_cfg]
    by_cases hqr : q = r
    · have := h2.1 hqr
      subst hqr
      rw [if_neg (by omega), if_pos rfl, if_pos (by omega)]
    · have : (r - q).toNat ≠ 0 := fun h => hqr (h2.2 h)
      rw [if_neg hqr]
      split <;> split <;> first | rfl | omega

end Sys2Proof.Machine
end

