-- ==== Sys2Proof/Laws/ArqFrame.lean ====
section
/-! SUPPORT. What the shared ARQ operations leave unchanged: one lemma for each operation and field
(43_arq_connection.md R231, R232, R234, 44_arq_data.md R283 to R285). -/

namespace Sys2Proof.Machine

variable (s : State)

/-! ### `State.retire` leaves alone what it does not write -/

@[simp] theorem retire_params (q : SeqNum) : (s.retire q).params = s.params := by
  unfold State.retire; dsimp only; split <;> rfl
@[simp] theorem retire_cfg (q : SeqNum) : (s.retire q).cfg = s.cfg := by
  unfold State.retire; dsimp only; split <;> rfl
@[simp] theorem retire_irqEn (q : SeqNum) : (s.retire q).irqEn = s.irqEn := by
  unfold State.retire; dsimp only; split <;> rfl
@[simp] theorem retire_result (q : SeqNum) : (s.retire q).result = s.result := by
  unfold State.retire; dsimp only; split <;> rfl
@[simp] theorem retire_cntLost (q : SeqNum) : (s.retire q).cntLost = s.cntLost := by
  unfold State.retire; dsimp only; split <;> rfl
@[simp] theorem retire_cntOversize (q : SeqNum) : (s.retire q).cntOversize = s.cntOversize := by
  unfold State.retire; dsimp only; split <;> rfl
@[simp] theorem retire_conn (q : SeqNum) : (s.retire q).conn = s.conn := by
  unfold State.retire; dsimp only; split <;> rfl
@[simp] theorem retire_vs (q : SeqNum) : (s.retire q).vs = s.vs := by
  unfold State.retire; dsimp only; split <;> rfl
@[simp] theorem retire_vr (q : SeqNum) : (s.retire q).vr = s.vr := by
  unfold State.retire; dsimp only; split <;> rfl
@[simp] theorem retire_va (q : SeqNum) : (s.retire q).va = s.va := by
  unfold State.retire; dsimp only; split <;> rfl
@[simp] theorem retire_retry (q : SeqNum) : (s.retire q).retry = s.retry := by
  unfold State.retire; dsimp only; split <;> rfl
@[simp] theorem retire_uTimer (q : SeqNum) : (s.retire q).uTimer = s.uTimer := by
  unfold State.retire; dsimp only; split <;> rfl
@[simp] theorem retire_ackPending (q : SeqNum) : (s.retire q).ackPending = s.ackPending := by
  unfold State.retire; dsimp only; split <;> rfl
@[simp] theorem retire_ackTimer (q : SeqNum) : (s.retire q).ackTimer = s.ackTimer := by
  unfold State.retire; dsimp only; split <;> rfl
@[simp] theorem retire_rejPending (q : SeqNum) : (s.retire q).rejPending = s.rejPending := by
  unfold State.retire; dsimp only; split <;> rfl
@[simp] theorem retire_uaPending (q : SeqNum) : (s.retire q).uaPending = s.uaPending := by
  unfold State.retire; dsimp only; split <;> rfl
@[simp] theorem retire_sabmPending (q : SeqNum) : (s.retire q).sabmPending = s.sabmPending := by
  unfold State.retire; dsimp only; split <;> rfl
@[simp] theorem retire_discPending (q : SeqNum) : (s.retire q).discPending = s.discPending := by
  unfold State.retire; dsimp only; split <;> rfl
@[simp] theorem retire_bmem (q : SeqNum) : (s.retire q).bmem = s.bmem := by
  unfold State.retire; dsimp only; split <;> rfl
@[simp] theorem retire_rxq (q : SeqNum) : (s.retire q).rxq = s.rxq := by
  unfold State.retire; dsimp only; split <;> rfl
@[simp] theorem retire_rx (q : SeqNum) : (s.retire q).rx = s.rx := by
  unfold State.retire; dsimp only; split <;> rfl
@[simp] theorem retire_env (q : SeqNum) : (s.retire q).env = s.env := by
  unfold State.retire; dsimp only; split <;> rfl

/-! ### `State.retireValid` leaves alone what it does not write -/

@[simp] theorem retireValid_params (l : List SeqNum) : (s.retireValid l).params = s.params := by
  induction l generalizing s with
  | nil => rfl
  | cons q l ih => rw [State.retireValid, ih]; split <;> simp
@[simp] theorem retireValid_cfg (l : List SeqNum) : (s.retireValid l).cfg = s.cfg := by
  induction l generalizing s with
  | nil => rfl
  | cons q l ih => rw [State.retireValid, ih]; split <;> simp
@[simp] theorem retireValid_irqEn (l : List SeqNum) : (s.retireValid l).irqEn = s.irqEn := by
  induction l generalizing s with
  | nil => rfl
  | cons q l ih => rw [State.retireValid, ih]; split <;> simp
@[simp] theorem retireValid_result (l : List SeqNum) : (s.retireValid l).result = s.result := by
  induction l generalizing s with
  | nil => rfl
  | cons q l ih => rw [State.retireValid, ih]; split <;> simp
@[simp] theorem retireValid_cntLost (l : List SeqNum) : (s.retireValid l).cntLost = s.cntLost := by
  induction l generalizing s with
  | nil => rfl
  | cons q l ih => rw [State.retireValid, ih]; split <;> simp
@[simp] theorem retireValid_cntOversize (l : List SeqNum) : (s.retireValid l).cntOversize = s.cntOversize := by
  induction l generalizing s with
  | nil => rfl
  | cons q l ih => rw [State.retireValid, ih]; split <;> simp
@[simp] theorem retireValid_conn (l : List SeqNum) : (s.retireValid l).conn = s.conn := by
  induction l generalizing s with
  | nil => rfl
  | cons q l ih => rw [State.retireValid, ih]; split <;> simp
@[simp] theorem retireValid_vs (l : List SeqNum) : (s.retireValid l).vs = s.vs := by
  induction l generalizing s with
  | nil => rfl
  | cons q l ih => rw [State.retireValid, ih]; split <;> simp
@[simp] theorem retireValid_vr (l : List SeqNum) : (s.retireValid l).vr = s.vr := by
  induction l generalizing s with
  | nil => rfl
  | cons q l ih => rw [State.retireValid, ih]; split <;> simp
@[simp] theorem retireValid_va (l : List SeqNum) : (s.retireValid l).va = s.va := by
  induction l generalizing s with
  | nil => rfl
  | cons q l ih => rw [State.retireValid, ih]; split <;> simp
@[simp] theorem retireValid_retry (l : List SeqNum) : (s.retireValid l).retry = s.retry := by
  induction l generalizing s with
  | nil => rfl
  | cons q l ih => rw [State.retireValid, ih]; split <;> simp
@[simp] theorem retireValid_uTimer (l : List SeqNum) : (s.retireValid l).uTimer = s.uTimer := by
  induction l generalizing s with
  | nil => rfl
  | cons q l ih => rw [State.retireValid, ih]; split <;> simp
@[simp] theorem retireValid_ackPending (l : List SeqNum) : (s.retireValid l).ackPending = s.ackPending := by
  induction l generalizing s with
  | nil => rfl
  | cons q l ih => rw [State.retireValid, ih]; split <;> simp
@[simp] theorem retireValid_ackTimer (l : List SeqNum) : (s.retireValid l).ackTimer = s.ackTimer := by
  induction l generalizing s with
  | nil => rfl
  | cons q l ih => rw [State.retireValid, ih]; split <;> simp
@[simp] theorem retireValid_rejPending (l : List SeqNum) : (s.retireValid l).rejPending = s.rejPending := by
  induction l generalizing s with
  | nil => rfl
  | cons q l ih => rw [State.retireValid, ih]; split <;> simp
@[simp] theorem retireValid_uaPending (l : List SeqNum) : (s.retireValid l).uaPending = s.uaPending := by
  induction l generalizing s with
  | nil => rfl
  | cons q l ih => rw [State.retireValid, ih]; split <;> simp
@[simp] theorem retireValid_sabmPending (l : List SeqNum) : (s.retireValid l).sabmPending = s.sabmPending := by
  induction l generalizing s with
  | nil => rfl
  | cons q l ih => rw [State.retireValid, ih]; split <;> simp
@[simp] theorem retireValid_discPending (l : List SeqNum) : (s.retireValid l).discPending = s.discPending := by
  induction l generalizing s with
  | nil => rfl
  | cons q l ih => rw [State.retireValid, ih]; split <;> simp
@[simp] theorem retireValid_bmem (l : List SeqNum) : (s.retireValid l).bmem = s.bmem := by
  induction l generalizing s with
  | nil => rfl
  | cons q l ih => rw [State.retireValid, ih]; split <;> simp
@[simp] theorem retireValid_rxq (l : List SeqNum) : (s.retireValid l).rxq = s.rxq := by
  induction l generalizing s with
  | nil => rfl
  | cons q l ih => rw [State.retireValid, ih]; split <;> simp
@[simp] theorem retireValid_rx (l : List SeqNum) : (s.retireValid l).rx = s.rx := by
  induction l generalizing s with
  | nil => rfl
  | cons q l ih => rw [State.retireValid, ih]; split <;> simp
@[simp] theorem retireValid_env (l : List SeqNum) : (s.retireValid l).env = s.env := by
  induction l generalizing s with
  | nil => rfl
  | cons q l ih => rw [State.retireValid, ih]; split <;> simp

/-! ### `State.flush` leaves alone what it does not write -/

@[simp] theorem flush_params : s.flush.params = s.params := by
  simp only [State.flush, retireValid_params]
@[simp] theorem flush_cfg : s.flush.cfg = s.cfg := by
  simp only [State.flush, retireValid_cfg]
@[simp] theorem flush_irqEn : s.flush.irqEn = s.irqEn := by
  simp only [State.flush, retireValid_irqEn]
@[simp] theorem flush_result : s.flush.result = s.result := by
  simp only [State.flush, retireValid_result]
@[simp] theorem flush_cntLost : s.flush.cntLost = s.cntLost := by
  simp only [State.flush, retireValid_cntLost]
@[simp] theorem flush_cntOversize : s.flush.cntOversize = s.cntOversize := by
  simp only [State.flush, retireValid_cntOversize]
@[simp] theorem flush_conn : s.flush.conn = s.conn := by
  simp only [State.flush, retireValid_conn]
@[simp] theorem flush_vs : s.flush.vs = s.vs := by
  simp only [State.flush, retireValid_vs]
@[simp] theorem flush_vr : s.flush.vr = s.vr := by
  simp only [State.flush, retireValid_vr]
@[simp] theorem flush_va : s.flush.va = s.va := by
  simp only [State.flush, retireValid_va]
@[simp] theorem flush_retry : s.flush.retry = s.retry := by
  simp only [State.flush, retireValid_retry]
@[simp] theorem flush_uTimer : s.flush.uTimer = s.uTimer := by
  simp only [State.flush, retireValid_uTimer]
@[simp] theorem flush_ackPending : s.flush.ackPending = s.ackPending := by
  simp only [State.flush, retireValid_ackPending]
@[simp] theorem flush_ackTimer : s.flush.ackTimer = s.ackTimer := by
  simp only [State.flush, retireValid_ackTimer]
@[simp] theorem flush_rejPending : s.flush.rejPending = s.rejPending := by
  simp only [State.flush, retireValid_rejPending]
@[simp] theorem flush_uaPending : s.flush.uaPending = s.uaPending := by
  simp only [State.flush, retireValid_uaPending]
@[simp] theorem flush_sabmPending : s.flush.sabmPending = s.sabmPending := by
  simp only [State.flush, retireValid_sabmPending]
@[simp] theorem flush_discPending : s.flush.discPending = s.discPending := by
  simp only [State.flush, retireValid_discPending]
@[simp] theorem flush_bmem : s.flush.bmem = s.bmem := by
  simp only [State.flush, retireValid_bmem]
@[simp] theorem flush_rxq : s.flush.rxq = s.rxq := by
  simp only [State.flush, retireValid_rxq]
@[simp] theorem flush_rx : s.flush.rx = s.rx := by
  simp only [State.flush, retireValid_rx]
@[simp] theorem flush_env : s.flush.env = s.env := by
  simp only [State.flush, retireValid_env]

/-! ### `State.retireOldest` leaves alone what it does not write -/

@[simp] theorem retireOldest_params (n : Nat) : (s.retireOldest n).params = s.params := by
  induction n generalizing s with
  | zero => rfl
  | succ n ih => simp only [State.retireOldest, ih, retire_params]
@[simp] theorem retireOldest_cfg (n : Nat) : (s.retireOldest n).cfg = s.cfg := by
  induction n generalizing s with
  | zero => rfl
  | succ n ih => simp only [State.retireOldest, ih, retire_cfg]
@[simp] theorem retireOldest_irqEn (n : Nat) : (s.retireOldest n).irqEn = s.irqEn := by
  induction n generalizing s with
  | zero => rfl
  | succ n ih => simp only [State.retireOldest, ih, retire_irqEn]
@[simp] theorem retireOldest_result (n : Nat) : (s.retireOldest n).result = s.result := by
  induction n generalizing s with
  | zero => rfl
  | succ n ih => simp only [State.retireOldest, ih, retire_result]
@[simp] theorem retireOldest_cntLost (n : Nat) : (s.retireOldest n).cntLost = s.cntLost := by
  induction n generalizing s with
  | zero => rfl
  | succ n ih => simp only [State.retireOldest, ih, retire_cntLost]
@[simp] theorem retireOldest_cntOversize (n : Nat) : (s.retireOldest n).cntOversize = s.cntOversize := by
  induction n generalizing s with
  | zero => rfl
  | succ n ih => simp only [State.retireOldest, ih, retire_cntOversize]
@[simp] theorem retireOldest_conn (n : Nat) : (s.retireOldest n).conn = s.conn := by
  induction n generalizing s with
  | zero => rfl
  | succ n ih => simp only [State.retireOldest, ih, retire_conn]
@[simp] theorem retireOldest_vs (n : Nat) : (s.retireOldest n).vs = s.vs := by
  induction n generalizing s with
  | zero => rfl
  | succ n ih => simp only [State.retireOldest, ih, retire_vs]
@[simp] theorem retireOldest_vr (n : Nat) : (s.retireOldest n).vr = s.vr := by
  induction n generalizing s with
  | zero => rfl
  | succ n ih => simp only [State.retireOldest, ih, retire_vr]
@[simp] theorem retireOldest_retry (n : Nat) : (s.retireOldest n).retry = s.retry := by
  induction n generalizing s with
  | zero => rfl
  | succ n ih => simp only [State.retireOldest, ih, retire_retry]
@[simp] theorem retireOldest_uTimer (n : Nat) : (s.retireOldest n).uTimer = s.uTimer := by
  induction n generalizing s with
  | zero => rfl
  | succ n ih => simp only [State.retireOldest, ih, retire_uTimer]
@[simp] theorem retireOldest_ackPending (n : Nat) : (s.retireOldest n).ackPending = s.ackPending := by
  induction n generalizing s with
  | zero => rfl
  | succ n ih => simp only [State.retireOldest, ih, retire_ackPending]
@[simp] theorem retireOldest_ackTimer (n : Nat) : (s.retireOldest n).ackTimer = s.ackTimer := by
  induction n generalizing s with
  | zero => rfl
  | succ n ih => simp only [State.retireOldest, ih, retire_ackTimer]
@[simp] theorem retireOldest_rejPending (n : Nat) : (s.retireOldest n).rejPending = s.rejPending := by
  induction n generalizing s with
  | zero => rfl
  | succ n ih => simp only [State.retireOldest, ih, retire_rejPending]
@[simp] theorem retireOldest_uaPending (n : Nat) : (s.retireOldest n).uaPending = s.uaPending := by
  induction n generalizing s with
  | zero => rfl
  | succ n ih => simp only [State.retireOldest, ih, retire_uaPending]
@[simp] theorem retireOldest_sabmPending (n : Nat) : (s.retireOldest n).sabmPending = s.sabmPending := by
  induction n generalizing s with
  | zero => rfl
  | succ n ih => simp only [State.retireOldest, ih, retire_sabmPending]
@[simp] theorem retireOldest_discPending (n : Nat) : (s.retireOldest n).discPending = s.discPending := by
  induction n generalizing s with
  | zero => rfl
  | succ n ih => simp only [State.retireOldest, ih, retire_discPending]
@[simp] theorem retireOldest_bmem (n : Nat) : (s.retireOldest n).bmem = s.bmem := by
  induction n generalizing s with
  | zero => rfl
  | succ n ih => simp only [State.retireOldest, ih, retire_bmem]
@[simp] theorem retireOldest_rxq (n : Nat) : (s.retireOldest n).rxq = s.rxq := by
  induction n generalizing s with
  | zero => rfl
  | succ n ih => simp only [State.retireOldest, ih, retire_rxq]
@[simp] theorem retireOldest_rx (n : Nat) : (s.retireOldest n).rx = s.rx := by
  induction n generalizing s with
  | zero => rfl
  | succ n ih => simp only [State.retireOldest, ih, retire_rx]
@[simp] theorem retireOldest_env (n : Nat) : (s.retireOldest n).env = s.env := by
  induction n generalizing s with
  | zero => rfl
  | succ n ih => simp only [State.retireOldest, ih, retire_env]

/-! ### `State.ackProcess` leaves alone what it does not write -/

@[simp] theorem ackProcess_params (nr : SeqNum) : (s.ackProcess nr).params = s.params := by
  unfold State.ackProcess; split
  · rfl
  · simp only [signal_params, retireOldest_params]
@[simp] theorem ackProcess_cfg (nr : SeqNum) : (s.ackProcess nr).cfg = s.cfg := by
  unfold State.ackProcess; split
  · rfl
  · simp only [signal_cfg, retireOldest_cfg]
@[simp] theorem ackProcess_irqEn (nr : SeqNum) : (s.ackProcess nr).irqEn = s.irqEn := by
  unfold State.ackProcess; split
  · rfl
  · simp only [signal_irqEn, retireOldest_irqEn]
@[simp] theorem ackProcess_result (nr : SeqNum) : (s.ackProcess nr).result = s.result := by
  unfold State.ackProcess; split
  · rfl
  · simp only [signal_result, retireOldest_result]
@[simp] theorem ackProcess_cntLost (nr : SeqNum) : (s.ackProcess nr).cntLost = s.cntLost := by
  unfold State.ackProcess; split
  · rfl
  · simp only [signal_cntLost, retireOldest_cntLost]
@[simp] theorem ackProcess_cntOversize (nr : SeqNum) : (s.ackProcess nr).cntOversize = s.cntOversize := by
  unfold State.ackProcess; split
  · rfl
  · simp only [signal_cntOversize, retireOldest_cntOversize]
@[simp] theorem ackProcess_conn (nr : SeqNum) : (s.ackProcess nr).conn = s.conn := by
  unfold State.ackProcess; split
  · rfl
  · simp only [signal_conn, retireOldest_conn]
@[simp] theorem ackProcess_vs (nr : SeqNum) : (s.ackProcess nr).vs = s.vs := by
  unfold State.ackProcess; split
  · rfl
  · simp only [signal_vs, retireOldest_vs]
@[simp] theorem ackProcess_vr (nr : SeqNum) : (s.ackProcess nr).vr = s.vr := by
  unfold State.ackProcess; split
  · rfl
  · simp only [signal_vr, retireOldest_vr]
@[simp] theorem ackProcess_uTimer (nr : SeqNum) : (s.ackProcess nr).uTimer = s.uTimer := by
  unfold State.ackProcess; split
  · rfl
  · simp only [signal_uTimer, retireOldest_uTimer]
@[simp] theorem ackProcess_ackPending (nr : SeqNum) : (s.ackProcess nr).ackPending = s.ackPending := by
  unfold State.ackProcess; split
  · rfl
  · simp only [signal_ackPending, retireOldest_ackPending]
@[simp] theorem ackProcess_ackTimer (nr : SeqNum) : (s.ackProcess nr).ackTimer = s.ackTimer := by
  unfold State.ackProcess; split
  · rfl
  · simp only [signal_ackTimer, retireOldest_ackTimer]
@[simp] theorem ackProcess_rejPending (nr : SeqNum) : (s.ackProcess nr).rejPending = s.rejPending := by
  unfold State.ackProcess; split
  · rfl
  · simp only [signal_rejPending, retireOldest_rejPending]
@[simp] theorem ackProcess_uaPending (nr : SeqNum) : (s.ackProcess nr).uaPending = s.uaPending := by
  unfold State.ackProcess; split
  · rfl
  · simp only [signal_uaPending, retireOldest_uaPending]
@[simp] theorem ackProcess_sabmPending (nr : SeqNum) : (s.ackProcess nr).sabmPending = s.sabmPending := by
  unfold State.ackProcess; split
  · rfl
  · simp only [signal_sabmPending, retireOldest_sabmPending]
@[simp] theorem ackProcess_discPending (nr : SeqNum) : (s.ackProcess nr).discPending = s.discPending := by
  unfold State.ackProcess; split
  · rfl
  · simp only [signal_discPending, retireOldest_discPending]
@[simp] theorem ackProcess_bmem (nr : SeqNum) : (s.ackProcess nr).bmem = s.bmem := by
  unfold State.ackProcess; split
  · rfl
  · simp only [signal_bmem, retireOldest_bmem]
@[simp] theorem ackProcess_rxq (nr : SeqNum) : (s.ackProcess nr).rxq = s.rxq := by
  unfold State.ackProcess; split
  · rfl
  · simp only [signal_rxq, retireOldest_rxq]
@[simp] theorem ackProcess_rx (nr : SeqNum) : (s.ackProcess nr).rx = s.rx := by
  unfold State.ackProcess; split
  · rfl
  · simp only [signal_rx, retireOldest_rx]
@[simp] theorem ackProcess_env (nr : SeqNum) : (s.ackProcess nr).env = s.env := by
  unfold State.ackProcess; split
  · rfl
  · simp only [signal_env, retireOldest_env]

/-! ### `State.markFrom` leaves alone what it does not write -/

@[simp] theorem markFrom_params (q : SeqNum) (n : Nat) : (s.markFrom q n).params = s.params := by
  induction n generalizing s q with
  | zero => rfl
  | succ n ih => rw [State.markFrom, ih, markForTx_params]
@[simp] theorem markFrom_cfg (q : SeqNum) (n : Nat) : (s.markFrom q n).cfg = s.cfg := by
  induction n generalizing s q with
  | zero => rfl
  | succ n ih => rw [State.markFrom, ih, markForTx_cfg]
@[simp] theorem markFrom_irqEn (q : SeqNum) (n : Nat) : (s.markFrom q n).irqEn = s.irqEn := by
  induction n generalizing s q with
  | zero => rfl
  | succ n ih => rw [State.markFrom, ih, markForTx_irqEn]
@[simp] theorem markFrom_result (q : SeqNum) (n : Nat) : (s.markFrom q n).result = s.result := by
  induction n generalizing s q with
  | zero => rfl
  | succ n ih => rw [State.markFrom, ih, markForTx_result]
@[simp] theorem markFrom_event (q : SeqNum) (n : Nat) : (s.markFrom q n).event = s.event := by
  induction n generalizing s q with
  | zero => rfl
  | succ n ih => rw [State.markFrom, ih, markForTx_event]
@[simp] theorem markFrom_cntLost (q : SeqNum) (n : Nat) : (s.markFrom q n).cntLost = s.cntLost := by
  induction n generalizing s q with
  | zero => rfl
  | succ n ih => rw [State.markFrom, ih, markForTx_cntLost]
@[simp] theorem markFrom_cntOversize (q : SeqNum) (n : Nat) : (s.markFrom q n).cntOversize = s.cntOversize := by
  induction n generalizing s q with
  | zero => rfl
  | succ n ih => rw [State.markFrom, ih, markForTx_cntOversize]
@[simp] theorem markFrom_conn (q : SeqNum) (n : Nat) : (s.markFrom q n).conn = s.conn := by
  induction n generalizing s q with
  | zero => rfl
  | succ n ih => rw [State.markFrom, ih, markForTx_conn]
@[simp] theorem markFrom_vs (q : SeqNum) (n : Nat) : (s.markFrom q n).vs = s.vs := by
  induction n generalizing s q with
  | zero => rfl
  | succ n ih => rw [State.markFrom, ih, markForTx_vs]
@[simp] theorem markFrom_vr (q : SeqNum) (n : Nat) : (s.markFrom q n).vr = s.vr := by
  induction n generalizing s q with
  | zero => rfl
  | succ n ih => rw [State.markFrom, ih, markForTx_vr]
@[simp] theorem markFrom_va (q : SeqNum) (n : Nat) : (s.markFrom q n).va = s.va := by
  induction n generalizing s q with
  | zero => rfl
  | succ n ih => rw [State.markFrom, ih, markForTx_va]
@[simp] theorem markFrom_retry (q : SeqNum) (n : Nat) : (s.markFrom q n).retry = s.retry := by
  induction n generalizing s q with
  | zero => rfl
  | succ n ih => rw [State.markFrom, ih, markForTx_retry]
@[simp] theorem markFrom_uTimer (q : SeqNum) (n : Nat) : (s.markFrom q n).uTimer = s.uTimer := by
  induction n generalizing s q with
  | zero => rfl
  | succ n ih => rw [State.markFrom, ih, markForTx_uTimer]
@[simp] theorem markFrom_ackPending (q : SeqNum) (n : Nat) : (s.markFrom q n).ackPending = s.ackPending := by
  induction n generalizing s q with
  | zero => rfl
  | succ n ih => rw [State.markFrom, ih, markForTx_ackPending]
@[simp] theorem markFrom_ackTimer (q : SeqNum) (n : Nat) : (s.markFrom q n).ackTimer = s.ackTimer := by
  induction n generalizing s q with
  | zero => rfl
  | succ n ih => rw [State.markFrom, ih, markForTx_ackTimer]
@[simp] theorem markFrom_rejPending (q : SeqNum) (n : Nat) : (s.markFrom q n).rejPending = s.rejPending := by
  induction n generalizing s q with
  | zero => rfl
  | succ n ih => rw [State.markFrom, ih, markForTx_rejPending]
@[simp] theorem markFrom_uaPending (q : SeqNum) (n : Nat) : (s.markFrom q n).uaPending = s.uaPending := by
  induction n generalizing s q with
  | zero => rfl
  | succ n ih => rw [State.markFrom, ih, markForTx_uaPending]
@[simp] theorem markFrom_sabmPending (q : SeqNum) (n : Nat) : (s.markFrom q n).sabmPending = s.sabmPending := by
  induction n generalizing s q with
  | zero => rfl
  | succ n ih => rw [State.markFrom, ih, markForTx_sabmPending]
@[simp] theorem markFrom_discPending (q : SeqNum) (n : Nat) : (s.markFrom q n).discPending = s.discPending := by
  induction n generalizing s q with
  | zero => rfl
  | succ n ih => rw [State.markFrom, ih, markForTx_discPending]
@[simp] theorem markFrom_pool (q : SeqNum) (n : Nat) : (s.markFrom q n).pool = s.pool := by
  induction n generalizing s q with
  | zero => rfl
  | succ n ih => rw [State.markFrom, ih, markForTx_pool]
@[simp] theorem markFrom_bmem (q : SeqNum) (n : Nat) : (s.markFrom q n).bmem = s.bmem := by
  induction n generalizing s q with
  | zero => rfl
  | succ n ih => rw [State.markFrom, ih, markForTx_bmem]
@[simp] theorem markFrom_rxq (q : SeqNum) (n : Nat) : (s.markFrom q n).rxq = s.rxq := by
  induction n generalizing s q with
  | zero => rfl
  | succ n ih => rw [State.markFrom, ih, markForTx_rxq]
@[simp] theorem markFrom_enc (q : SeqNum) (n : Nat) : (s.markFrom q n).enc = s.enc := by
  induction n generalizing s q with
  | zero => rfl
  | succ n ih => rw [State.markFrom, ih, markForTx_enc]
@[simp] theorem markFrom_rx (q : SeqNum) (n : Nat) : (s.markFrom q n).rx = s.rx := by
  induction n generalizing s q with
  | zero => rfl
  | succ n ih => rw [State.markFrom, ih, markForTx_rx]
@[simp] theorem markFrom_env (q : SeqNum) (n : Nat) : (s.markFrom q n).env = s.env := by
  induction n generalizing s q with
  | zero => rfl
  | succ n ih => rw [State.markFrom, ih, markForTx_env]

/-! ### `State.goBackN` leaves alone what it does not write -/

@[simp] theorem goBackN_params (q : SeqNum) : (s.goBackN q).params = s.params := by
  simp only [State.goBackN, markFrom_params]
@[simp] theorem goBackN_cfg (q : SeqNum) : (s.goBackN q).cfg = s.cfg := by
  simp only [State.goBackN, markFrom_cfg]
@[simp] theorem goBackN_irqEn (q : SeqNum) : (s.goBackN q).irqEn = s.irqEn := by
  simp only [State.goBackN, markFrom_irqEn]
@[simp] theorem goBackN_result (q : SeqNum) : (s.goBackN q).result = s.result := by
  simp only [State.goBackN, markFrom_result]
@[simp] theorem goBackN_event (q : SeqNum) : (s.goBackN q).event = s.event := by
  simp only [State.goBackN, markFrom_event]
@[simp] theorem goBackN_cntLost (q : SeqNum) : (s.goBackN q).cntLost = s.cntLost := by
  simp only [State.goBackN, markFrom_cntLost]
@[simp] theorem goBackN_cntOversize (q : SeqNum) : (s.goBackN q).cntOversize = s.cntOversize := by
  simp only [State.goBackN, markFrom_cntOversize]
@[simp] theorem goBackN_conn (q : SeqNum) : (s.goBackN q).conn = s.conn := by
  simp only [State.goBackN, markFrom_conn]
@[simp] theorem goBackN_vs (q : SeqNum) : (s.goBackN q).vs = s.vs := by
  simp only [State.goBackN, markFrom_vs]
@[simp] theorem goBackN_vr (q : SeqNum) : (s.goBackN q).vr = s.vr := by
  simp only [State.goBackN, markFrom_vr]
@[simp] theorem goBackN_va (q : SeqNum) : (s.goBackN q).va = s.va := by
  simp only [State.goBackN, markFrom_va]
@[simp] theorem goBackN_retry (q : SeqNum) : (s.goBackN q).retry = s.retry := by
  simp only [State.goBackN, markFrom_retry]
@[simp] theorem goBackN_uTimer (q : SeqNum) : (s.goBackN q).uTimer = s.uTimer := by
  simp only [State.goBackN, markFrom_uTimer]
@[simp] theorem goBackN_ackPending (q : SeqNum) : (s.goBackN q).ackPending = s.ackPending := by
  simp only [State.goBackN, markFrom_ackPending]
@[simp] theorem goBackN_ackTimer (q : SeqNum) : (s.goBackN q).ackTimer = s.ackTimer := by
  simp only [State.goBackN, markFrom_ackTimer]
@[simp] theorem goBackN_rejPending (q : SeqNum) : (s.goBackN q).rejPending = s.rejPending := by
  simp only [State.goBackN, markFrom_rejPending]
@[simp] theorem goBackN_uaPending (q : SeqNum) : (s.goBackN q).uaPending = s.uaPending := by
  simp only [State.goBackN, markFrom_uaPending]
@[simp] theorem goBackN_sabmPending (q : SeqNum) : (s.goBackN q).sabmPending = s.sabmPending := by
  simp only [State.goBackN, markFrom_sabmPending]
@[simp] theorem goBackN_discPending (q : SeqNum) : (s.goBackN q).discPending = s.discPending := by
  simp only [State.goBackN, markFrom_discPending]
@[simp] theorem goBackN_pool (q : SeqNum) : (s.goBackN q).pool = s.pool := by
  simp only [State.goBackN, markFrom_pool]
@[simp] theorem goBackN_bmem (q : SeqNum) : (s.goBackN q).bmem = s.bmem := by
  simp only [State.goBackN, markFrom_bmem]
@[simp] theorem goBackN_rxq (q : SeqNum) : (s.goBackN q).rxq = s.rxq := by
  simp only [State.goBackN, markFrom_rxq]
@[simp] theorem goBackN_enc (q : SeqNum) : (s.goBackN q).enc = s.enc := by
  simp only [State.goBackN, markFrom_enc]
@[simp] theorem goBackN_rx (q : SeqNum) : (s.goBackN q).rx = s.rx := by
  simp only [State.goBackN, markFrom_rx]
@[simp] theorem goBackN_env (q : SeqNum) : (s.goBackN q).env = s.env := by
  simp only [State.goBackN, markFrom_env]

/-! ### `State.enterConnected` leaves alone what it does not write -/

@[simp] theorem enterConnected_params : s.enterConnected.params = s.params := by
  simp only [State.enterConnected, signal_params, restartLink_params]
@[simp] theorem enterConnected_cfg : s.enterConnected.cfg = s.cfg := by
  simp only [State.enterConnected, signal_cfg, restartLink_cfg]
@[simp] theorem enterConnected_irqEn : s.enterConnected.irqEn = s.irqEn := by
  simp only [State.enterConnected, signal_irqEn, restartLink_irqEn]
@[simp] theorem enterConnected_result : s.enterConnected.result = s.result := by
  simp only [State.enterConnected, signal_result, restartLink_result]
@[simp] theorem enterConnected_cntLost : s.enterConnected.cntLost = s.cntLost := by
  simp only [State.enterConnected, signal_cntLost, restartLink_cntLost]
@[simp] theorem enterConnected_cntOversize : s.enterConnected.cntOversize = s.cntOversize := by
  simp only [State.enterConnected, signal_cntOversize, restartLink_cntOversize]
@[simp] theorem enterConnected_slots : s.enterConnected.slots = s.slots := by
  simp only [State.enterConnected, signal_slots, restartLink_slots]
@[simp] theorem enterConnected_uaPending : s.enterConnected.uaPending = s.uaPending := by
  simp only [State.enterConnected, signal_uaPending, restartLink_uaPending]
@[simp] theorem enterConnected_pool : s.enterConnected.pool = s.pool := by
  simp only [State.enterConnected, signal_pool, restartLink_pool]
@[simp] theorem enterConnected_bmem : s.enterConnected.bmem = s.bmem := by
  simp only [State.enterConnected, signal_bmem, restartLink_bmem]
@[simp] theorem enterConnected_rxq : s.enterConnected.rxq = s.rxq := by
  simp only [State.enterConnected, signal_rxq, restartLink_rxq]
@[simp] theorem enterConnected_enc : s.enterConnected.enc = s.enc := by
  simp only [State.enterConnected, signal_enc, restartLink_enc]
@[simp] theorem enterConnected_rx : s.enterConnected.rx = s.rx := by
  simp only [State.enterConnected, signal_rx, restartLink_rx]
@[simp] theorem enterConnected_env : s.enterConnected.env = s.env := by
  simp only [State.enterConnected, signal_env, restartLink_env]

/-! ### `State.enterDisconnected` leaves alone what it does not write -/

@[simp] theorem enterDisconnected_params : s.enterDisconnected.params = s.params := by
  simp only [State.enterDisconnected, signal_params, restartLink_params, flush_params]
@[simp] theorem enterDisconnected_cfg : s.enterDisconnected.cfg = s.cfg := by
  simp only [State.enterDisconnected, signal_cfg, restartLink_cfg, flush_cfg]
@[simp] theorem enterDisconnected_irqEn : s.enterDisconnected.irqEn = s.irqEn := by
  simp only [State.enterDisconnected, signal_irqEn, restartLink_irqEn, flush_irqEn]
@[simp] theorem enterDisconnected_result : s.enterDisconnected.result = s.result := by
  simp only [State.enterDisconnected, signal_result, restartLink_result, flush_result]
@[simp] theorem enterDisconnected_cntLost : s.enterDisconnected.cntLost = s.cntLost := by
  simp only [State.enterDisconnected, signal_cntLost, restartLink_cntLost, flush_cntLost]
@[simp] theorem enterDisconnected_cntOversize : s.enterDisconnected.cntOversize = s.cntOversize := by
  simp only [State.enterDisconnected, signal_cntOversize, restartLink_cntOversize, flush_cntOversize]
@[simp] theorem enterDisconnected_uaPending : s.enterDisconnected.uaPending = s.uaPending := by
  simp only [State.enterDisconnected, signal_uaPending, restartLink_uaPending, flush_uaPending]
@[simp] theorem enterDisconnected_bmem : s.enterDisconnected.bmem = s.bmem := by
  simp only [State.enterDisconnected, signal_bmem, restartLink_bmem, flush_bmem]
@[simp] theorem enterDisconnected_rxq : s.enterDisconnected.rxq = s.rxq := by
  simp only [State.enterDisconnected, signal_rxq, restartLink_rxq, flush_rxq]
@[simp] theorem enterDisconnected_rx : s.enterDisconnected.rx = s.rx := by
  simp only [State.enterDisconnected, signal_rx, restartLink_rx, flush_rx]
@[simp] theorem enterDisconnected_env : s.enterDisconnected.env = s.env := by
  simp only [State.enterDisconnected, signal_env, restartLink_env, flush_env]

/-! ### The values an entry writes (43_arq_connection.md R231, R232) -/

@[simp] theorem enterConnected_conn : s.enterConnected.conn = .connected := by
  simp only [State.enterConnected, signal_conn, restartLink_conn]
@[simp] theorem enterConnected_vs : s.enterConnected.vs = 0 := by
  simp only [State.enterConnected, signal_vs, restartLink_vs]
@[simp] theorem enterConnected_vr : s.enterConnected.vr = 0 := by
  simp only [State.enterConnected, signal_vr, restartLink_vr]
@[simp] theorem enterConnected_va : s.enterConnected.va = 0 := by
  simp only [State.enterConnected, signal_va, restartLink_va]
@[simp] theorem enterConnected_retry : s.enterConnected.retry = 0 := by
  simp only [State.enterConnected, signal_retry, restartLink_retry]
@[simp] theorem enterConnected_uTimer : s.enterConnected.uTimer = 0 := by
  simp only [State.enterConnected, signal_uTimer, restartLink_uTimer]
@[simp] theorem enterConnected_sabmPending : s.enterConnected.sabmPending = false := by
  simp only [State.enterConnected, signal_sabmPending, restartLink_sabmPending]
@[simp] theorem enterConnected_discPending : s.enterConnected.discPending = false := by
  simp only [State.enterConnected, signal_discPending, restartLink_discPending]
@[simp] theorem enterConnected_ackPending : s.enterConnected.ackPending = false := by
  simp only [State.enterConnected, signal_ackPending, restartLink_ackPending]
@[simp] theorem enterConnected_ackTimer : s.enterConnected.ackTimer = 0 := by
  simp only [State.enterConnected, signal_ackTimer, restartLink_ackTimer]
@[simp] theorem enterConnected_rejPending : s.enterConnected.rejPending = false := by
  simp only [State.enterConnected, signal_rejPending, restartLink_rejPending]
@[simp] theorem enterDisconnected_conn : s.enterDisconnected.conn = .disconnected := by
  simp only [State.enterDisconnected, signal_conn, restartLink_conn]
@[simp] theorem enterDisconnected_vs : s.enterDisconnected.vs = 0 := by
  simp only [State.enterDisconnected, signal_vs, restartLink_vs]
@[simp] theorem enterDisconnected_vr : s.enterDisconnected.vr = 0 := by
  simp only [State.enterDisconnected, signal_vr, restartLink_vr]
@[simp] theorem enterDisconnected_va : s.enterDisconnected.va = 0 := by
  simp only [State.enterDisconnected, signal_va, restartLink_va]
@[simp] theorem enterDisconnected_retry : s.enterDisconnected.retry = 0 := by
  simp only [State.enterDisconnected, signal_retry, restartLink_retry]
@[simp] theorem enterDisconnected_uTimer : s.enterDisconnected.uTimer = 0 := by
  simp only [State.enterDisconnected, signal_uTimer, restartLink_uTimer]
@[simp] theorem enterDisconnected_sabmPending : s.enterDisconnected.sabmPending = false := by
  simp only [State.enterDisconnected, signal_sabmPending, restartLink_sabmPending]
@[simp] theorem enterDisconnected_discPending : s.enterDisconnected.discPending = false := by
  simp only [State.enterDisconnected, signal_discPending, restartLink_discPending]
@[simp] theorem enterDisconnected_ackPending : s.enterDisconnected.ackPending = false := by
  simp only [State.enterDisconnected, signal_ackPending, restartLink_ackPending]
@[simp] theorem enterDisconnected_ackTimer : s.enterDisconnected.ackTimer = 0 := by
  simp only [State.enterDisconnected, signal_ackTimer, restartLink_ackTimer]
@[simp] theorem enterDisconnected_rejPending : s.enterDisconnected.rejPending = false := by
  simp only [State.enterDisconnected, signal_rejPending, restartLink_rejPending]

end Sys2Proof.Machine
end

