-- ==== Sys2Proof/Laws/Arq.lean ====
section
/-! SUPPORT. What the shared ARQ operations do: one lemma for each says everything (43_arq_connection.md R234,
44_arq_data.md R283 to R285). -/

namespace Sys2Proof.Machine

variable (s : State)

/-- `retire(q)` in full: the slot is emptied, and its buffer is freed now, or orphaned if it is on the wire
(44_arq_data.md R284). -/
theorem retire_cases (q : SeqNum) :
    (s.sending (s.slot q).buf = true ∧ s.retire q = { s.setSlot q {} with enc := { s.enc with orphan := true } }) ∨
    (s.sending (s.slot q).buf = false ∧ s.retire q = (s.setSlot q {}).freeBuffer (s.slot q).buf) := by
  unfold State.retire
  cases h : s.sending (s.slot q).buf
  · exact .inr ⟨rfl, if_neg (by exact Bool.eq_false_iff.mp h)⟩
  · exact .inl ⟨rfl, if_pos h⟩

theorem sending_iff (b : Nat) : s.sending b = true ↔ s.enc.active = true ∧ s.enc.kind = .i ∧ s.enc.buf = b := by
  simp [State.sending, and_assoc]

@[simp] theorem retire_slot (q r : SeqNum) : (s.retire q).slot r = if q = r then {} else s.slot r := by
  rcases retire_cases s q with ⟨-, h⟩ | ⟨-, h⟩ <;> rw [h] <;> exact setSlot_slot s q r {}

@[simp] theorem retire_nbuf (q : SeqNum) : (s.retire q).nbuf = s.nbuf := by
  rcases retire_cases s q with ⟨-, h⟩ | ⟨-, h⟩ <;> simp [h, State.nbuf]

@[simp] theorem retire_blen (q : SeqNum) (i : Nat) : (s.retire q).blen i = s.blen i := by
  rcases retire_cases s q with ⟨-, h⟩ | ⟨-, h⟩ <;> rw [h]
  · rfl
  · simp

theorem retire_bstate (q : SeqNum) (i : Nat) :
    (s.retire q).bstate i =
      if s.sending (s.slot q).buf = false ∧ (s.slot q).buf = i ∧ i < s.nbuf then .free else s.bstate i := by
  rcases retire_cases s q with ⟨h0, h⟩ | ⟨h0, h⟩ <;> rw [h]
  · rw [if_neg (by simp [h0])]; rfl
  · rw [freeBuffer_bstate]; grind [setSlot_nbuf, setSlot_bstate]

theorem retire_enc (q : SeqNum) :
    (s.retire q).enc = if s.sending (s.slot q).buf then { s.enc with orphan := true } else s.enc := by
  rcases retire_cases s q with ⟨h0, h⟩ | ⟨h0, h⟩ <;> rw [h, h0] <;> rfl

/-- The lists of slots whose validity `retireValid` clears: those in the list. -/
@[simp] theorem retireValid_slot (l : List SeqNum) (r : SeqNum) :
    (s.retireValid l).slot r = if (s.slot r).valid = true ∧ r ∈ l then {} else s.slot r := by
  induction l generalizing s with
  | nil => simp [State.retireValid]
  | cons q l ih =>
    rw [State.retireValid, ih]
    by_cases hq : (s.slot q).valid = true
    · simp only [hq, if_true, retire_slot]
      grind
    · simp only [hq, if_neg, Bool.false_eq_true, not_false_iff]
      grind

/-- `flush()` empties every valid slot (43_arq_connection.md R234). -/
theorem flush_slot (r : SeqNum) : s.flush.slot r = if (s.slot r).valid = true then {} else s.slot r := by
  rw [State.flush, retireValid_slot]
  simp [SeqNum.mem_all]

theorem flush_slot_valid (r : SeqNum) : (s.flush.slot r).valid = false := by
  rw [flush_slot]; split <;> simp_all

/-- The slots that `n` rounds of acknowledgment empty: the `n` oldest (44_arq_data.md R283). -/
theorem retireOldest_slot (n : Nat) (hn : n ≤ 8) (r : SeqNum) :
    (s.retireOldest n).slot r = if (r - s.va).toNat < n then {} else s.slot r := by
  induction n generalizing s with
  | zero => simp [State.retireOldest]
  | succ n ih =>
    rw [State.retireOldest, ih _ (by omega)]
    have h1 : (r - (s.va + 1)).toNat = ((r - s.va).toNat + 7) % 8 := by
      simp only [BitVec.toNat_sub, BitVec.toNat_add, show (1 : SeqNum).toNat = 1 from rfl]; omega
    have h2 : s.va = r ↔ (r - s.va).toNat = 0 := by
      rw [← BitVec.toNat_inj, BitVec.toNat_sub]; have := s.va.isLt; have := r.isLt; omega
    have h3 := (r - s.va).isLt
    have h4 : ∀ t : State, State.slot { t with va := t.va + 1 } r = t.slot r := fun _ => rfl
    dsimp only
    rw [h4, retire_slot, retire_va, h1]
    by_cases hqr : s.va = r
    · have := h2.1 hqr
      rw [if_neg (by omega), if_pos hqr, if_pos (by omega)]
    · have : (r - s.va).toNat ≠ 0 := fun h => hqr (h2.2 h)
      rw [if_neg hqr]
      split <;> split <;> first | rfl | omega

theorem retireOldest_va (n : Nat) : (s.retireOldest n).va = s.va + BitVec.ofNat 3 n := by
  induction n generalizing s with
  | zero => simp [State.retireOldest]
  | succ n ih =>
    simp only [State.retireOldest, ih, retire_va]
    apply BitVec.eq_of_toNat_eq
    simp only [BitVec.toNat_add, BitVec.toNat_ofNat, show (1 : SeqNum).toNat = 1 from rfl]
    omega

theorem ackProcess_slot (nr r : SeqNum) :
    (s.ackProcess nr).slot r = if (r - s.va).toNat < (nr - s.va).toNat then {} else s.slot r := by
  unfold State.ackProcess
  split
  · next h => subst h; simp
  · exact retireOldest_slot s _ (by have := (nr - s.va).isLt; omega) r

@[simp] theorem ackProcess_va (nr : SeqNum) : (s.ackProcess nr).va = nr := by
  unfold State.ackProcess
  split
  · next h => exact h
  · show (s.retireOldest _).va = nr
    rw [retireOldest_va, BitVec.ofNat_toNat, BitVec.setWidth_eq, add_sub_cancel]

theorem goBackN_slot (q r : SeqNum) :
    (s.goBackN q).slot r = if (r - q).toNat < (s.vs - q).toNat then
      { s.slot r with needsTx := true, timer := s.cfg.timeout } else s.slot r :=
  markFrom_slot s q _ (by have := (s.vs - q).isLt; omega) r

@[simp] theorem retireValid_nbuf (l : List SeqNum) : (s.retireValid l).nbuf = s.nbuf := by
  induction l generalizing s with
  | nil => rfl
  | cons q l ih => rw [State.retireValid, ih]; split <;> simp

@[simp] theorem flush_nbuf : s.flush.nbuf = s.nbuf := retireValid_nbuf s SeqNum.all

@[simp] theorem retireOldest_nbuf (n : Nat) : (s.retireOldest n).nbuf = s.nbuf := by
  induction n generalizing s with
  | zero => rfl
  | succ n ih =>
    rw [State.retireOldest, ih]
    exact retire_nbuf s s.va

@[simp] theorem ackProcess_nbuf (nr : SeqNum) : (s.ackProcess nr).nbuf = s.nbuf := by
  unfold State.ackProcess; split
  · rfl
  · exact retireOldest_nbuf s _

@[simp] theorem markFrom_nbuf (q : SeqNum) (n : Nat) : (s.markFrom q n).nbuf = s.nbuf := by
  simp [State.nbuf]

@[simp] theorem goBackN_nbuf (q : SeqNum) : (s.goBackN q).nbuf = s.nbuf := by simp [State.nbuf]

end Sys2Proof.Machine
end

