-- ==== Sys2Proof/Laws/Legal.lean ====
section
/-! SUPPORT. The shared ARQ operations keep the ownership part of a legal state (10_state.md R54). -/

namespace Sys2Proof.Machine

/-- The ownership part of `State.Legal`, which holds in the middle of a flush or of an acknowledgment too. -/
structure State.Owned (s : State) : Prop where
  slots : s.SlotsLegal
  enc : s.EncLegal
  pool : s.PoolLegal

variable {s : State}

theorem State.pending_lt {i : Nat} (h : s.pending i) : i < s.nbuf :=
  lt_of_bstate_ne_free s (by rcases h with h | h <;> simp [h])

/-- Retiring a valid slot keeps ownership (44_arq_data.md R284). -/
theorem State.Owned.retire (h : s.Owned) {q : SeqNum} (hq : (s.slot q).valid = true) : (s.retire q).Owned := by
  obtain ⟨⟨hempty, hbuf, hdist⟩, ⟨hpos, hidle, hwire, horph, howned, hfirst⟩, ⟨hlen, hpend, hnodup, hdel⟩⟩ := h
  have hb := hbuf q hq
  have hnp : ∀ r, q ≠ r → (s.slot r).valid = true → (s.slot q).buf ≠ (s.slot r).buf :=
    fun r hne hr he => hne (hdist q r hq hr he)
  have hst : ∀ i, (s.slot q).buf ≠ i → (s.retire q).bstate i = s.bstate i := fun i hi => by
    rw [retire_bstate]; grind
  have hvalid : ∀ r, ((s.retire q).slot r).valid = true → q ≠ r ∧ (s.slot r).valid = true := by
    intro r; rw [retire_slot]; split <;> simp_all
  have hslot : ∀ r, q ≠ r → (s.retire q).slot r = s.slot r := fun r hne => by rw [retire_slot, if_neg hne]
  have hdisj : (s.sending (s.slot q).buf = true ∧ (s.retire q).enc = { s.enc with orphan := true } ∧
        (∀ i, (s.retire q).bstate i = s.bstate i) ∧ s.enc.active = true ∧ s.enc.kind = .i ∧
        s.enc.buf = (s.slot q).buf ∧ s.enc.orphan = false) ∨
      (s.sending (s.slot q).buf = false ∧ (s.retire q).enc = s.enc ∧
        (∀ i, (s.retire q).bstate i = if (s.slot q).buf = i ∧ i < s.nbuf then .free else s.bstate i)) := by
    cases hs : s.sending (s.slot q).buf
    · exact .inr ⟨rfl, by rw [retire_enc, hs]; rfl, fun i => by rw [retire_bstate]; simp [hs]⟩
    · have := (sending_iff s _).1 hs
      refine .inl ⟨rfl, by rw [retire_enc, hs]; rfl, fun i => by rw [retire_bstate]; simp [hs], this.1, this.2.1,
        this.2.2, ?_⟩
      by_contra ho
      have ho := horph (by simpa using ho)
      exact ho.2.2.2 q hq this.2.2.symm
  have hpendEq : ∀ i, (s.slot q).buf ≠ i → ((s.retire q).pending i ↔ s.pending i) := fun i hi => by
    simp only [State.pending, hst i hi]
  refine ⟨⟨?_, ?_, ?_⟩, ⟨?_, ?_, ?_, ?_, ?_, ?_⟩, ⟨?_, ?_, ?_, ?_⟩⟩
  · intro r hr
    rw [retire_slot] at hr ⊢
    split
    · rfl
    · next hne => rw [if_neg hne] at hr; exact hempty r hr
  · intro r hr
    obtain ⟨hne, hr⟩ := hvalid r hr
    rw [hslot r hne, retire_nbuf]
    exact ⟨(hbuf r hr).1, (hpendEq _ (hnp r hne hr)).2 (hbuf r hr).2⟩
  · intro r t hr ht he
    obtain ⟨hne, hr⟩ := hvalid r hr
    obtain ⟨hne', ht⟩ := hvalid t ht
    rw [hslot r hne, hslot t hne'] at he
    exact hdist r t hr ht he
  · rcases hdisj with ⟨-, he, -⟩ | ⟨-, he, -⟩ <;> simpa [he] using hpos
  · rcases hdisj with ⟨-, he, -, ha, -⟩ | ⟨-, he, -⟩
    · simp [he, ha]
    · simpa [he] using hidle
  · rcases hdisj with ⟨-, he, -⟩ | ⟨-, he, -⟩ <;> simpa [he] using hwire
  · rcases hdisj with ⟨-, he, hbs, ha, hk, hbq, ho⟩ | ⟨hs, he, hbs⟩
    · intro _
      simp only [he, retire_nbuf, State.pending, hbs, hk, hbq]
      refine ⟨trivial, hb.1, hb.2, fun r hr => ?_⟩
      obtain ⟨hne, hr⟩ := hvalid r hr
      rw [hslot r hne]; exact (hnp r hne hr).symm
    · intro ho
      rw [he] at ho ⊢
      obtain ⟨h1, h2, h3, h4⟩ := horph ho
      refine ⟨h1, by rwa [retire_nbuf], (hpendEq _ (h4 q hq)).2 h3, fun r hr => ?_⟩
      obtain ⟨hne, hr⟩ := hvalid r hr
      rw [hslot r hne]; exact h4 r hr
  · intro ha hk ho
    rcases hdisj with ⟨-, he, -⟩ | ⟨hs, he, hbs⟩
    · rw [he] at ho; cases ho
    · rw [he] at ha hk ho ⊢
      obtain ⟨h1, h2⟩ := howned ha hk ho
      have hne : q ≠ s.enc.seq := by
        rintro rfl
        have : s.sending (s.slot s.enc.seq).buf = true := (sending_iff s _).2 ⟨ha, hk, h2.symm⟩
        rw [hs] at this; cases this
      rw [hslot _ hne]; exact ⟨h1, h2⟩
  · intro r hr hp hn
    obtain ⟨hne, hr⟩ := hvalid r hr
    rw [hslot r hne] at hp hn
    rw [hst _ (hnp r hne hr)] at hp
    have := hfirst r hr hp hn
    rcases hdisj with ⟨-, he, -, ha, hk, hbq, ho⟩ | ⟨-, he, -⟩
    · obtain ⟨-, -, hseq, -⟩ := this
      obtain ⟨-, h2⟩ := howned ha hk ho
      rw [hseq, hbq] at h2
      exact absurd h2.symm (hnp r hne hr)
    · simpa [he] using this
  · intro i; simpa using hlen i
  · intro i hi hp
    rw [retire_nbuf] at hi
    by_cases hbi : (s.slot q).buf = i
    · rcases hdisj with ⟨-, he, -, -, -, hbq, -⟩ | ⟨-, -, hbs⟩
      · exact .inr (by simp [he, hbq, hbi])
      · rw [State.pending, hbs i, if_pos ⟨hbi, hi⟩] at hp
        simp at hp
    · rcases hpend i hi ((hpendEq i hbi).1 hp) with ⟨r, hr, hri⟩ | ⟨ho, hbo⟩
      · have hne : q ≠ r := by rintro rfl; exact hbi hri
        exact .inl ⟨r, by rw [hslot r hne]; exact ⟨hr, hri⟩⟩
      · refine .inr ?_
        rcases hdisj with ⟨-, he, -⟩ | ⟨-, he, -⟩ <;> simp [he, ho, hbo]
  · simpa using hnodup
  · intro i
    rw [retire_rxq, retire_nbuf, hdel]
    by_cases hbi : (s.slot q).buf = i
    · subst hbi
      have : s.bstate (s.slot q).buf ≠ .delivered := by rcases hb.2 with h | h <;> simp [h]
      rw [retire_bstate]; grind
    · rw [hst i hbi]

theorem State.Owned.retireValid (h : s.Owned) (l : List SeqNum) : (s.retireValid l).Owned := by
  induction l generalizing s with
  | nil => exact h
  | cons q l ih =>
    rw [State.retireValid]
    apply ih
    split
    · next hq => exact h.retire hq
    · exact h

/-- A flush keeps ownership (43_arq_connection.md R234). -/
theorem State.Owned.flush (h : s.Owned) : s.flush.Owned := h.retireValid _

/-- The ownership part does not look at anything outside the slot file, the encoder, the pool and its parameters. -/
theorem State.Owned.congr {t : State} (h : s.Owned) (h1 : t.slots = s.slots) (h2 : t.enc = s.enc)
    (h3 : t.pool = s.pool) (h4 : t.rxq = s.rxq) (h5 : t.params = s.params) : t.Owned := by
  have hs : ∀ q, t.slot q = s.slot q := fun q => by simp only [State.slot, h1]
  have hb : ∀ i, t.bstate i = s.bstate i := fun i => by simp only [State.bstate, State.desc, h3]
  have hl : ∀ i, t.blen i = s.blen i := fun i => by simp only [State.blen, State.desc, h3]
  have hn : t.nbuf = s.nbuf := by simp only [State.nbuf, h3]
  have hp : ∀ i, t.pending i ↔ s.pending i := fun i => by simp only [State.pending, hb]
  obtain ⟨⟨a1, a2, a3⟩, ⟨b1, b2, b3, b4, b5, b6⟩, ⟨c1, c2, c3, c4⟩⟩ := h
  constructor <;> constructor <;> simp only [hs, hb, hl, hn, hp, h2, h4, h5] <;> assumption

theorem State.Owned.retireOldest (h : s.Owned) {n : Nat} (hn : n ≤ 8)
    (hv : ∀ r, (r - s.va).toNat < n → (s.slot r).valid = true) : (s.retireOldest n).Owned := by
  induction n generalizing s with
  | zero => exact h
  | succ n ih =>
    rw [State.retireOldest]
    have h0 : (s.slot s.va).valid = true := hv _ (by simp)
    refine ih ((h.retire h0).congr rfl rfl rfl rfl rfl) (by omega) fun r hr => ?_
    simp only [retire_va] at hr
    have h1 : (r - (s.va + 1)).toNat = ((r - s.va).toNat + 7) % 8 := by
      simp only [BitVec.toNat_sub, BitVec.toNat_add, show (1 : SeqNum).toNat = 1 from rfl]; omega
    have h3 := (r - s.va).isLt
    have hne : s.va ≠ r := by
      rintro rfl
      rw [h1] at hr; simp at hr; omega
    have hne' : (r - s.va).toNat ≠ 0 := by
      intro h; apply hne
      rw [← BitVec.toNat_inj]; rw [BitVec.toNat_sub] at h; have := s.va.isLt; have := r.isLt; omega
    have : ((s.retire s.va).slot r).valid = true := by
      rw [retire_slot, if_neg hne]; exact hv r (by omega)
    exact this

/-- A cumulative acknowledgment keeps ownership (44_arq_data.md R283). -/
theorem State.Owned.ackProcess (h : s.Owned) {nr : SeqNum}
    (hv : ∀ r, (r - s.va).toNat < (nr - s.va).toNat → (s.slot r).valid = true) : (s.ackProcess nr).Owned := by
  unfold State.ackProcess
  split
  · exact h
  · exact (h.retireOldest (by have := (nr - s.va).isLt; omega) hv).congr rfl rfl rfl rfl rfl

/-- Marking valid slots keeps ownership (44_arq_data.md R285). -/
theorem State.Owned.goBackN (h : s.Owned) {q : SeqNum}
    (hv : ∀ r, (r - q).toNat < (s.vs - q).toNat → (s.slot r).valid = true) : (s.goBackN q).Owned := by
  obtain ⟨⟨hempty, hbuf, hdist⟩, ⟨hpos, hidle, hwire, horph, howned, hfirst⟩, ⟨hlen, hpend, hnodup, hdel⟩⟩ := h
  have hval : ∀ r, ((s.goBackN q).slot r).valid = (s.slot r).valid := fun r => by rw [goBackN_slot]; split <;> rfl
  have hb : ∀ r, ((s.goBackN q).slot r).buf = (s.slot r).buf := fun r => by rw [goBackN_slot]; split <;> rfl
  have hst : ∀ i, (s.goBackN q).bstate i = s.bstate i := fun i => by
    simp only [State.bstate, State.desc, goBackN_pool]
  have hln : ∀ i, (s.goBackN q).blen i = s.blen i := fun i => by simp only [State.blen, State.desc, goBackN_pool]
  have hp : ∀ i, (s.goBackN q).pending i ↔ s.pending i := fun i => by simp only [State.pending, hst]
  constructor <;> constructor <;> simp only [hval, hb, hst, hln, hp, goBackN_nbuf, goBackN_enc, goBackN_params, goBackN_rxq]
    <;> try assumption
  · intro r hr
    rw [goBackN_slot]
    split
    · next hlt => rw [hv r hlt] at hr; cases hr
    · exact hempty r hr
  · intro r hr hpt hnt
    refine hfirst r hr hpt ?_
    rw [goBackN_slot] at hnt
    split at hnt
    · cases hnt
    · exact hnt

end Sys2Proof.Machine
end

