-- ==== Sys2Proof/Laws/Events.lean ====
section
/-! SUPPORT. RESULT and EVENT: what a command's result and a signalled event write (45_host_interface.md R332,
10_state.md R35). -/

namespace Sys2Proof.Machine

variable (s : State)

theorem resultWord_toNat (c : Code) (b : BitVec 8) (n : BitVec 16) :
    (resultWord c b n).toNat = c.num.toNat + 256 * b.toNat + 65536 * n.toNat := by
  unfold resultWord
  simp only [BitVec.toNat_append, Nat.shiftLeft_eq]
  have := c.num.isLt; have := b.isLt; have := n.isLt
  rw [← Nat.shiftLeft_eq, ← Nat.shiftLeft_add_eq_or_of_lt (by omega), ← Nat.shiftLeft_eq,
    ← Nat.shiftLeft_add_eq_or_of_lt (by omega)]
  simp only [Nat.shiftLeft_eq]
  omega

/-- `result(code, buf, len)` writes these three fields (45_host_interface.md R332). -/
theorem setResult_is (c : Code) (b : BitVec 8) (n : BitVec 16) :
    (s.setResult c b n).ResultIs c.num.toNat b.toNat n.toNat := resultWord_toNat c b n

theorem flag_getLsbD (e : Event) (i : Nat) : e.flag.getLsbD i = true ↔ i = e.bit := by
  unfold Event.flag
  rw [BitVec.getLsbD_twoPow]
  have : e.bit < 11 := by cases e <;> decide
  simp [this]; omega

/-- `event(E)` sets one bit and keeps the others (10_state.md R35). -/
theorem signal_added (e : Event) : s.EventsAdded (s.signal e) fun i => i = e.bit := by
  intro i
  simp only [State.signal, BitVec.getLsbD_or, Bool.or_eq_true, flag_getLsbD]

theorem State.EventsAdded.of_event_eq {t : State} (h : t.event = s.event) : s.EventsAdded t fun _ => False := by
  intro i; rw [h]; simp

theorem State.EventsAdded.trans {s t u : State} {p q : Nat → Prop} (h1 : s.EventsAdded t p) (h2 : t.EventsAdded u q) :
    s.EventsAdded u fun i => p i ∨ q i := by
  intro i; rw [h2 i, h1 i, or_assoc]

theorem State.EventsAdded.congr {s t : State} {p q : Nat → Prop} (h1 : s.EventsAdded t p) (h2 : ∀ i, p i ↔ q i) :
    s.EventsAdded t q := by
  intro i; rw [h1 i, h2]

end Sys2Proof.Machine
end

