-- ==== Sys2Proof/Laws/Retire.lean ====
section
/-! SUPPORT. Slot retirement, cumulative acknowledgment and flush in full: which buffers they free, which events they
set, and when they orphan the frame on the wire (44_arq_data.md R283, R284, 43_arq_connection.md R234). -/

namespace Sys2Proof.Machine

variable (s : State)

@[simp] theorem retire_sending (q : SeqNum) (i : Nat) : (s.retire q).sending i = s.sending i := by
  unfold State.sending; rw [retire_enc]; split <;> rfl

theorem retire_events (q : SeqNum) :
    s.EventsAdded (s.retire q) fun i => i = 2 ∧ s.sending (s.slot q).buf = false := by
  rcases retire_cases s q with ⟨h0, h⟩ | ⟨h0, h⟩ <;> rw [h, h0]
  · exact (State.EventsAdded.of_event_eq s rfl).congr (by simp)
  · exact (signal_added _ .poolFreed).congr (by simp [Event.bit])

theorem retire_enc_eq (q : SeqNum) : (s.retire q).enc = { s.enc with orphan := (s.retire q).enc.orphan } := by
  rw [retire_enc]; split <;> rfl

theorem retire_orphan (q : SeqNum) :
    (s.retire q).enc.orphan = true ↔ s.enc.orphan = true ∨ s.sending (s.slot q).buf = true := by
  rw [retire_enc]; split <;> simp_all

/-- What retiring a set of slots leaves of the pool, the encoder and EVENT. -/
structure Retired (s : State) (p : SeqNum → Prop) (t : State) : Prop where
  bstate : ∀ i, (((∃ q, p q ∧ (s.slot q).buf = i) ∧ s.sending i = false) → t.bstate i = .free) ∧
    (¬ ((∃ q, p q ∧ (s.slot q).buf = i) ∧ s.sending i = false) → t.bstate i = s.bstate i)
  blen : ∀ i, t.blen i = s.blen i
  nbuf : t.nbuf = s.nbuf
  sending : ∀ i, t.sending i = s.sending i
  enc : t.enc = { s.enc with orphan := t.enc.orphan }
  orphan : t.enc.orphan = true ↔ s.enc.orphan = true ∨ ∃ q, p q ∧ s.sending (s.slot q).buf = true
  events : s.EventsAdded t fun i => i = 2 ∧ ∃ q, p q ∧ s.sending (s.slot q).buf = false

theorem Retired.refl {p : SeqNum → Prop} (h : ∀ q, ¬ p q) : Retired s p s :=
  ⟨fun _ => ⟨fun h' => absurd h'.1.choose_spec.1 (h _), fun _ => rfl⟩, fun _ => rfl, rfl, fun _ => rfl, rfl,
    ⟨.inl, fun h' => h'.resolve_right fun ⟨q, hq, _⟩ => h q hq⟩,
    (State.EventsAdded.of_event_eq s rfl).congr fun _ => ⟨False.elim, fun ⟨_, q, hq, _⟩ => h q hq⟩⟩

/-- Retiring one more slot first: `u` is the state after it, whose other slots are as before. -/
theorem Retired.step {s u t : State} {p p' : SeqNum → Prop} {q0 : SeqNum} (h : Retired u p' t)
    (hslot : ∀ q, p' q → u.slot q = s.slot q) (hp : ∀ q, p q ↔ q = q0 ∨ p' q)
    (hb : ∀ i, u.bstate i = (s.retire q0).bstate i) (hl : ∀ i, u.blen i = s.blen i) (hn : u.nbuf = s.nbuf)
    (he : u.enc = (s.retire q0).enc) (hev : u.event = (s.retire q0).event) : Retired s p t := by
  have hs : ∀ i, u.sending i = s.sending i := fun i => by rw [← retire_sending s q0]; simp only [State.sending, he]
  have hex : ∀ P : SeqNum → Prop, (∃ q, p q ∧ P q) ↔ P q0 ∨ ∃ q, p' q ∧ P q := by
    intro P
    constructor
    · rintro ⟨q, hq, hP⟩
      rcases (hp q).1 hq with rfl | hq
      · exact .inl hP
      · exact .inr ⟨q, hq, hP⟩
    · rintro (hP | ⟨q, hq, hP⟩)
      · exact ⟨q0, (hp q0).2 (.inl rfl), hP⟩
      · exact ⟨q, (hp q).2 (.inr hq), hP⟩
  have hex' : ∀ P : Slot → Prop, (∃ q, p' q ∧ P (u.slot q)) ↔ ∃ q, p' q ∧ P (s.slot q) := fun P =>
    exists_congr fun q => and_congr_right fun hq => by rw [hslot q hq]
  have hbs : ∀ i, u.bstate i = if s.sending (s.slot q0).buf = false ∧ (s.slot q0).buf = i ∧ i < s.nbuf then .free
      else s.bstate i := fun i => by rw [hb, retire_bstate]
  refine ⟨fun i => ?_, fun i => (h.blen i).trans (hl i), h.nbuf.trans hn, fun i => (h.sending i).trans (hs i), ?_, ?_, ?_⟩
  · obtain ⟨h1, h2⟩ := h.bstate i
    rw [hex' fun v => v.buf = i, hs i] at h1 h2
    rw [hex fun q => (s.slot q).buf = i]
    constructor
    · rintro ⟨h3 | h3, h4⟩
      · by_cases h5 : (∃ q, p' q ∧ (s.slot q).buf = i) ∧ s.sending i = false
        · exact h1 h5
        · rw [h2 h5, hbs, h3]
          split
          · rfl
          · next hx => exact bstate_of_ge s (by by_contra hlt; exact hx ⟨h4, rfl, by omega⟩)
      · exact h1 ⟨h3, h4⟩
    · intro h3
      have h4 : ¬ ((∃ q, p' q ∧ (s.slot q).buf = i) ∧ s.sending i = false) := fun h4 => h3 ⟨.inr h4.1, h4.2⟩
      rw [h2 h4, hbs, if_neg]
      rintro ⟨h5, h6, -⟩
      exact h3 ⟨.inl h6, h6 ▸ h5⟩
  · rw [h.enc, he, retire_enc_eq]
  · have : u.enc.orphan = true ↔ s.enc.orphan = true ∨ s.sending (s.slot q0).buf = true := by rw [he, retire_orphan]
    have h3 := h.orphan
    simp only [hs] at h3
    rw [h3, this, hex' fun v => s.sending v.buf = true, hex fun q => s.sending (s.slot q).buf = true, or_assoc]
  · have h1 := retire_events s q0
    have h2 : u.EventsAdded t fun i => i = 2 ∧ ∃ q, p' q ∧ s.sending (s.slot q).buf = false := h.events.congr fun i => by
      simp only [hs]
      exact and_congr_right fun _ => hex' fun v => s.sending v.buf = false
    have h3 : s.EventsAdded u fun i => i = 2 ∧ s.sending (s.slot q0).buf = false := fun i => by rw [hev]; exact h1 i
    refine (h3.trans h2).congr fun i => ?_
    rw [hex fun q => s.sending (s.slot q).buf = false, ← and_or_left]

/-- `n` rounds of acknowledgment retire the `n` oldest slots (44_arq_data.md R283). -/
theorem retireOldest_retired (n : Nat) (hn : n ≤ 8) : Retired s (fun q => (q - s.va).toNat < n) (s.retireOldest n) := by
  induction n generalizing s with
  | zero => exact Retired.refl s fun q => by omega
  | succ n ih =>
    rw [State.retireOldest]
    generalize hu : ({ s.retire s.va with va := (s.retire s.va).va + 1 } : State) = u
    have eva : u.va = s.va + 1 := by rw [← hu]; simp
    have hnx : ∀ r : SeqNum, (r - (s.va + 1)).toNat = ((r - s.va).toNat + 7) % 8 := fun r => by
      simp only [BitVec.toNat_sub, BitVec.toNat_add, show (1 : SeqNum).toNat = 1 from rfl]; omega
    have hz : ∀ r : SeqNum, r = s.va ↔ (r - s.va).toNat = 0 := fun r => by
      rw [← BitVec.toNat_inj, BitVec.toNat_sub]; have := s.va.isLt; have := r.isLt; omega
    have hsl : ∀ q, u.slot q = (s.retire s.va).slot q := fun q => by rw [← hu]; rfl
    have hr := ih u (by omega)
    rw [eva] at hr
    refine hr.step (q0 := s.va) (fun q hq => ?_) (fun q => ?_) (fun i => ?_) (fun i => ?_) ?_ ?_ ?_
    · rw [hsl, retire_slot, if_neg]
      intro he
      have := (hz q).1 he.symm
      rw [hnx] at hq; omega
    · rw [hnx, hz]; have := (q - s.va).isLt; omega
    · rw [← hu]; rfl
    · rw [← hu]; exact retire_blen s s.va i
    · rw [← hu]; exact retire_nbuf s s.va
    · rw [← hu]
    · rw [← hu]

/-- Retiring the valid slots of a list retires exactly those (43_arq_connection.md R234). -/
theorem retireValid_retired (l : List SeqNum) (hl : l.Nodup) :
    Retired s (fun q => (s.slot q).valid = true ∧ q ∈ l) (s.retireValid l) := by
  induction l generalizing s with
  | nil => exact Retired.refl s fun q => by simp
  | cons q0 l ih =>
    rw [List.nodup_cons] at hl
    rw [State.retireValid]
    split
    · next hv =>
      have hr := ih (s.retire q0) hl.2
      refine hr.step (q0 := q0) (fun q hq => ?_) (fun q => ?_) (fun _ => rfl) (retire_blen s q0) (retire_nbuf s q0) rfl rfl
      · rw [retire_slot, if_neg]
        rintro rfl
        exact hl.1 hq.2
      · rw [retire_slot, List.mem_cons]
        by_cases hq : q0 = q
        · subst hq; simp [hv]
        · rw [if_neg hq]
          constructor
          · rintro ⟨h1, h2 | h2⟩
            · exact absurd h2.symm hq
            · exact .inr ⟨h1, h2⟩
          · rintro (h1 | h1)
            · exact absurd h1.symm hq
            · exact ⟨h1.1, .inr h1.2⟩
    · next hv =>
      have hr := ih s hl.2
      have : (fun q => (s.slot q).valid = true ∧ q ∈ q0 :: l) = fun q => (s.slot q).valid = true ∧ q ∈ l := by
        funext q
        rw [List.mem_cons, eq_iff_iff]
        refine and_congr_right fun h1 => ⟨fun h2 => h2.resolve_left ?_, .inr⟩
        rintro rfl
        exact hv h1
      rw [this]; exact hr

/-- A flush retires the valid slots (43_arq_connection.md R234). -/
theorem flush_retired : Retired s (fun q => (s.slot q).valid = true) s.flush := by
  have h := retireValid_retired s SeqNum.all SeqNum.nodup_all
  have : (fun q => (s.slot q).valid = true ∧ q ∈ SeqNum.all) = fun q => (s.slot q).valid = true := by
    funext q; simp [SeqNum.mem_all]
  rw [this] at h; exact h

end Sys2Proof.Machine
end

