-- ==== Sys2Proof/Laws/ArqSpec.lean ====
section
/-! SUPPORT. What the shared ARQ operations do to the whole state, in the terms of Safety.lean: a cumulative
acknowledgment, a flush, the entries to CONNECTED and DISCONNECTED (44_arq_data.md R283, 43_arq_connection.md R231,
R232, R234). -/

namespace Sys2Proof.Machine

/-- Two states with the same fields are the same state. -/
theorem State.eq_of_fields {s t : State}
    (h1 : s.params = t.params) (h2 : s.cfg = t.cfg) (h3 : s.irqEn = t.irqEn) (h4 : s.result = t.result)
    (h5 : s.event = t.event) (h6 : s.cntLost = t.cntLost) (h7 : s.cntOversize = t.cntOversize) (h8 : s.conn = t.conn)
    (h9 : s.vs = t.vs) (h10 : s.vr = t.vr) (h11 : s.va = t.va) (h12 : s.slots = t.slots) (h13 : s.retry = t.retry)
    (h14 : s.uTimer = t.uTimer) (h15 : s.ackPending = t.ackPending) (h16 : s.ackTimer = t.ackTimer)
    (h17 : s.rejPending = t.rejPending) (h18 : s.uaPending = t.uaPending) (h19 : s.sabmPending = t.sabmPending)
    (h20 : s.discPending = t.discPending) (h21 : s.pool = t.pool) (h22 : s.bmem = t.bmem) (h23 : s.rxq = t.rxq)
    (h24 : s.enc = t.enc) (h25 : s.rx = t.rx) (h26 : s.env = t.env) : s = t := by
  cases s; cases t
  dsimp only at *
  subst_vars
  rfl

variable (s : State)

/-- An acknowledgment's effect on the pool does not reach the fields that no retirement changes. -/
theorem ackProcess_eq (nr : SeqNum) : s.ackProcess nr = { s with
    va := (s.ackProcess nr).va, slots := (s.ackProcess nr).slots, retry := (s.ackProcess nr).retry,
    pool := (s.ackProcess nr).pool, event := (s.ackProcess nr).event, enc := (s.ackProcess nr).enc } := by
  apply State.eq_of_fields <;> simp

theorem flush_eq : s.flush = { s with
    slots := s.flush.slots, pool := s.flush.pool, event := s.flush.event, enc := s.flush.enc } := by
  apply State.eq_of_fields <;> simp

/-- `ack_process(nr)` in full (44_arq_data.md R283). -/
theorem ackProcess_acked (nr : SeqNum) : s.Acked nr (s.ackProcess nr) := by
  have hrel : (∃ b, s.Released nr b) ↔ ∃ q, s.Acknowledged nr q ∧ s.sending (s.slot q).buf = false :=
    ⟨fun ⟨_, ⟨q, hq, hb⟩, hs⟩ => ⟨q, hq, hb ▸ hs⟩, fun ⟨q, hq, hs⟩ => ⟨_, ⟨q, hq, rfl⟩, hs⟩⟩
  have hslot := ackProcess_slot s nr
  have hrest := ackProcess_eq s nr
  have hmem : s.MemorySame (s.ackProcess nr) := fun a => by rw [ackProcess_bmem]
  have hva := ackProcess_va s nr
  by_cases hv : s.va = nr
  · have ha : s.ackProcess nr = s := if_pos hv
    have hno : ∀ q, ¬ s.Acknowledged nr q := fun q hq => by
      unfold State.Acknowledged at hq; rw [hv] at hq; simp at hq
    refine ⟨hva, fun q hq => absurd hq (hno q), fun q _ => by rw [ha], by rw [ha, if_pos hv.symm],
      fun i hi => ?_, fun i _ => by rw [ha], fun i => by rw [ha], by rw [ha], ?_, ?_, ?_, hmem⟩
    · obtain ⟨⟨q, hq, -⟩, -⟩ := hi
      exact absurd hq (hno q)
    · rw [ha]
      exact ⟨.inl, fun h => h.resolve_right fun ⟨q, hq, _⟩ => hno q hq⟩
    · refine (State.EventsAdded.of_event_eq s (congrArg State.event ha)).congr fun i => ?_
      rw [hrel]
      constructor
      · exact False.elim
      · rintro (h | ⟨-, q, hq, -⟩)
        · exact h.2 hv.symm
        · exact hno q hq
    · rw [ha]
  · have h := retireOldest_retired s (nr - s.va).toNat (by have := (nr - s.va).isLt; omega)
    have ha : s.ackProcess nr = State.signal { s.retireOldest (nr - s.va).toNat with retry := 0 } .windowFreed := by
      unfold State.ackProcess; rw [if_neg hv]
    generalize s.retireOldest (nr - s.va).toNat = u at h ha
    have e1 : ∀ i, (s.ackProcess nr).bstate i = u.bstate i := fun i => by rw [ha]; rfl
    have e2 : ∀ i, (s.ackProcess nr).blen i = u.blen i := fun i => by rw [ha]; rfl
    have e3 : (s.ackProcess nr).nbuf = u.nbuf := by rw [ha]; rfl
    have e4 : (s.ackProcess nr).enc = u.enc := by rw [ha]; rfl
    refine ⟨hva, fun q hq => (hslot q).trans (if_pos hq), fun q hq => (hslot q).trans (if_neg hq), ?_, fun i hi => ?_,
      fun i hi => ?_, fun i => (e2 i).trans (h.blen i), e3.trans h.nbuf, by rw [e4]; exact h.orphan, ?_, ?_, hmem⟩
    · rw [ha, if_neg fun h => hv h.symm]; rfl
    · rw [e1]; exact (h.bstate i).1 hi
    · rw [e1]; exact (h.bstate i).2 hi
    · have h2 : u.EventsAdded (s.ackProcess nr) fun i => i = 1 := by
        rw [ha]; exact signal_added { u with retry := 0 } .windowFreed
      refine (h.events.trans h2).congr fun i => ?_
      rw [hrel]
      constructor
      · rintro (h1 | h1)
        · exact .inr h1
        · exact .inl ⟨h1, fun h => hv h.symm⟩
      · rintro (h1 | h1)
        · exact .inr h1.1
        · exact .inl h1
    · have h5 : (s.ackProcess nr).enc = { s.enc with orphan := (s.ackProcess nr).enc.orphan } := by
        rw [e4]; exact h.enc
      rw [← h5]; exact hrest

/-- `flush()` in full, from a legal state (43_arq_connection.md R234). -/
theorem flush_flushed {s : State} (ho : s.Owned) : s.Flushed s.flush := by
  have h := flush_retired s
  have hval := flush_slot_valid s
  have hab : ∀ i, s.Abandoned i ↔ (∃ q, (s.slot q).valid = true ∧ (s.slot q).buf = i) ∧ s.sending i = false :=
    fun _ => Iff.rfl
  refine ⟨fun q => ho.flush.slots.empty q (hval q), fun i hi => (h.bstate i).1 hi, fun i hi => (h.bstate i).2 hi, h.blen, h.nbuf,
    ?_⟩
  have horph : s.flush.enc.orphan = (s.enc.active && s.enc.kind == .i) := by
    rw [Bool.eq_iff_iff, h.orphan, Bool.and_eq_true, beq_iff_eq]
    constructor
    · rintro (h1 | ⟨q, -, hs⟩)
      · refine ⟨?_, (ho.enc.orphan h1).1⟩
        by_contra ha
        rw [(ho.enc.idle (by simpa using ha)).2] at h1; cases h1
      · have := (sending_iff s _).1 hs
        exact ⟨this.1, this.2.1⟩
    · rintro ⟨ha, hk⟩
      by_cases h1 : s.enc.orphan = true
      · exact .inl h1
      · obtain ⟨h2, h3⟩ := ho.enc.owned ha hk (by simpa using h1)
        exact .inr ⟨_, h2, (sending_iff s _).2 ⟨ha, hk, h3.symm⟩⟩
  rw [← horph]; exact h.enc

theorem flush_events : s.EventsAdded s.flush fun i => i = 2 ∧ ∃ b, s.Abandoned b := by
  refine (flush_retired s).events.congr fun i => and_congr_right fun _ => ?_
  exact ⟨fun ⟨q, hq, hs⟩ => ⟨_, ⟨q, hq, rfl⟩, hs⟩, fun ⟨_, ⟨q, hq, hb⟩, hs⟩ => ⟨q, hq, hb ▸ hs⟩⟩

/-- A flush, then any change outside the slot file, the pool and the encoder. -/
theorem State.Flushed.congr {s t u : State} (h : s.Flushed t) (h1 : u.slots = t.slots) (h2 : u.pool = t.pool)
    (h3 : u.enc = t.enc) : s.Flushed u := by
  have hs : ∀ q, u.slot q = t.slot q := fun q => by simp only [State.slot, h1]
  have hb : ∀ i, u.bstate i = t.bstate i := fun i => by simp only [State.bstate, State.desc, h2]
  have hl : ∀ i, u.blen i = t.blen i := fun i => by simp only [State.blen, State.desc, h2]
  have hn : u.nbuf = t.nbuf := by simp only [State.nbuf, h2]
  obtain ⟨a1, a2, a3, a4, a5, a6⟩ := h
  exact ⟨by simpa only [hs] using a1, by simpa only [hb] using a2, by simpa only [hb] using a3,
    by simpa only [hl] using a4, by rwa [hn], by rwa [h3]⟩

/-- `enter_disconnected()` in full, from a legal state (43_arq_connection.md R232). -/
theorem enterDisconnected_down {s : State} (ho : s.Owned) :
    s.WentDown s.enterDisconnected ∧ s.enterDisconnected.uaPending = s.uaPending ∧
      s.EventsAdded s.enterDisconnected fun i => i = 4 ∨ (i = 2 ∧ ∃ b, s.Abandoned b) := by
  have hf := flush_flushed ho
  have he := flush_events s
  have heq := flush_eq s
  have hu : s.flush.uaPending = s.uaPending := flush_uaPending s
  unfold State.enterDisconnected
  generalize s.flush = f at *
  refine ⟨⟨hf.congr rfl rfl rfl, ?_, fun a => ?_⟩, hu, ?_⟩
  · rw [heq]; rfl
  · rw [heq]; rfl
  · have h2 : f.EventsAdded ((f.restartLink .disconnected).signal .disconnected) fun i => i = 4 :=
      signal_added (f.restartLink .disconnected) .disconnected
    exact (he.trans h2).congr fun i => Or.comm

theorem abandoned_congr {s t : State} (h1 : t.slots = s.slots) (h2 : t.enc = s.enc) (i : Nat) :
    t.Abandoned i ↔ s.Abandoned i := by
  unfold State.Abandoned State.sending State.slot; rw [h1, h2]

/-- A flush seen from a state with the same slot file, pool and encoder. -/
theorem State.Flushed.congr_left {s s' t : State} (h : s'.Flushed t) (h1 : s'.slots = s.slots) (h2 : s'.enc = s.enc)
    (h3 : s'.pool = s.pool) : s.Flushed t := by
  have ha := abandoned_congr h1 h2
  have hb : ∀ i, s'.bstate i = s.bstate i := fun i => by simp only [State.bstate, State.desc, h3]
  have hl : ∀ i, s'.blen i = s.blen i := fun i => by simp only [State.blen, State.desc, h3]
  obtain ⟨a1, a2, a3, a4, a5, a6⟩ := h
  exact ⟨a1, fun i hi => a2 i ((ha i).2 hi), fun i hi => (a3 i fun h => hi ((ha i).1 h)).trans (hb i),
    fun i => (a4 i).trans (hl i), a5.trans (by simp only [State.nbuf, h3]), by rw [← h2]; exact a6⟩

theorem State.WentDown.signal {s t : State} (h : s.WentDown t) (e : Event) : s.WentDown (t.signal e) :=
  ⟨h.flushed.congr rfl rfl rfl, congrArg (fun u : State => { u with event := (t.signal e).event }) h.rest, h.memory⟩

end Sys2Proof.Machine
end

