-- ==== Sys2Proof/Laws/Codec.lean ====
section
/-! SUPPORT. The fields of a command word and of a control byte read back from their encodings (30_encoding.md R104,
R110). -/

namespace Sys2Proof

/-- A word is its four bytes (20_memory.md R74). -/
theorem word_of_bytes (w : Word) :
    (w.extractLsb' 24 8 ++ w.extractLsb' 16 8 ++ w.extractLsb' 8 8 ++ w.extractLsb' 0 8 : BitVec 32) = w := by
  apply BitVec.eq_of_getLsbD_eq
  intro i hi
  simp only [BitVec.getLsbD_append, BitVec.getLsbD_extractLsb']
  have : i < 32 := hi
  grind

/-- Every CMD word decodes (30_encoding.md R110, R113). -/
theorem decode_wordBytes (w : Word) : decode .command (wordBytes w) = .ok (decodeCommand w) := by
  unfold wordBytes decode
  exact congrArg (fun x => Except.ok (decodeCommand x)) (word_of_bytes w)

theorem commandWord_op (op buf : BitVec 8) (len : BitVec 16) : (commandWord op buf len).extractLsb' 0 8 = op := by
  apply BitVec.eq_of_getLsbD_eq
  intro i hi
  simp only [commandWord, BitVec.getLsbD_append, BitVec.getLsbD_extractLsb']
  grind

theorem commandWord_buf (op buf : BitVec 8) (len : BitVec 16) : (commandWord op buf len).extractLsb' 8 8 = buf := by
  apply BitVec.eq_of_getLsbD_eq
  intro i hi
  simp only [commandWord, BitVec.getLsbD_append, BitVec.getLsbD_extractLsb']
  grind

theorem commandWord_len (op buf : BitVec 8) (len : BitVec 16) : (commandWord op buf len).extractLsb' 16 16 = len := by
  apply BitVec.eq_of_getLsbD_eq
  intro i hi
  simp only [commandWord, BitVec.getLsbD_append, BitVec.getLsbD_extractLsb']
  grind

/-- The fields of a command word put together again (30_encoding.md R110). -/
theorem commandWord_fields (w : Word) :
    commandWord (w.extractLsb' 0 8) (w.extractLsb' 8 8) (w.extractLsb' 16 16) = w := by
  apply BitVec.eq_of_getLsbD_eq
  intro i hi
  simp only [commandWord, BitVec.getLsbD_append, BitVec.getLsbD_extractLsb']
  grind

/-- The fields of an I control byte (30_encoding.md R104). -/
theorem ctrlI_fields : ∀ (nr ns : SeqNum) (pf : Bool), ctrlI nr ns pf &&& 0x01 = 0x00 ∧
    (ctrlI nr ns pf).extractLsb' 5 3 = nr ∧ (ctrlI nr ns pf).extractLsb' 1 3 = ns ∧
    (ctrlI nr ns pf).getLsbD 4 = pf := by decide

/-- The fields of an S control byte, and the patterns it matches (30_encoding.md R104, R105). -/
theorem ctrlS_fields : ∀ (nr : SeqNum) (pf : Bool) (ss : BitVec 2), ctrlS nr pf ss &&& 0x01 = 0x01 ∧
    ctrlS nr pf ss &&& 0x0F = 0b00#4 ++ ss ++ 0b01#2 ∧ (ctrlS nr pf ss).extractLsb' 5 3 = nr ∧
    (ctrlS nr pf ss).getLsbD 4 = pf := by decide

/-- The fields of a U control byte, and the pattern it matches (30_encoding.md R104, R105). -/
theorem ctrlU_fields : ∀ (m : BitVec 5) (pf : Bool), ctrlU m pf &&& 0x01 = 0x01 ∧
    ctrlU m pf &&& 0x03 = 0x03 ∧ ctrlU m pf &&& 0xEF = ctrlU m false ∧
    (ctrlU m pf).extractLsb' 5 3 ++ (ctrlU m pf).extractLsb' 2 2 = m ∧ (ctrlU m pf).getLsbD 4 = pf := by decide

end Sys2Proof
end

