-- ==== Sys2Proof/Laws/Framing.lean ====
section
/-! SUPPORT. Stuffing, checksums and the wire image of a frame: what each operation answers (30_encoding.md R100 to
R102, 41_fcs.md). -/

namespace Sys2Proof.Machine

@[simp] theorem stuff_nil : stuff [] = [] := rfl
@[simp] theorem stuff_cons (b : Byte) (s : List Byte) : stuff (b :: s) = stuffByte b ++ stuff s := rfl

@[simp] theorem stuff_append (s t : List Byte) : stuff (s ++ t) = stuff s ++ stuff t := by
  induction s with
  | nil => rfl
  | cons b s ih => simp [ih]

/-- A stuffed byte is one byte that is neither DELIM nor ESC, or ESC and the masked byte (R102). -/
theorem stuffByte_cases (b : Byte) :
    (b ≠ delim ∧ b ≠ esc ∧ stuffByte b = [b]) ∨ ((b = delim ∨ b = esc) ∧ stuffByte b = [esc, b ^^^ mask]) := by
  unfold stuffByte
  split
  · next h => exact .inr ⟨h, rfl⟩
  · next h => rw [not_or] at h; exact .inl ⟨h.1, h.2, rfl⟩

theorem stuffByte_length_le (b : Byte) : (stuffByte b).length ≤ 2 := by
  rcases stuffByte_cases b with ⟨-, -, h⟩ | ⟨-, h⟩ <;> simp [h]

theorem stuff_length_le (s : List Byte) : (stuff s).length ≤ 2 * s.length := by
  induction s with
  | nil => exact Nat.le_refl _
  | cons b s ih =>
    have := stuffByte_length_le b
    simp only [stuff_cons, List.length_append, List.length_cons]
    omega

theorem delim_notMem_stuffByte (b : Byte) : delim ∉ stuffByte b := by
  revert b; decide

@[simp] theorem fcs_length (p : Params) (m : FcsMode) (s : List Byte) : (fcs p m s).length = m.fcsLen := by
  cases m <;> rfl

theorem FcsMode.fcsLen_le (m : FcsMode) : m.fcsLen ≤ 4 := by cases m <;> decide

@[simp] theorem unstuffed_length (p : Params) (m : FcsMode) (c : Byte) (info : List Byte) :
    (unstuffed p m c info).length = 1 + info.length + m.fcsLen := by
  simp [unstuffed]; omega

/-- A wire frame's length is at most two delimiters and two bytes for each byte inside (10_state.md R51). -/
theorem build_length_le (p : Params) (m : FcsMode) (c : Byte) (info : List Byte) :
    (build p m c info).length ≤ 2 + 2 * (1 + info.length + m.fcsLen) := by
  have h := stuff_length_le (unstuffed p m c info)
  rw [unstuffed_length] at h
  simp only [build, List.length_append, List.length_cons, List.length_nil]
  omega

theorem build_length_pos (p : Params) (m : FcsMode) (c : Byte) (info : List Byte) :
    0 < (build p m c info).length := by
  simp [build]

end Sys2Proof.Machine
end

