-- ==== Sys2Proof/Laws/Memory.lean ====
section
/-! SUPPORT. Buffer memory: reading after writing, and the canonical form that every operation keeps (log 6). -/

namespace Sys2Proof.Machine

theorem memRead_memWrite_ne {a b : Nat} (h : b ≠ a) (m : List Host.Cell) (v : Byte) :
    memRead (memWrite m a v) b = memRead m b := by
  induction m with
  | nil => unfold memWrite; split <;> simp [memRead, h]
  | cons c m ih =>
    obtain ⟨x, w⟩ := c
    unfold memWrite
    grind [memRead]

theorem memRead_eq_zero_of_lt {m : List Host.Cell} {lo a : Nat} (hm : Memory.wfFrom lo m = true) (h : a < lo) :
    memRead m a = 0 := by
  induction m generalizing lo with
  | nil => rfl
  | cons c m ih =>
    obtain ⟨x, w⟩ := c
    simp only [Memory.wfFrom, Bool.and_eq_true, decide_eq_true_eq] at hm
    simp only [memRead, show a ≠ x by omega, if_false]
    exact ih hm.2 (by omega)

theorem memRead_memWrite_eq_from {m : List Host.Cell} {lo : Nat} (hm : Memory.wfFrom lo m = true) (a : Nat) (v : Byte) :
    memRead (memWrite m a v) a = v := by
  induction m generalizing lo with
  | nil => unfold memWrite; split <;> simp_all [memRead]
  | cons c m ih =>
    obtain ⟨x, w⟩ := c
    simp only [Memory.wfFrom, Bool.and_eq_true, decide_eq_true_eq] at hm
    have h0 : a < x + 1 → memRead m a = 0 := memRead_eq_zero_of_lt hm.2
    have := ih hm.2
    unfold memWrite
    grind [memRead]

theorem memRead_memWrite_eq {m : List Host.Cell} (hm : Memory.wf m = true) (a : Nat) (v : Byte) :
    memRead (memWrite m a v) a = v := memRead_memWrite_eq_from hm a v

theorem Memory.wfFrom_mono {m : List Host.Cell} {lo lo' : Nat} (hm : Memory.wfFrom lo m = true) (h : lo' ≤ lo) :
    Memory.wfFrom lo' m = true := by
  cases m with
  | nil => rfl
  | cons c m =>
    obtain ⟨x, w⟩ := c
    simp only [Memory.wfFrom, Bool.and_eq_true, decide_eq_true_eq] at hm ⊢
    exact ⟨⟨by omega, hm.1.2⟩, hm.2⟩

theorem Memory.wfFrom_memWrite {m : List Host.Cell} {lo a : Nat} (hm : Memory.wfFrom lo m = true) (h : lo ≤ a)
    (v : Byte) : Memory.wfFrom lo (memWrite m a v) = true := by
  induction m generalizing lo with
  | nil => unfold memWrite; split <;> simp_all [Memory.wfFrom]
  | cons c m ih =>
    obtain ⟨x, w⟩ := c
    simp only [Memory.wfFrom, Bool.and_eq_true, decide_eq_true_eq] at hm
    obtain ⟨⟨hx, hw⟩, hm'⟩ := hm
    unfold memWrite
    split
    · split
      · simp_all [Memory.wfFrom]
      · simp_all [Memory.wfFrom]
    · split
      · split
        · exact Memory.wfFrom_mono hm' (by omega)
        · simp_all [Memory.wfFrom]
      · simp only [Memory.wfFrom, Bool.and_eq_true, decide_eq_true_eq]
        exact ⟨⟨hx, hw⟩, ih hm' (by omega)⟩

/-- A write keeps the canonical form. -/
theorem Memory.wf_memWrite {m : List Host.Cell} (hm : Memory.wf m = true) (a : Nat) (v : Byte) :
    Memory.wf (memWrite m a v) = true := Memory.wfFrom_memWrite hm (Nat.zero_le a) v

/-- Writing a string of bytes keeps the canonical form. -/
theorem Memory.wf_memWriteBytes {m : List Host.Cell} (hm : Memory.wf m = true) (a : Nat) (l : List Byte) :
    Memory.wf (memWriteBytes m a l) = true := by
  induction l generalizing m a with
  | nil => exact hm
  | cons b l ih => exact ih (Memory.wf_memWrite hm a b) (a + 1)

theorem memRead_memWriteBytes_of_outside (m : List Host.Cell) (a : Nat) (l : List Byte) {x : Nat}
    (h : x < a ∨ a + l.length ≤ x) : memRead (memWriteBytes m a l) x = memRead m x := by
  induction l generalizing m a with
  | nil => rfl
  | cons b l ih =>
    simp only [List.length_cons] at h
    rw [memWriteBytes, ih _ _ (by omega), memRead_memWrite_ne (by omega)]

theorem memReadBytes_memWriteBytes_eq {m : List Host.Cell} (hm : Memory.wf m = true) (a : Nat) (l : List Byte) :
    memReadBytes (memWriteBytes m a l) a l.length = l := by
  induction l generalizing m a with
  | nil => rfl
  | cons b l ih =>
    rw [memWriteBytes, List.length_cons, memReadBytes, ih (Memory.wf_memWrite hm a b),
      memRead_memWriteBytes_of_outside _ _ _ (by omega), memRead_memWrite_eq hm]

@[simp] theorem memReadBytes_length (m : List Host.Cell) (a n : Nat) : (memReadBytes m a n).length = n := by
  induction n generalizing a with
  | zero => rfl
  | succ n ih => simp [memReadBytes, ih]

/-- What a write lists: the address written, and what was listed before. -/
theorem mem_memWrite {m : List Host.Cell} {a : Nat} {v : Byte} {c : Host.Cell} (h : c ∈ memWrite m a v) :
    c.1 = a ∨ c ∈ m := by
  induction m with
  | nil => unfold memWrite at h; split at h <;> simp_all
  | cons d m ih =>
    obtain ⟨x, w⟩ := d
    unfold memWrite at h
    grind

theorem mem_memWriteBytes {m : List Host.Cell} {a : Nat} {l : List Byte} {c : Host.Cell}
    (h : c ∈ memWriteBytes m a l) : (a ≤ c.1 ∧ c.1 < a + l.length) ∨ c ∈ m := by
  induction l generalizing m a with
  | nil => exact .inr h
  | cons b l ih =>
    simp only [List.length_cons]
    rcases ih h with h | h
    · exact .inl (by omega)
    · rcases mem_memWrite h with h | h
      · exact .inl (by omega)
      · exact .inr h

/-- Distinct bytes of buffers of at most 4096 bytes have distinct addresses (20_memory.md R72). -/
theorem bufAddr_inj {i j i' j' : Nat} (hj : j < 4096) (hj' : j' < 4096) (h : bufAddr i j = bufAddr i' j') :
    i = i' ∧ j = j' := by
  unfold bufAddr at h
  omega

end Sys2Proof.Machine
end

