-- ==== Sys2Proof/Laws/LegalExec.lean ====
section
/-! SUPPORT. Every instruction keeps a legal state legal, but for the eager encoder load, which the end of the step
restores (10_state.md R54). -/

namespace Sys2Proof.Machine

/-- The part of `State.Legal` that a flush and a restart of the link keep. -/
structure State.Base (s : State) : Prop where
  sizes : s.SizesLegal
  cfg : s.CfgLegal
  mem : s.MemLegal
  owned : s.Owned
  rx : s.RxLegal

/-- `State.Legal` but for the eager encoder load. -/
structure State.Kept (s : State) : Prop where
  base : s.Base
  link : s.LinkLegal
  keyed : s.SlotsKeyed
  timers : s.TimersRun

theorem State.Legal.kept {s : State} (h : s.Legal) : s.Kept :=
  ⟨⟨h.sizes, h.cfg, h.mem, ⟨h.slots, h.enc, h.pool⟩, h.rx⟩, h.link, h.keyed, h.timers⟩

theorem State.Kept.legal {s : State} (h : s.Kept) (he : s.Eager) : s.Legal :=
  ⟨h.base.sizes, h.base.cfg, h.base.mem, h.link, h.keyed, h.timers, h.base.owned.slots, h.base.owned.enc,
    h.base.owned.pool, h.base.rx, he⟩

variable {s : State}

theorem State.Base.congr {t : State} (h : s.Base) (h1 : t.slots = s.slots) (h2 : t.enc = s.enc)
    (h3 : t.pool = s.pool) (h4 : t.rxq = s.rxq) (h5 : t.params = s.params) (h6 : t.cfg = s.cfg)
    (h7 : t.bmem = s.bmem) (h8 : t.rx = s.rx) : t.Base := by
  have hn : t.nbuf = s.nbuf := by simp only [State.nbuf, h3]
  obtain ⟨⟨a1, a2, a3, a4⟩, ⟨b1, b2, b3, b4⟩, ⟨c1, c2⟩, ho, ⟨d1, d2⟩⟩ := h
  refine ⟨?_, ?_, ?_, ho.congr h1 h2 h3 h4 h5, ?_⟩ <;> constructor <;> simp only [hn, h5, h6, h7, h8] <;> assumption

/-- A legal state stays so when only what no invariant mentions changes: EVENT, RESULT, IRQ_EN, the counters,
V(R), the UA request and the environment. -/
theorem State.Kept.congr {t : State} (h : s.Kept) (h1 : t.slots = s.slots) (h2 : t.enc = s.enc)
    (h3 : t.pool = s.pool) (h4 : t.rxq = s.rxq) (h5 : t.params = s.params) (h6 : t.cfg = s.cfg)
    (h7 : t.bmem = s.bmem) (h8 : t.rx = s.rx) (h9 : t.conn = s.conn) (h10 : t.vs = s.vs) (h11 : t.vr = s.vr)
    (h12 : t.va = s.va) (h13 : t.retry = s.retry) (h14 : t.uTimer = s.uTimer) (h15 : t.ackPending = s.ackPending)
    (h16 : t.ackTimer = s.ackTimer) (h17 : t.rejPending = s.rejPending) (h18 : t.sabmPending = s.sabmPending)
    (h19 : t.discPending = s.discPending) : t.Kept := by
  have hs : ∀ q, t.slot q = s.slot q := fun q => by simp only [State.slot, h1]
  obtain ⟨hb, ⟨a1, a2, a3, a4, a5, a6, a7, a8, a9⟩, hk, ht⟩ := h
  refine ⟨hb.congr h1 h2 h3 h4 h5 h6 h7 h8, ?_, ?_, ?_⟩
  · constructor <;> simp only [h6, h9, h10, h11, h12, h13, h14, h15, h16, h17, h18, h19, State.outstanding] <;> assumption
  · intro q
    have := hk q
    simpa only [hs, h9, State.age, State.outstanding, h10, h12] using this
  · intro q
    simpa only [hs] using ht q

theorem State.Kept.signal (h : s.Kept) (e : Event) : (s.signal e).Kept := by
  apply h.congr <;> rfl

theorem State.Kept.setResult (h : s.Kept) (c : Code) (b : BitVec 8) (n : BitVec 16) : (s.setResult c b n).Kept := by
  apply h.congr <;> rfl

theorem State.Base.flush (h : s.Base) : s.flush.Base := by
  have hn := flush_nbuf s
  obtain ⟨⟨a1, a2, a3, a4⟩, ⟨b1, b2, b3, b4⟩, ⟨c1, c2⟩, ho, ⟨d1, d2⟩⟩ := h
  refine ⟨?_, ?_, ?_, ho.flush, ?_⟩ <;> constructor <;> simp only [hn, flush_params, flush_cfg, flush_bmem, flush_rx] <;>
    assumption

/-- With no slot valid, an entry to CONNECTED or DISCONNECTED gives a legal state (43_arq_connection.md R231, R232). -/
theorem State.Base.restartLink (h : s.Base) (hv : ∀ q, (s.slot q).valid = false) {c : Conn}
    (hc : c = .connected ∨ c = .disconnected) : (s.restartLink c).Kept := by
  refine ⟨?_, ?_, ?_, ?_⟩
  · apply h.congr <;> rfl
  · rcases hc with rfl | rfl <;> constructor <;> simp [State.outstanding]
  · intro q
    simp [hv q, State.outstanding]
  · intro q hq
    rw [restartLink_slot, hv q] at hq; cases hq

theorem State.Base.enterDisconnected (h : s.Base) : s.enterDisconnected.Kept :=
  ((h.flush.restartLink (flush_slot_valid s) (.inr rfl)).signal _)

theorem State.Base.enterConnected (h : s.Base) (hv : ∀ q, (s.slot q).valid = false) : s.enterConnected.Kept :=
  (h.restartLink hv (.inl rfl)).signal _

theorem State.Kept.no_slot (h : s.Kept) (hc : s.conn ≠ .connected) (q : SeqNum) : (s.slot q).valid = false := by
  by_contra hq
  exact hc ((h.keyed q).1 (by simpa using hq)).1

theorem State.Kept.disconnected (h : s.Kept) (hc : s.conn = .disconnected) :
    s.vs = 0 ∧ s.vr = 0 ∧ s.va = 0 ∧ s.retry = 0 := h.link.disconnected hc

/-! ### Commands of the pool -/

/-- Writing the descriptor of a buffer that the engine does not hold, outside the delivered queue. -/
theorem State.Owned.setDesc (h : s.Owned) {i : Nat} {d : BufDesc} (hi : ¬ s.pending i) (hd : i ∉ s.rxq)
    (hs : d.state = .free ∨ d.state = .app) (hl : d.len.toNat ≤ s.params.bufcap) : (s.setDesc i d).Owned := by
  obtain ⟨⟨hempty, hbuf, hdist⟩, ⟨hpos, hidle, hwire, horph, howned, hfirst⟩, ⟨hlen, hpend, hnodup, hdel⟩⟩ := h
  have hne : ∀ r, (s.slot r).valid = true → i ≠ (s.slot r).buf := fun r hr he => hi (he ▸ (hbuf r hr).2)
  have hst : ∀ j, i ≠ j → (s.setDesc i d).bstate j = s.bstate j := fun j hj => by rw [setDesc_bstate]; grind
  have hp : ∀ j, i ≠ j → ((s.setDesc i d).pending j ↔ s.pending j) := fun j hj => by simp only [State.pending, hst j hj]
  refine ⟨⟨?_, ?_, ?_⟩, ⟨?_, ?_, ?_, ?_, ?_, ?_⟩, ⟨?_, ?_, ?_, ?_⟩⟩ <;>
    simp only [setDesc_slot, setDesc_enc, setDesc_nbuf, setDesc_rxq, setDesc_params] <;> try assumption
  · intro q hq; exact ⟨(hbuf q hq).1, (hp _ (hne q hq)).2 (hbuf q hq).2⟩
  · intro ho
    obtain ⟨h1, h2, h3, h4⟩ := horph ho
    exact ⟨h1, h2, (hp _ (fun he => hi (he ▸ h3))).2 h3, h4⟩
  · intro q hq hpt; rw [hst _ (hne q hq)] at hpt; exact hfirst q hq hpt
  · intro j; rw [setDesc_blen]; split
    · exact hl
    · exact hlen j
  · intro j hj hpj
    by_cases hij : i = j
    · subst hij
      rw [State.pending, setDesc_bstate, if_pos ⟨rfl, hj⟩] at hpj
      rcases hs with hs | hs <;> simp [hs] at hpj
    · exact hpend j hj ((hp j hij).1 hpj)
  · intro j
    by_cases hij : i = j
    · subst hij
      have : s.bstate i = .delivered → s.nbuf ≤ i := fun hb => by
        by_contra hlt; exact hd ((hdel i).2 ⟨by omega, hb⟩)
      rw [setDesc_bstate]
      rcases hs with hs | hs <;> grind
    · rw [hst j hij]; exact hdel j

theorem State.Kept.setPool {t : State} (h : s.Kept) (ho : t.Owned) (hn : t.nbuf = s.nbuf) (h1 : t.slots = s.slots)
    (h5 : t.params = s.params) (h6 : t.cfg = s.cfg)
    (h7 : t.bmem = s.bmem) (h8 : t.rx = s.rx) (h9 : t.conn = s.conn) (h10 : t.vs = s.vs) (h11 : t.vr = s.vr)
    (h12 : t.va = s.va) (h13 : t.retry = s.retry) (h14 : t.uTimer = s.uTimer) (h15 : t.ackPending = s.ackPending)
    (h16 : t.ackTimer = s.ackTimer) (h17 : t.rejPending = s.rejPending) (h18 : t.sabmPending = s.sabmPending)
    (h19 : t.discPending = s.discPending) : t.Kept := by
  have hs : ∀ q, t.slot q = s.slot q := fun q => by simp only [State.slot, h1]
  obtain ⟨⟨⟨x1, x2, x3, x4⟩, ⟨b1, b2, b3, b4⟩, ⟨c1, c2⟩, _, ⟨d1, d2⟩⟩, ⟨a1, a2, a3, a4, a5, a6, a7, a8, a9⟩, hk, ht⟩ := h
  refine ⟨⟨?_, ?_, ?_, ho, ?_⟩, ?_, ?_, ?_⟩
  · constructor <;> simp only [hn, h5] <;> assumption
  · constructor <;> simp only [h5, h6] <;> assumption
  · constructor <;> simp only [hn, h5, h7] <;> assumption
  · constructor <;> simp only [h5, h8] <;> assumption
  · constructor <;> simp only [h6, h9, h10, h11, h12, h13, h14, h15, h16, h17, h18, h19, State.outstanding] <;> assumption
  · intro q
    have := hk q
    simpa only [hs, h9, State.age, State.outstanding, h10, h12] using this
  · intro q
    simpa only [hs] using ht q

theorem not_pending_of_bstate {i : Nat} {b : BufState} (h : s.bstate i = b) (hb : b ≠ .pendTx) (hb' : b ≠ .pendAck) :
    ¬ s.pending i := by
  rintro (h' | h') <;> rw [h] at h' <;> contradiction

theorem State.Kept.acquire (h : s.Kept) {b : BitVec 8} {n : BitVec 16} {t : State} (he : execAcquire b n s = .next t) :
    t.Kept := by
  unfold execAcquire at he
  split at he <;> cases he
  · exact h.setResult _ _ _
  · next i hi =>
    obtain ⟨hlt, hfree, -⟩ := (poolAcquire_eq_some s).1 hi
    apply State.Kept.setResult
    refine h.setPool (h.base.owned.setDesc (not_pending_of_bstate hfree (by simp) (by simp)) ?_ (.inr rfl) (by simp))
      (setDesc_nbuf s _ _) rfl rfl rfl rfl rfl rfl rfl rfl rfl rfl rfl rfl rfl rfl rfl rfl
    intro hm
    have := ((h.base.owned.pool.delivered i).1 hm).2
    rw [hfree] at this; cases this

theorem State.Kept.release (h : s.Kept) {b : BitVec 8} {n : BitVec 16} {t : State} (he : execRelease b n s = .next t) :
    t.Kept := by
  unfold execRelease at he
  split at he <;> cases he
  · next ho =>
    obtain ⟨hlt, happ⟩ := (hostOwns_iff s _).1 ho
    apply State.Kept.setResult
    apply State.Kept.signal
    refine h.setPool (h.base.owned.setDesc (not_pending_of_bstate happ (by simp) (by simp)) ?_ (.inl rfl)
      (h.base.owned.pool.len _)) (setDesc_nbuf s _ _) rfl rfl rfl rfl rfl rfl rfl rfl rfl rfl rfl rfl rfl rfl rfl rfl
    intro hm
    have := ((h.base.owned.pool.delivered _).1 hm).2
    rw [happ] at this; cases this
  · exact h.setResult _ _ _

theorem State.Kept.read (h : s.Kept) {b : BitVec 8} {n : BitVec 16} {t : State} (he : execRead b n s = .next t) :
    t.Kept := by
  unfold execRead at he
  split at he <;> cases he
  · exact h.setResult _ _ _
  · next i l hq =>
    have hdi := (h.base.owned.pool.delivered i).1 (by simp [hq])
    have hnd := h.base.owned.pool.nodup
    rw [hq, List.nodup_cons] at hnd
    apply State.Kept.setResult
    refine h.setPool ?_ (setBstate_nbuf _ _ _) rfl rfl rfl rfl rfl rfl rfl rfl rfl rfl rfl rfl rfl rfl rfl rfl
    obtain ⟨⟨hempty, hbuf, hdist⟩, ⟨hpos, hidle, hwire, horph, howned, hfirst⟩, ⟨hlen, hpend, hnodup, hdel⟩⟩ := h.base.owned
    have hnp : ¬ s.pending i := not_pending_of_bstate hdi.2 (by simp) (by simp)
    generalize hw : ({ s with rxq := l } : State) = w
    have e1 : ∀ q, w.slot q = s.slot q := fun q => by rw [← hw]; rfl
    have e2 : w.enc = s.enc := by rw [← hw]
    have e3 : w.nbuf = s.nbuf := by rw [← hw]; rfl
    have e4 : w.params = s.params := by rw [← hw]
    have e5 : w.rxq = l := by rw [← hw]
    have e6 : ∀ j, w.blen j = s.blen j := fun j => by rw [← hw]; rfl
    have hst : ∀ j, (w.setBstate i .app).bstate j = if i = j ∧ i < s.nbuf then .app else s.bstate j := fun j => by
      rw [setBstate_bstate, e3, ← hw]; rfl
    have hp : ∀ j, (w.setBstate i .app).pending j ↔ s.pending j := fun j => by
      simp only [State.pending, hst]
      split
      · next hij => rw [← hij.1]; simp [hdi.2]
      · rfl
    refine ⟨⟨?_, ?_, ?_⟩, ⟨?_, ?_, ?_, ?_, ?_, ?_⟩, ⟨?_, ?_, ?_, ?_⟩⟩ <;>
      simp only [setBstate_slot, setBstate_enc, setBstate_nbuf, setBstate_rxq, setBstate_params, setBstate_blen, hp, e1, e2,
        e3, e4, e5, e6] <;> try assumption
    · intro q hq hpt
      rw [hst] at hpt
      split at hpt
      · cases hpt
      · exact hfirst q hq hpt
    · exact hnd.2
    · intro j
      rw [hst]
      have := hdel j
      rw [hq, List.mem_cons] at this
      by_cases hij : i = j
      · subst hij
        simp [hnd.1, hdi.1]
      · rw [if_neg (by simp [hij])]
        rw [← this]
        exact ⟨.inr, fun h => h.resolve_left fun e => hij e.symm⟩

/-! ### Commands and frames of the connection -/

theorem State.Kept.connect (h : s.Kept) {b : BitVec 8} {n : BitVec 16} {t : State} (he : execConnect b n s = .next t) :
    t.Kept := by
  unfold execConnect at he
  split at he <;> cases he
  · next hc =>
    apply State.Kept.setResult
    have hv := h.no_slot (by rw [hc]; simp)
    obtain ⟨hb, ⟨a1, a2, a3, a4, a5, a6, a7, a8, a9⟩, hk, ht⟩ := h
    have hto := hb.cfg.timeout_ne
    refine ⟨by apply hb.congr <;> rfl, ?_, ?_, ?_⟩
    · constructor <;> simp_all
    · intro q
      have : ∀ x, (State.slot { s with
        conn := .connecting, vs := 0, vr := 0, va := 0, retry := 0, sabmPending := true, uTimer := s.cfg.timeout } q).valid
          = x ↔ (s.slot q).valid = x := fun _ => Iff.rfl
      rw [this, hv q]; simp
    · intro q hq
      have := hv q
      rw [show (s.slot q).valid = true from hq] at this; cases this
  · exact h.setResult _ _ _

/-- The state changes of an accepted DISCONNECT, over a flushed state (43_arq_connection.md R233). -/
theorem State.Base.leave {f : State} (h : f.Base) (hv : ∀ q, (f.slot q).valid = false) :
    State.Kept { f with
      conn := .disconnecting, retry := 0, sabmPending := false, ackPending := false, ackTimer := 0,
      rejPending := false, discPending := true, uTimer := f.cfg.timeout } := by
  have hto := h.cfg.timeout_ne
  refine ⟨by apply h.congr <;> rfl, ?_, ?_, ?_⟩
  · constructor <;> simp
    exact hto
  · intro q
    have : ∀ x, (State.slot { f with
      conn := .disconnecting, retry := 0, sabmPending := false, ackPending := false, ackTimer := 0,
      rejPending := false, discPending := true, uTimer := f.cfg.timeout } q).valid = x ↔ (f.slot q).valid = x :=
      fun _ => Iff.rfl
    rw [this, hv q]; simp
  · intro q hq
    have := hv q
    rw [show (f.slot q).valid = true from hq] at this; cases this

theorem State.Kept.disconnect (h : s.Kept) {b : BitVec 8} {n : BitVec 16} {t : State}
    (he : execDisconnect b n s = .next t) : t.Kept := by
  unfold execDisconnect at he
  split at he <;> injection he with he <;> subst he
  · apply State.Kept.setResult
    have hf := h.base.flush.leave (flush_slot_valid s)
    unfold State.startDisconnect
    generalize s.flush = f at *
    exact hf
  · exact h.setResult _ _ _

theorem State.Base.askUa {u : State} (h : u.Base) : State.Base { u with uaPending := true } := by
  apply h.congr <;> rfl

theorem State.Kept.rxSabm (h : s.Kept) : s.rxSabm.Kept := by
  have hv : ∀ u : State, (∀ q, (u.slot q).valid = false) → ∀ q, (State.slot { u with uaPending := true } q).valid = false :=
    fun _ hu q => hu q
  unfold State.rxSabm
  split
  · next hc => exact h.base.askUa.enterConnected (hv _ (h.no_slot (by rw [hc]; simp)))
  · next hc => exact h.base.askUa.enterConnected (hv _ (h.no_slot (by rw [hc]; simp)))
  · exact (h.base.flush.askUa.enterConnected (hv _ (flush_slot_valid s))).signal _
  · exact h

theorem State.Kept.rxUa (h : s.Kept) : s.rxUa.Kept := by
  unfold State.rxUa
  split
  · next hc => exact h.base.enterConnected (h.no_slot (by rw [hc]; simp))
  · exact h.base.enterDisconnected
  · exact h
  · exact h

theorem State.Kept.rxDisc (h : s.Kept) : s.rxDisc.Kept := by
  have hu : State.Kept { s with uaPending := true } := by apply h.congr <;> rfl
  unfold State.rxDisc
  dsimp only
  split
  · exact hu
  · exact hu.base.enterDisconnected.signal _
  · exact hu.base.enterDisconnected
  · exact hu.base.enterDisconnected

/-! ### Acknowledgment and go-back-N -/

theorem State.Kept.valid_of_age (h : s.Kept) (hc : s.conn = .connected) {r : SeqNum}
    (hr : (r - s.va).toNat < (s.vs - s.va).toNat) : (s.slot r).valid = true := (h.keyed r).2 ⟨hc, hr⟩

theorem nrValid_iff (nr : SeqNum) : s.nrValid nr = true ↔ (nr - s.va).toNat ≤ (s.vs - s.va).toNat := by
  unfold State.nrValid State.outstanding
  exact decide_eq_true_iff

theorem State.Kept.ackProcess (h : s.Kept) (hc : s.conn = .connected) {nr : SeqNum} (hv : s.nrValid nr = true) :
    (s.ackProcess nr).Kept := by
  have hv := (nrValid_iff nr).1 hv
  have ho : (s.ackProcess nr).Owned := h.base.owned.ackProcess fun r hr => h.valid_of_age hc (by omega)
  have hslot := ackProcess_slot s nr
  have hn := ackProcess_nbuf s nr
  obtain ⟨⟨⟨x1, x2, x3, x4⟩, ⟨b1, b2, b3, b4⟩, ⟨c1, c2⟩, _, ⟨d1, d2⟩⟩, ⟨a1, a2, a3, a4, a5, a6, a7, a8, a9⟩, hk, ht⟩ := h
  refine ⟨⟨?_, ?_, ?_, ho, ?_⟩, ?_, ?_, ?_⟩
  · constructor <;> simp only [hn, ackProcess_params] <;> assumption
  · constructor <;> simp only [ackProcess_params, ackProcess_cfg] <;> assumption
  · constructor <;> simp only [hn, ackProcess_params, ackProcess_bmem] <;> assumption
  · constructor <;> simp only [ackProcess_params, ackProcess_rx] <;> assumption
  · constructor <;> simp only [ackProcess_cfg, ackProcess_conn, ackProcess_vs, ackProcess_vr, ackProcess_va,
      ackProcess_uTimer, ackProcess_ackPending, ackProcess_ackTimer, ackProcess_rejPending, ackProcess_sabmPending,
      ackProcess_discPending, State.outstanding] <;> try assumption
    · simp [hc]
    · intro hc'
      have hw := a8 hc'
      unfold State.outstanding at hw
      simp only [BitVec.toNat_sub] at hv hw ⊢
      have := nr.isLt; have := s.vs.isLt; have := s.va.isLt
      omega
    · unfold State.ackProcess
      split
      · exact a9
      · exact Nat.zero_le _
  · intro q
    have := hk q
    rw [hslot]
    simp only [ackProcess_conn, State.age, State.outstanding, ackProcess_va, ackProcess_vs] at this ⊢
    split
    · next hlt =>
      refine ⟨fun h => by simp at h, fun h => ?_⟩
      exfalso
      have h := h.2
      simp only [BitVec.toNat_sub] at hv hlt h
      have := nr.isLt; have := s.vs.isLt; have := s.va.isLt; have := q.isLt
      omega
    · next hlt =>
      rw [this]
      refine and_congr_right fun _ => ?_
      simp only [BitVec.toNat_sub] at hv hlt ⊢
      have := nr.isLt; have := s.vs.isLt; have := s.va.isLt; have := q.isLt
      omega
  · intro q hq
    rw [hslot] at hq ⊢
    split at hq
    · simp at hq
    · next hlt => rw [if_neg hlt]; exact ht q hq

theorem State.Kept.rxRr (h : s.Kept) (nr : SeqNum) : (s.rxRr nr).Kept := by
  unfold State.rxRr
  split
  · exact h
  · next hn =>
    simp only [not_or, not_not, Bool.not_eq_false] at hn
    exact h.ackProcess hn.1 hn.2

theorem State.Kept.goBackN (h : s.Kept) {q : SeqNum}
    (hv : ∀ r, (r - q).toNat < (s.vs - q).toNat → (s.slot r).valid = true) : (s.goBackN q).Kept := by
  have ho := h.base.owned.goBackN hv
  have hn := goBackN_nbuf s q
  have hval : ∀ r, ((s.goBackN q).slot r).valid = (s.slot r).valid := fun r => by rw [goBackN_slot]; split <;> rfl
  obtain ⟨⟨⟨x1, x2, x3, x4⟩, ⟨b1, b2, b3, b4⟩, ⟨c1, c2⟩, _, ⟨d1, d2⟩⟩, ⟨a1, a2, a3, a4, a5, a6, a7, a8, a9⟩, hk, ht⟩ := h
  refine ⟨⟨?_, ?_, ?_, ho, ?_⟩, ?_, ?_, ?_⟩
  · constructor <;> simp only [hn, goBackN_params] <;> assumption
  · constructor <;> simp only [goBackN_params, goBackN_cfg] <;> assumption
  · constructor <;> simp only [hn, goBackN_params, goBackN_bmem] <;> assumption
  · constructor <;> simp only [goBackN_params, goBackN_rx] <;> assumption
  · constructor <;> simp only [goBackN_cfg, goBackN_conn, goBackN_vs, goBackN_vr, goBackN_va, goBackN_retry,
      goBackN_uTimer, goBackN_ackPending, goBackN_ackTimer, goBackN_rejPending, goBackN_sabmPending,
      goBackN_discPending, State.outstanding] <;> assumption
  · intro r
    have := hk r
    simpa only [hval, goBackN_conn, State.age, State.outstanding, goBackN_va, goBackN_vs] using this
  · intro r hr
    rw [hval] at hr
    rw [goBackN_slot]
    split
    · exact b4
    · exact ht r hr

theorem State.Kept.rxRej (h : s.Kept) (nr : SeqNum) : (s.rxRej nr).Kept := by
  unfold State.rxRej
  split
  · exact h
  · next hn =>
    simp only [not_or, not_not, Bool.not_eq_false] at hn
    have hk := h.ackProcess hn.1 hn.2
    exact hk.goBackN fun r hr => hk.valid_of_age (by simpa using hn.1) hr

/-! ### Delivery -/

theorem State.Kept.deliver (h : s.Kept) (hc : s.conn = .connected) {info : List Byte}
    (hi : info.length ≤ s.cfg.mtu.toNat) : (s.deliver info).Kept := by
  unfold State.deliver
  split
  · apply h.congr <;> rfl
  · next i hi' =>
    obtain ⟨hlt, hfree, -⟩ := (poolAcquire_eq_some s).1 hi'
    have hmtu := h.base.cfg.mtu_le
    have hcap := h.base.sizes.bufcap_le
    have hlen : (BitVec.ofNat 16 info.length).toNat ≤ s.params.bufcap := by
      rw [BitVec.toNat_ofNat]; omega
    have hnp : ¬ s.pending i := not_pending_of_bstate hfree (by simp) (by simp)
    have hnq : i ∉ s.rxq := fun hm => by
      have := ((h.base.owned.pool.delivered i).1 hm).2
      rw [hfree] at this; cases this
    generalize ht : s.deliverTo i info = t
    have e1 : t.slots = s.slots := by rw [← ht]; unfold State.deliverTo; dsimp only; split <;> rfl
    have e2 : t.enc = s.enc := by rw [← ht]; unfold State.deliverTo; dsimp only; split <;> rfl
    have e3 : t.pool = s.pool.set i { state := .delivered, len := BitVec.ofNat 16 info.length } := by
      rw [← ht]; unfold State.deliverTo; dsimp only; split <;> rfl
    have e4 : t.rxq = s.rxq ++ [i] := by rw [← ht]; unfold State.deliverTo; dsimp only; split <;> rfl
    have e5 : t.params = s.params := by rw [← ht]; unfold State.deliverTo; dsimp only; split <;> rfl
    have e6 : t.cfg = s.cfg := by rw [← ht]; unfold State.deliverTo; dsimp only; split <;> rfl
    have e7 : t.bmem = memWriteBytes s.bmem (bufAddr i 0) info := by
      rw [← ht]; unfold State.deliverTo; dsimp only; split <;> rfl
    have e8 : t.rx = s.rx := by rw [← ht]; unfold State.deliverTo; dsimp only; split <;> rfl
    have e9 : t.conn = s.conn := by rw [← ht]; unfold State.deliverTo; dsimp only; split <;> rfl
    have e10 : t.vs = s.vs := by rw [← ht]; unfold State.deliverTo; dsimp only; split <;> rfl
    have e12 : t.va = s.va := by rw [← ht]; unfold State.deliverTo; dsimp only; split <;> rfl
    have e13 : t.retry = s.retry := by rw [← ht]; unfold State.deliverTo; dsimp only; split <;> rfl
    have e14 : t.uTimer = s.uTimer := by rw [← ht]; unfold State.deliverTo; dsimp only; split <;> rfl
    have e15 : t.ackPending = true := by
      rw [← ht]; unfold State.deliverTo; dsimp only; split
      · assumption
      · rfl
    have e17 : t.rejPending = s.rejPending := by rw [← ht]; unfold State.deliverTo; dsimp only; split <;> rfl
    have e18 : t.sabmPending = s.sabmPending := by rw [← ht]; unfold State.deliverTo; dsimp only; split <;> rfl
    have e19 : t.discPending = s.discPending := by rw [← ht]; unfold State.deliverTo; dsimp only; split <;> rfl
    have hs : ∀ q, t.slot q = s.slot q := fun q => by simp only [State.slot, e1]
    have hn : t.nbuf = s.nbuf := by simp only [State.nbuf, e3, List.length_set]
    have hd : ∀ j, t.desc j = (s.setDesc i { state := .delivered, len := BitVec.ofNat 16 info.length }).desc j :=
      fun j => by simp only [State.desc, e3, setDesc_pool]
    have hst : ∀ j, t.bstate j = if i = j ∧ i < s.nbuf then .delivered else s.bstate j := fun j => by
      have := setDesc_bstate s i j { state := .delivered, len := BitVec.ofNat 16 info.length }
      rw [← this]; simp only [State.bstate, hd]
    have hbl : ∀ j, t.blen j = if i = j ∧ i < s.nbuf then BitVec.ofNat 16 info.length else s.blen j := fun j => by
      have := setDesc_blen s i j { state := .delivered, len := BitVec.ofNat 16 info.length }
      rw [← this]; simp only [State.blen, hd]
    have hp : ∀ j, t.pending j ↔ s.pending j := fun j => by
      simp only [State.pending, hst]
      split
      · next hij => rw [← hij.1]; simp [hfree]
      · rfl
    obtain ⟨⟨⟨x1, x2, x3, x4⟩, ⟨b1, b2, b3, b4⟩, ⟨c1, c2⟩, ho, ⟨d1, d2⟩⟩, ⟨a1, a2, a3, a4, a5, a6, a7, a8, a9⟩, hk, htm⟩ := h
    refine ⟨⟨?_, ?_, ?_, ?_, ?_⟩, ?_, ?_, ?_⟩
    · constructor <;> simp only [hn, e5] <;> assumption
    · constructor <;> simp only [e5, e6] <;> assumption
    · constructor
      · rw [e7]; exact Memory.wf_memWriteBytes c1 _ _
      · intro c hcm
        rw [e7] at hcm
        simp only [hn, e5]
        rcases mem_memWriteBytes hcm with hr | hr
        · refine ⟨i, c.1 - bufAddr i 0, hlt, ?_, ?_⟩ <;> unfold bufAddr at * <;> omega
        · exact c2 c hr
    · obtain ⟨⟨hempty, hbuf, hdist⟩, ⟨hpos, hidle, hwire, horph, howned, hfirst⟩, ⟨hlen', hpend, hnodup, hdel⟩⟩ := ho
      refine ⟨⟨?_, ?_, ?_⟩, ⟨?_, ?_, ?_, ?_, ?_, ?_⟩, ⟨?_, ?_, ?_, ?_⟩⟩ <;> simp only [hs, e2, hn, e4, e5, hp] <;>
        try assumption
      · intro q hq hpt
        rw [hst] at hpt
        split at hpt
        · cases hpt
        · exact hfirst q hq hpt
      · intro j; rw [hbl]; split
        · exact hlen
        · exact hlen' j
      · rw [List.nodup_append]
        exact ⟨hnodup, by simp, fun a ha b hb => by rw [List.mem_singleton] at hb; rintro rfl; exact hnq (hb ▸ ha)⟩
      · intro j
        rw [List.mem_append, List.mem_singleton, hdel, hst]
        by_cases hij : i = j
        · subst hij; simp [hlt]
        · simp only [hij, false_and, if_false]
          exact ⟨fun h => h.resolve_right fun e => hij e.symm, .inl⟩
    · constructor <;> simp only [e5, e8] <;> assumption
    · constructor <;> simp only [e6, e9, e10, e12, e13, e14, e15, e17, e18, e19, State.outstanding] <;> try assumption
      · simp [hc]
      · exact fun _ => hc
      · exact fun _ => trivial
    · intro q
      have := hk q
      simpa only [hs, e9, State.age, State.outstanding, e10, e12] using this
    · intro q
      simpa only [hs] using htm q

theorem State.Kept.rxI (h : s.Kept) (ns nr : SeqNum) {info : List Byte} (hi : info.length ≤ s.cfg.mtu.toNat) :
    (s.rxI ns nr info).Kept := by
  unfold State.rxI
  split
  · exact h
  · next hc =>
    rw [not_not] at hc
    split
    · exact h
    · next hv =>
      have hk := h.ackProcess hc (by simpa using hv)
      dsimp only
      split
      · obtain ⟨hb, ⟨a1, a2, a3, a4, a5, a6, a7, a8, a9⟩, hk, ht⟩ := hk
        refine ⟨by apply hb.congr <;> rfl, ?_, hk, ht⟩
        constructor <;> try assumption
        intro _
        simpa using hc
      · exact hk.deliver (by simpa using hc) (by simpa using hi)

/-! ### SEND -/

theorem State.Kept.send (h : s.Kept) {b : BitVec 8} {n : BitVec 16} {t : State} (he : execSend b n s = .next t) :
    t.Kept := by
  unfold execSend at he
  split at he
  · cases he; exact h.setResult _ _ _
  · next hown =>
    split at he
    · cases he; exact h.setResult _ _ _
    · next hc =>
      split at he
      · cases he; exact h.setResult _ _ _
      · next hw =>
        cases he
        apply State.Kept.setResult
        rw [not_or, Bool.not_eq_false, hostOwns_iff] at hown
        rw [not_not] at hc
        obtain ⟨⟨hlt, happ⟩, hmtu⟩ := hown
        generalize bufOperand b = i at *
        have hnp : ¬ s.pending i := not_pending_of_bstate happ (by simp) (by simp)
        have hwin : (s.vs - s.va).toNat < 7 := by
          have := s.cfg.window.isLt; unfold State.outstanding at hw; omega
        have hvs : (s.slot s.vs).valid = false := by
          by_contra hv
          have := ((h.keyed s.vs).1 (by simpa using hv)).2
          simp [State.age, State.outstanding] at this
        have hw' : (s.vs - s.va).toNat < s.cfg.window.toNat := by unfold State.outstanding at hw; omega
        generalize ht : s.enqueue i n = t
        have e1 : t.slots = (s.setSlot s.vs { valid := true, buf := i, needsTx := true, timer := s.cfg.timeout }).slots := by
          rw [← ht]; rfl
        have e2 : t.enc = s.enc := by rw [← ht]; rfl
        have e3 : t.pool = s.pool.set i { state := .pendTx, len := n } := by rw [← ht]; rfl
        have e4 : t.rxq = s.rxq := by rw [← ht]; rfl
        have e5 : t.params = s.params := by rw [← ht]; rfl
        have e6 : t.cfg = s.cfg := by rw [← ht]; rfl
        have e7 : t.bmem = s.bmem := by rw [← ht]; rfl
        have e8 : t.rx = s.rx := by rw [← ht]; rfl
        have e9 : t.conn = s.conn := by rw [← ht]; rfl
        have e10 : t.vs = s.vs + 1 := by rw [← ht]; rfl
        have e11 : t.vr = s.vr := by rw [← ht]; rfl
        have e12 : t.va = s.va := by rw [← ht]; rfl
        have e13 : t.retry = s.retry := by rw [← ht]; rfl
        have e14 : t.uTimer = s.uTimer := by rw [← ht]; rfl
        have e15 : t.ackPending = s.ackPending := by rw [← ht]; rfl
        have e16 : t.ackTimer = s.ackTimer := by rw [← ht]; rfl
        have e17 : t.rejPending = s.rejPending := by rw [← ht]; rfl
        have e18 : t.sabmPending = s.sabmPending := by rw [← ht]; rfl
        have e19 : t.discPending = s.discPending := by rw [← ht]; rfl
        have hs : ∀ q, t.slot q = if s.vs = q then { valid := true, buf := i, needsTx := true, timer := s.cfg.timeout }
            else s.slot q := fun q => by rw [← setSlot_slot]; simp only [State.slot, e1]
        have hn : t.nbuf = s.nbuf := by simp only [State.nbuf, e3, List.length_set]
        have hd : ∀ j, t.desc j = (s.setDesc i { state := .pendTx, len := n }).desc j :=
          fun j => by simp only [State.desc, e3, setDesc_pool]
        have hst : ∀ j, t.bstate j = if i = j ∧ i < s.nbuf then .pendTx else s.bstate j := fun j => by
          have := setDesc_bstate s i j { state := .pendTx, len := n }
          rw [← this]; simp only [State.bstate, hd]
        have hbl : ∀ j, t.blen j = if i = j ∧ i < s.nbuf then n else s.blen j := fun j => by
          have := setDesc_blen s i j { state := .pendTx, len := n }
          rw [← this]; simp only [State.blen, hd]
        have hp : ∀ j, t.pending j ↔ j = i ∨ s.pending j := fun j => by
          simp only [State.pending, hst]
          split
          · next hij => simp [hij.1]
          · next hij =>
            have : j ≠ i := fun e => hij ⟨e.symm, hlt⟩
            simp [this]
        obtain ⟨⟨⟨x1, x2, x3, x4⟩, ⟨b1, b2, b3, b4⟩, ⟨c1, c2⟩, ho, ⟨d1, d2⟩⟩, ⟨a1, a2, a3, a4, a5, a6, a7, a8, a9⟩, hk, htm⟩ := h
        obtain ⟨⟨hempty, hbuf, hdist⟩, ⟨hpos, hidle, hwire, horph, howned, hfirst⟩, ⟨hlen', hpend, hnodup, hdel⟩⟩ := ho
        have hne : ∀ q, (s.slot q).valid = true → s.vs ≠ q := fun q hq e => by rw [← e, hvs] at hq; cases hq
        have hni : ∀ q, (s.slot q).valid = true → (s.slot q).buf ≠ i := fun q hq e => hnp (e ▸ (hbuf q hq).2)
        refine ⟨⟨?_, ?_, ?_, ⟨⟨?_, ?_, ?_⟩, ⟨?_, ?_, ?_, ?_, ?_, ?_⟩, ⟨?_, ?_, ?_, ?_⟩⟩, ?_⟩, ?_, ?_, ?_⟩
        · constructor <;> simp only [hn, e5] <;> assumption
        · constructor <;> simp only [e5, e6] <;> assumption
        · constructor <;> simp only [hn, e5, e7] <;> assumption
        · intro q; rw [hs]; split
          · simp
          · exact hempty q
        · intro q; rw [hs, hn]; split
          · exact fun _ => ⟨hlt, (hp i).2 (.inl rfl)⟩
          · exact fun hq => ⟨(hbuf q hq).1, (hp _).2 (.inr (hbuf q hq).2)⟩
        · intro q r; rw [hs, hs]; split <;> split
          · next h1 h2 => intros; exact h1.symm.trans h2
          · intro _ hr hb; exact absurd hb.symm (hni r hr)
          · intro hq _ hb; exact absurd hb (hni q hq)
          · exact hdist q r
        · rwa [e2]
        · rwa [e2]
        · rwa [e2, e5]
        · rw [e2, hn]
          intro hor
          obtain ⟨h1, h2, h3, h4⟩ := horph hor
          refine ⟨h1, h2, (hp _).2 (.inr h3), fun q => ?_⟩
          rw [hs]; split
          · rintro - rfl; exact hnp h3
          · exact h4 q
        · rw [e2]
          intro h1 h2 h3
          obtain ⟨h4, h5⟩ := howned h1 h2 h3
          rw [hs, if_neg (hne _ h4)]; exact ⟨h4, h5⟩
        · intro q
          rw [hs, e2]; split
          · simp
          · intro hq hpt
            rw [hst] at hpt
            split at hpt
            · next hij => exact absurd hij.1.symm (hni q hq)
            · exact hfirst q hq hpt
        · intro j; rw [hbl, e5]; split
          · omega
          · exact hlen' j
        · intro j hj hpj
          rw [hn] at hj
          rcases (hp j).1 hpj with rfl | hpj
          · exact .inl ⟨s.vs, by simp [hs]⟩
          · rcases hpend j hj hpj with ⟨q, hq, hqj⟩ | hor
            · exact .inl ⟨q, by rw [hs, if_neg (hne q hq)]; exact ⟨hq, hqj⟩⟩
            · exact .inr (by rwa [e2])
        · rwa [e4]
        · intro j
          rw [e4, hdel, hst, hn]
          by_cases hij : i = j
          · subst hij; simp [hlt, happ]
          · simp [hij]
        · constructor <;> simp only [e5, e8] <;> assumption
        · constructor <;> simp only [e6, e9, e10, e11, e12, e13, e14, e15, e16, e17, e18, e19, State.outstanding] <;> try assumption
          · simp [hc]
          · intro _
            have hx := hw'
            simp only [BitVec.toNat_sub, BitVec.toNat_add, show (1 : SeqNum).toNat = 1 from rfl] at hx hwin ⊢
            have := s.vs.isLt; have := s.va.isLt
            omega
        · intro q
          have hkq := hk q
          rw [hs]
          simp only [e9, State.age, State.outstanding, e10, e12] at hkq ⊢
          split
          · next hq =>
            subst hq
            simp only [hc, true_and, true_iff]
            simp only [BitVec.toNat_sub, BitVec.toNat_add, show (1 : SeqNum).toNat = 1 from rfl] at hwin ⊢
            have := s.vs.isLt; have := s.va.isLt
            omega
          · next hq =>
            rw [hkq]
            refine and_congr_right fun _ => ?_
            have hq' : s.vs.toNat ≠ q.toNat := fun e => hq (BitVec.eq_of_toNat_eq e)
            simp only [BitVec.toNat_sub, BitVec.toNat_add, show (1 : SeqNum).toNat = 1 from rfl] at hwin ⊢
            have := s.vs.isLt; have := s.va.isLt; have := q.isLt
            omega
        · intro q
          rw [hs]; split
          · exact fun _ => b4
          · exact htm q

end Sys2Proof.Machine
end

