-- ==== Sys2Proof/Laws/LegalReset.lean ====
section
/-! SUPPORT. Resets, and every instruction, keep a legal state legal but for the eager encoder load
(70_reset_and_hazards.md R391, 45_host_interface.md R334). -/

namespace Sys2Proof.Machine

@[simp] theorem afterReset_slot (p : Params) (n : Nat) (m : List Host.Cell) (e : Env) (q : SeqNum) :
    (State.afterReset p n m e).slot q = {} := by
  have : ∀ r : SeqNum, (#v[{}, {}, {}, {}, {}, {}, {}, {}] : Vector Slot 8)[r.toNat]'r.isLt = {} := by decide
  exact this q

@[simp] theorem afterReset_nbuf (p : Params) (n : Nat) (m : List Host.Cell) (e : Env) :
    (State.afterReset p n m e).nbuf = n := by
  simp [State.nbuf, State.afterReset]

@[simp] theorem afterReset_desc (p : Params) (n : Nat) (m : List Host.Cell) (e : Env) (i : Nat) :
    (State.afterReset p n m e).desc i = {} := by
  simp only [State.desc, State.afterReset, List.getD_eq_getElem?_getD, List.getElem?_replicate]
  split <;> rfl

@[simp] theorem afterReset_bstate (p : Params) (n : Nat) (m : List Host.Cell) (e : Env) (i : Nat) :
    (State.afterReset p n m e).bstate i = .free := by simp [State.bstate]

@[simp] theorem afterReset_blen (p : Params) (n : Nat) (m : List Host.Cell) (e : Env) (i : Nat) :
    (State.afterReset p n m e).blen i = 0 := by simp [State.blen]

/-- A reset with the configuration registers and IRQ_EN given afterwards. -/
def resetWith (p : Params) (n : Nat) (m : List Host.Cell) (e : Env) (c : CfgRegs) (q : BitVec 11) : State :=
  { State.afterReset p n m e with cfg := c, irqEn := q }

/-- A reset with the configuration registers and IRQ_EN given afterwards leaves a legal state. -/
theorem afterReset_kept {p : Params} {n : Nat} {m : List Host.Cell} {e : Env} {c : CfgRegs} {q : BitVec 11}
    (hs : (State.afterReset p n m e).SizesLegal) (hm : (State.afterReset p n m e).MemLegal)
    (hc : (resetWith p n m e c q).CfgLegal) : (resetWith p n m e c q).Kept := by
  have hslot : ∀ r, (resetWith p n m e c q).slot r = {} := afterReset_slot p n m e
  have hb : ∀ i, (resetWith p n m e c q).bstate i = .free := afterReset_bstate p n m e
  have hl : ∀ i, (resetWith p n m e c q).blen i = 0 := afterReset_blen p n m e
  have hp : ∀ i, ¬ (resetWith p n m e c q).pending i := by intro i; simp [State.pending, hb]
  obtain ⟨x1, x2, x3, x4⟩ := hs
  obtain ⟨c1, c2⟩ := hm
  have e1 : (resetWith p n m e c q).enc = {} := rfl
  have e2 : (resetWith p n m e c q).rxq = [] := rfl
  have e3 : (resetWith p n m e c q).rx = {} := rfl
  have e4 : (resetWith p n m e c q).conn = .disconnected := rfl
  refine ⟨⟨⟨x1, x2, x3, x4⟩, hc, ⟨c1, c2⟩, ⟨⟨?_, ?_, ?_⟩, ⟨?_, ?_, ?_, ?_, ?_, ?_⟩, ⟨?_, ?_, ?_, ?_⟩⟩, ⟨?_, ?_⟩⟩,
    ⟨?_, ?_, ?_, ?_, ?_, ?_, ?_, ?_, ?_⟩, ?_, ?_⟩ <;>
    (try simp only [State.SlotsKeyed, State.TimersRun, hslot, hb, hl, hp, e1, e2, e3, e4]) <;> try simp
  · exact ⟨rfl, rfl, rfl, rfl⟩
  · rfl
  · rfl
  · exact fun h => absurd rfl h
  · rfl
  · rfl
  · rfl
  · exact Nat.zero_le _

theorem CfgRegs.reset_legal {s : State} (hs : s.SizesLegal) (hc : s.cfg = CfgRegs.reset s.params.bufcap) : s.CfgLegal := by
  obtain ⟨x1, x2, x3, x4⟩ := hs
  have hmin : (BitVec.ofNat 16 (min 32 s.params.bufcap)).toNat = min 32 s.params.bufcap := by
    rw [BitVec.toNat_ofNat]; omega
  constructor <;> rw [hc] <;> simp only [CfgRegs.reset]
  · decide
  · intro h
    rw [h, show (0 : Half).toNat = 0 from rfl] at hmin
    omega
  · rw [hmin]; omega
  · decide

variable {s : State}

theorem State.SizesLegal.hardReset (h : s.SizesLegal) : s.hardReset.SizesLegal := by
  have hn : s.hardReset.nbuf = s.nbuf := afterReset_nbuf _ _ _ _
  obtain ⟨x1, x2, x3, x4⟩ := h
  exact ⟨by rwa [hn], by rwa [hn], x3, x4⟩

theorem State.MemLegal.hardReset (h : s.MemLegal) : s.hardReset.MemLegal := by
  have hn : s.hardReset.nbuf = s.nbuf := afterReset_nbuf _ _ _ _
  obtain ⟨c1, c2⟩ := h
  constructor
  · exact c1
  · rw [hn]; exact c2

/-- The hardware reset of a block of legal size gives a legal state, but for the encoder (R391). -/
theorem State.hardReset_kept (hs : s.SizesLegal) (hm : s.MemLegal) : s.hardReset.Kept :=
  afterReset_kept (c := CfgRegs.reset s.params.bufcap) (q := 0) hs.hardReset hm.hardReset
    (CfgRegs.reset_legal (s := s.hardReset) hs.hardReset rfl)

/-- SOFT_RESET keeps a legal state (45_host_interface.md R334). -/
theorem State.Kept.softReset (h : s.Kept) : s.softReset.Kept := by
  obtain ⟨b1, b2, b3, b4⟩ := h.base.cfg
  exact afterReset_kept (c := s.cfg) (q := s.irqEn) h.base.sizes.hardReset h.base.mem.hardReset ⟨b1, b2, b3, b4⟩

/-- The payload an instruction carries fits the MTU, as the receiver's size bound makes sure (40_framecodec.md R155). -/
def Instr.infoFits (mtu : Half) : Instr → Prop
  | .iFrame _ _ _ info => info.length ≤ mtu.toNat
  | .nop _ _ | .acquire _ _ | .release _ _ | .send _ _ | .read _ _ | .connect _ _ | .disconnect _ _
  | .softReset _ _ | .reservedOpcode _ _ _ | .rr _ _ _ | .rej _ _ _ | .sabm _ _ | .ua _ _ | .disc _ _
  | .rnrReserved _ _ _ | .srejReserved _ _ _ | .uReserved _ _ _ => True

/-- Every instruction keeps a legal state legal, but for the eager encoder load (10_state.md R54). -/
theorem State.Kept.exec (h : s.Kept) {i : Instr} (hi : Instr.infoFits s.cfg.mtu i) {t : State}
    (he : Machine.exec i s = .next t) : t.Kept := by
  cases i with
  | nop b n => injection he with he; exact he ▸ h.setResult _ _ _
  | acquire b n => exact h.acquire (b := b) (n := n) he
  | release b n => exact h.release (b := b) (n := n) he
  | send b n => exact h.send (b := b) (n := n) he
  | read b n => exact h.read (b := b) (n := n) he
  | connect b n => exact h.connect (b := b) (n := n) he
  | disconnect b n => exact h.disconnect (b := b) (n := n) he
  | softReset b n => injection he with he; exact he ▸ h.softReset.setResult _ _ _
  | reservedOpcode op b n => injection he with he; exact he ▸ h.setResult _ _ _
  | iFrame ns nr pf info => injection he with he; exact he ▸ h.rxI ns nr hi
  | rr nr pf info =>
    simp only [Machine.exec, execRr] at he
    split at he <;> injection he with he <;> subst he
    · exact h.rxRr nr
    · exact h
  | rej nr pf info =>
    simp only [Machine.exec, execRej] at he
    split at he <;> injection he with he <;> subst he
    · exact h.rxRej nr
    · exact h
  | sabm pf info =>
    simp only [Machine.exec, execSabm] at he
    split at he <;> injection he with he <;> subst he
    · exact h.rxSabm
    · exact h
  | ua pf info =>
    simp only [Machine.exec, execUa] at he
    split at he <;> injection he with he <;> subst he
    · exact h.rxUa
    · exact h
  | disc pf info =>
    simp only [Machine.exec, execDisc] at he
    split at he <;> injection he with he <;> subst he
    · exact h.rxDisc
    · exact h
  | rnrReserved nr pf info => injection he with he; exact he ▸ h
  | srejReserved nr pf info => injection he with he; exact he ▸ h
  | uReserved m pf info => injection he with he; exact he ▸ h

end Sys2Proof.Machine
end

