-- ==== Sys2Proof/Laws/LegalEncoder.lean ====
section
/-! SUPPORT. The encoder keeps a legal state legal, and its load restores the eager load (40_framecodec.md R141 to
R145). -/

namespace Sys2Proof.Machine

variable {s : State}

/-- Which frame is due, and when (40_framecodec.md R141). -/
theorem nextFrame_eq_some {k : Due} (h : s.nextFrame = some k) :
    (k = .ua ∧ s.uaPending = true) ∨ (k = .sabm ∧ s.conn = .connecting ∧ s.sabmPending = true) ∨
    (k = .disc ∧ s.conn = .disconnecting ∧ s.discPending = true) ∨ (k = .rej ∧ s.conn = .connected ∧ s.rejPending = true) ∨
    (∃ q, k = .i q ∧ s.conn = .connected ∧ (s.slot q).valid = true ∧ (s.slot q).needsTx = true) ∨
    (k = .rr ∧ s.conn = .connected ∧ s.ackPending = true ∧ s.ackTimer = 0) := by
  unfold State.nextFrame at h
  split at h
  · next h1 => injection h with h; exact .inl ⟨h.symm, h1⟩
  split at h
  · next h1 => injection h with h; exact .inr (.inl ⟨h.symm, h1⟩)
  split at h
  · next h1 => injection h with h; exact .inr (.inr (.inl ⟨h.symm, h1⟩))
  split at h
  · next hc =>
    unfold State.nextDataFrame at h
    split at h
    · next h1 => injection h with h; exact .inr (.inr (.inr (.inl ⟨h.symm, hc, h1⟩)))
    split at h
    · next q hq =>
      injection h with h
      have := (oldest_eq_some.1 hq).1
      simp only [Slot.due, Bool.and_eq_true] at this
      exact .inr (.inr (.inr (.inr (.inl ⟨q, h.symm, hc, this⟩))))
    · split at h
      · next h1 =>
        injection h with h
        simp only [Bool.and_eq_true, beq_iff_eq] at h1
        exact .inr (.inr (.inr (.inr (.inr ⟨h.symm, hc, h1⟩))))
      · cases h
  · cases h

theorem wireOf_length_pos (k : Due) : 0 < (s.wireOf k).length := build_length_pos _ _ _ _

theorem infoOf_length_le (h : s.PoolLegal) (k : Due) : (s.infoOf k).length ≤ s.params.bufcap := by
  cases k <;> simp only [State.infoOf, State.payload, State.bufReadBytes, memReadBytes_length, List.length_nil,
    Nat.zero_le]
  exact h.len _

theorem wireOf_length_le (h : s.PoolLegal) (k : Due) : (s.wireOf k).length ≤ 2 + 2 * (s.params.bufcap + 5) := by
  have h1 := build_length_le s.params s.cfg.fcsMode (k.ctrl s.vr) (s.infoOf k)
  have h2 := infoOf_length_le h k
  have h3 := FcsMode.fcsLen_le s.cfg.fcsMode
  unfold State.wireOf
  omega

/-- What a load of a non-I frame writes outside the encoder: flags, and the acknowledgment timer. -/
theorem State.Kept.load_plain (h : s.Kept) {k : Due} (hk : ∀ q, k ≠ .i q) (hi : s.enc.active = false)
    (hr : k = .rr → s.ackTimer = 0) : (s.load k).Kept := by
  have hor : s.enc.orphan = false := (h.base.owned.enc.idle hi).2
  have hkind : k.kind ≠ .i := by
    cases k <;> first | exact absurd rfl (hk _) | (intro h; cases h)
  have hwl := wireOf_length_le h.base.owned.pool k
  have hwp := wireOf_length_pos (s := s) k
  have hst : (s.startFrame k).slots = s.slots ∧ (s.startFrame k).pool = s.pool ∧ (s.startFrame k).rxq = s.rxq ∧
      (s.startFrame k).params = s.params ∧ (s.startFrame k).cfg = s.cfg ∧ (s.startFrame k).bmem = s.bmem ∧
      (s.startFrame k).rx = s.rx ∧ (s.startFrame k).conn = s.conn ∧ (s.startFrame k).vs = s.vs ∧
      (s.startFrame k).vr = s.vr ∧ (s.startFrame k).va = s.va ∧ (s.startFrame k).retry = s.retry ∧
      (s.startFrame k).uTimer = s.uTimer := by
    cases k <;> first | exact ⟨rfl, rfl, rfl, rfl, rfl, rfl, rfl, rfl, rfl, rfl, rfl, rfl, rfl⟩ | exact absurd rfl (hk _)
  have hfl : ((s.startFrame k).ackPending = true → s.ackPending = true) ∧
      ((s.startFrame k).ackTimer ≠ 0 → (s.startFrame k).ackPending = true ∨ s.ackTimer ≠ 0 ∧ k ≠ .rr ∧
        (s.startFrame k).ackPending = s.ackPending) ∧
      ((s.startFrame k).rejPending = true → s.rejPending = true) ∧
      ((s.startFrame k).sabmPending = true → s.sabmPending = true) ∧
      ((s.startFrame k).discPending = true → s.discPending = true) := by
    cases k
    case i q => exact absurd rfl (hk q)
    case rr =>
      refine ⟨(fun h => by cases h), fun hx => absurd (hr rfl) hx, id, id, id⟩
    case rej => exact ⟨(fun h => by cases h), fun h => absurd rfl h, (fun h => by cases h), id, id⟩
    case ua => exact ⟨id, fun h => .inr ⟨h, by simp, rfl⟩, id, id, id⟩
    case sabm => exact ⟨id, fun h => .inr ⟨h, by simp, rfl⟩, id, (fun h => by cases h), id⟩
    case disc => exact ⟨id, fun h => .inr ⟨h, by simp, rfl⟩, id, id, (fun h => by cases h)⟩
  obtain ⟨⟨⟨x1, x2, x3, x4⟩, ⟨b1, b2, b3, b4⟩, ⟨c1, c2⟩, ho, ⟨d1, d2⟩⟩, ⟨a1, a2, a3, a4, a5, a6, a7, a8, a9⟩, hkd, htm⟩ := h
  obtain ⟨⟨hempty, hbuf, hdist⟩, ⟨hpos, hidle, hwire, horph, howned, hfirst⟩, ⟨hlen', hpend, hnodup, hdel⟩⟩ := ho
  obtain ⟨e1, e3, e4, e5, e6, e7, e8, e9, e10, e11, e12, e13, e14⟩ := hst
  obtain ⟨f1, f2, f3, f4, f5⟩ := hfl
  generalize ht : s.load k = t
  have g1 : t.slots = s.slots := by rw [← ht]; exact e1
  have g2 : t.enc = s.loadedEncoder k := by rw [← ht]; rfl
  have g3 : t.pool = s.pool := by rw [← ht]; exact e3
  have g4 : t.rxq = s.rxq := by rw [← ht]; exact e4
  have g5 : t.params = s.params := by rw [← ht]; exact e5
  have g6 : t.cfg = s.cfg := by rw [← ht]; exact e6
  have g7 : t.bmem = s.bmem := by rw [← ht]; exact e7
  have g8 : t.rx = s.rx := by rw [← ht]; exact e8
  have g9 : t.conn = s.conn := by rw [← ht]; exact e9
  have g10 : t.vs = s.vs := by rw [← ht]; exact e10
  have g11 : t.vr = s.vr := by rw [← ht]; exact e11
  have g12 : t.va = s.va := by rw [← ht]; exact e12
  have g13 : t.retry = s.retry := by rw [← ht]; exact e13
  have g14 : t.uTimer = s.uTimer := by rw [← ht]; exact e14
  have g15 : t.ackPending = (s.startFrame k).ackPending := by rw [← ht]; rfl
  have g16 : t.ackTimer = (s.startFrame k).ackTimer := by rw [← ht]; rfl
  have g17 : t.rejPending = (s.startFrame k).rejPending := by rw [← ht]; rfl
  have g18 : t.sabmPending = (s.startFrame k).sabmPending := by rw [← ht]; rfl
  have g19 : t.discPending = (s.startFrame k).discPending := by rw [← ht]; rfl
  have hs : ∀ q, t.slot q = s.slot q := fun q => by simp only [State.slot, g1]
  have hn : t.nbuf = s.nbuf := by simp only [State.nbuf, g3]
  have hb : ∀ i, t.bstate i = s.bstate i := fun i => by simp only [State.bstate, State.desc, g3]
  have hbl : ∀ i, t.blen i = s.blen i := fun i => by simp only [State.blen, State.desc, g3]
  have hp : ∀ i, t.pending i ↔ s.pending i := fun i => by simp only [State.pending, hb]
  refine ⟨⟨?_, ?_, ?_, ⟨⟨?_, ?_, ?_⟩, ⟨?_, ?_, ?_, ?_, ?_, ?_⟩, ⟨?_, ?_, ?_, ?_⟩⟩, ?_⟩, ?_, ?_, ?_⟩ <;>
    (try simp only [hs, hn, hb, hbl, hp, g2, g4, g5]) <;> try assumption
  · constructor <;> simp only [hn, g5] <;> assumption
  · constructor <;> simp only [g5, g6] <;> assumption
  · constructor <;> simp only [hn, g5, g7] <;> assumption
  · exact fun _ => hwp
  · exact fun h => by cases h
  · exact fun h => by cases h
  · exact fun _ h => absurd h hkind
  · intro q hq hpt hnt
    have := (hfirst q hq hpt hnt).1
    rw [hi] at this; cases this
  · intro i hi' hpi
    rcases hpend i hi' hpi with h | ⟨h, -⟩
    · exact .inl h
    · rw [hor] at h; cases h
  · constructor <;> simp only [g5, g8] <;> assumption
  · constructor <;> simp only [g6, g9, g10, g11, g12, g13, g14, g15, g16, g17, g18, g19, State.outstanding] <;> try assumption
    · exact fun h => a3 (f1 h)
    · intro h
      rcases f2 h with h | ⟨h1, -, h3⟩
      · exact h
      · rw [h3]; exact a4 h1
    · exact fun h => a5 (f3 h)
    · exact fun h => a6 (f4 h)
    · exact fun h => a7 (f5 h)
  · intro q
    have := hkd q
    simpa only [hs, g9, State.age, State.outstanding, g10, g12] using this
  · intro q
    simpa only [hs] using htm q

theorem State.Kept.load_i (h : s.Kept) {q : SeqNum} (hv : (s.slot q).valid = true) (hi : s.enc.active = false) :
    (s.load (.i q)).Kept := by
  have hor : s.enc.orphan = false := (h.base.owned.enc.idle hi).2
  have hwl := wireOf_length_le h.base.owned.pool (.i q)
  have hwp := wireOf_length_pos (s := s) (.i q)
  obtain ⟨⟨⟨x1, x2, x3, x4⟩, ⟨b1, b2, b3, b4⟩, ⟨c1, c2⟩, ho, ⟨d1, d2⟩⟩, ⟨a1, a2, a3, a4, a5, a6, a7, a8, a9⟩, hkd, htm⟩ := h
  obtain ⟨⟨hempty, hbuf, hdist⟩, ⟨hpos, hidle, hwire, horph, howned, hfirst⟩, ⟨hlen', hpend, hnodup, hdel⟩⟩ := ho
  have hs : ∀ r, (s.load (.i q)).slot r = if q = r then { s.slot q with needsTx := false } else s.slot r := fun r => by
    rw [← setSlot_slot]; rfl
  have hval : ∀ r, ((s.load (.i q)).slot r).valid = (s.slot r).valid := fun r => by
    rw [hs]; split
    · next hqr => rw [hqr]
    · rfl
  have hbf : ∀ r, ((s.load (.i q)).slot r).buf = (s.slot r).buf := fun r => by
    rw [hs]; split
    · next hqr => rw [hqr]
    · rfl
  have htr : ∀ r, ((s.load (.i q)).slot r).timer = (s.slot r).timer := fun r => by
    rw [hs]; split
    · next hqr => rw [hqr]
    · rfl
  have g2 : (s.load (.i q)).enc = s.loadedEncoder (.i q) := rfl
  refine ⟨⟨⟨x1, x2, x3, x4⟩, ⟨b1, b2, b3, b4⟩, ⟨c1, c2⟩, ⟨⟨?_, ?_, ?_⟩, ⟨?_, ?_, ?_, ?_, ?_, ?_⟩, ⟨hlen', ?_, hnodup, hdel⟩⟩, ⟨d1, d2⟩⟩,
    ⟨a1, a2, ?_, ?_, a5, a6, a7, a8, a9⟩, ?_, ?_⟩
  · intro r hr
    rw [hval] at hr
    rw [hs, if_neg (by rintro rfl; rw [hv] at hr; cases hr)]
    exact hempty r hr
  · intro r hr
    rw [hval] at hr
    rw [hbf]; exact hbuf r hr
  · intro r r' hr hr'
    rw [hval] at hr hr'
    rw [hbf, hbf]; exact hdist r r' hr hr'
  · exact fun _ => hwp
  · exact fun h => by cases h
  · exact hwl
  · exact fun h => by cases h
  · intro _ _ _
    rw [hval, hbf]
    exact ⟨hv, rfl⟩
  · intro r hr hpt hnt
    by_cases hqr : q = r
    · exact ⟨rfl, rfl, hqr, rfl⟩
    · rw [hs, if_neg hqr] at hr hpt hnt
      have := (hfirst r hr hpt hnt).1
      rw [hi] at this; cases this
  · intro i hi' hpi
    rcases hpend i hi' hpi with ⟨r, h1, h2⟩ | ⟨h, -⟩
    · exact .inl ⟨r, by rw [hval]; exact h1, by rw [hbf]; exact h2⟩
    · rw [hor] at h; cases h
  · exact fun h => by cases h
  · exact fun h => absurd rfl h
  · intro r
    rw [hval]; exact hkd r
  · intro r hr
    rw [hval] at hr
    rw [htr]; exact htm r hr

/-- The end of every step: the encoder load keeps a legal state legal and leaves no frame due (40_framecodec.md
R141, 10_state.md R22). -/
theorem State.Kept.encoderLoad (h : s.Kept) : s.encoderLoad.Legal := by
  unfold State.encoderLoad
  split
  · next ha => exact h.legal fun hi => by rw [ha] at hi; cases hi
  · next ha =>
    have ha : s.enc.active = false := by simpa using ha
    split
    · next k hk =>
      have hkept : (s.load k).Kept := by
        rcases nextFrame_eq_some hk with ⟨rfl, -⟩ | ⟨rfl, -⟩ | ⟨rfl, -⟩ | ⟨rfl, -⟩ | ⟨q, rfl, -, hv, -⟩ | ⟨rfl, -, -, ht⟩
        · exact h.load_plain (by simp) ha (by simp)
        · exact h.load_plain (by simp) ha (by simp)
        · exact h.load_plain (by simp) ha (by simp)
        · exact h.load_plain (by simp) ha (by simp)
        · exact h.load_i hv ha
        · exact h.load_plain (by simp) ha (fun _ => ht)
      exact hkept.legal fun hi => by cases hi
    · next hk => exact h.legal fun _ => hk

end Sys2Proof.Machine
end

