-- ==== Sys2Proof/Laws/LegalStep.lean ====
section
/-! SUPPORT. The parts of the steps keep a legal state legal: the hand-off of a byte and the frame end, the receiver,
the tick, and the host bus (10_state.md R54). -/

namespace Sys2Proof.Machine

variable {s : State}

/-! ### The environment's view -/

theorem State.Kept.emit (h : s.Kept) (b : Byte) : (s.emit b).Kept := by
  apply h.congr <;> rfl

theorem State.Kept.dropEvent (h : s.Kept) : s.dropEvent.Kept := by
  apply h.congr <;> rfl

theorem State.Legal.dropEvent (h : s.Legal) : s.dropEvent.Legal := h.kept.dropEvent.legal h.eager

/-! ### Hand-off of a byte (40_framecodec.md R144, R145) -/

/-- Changing only the encoder keeps a legal state legal if the encoder stays legal and keeps hold of its orphan. -/
theorem State.Kept.setEnc (h : s.Kept) {e : Encoder} (he : State.EncLegal { s with enc := e })
    (ho : s.enc.orphan = true → e.orphan = true ∧ e.buf = s.enc.buf) : State.Kept { s with enc := e } := by
  obtain ⟨⟨⟨x1, x2, x3, x4⟩, ⟨b1, b2, b3, b4⟩, ⟨c1, c2⟩, ⟨⟨hempty, hbuf, hdist⟩, _, ⟨hlen, hpend, hnodup, hdel⟩⟩, ⟨d1, d2⟩⟩,
    ⟨a1, a2, a3, a4, a5, a6, a7, a8, a9⟩, hk, ht⟩ := h
  refine ⟨⟨⟨x1, x2, x3, x4⟩, ⟨b1, b2, b3, b4⟩, ⟨c1, c2⟩, ⟨⟨hempty, hbuf, hdist⟩, he, ⟨hlen, ?_, hnodup, hdel⟩⟩, ⟨d1, d2⟩⟩,
    ⟨a1, a2, a3, a4, a5, a6, a7, a8, a9⟩, hk, ht⟩
  intro i hi hp
  rcases hpend i hi hp with h1 | ⟨h1, h2⟩
  · exact .inl h1
  · exact .inr ⟨(ho h1).1, (ho h1).2.trans h2⟩

theorem State.Kept.advance (h : s.Kept) (ha : s.enc.active = true) (hp : s.enc.pos + 1 < s.enc.wire.length) :
    State.Kept { s with enc := { s.enc with pos := s.enc.pos + 1 } } := by
  obtain ⟨hpos, hidle, hwire, horph, howned, hfirst⟩ := h.base.owned.enc
  refine h.setEnc ⟨fun _ => hp, fun hi => ?_, hwire, horph, howned, hfirst⟩ fun ho => ⟨ho, rfl⟩
  rw [show s.enc.active = false from hi] at ha; cases ha

/-- The encoder with its frame ended. -/
def Encoder.ended (e : Encoder) : Encoder := { e with active := false, pos := 0, orphan := false }

/-- The end of a frame whose buffer keeps its state. -/
theorem State.Kept.endFrame (h : s.Kept) (hor : s.enc.orphan = false)
    (hf : ∀ q, (s.slot q).valid = true → s.bstate (s.slot q).buf = .pendTx → (s.slot q).needsTx = true) :
    State.Kept { s with enc := s.enc.ended } := by
  obtain ⟨hpos, hidle, hwire, horph, howned, hfirst⟩ := h.base.owned.enc
  refine h.setEnc ⟨(fun h => by cases h), fun _ => ⟨rfl, rfl⟩, hwire, (fun h => by cases h), (fun h => by cases h), ?_⟩
    fun ho => by rw [hor] at ho; cases ho
  intro q hq hp hn
  have hx := hf q hq hp
  rw [show (s.slot q).needsTx = false from hn] at hx; cases hx

/-- Writing the ownership state of the encoder's buffer at the end of its frame. -/
theorem State.Kept.endFrameSet (h : s.Kept) (hk : s.enc.kind = .i) (ha : s.enc.active = true) {b : BufState}
    (hb : (s.enc.orphan = true ∧ b = .free) ∨
      (s.enc.orphan = false ∧ s.bstate s.enc.buf = .pendTx ∧ b = .pendAck)) :
    (State.setBstate { s with enc := s.enc.ended } s.enc.buf b).Kept := by
  obtain ⟨⟨hempty, hbuf, hdist⟩, ⟨hpos, hidle, hwire, horph, howned, hfirst⟩, ⟨hlen, hpend, hnodup, hdel⟩⟩ := h.base.owned
  generalize hu : State.setBstate { s with enc := s.enc.ended } s.enc.buf b = u
  have e1 : u.slots = s.slots := by rw [← hu]; rfl
  have e2 : u.enc = s.enc.ended := by rw [← hu]; rfl
  have e4 : u.rxq = s.rxq := by rw [← hu]; rfl
  have e5 : u.params = s.params := by rw [← hu]; rfl
  have hn : u.nbuf = s.nbuf := by rw [← hu, setBstate_nbuf]; rfl
  have hs : ∀ q, u.slot q = s.slot q := fun q => by simp only [State.slot, e1]
  have hst : ∀ j, u.bstate j = if s.enc.buf = j ∧ s.enc.buf < s.nbuf then b else s.bstate j := fun j => by
    rw [← hu, setBstate_bstate]; rfl
  have hbl : ∀ j, u.blen j = s.blen j := fun j => by rw [← hu, setBstate_blen]; rfl
  have hpb : s.enc.buf < s.nbuf ∧ s.pending s.enc.buf := by
    rcases hb with ⟨ho, -⟩ | ⟨ho, -⟩
    · exact ⟨(horph ho).2.1, (horph ho).2.2.1⟩
    · obtain ⟨h1, h2⟩ := howned ha hk ho
      have := hbuf _ h1
      rwa [h2] at this
  refine h.setPool ⟨⟨?_, ?_, ?_⟩, ⟨?_, ?_, ?_, ?_, ?_, ?_⟩, ⟨?_, ?_, ?_, ?_⟩⟩ hn e1 e5 (by rw [← hu]; rfl) (by rw [← hu]; rfl) (by rw [← hu]; rfl)
    (by rw [← hu]; rfl) (by rw [← hu]; rfl) (by rw [← hu]; rfl) (by rw [← hu]; rfl) (by rw [← hu]; rfl) (by rw [← hu]; rfl)
    (by rw [← hu]; rfl) (by rw [← hu]; rfl) (by rw [← hu]; rfl) (by rw [← hu]; rfl) (by rw [← hu]; rfl) <;>
    simp only [hs, hn, e2, e4, e5, hbl] <;> try assumption
  · intro q hq
    refine ⟨(hbuf q hq).1, ?_⟩
    rw [State.pending, hst]
    split
    · next hj =>
      rcases hb with ⟨ho, -⟩ | ⟨-, -, rfl⟩
      · exact absurd hj.1.symm ((horph ho).2.2.2 q hq)
      · exact .inr rfl
    · exact (hbuf q hq).2
  · exact fun h => by cases h
  · exact fun _ => ⟨rfl, rfl⟩
  · exact fun h => by cases h
  · exact fun h => by cases h
  · intro q hq hp hnt
    exfalso
    rw [hst] at hp
    split at hp
    · rcases hb with ⟨-, rfl⟩ | ⟨-, -, rfl⟩ <;> cases hp
    · next hj =>
      obtain ⟨-, -, h3, h4⟩ := hfirst q hq hp hnt
      have := (howned ha hk h4).2
      rw [h3] at this
      exact hj ⟨this.symm, hpb.1⟩
  · intro i hi hp
    by_cases hj : s.enc.buf = i
    · rcases hb with ⟨-, rfl⟩ | ⟨ho, -, rfl⟩
      · rw [State.pending, hst, if_pos ⟨hj, hpb.1⟩] at hp
        simp at hp
      · exact .inl ⟨s.enc.seq, (howned ha hk ho).1, (howned ha hk ho).2.trans hj⟩
    · rw [State.pending, hst, if_neg (by simp [hj])] at hp
      rcases hpend i hi hp with h1 | ⟨-, h2⟩
      · exact .inl h1
      · exact absurd h2 hj
  · intro j
    rw [hdel, hst]
    by_cases hj : s.enc.buf = j
    · subst hj
      have : s.bstate s.enc.buf ≠ .delivered := by rcases hpb.2 with h | h <;> simp [h]
      rcases hb with ⟨-, rfl⟩ | ⟨-, -, rfl⟩ <;> simp [hpb.1, this]
    · simp [hj]

/-- The frame end keeps a legal state legal (40_framecodec.md R145). -/
theorem State.Kept.frameEnd (h : s.Kept) (ha : s.enc.active = true) : s.frameEnd.Kept := by
  have ⟨hpos, hidle, hwire, horph, howned, hfirst⟩ := h.base.owned.enc
  unfold State.frameEnd
  dsimp only
  split
  · next hk =>
    split
    · next ho => exact (h.endFrameSet hk ha (.inl ⟨ho, rfl⟩)).signal _
    · next ho =>
      have ho : s.enc.orphan = false := by simpa using ho
      split
      · next hp => exact h.endFrameSet hk ha (.inr ⟨ho, hp, rfl⟩)
      · next hp =>
        refine h.endFrame ho fun q hq hpq => ?_
        by_contra hn
        obtain ⟨-, -, h3, h4⟩ := hfirst q hq hpq (by simpa using hn)
        have := (howned ha hk h4).2
        rw [h3] at this
        rw [this] at hpq
        exact hp hpq
  · next hk =>
    have ho : s.enc.orphan = false := by
      by_contra ho
      exact hk (horph (by simpa using ho)).1
    refine h.endFrame ho fun q hq hpq => ?_
    by_contra hn
    exact hk (hfirst q hq hpq (by simpa using hn)).2.1

/-- A hand-off keeps a legal state legal (40_framecodec.md R144). -/
theorem State.Kept.txByte (h : s.Kept) (ha : s.enc.active = true) : s.txByte.Kept := by
  have hpos := h.base.owned.enc.pos ha
  have he := h.emit s.txData
  unfold State.txByte
  dsimp only
  split
  · exact he.frameEnd ha
  · next hne =>
    refine he.advance ha ?_
    have : s.enc.pos + 1 ≠ s.enc.wire.length := hne
    show s.enc.pos + 1 < s.enc.wire.length
    omega

/-! ### Receiver (40_framecodec.md R150 to R155) -/

theorem State.Kept.setRx (h : s.Kept) {r : Destuffer} (hr : State.RxLegal { s with rx := r }) :
    State.Kept { s with rx := r } := by
  obtain ⟨⟨hs, hc, hm, ho, -⟩, hl, hk, ht⟩ := h
  exact ⟨⟨⟨hs.1, hs.2, hs.3, hs.4⟩, ⟨hc.1, hc.2, hc.3, hc.4⟩, ⟨hm.1, hm.2⟩, ho.congr rfl rfl rfl rfl rfl, hr⟩,
    ⟨hl.1, hl.2, hl.3, hl.4, hl.5, hl.6, hl.7, hl.8, hl.9⟩, hk, ht⟩

theorem State.Kept.countOversize (h : s.Kept) : s.countOversize.Kept := by
  apply h.congr <;> rfl

theorem maxFrame_le (h : s.CfgLegal) : s.maxFrame ≤ s.params.bufcap + 5 := by
  have h1 := h.mtu_le
  have h2 := FcsMode.fcsLen_le s.cfg.fcsMode
  unfold State.maxFrame; omega

theorem State.Kept.append (h : s.Kept) (hst : s.rx.state ≠ .hunt) (x : Byte) : (s.append x).Kept := by
  have hm := maxFrame_le h.base.cfg
  unfold State.append
  split
  · exact h.countOversize.setRx ⟨Nat.zero_le _, fun _ => rfl⟩
  · refine h.setRx ⟨?_, fun hh => absurd hh hst⟩
    simp only [List.length_append, List.length_cons, List.length_nil]; omega

theorem State.Kept.openFrame (h : s.Kept) : s.openFrame.Kept :=
  h.setRx ⟨Nat.zero_le _, fun h => by cases h⟩

/-- The frame a received body holds fits the MTU (30_encoding.md R107, 40_framecodec.md R155). -/
theorem decode_frame_infoFits {body : List Byte} {i : Instr} {mtu : Half} (h : decode .frame body = .ok i)
    (hl : body.length ≤ 1 + mtu.toNat) : Instr.infoFits mtu i := by
  cases body with
  | nil => cases h
  | cons c info =>
    simp only [List.length_cons] at hl
    injection h with h
    subst h
    unfold classify
    dsimp only
    repeat' split
    all_goals first | exact trivial | exact (by omega : info.length ≤ mtu.toNat)

theorem State.Kept.complete (h : s.Kept) {acc : List Byte} {t : State} (he : s.complete acc = .next t) : t.Kept := by
  unfold State.complete at he
  dsimp only at he
  split at he
  · injection he with he; exact he ▸ h.countOversize
  · next h1 =>
    split at he
    · injection he with he; exact he ▸ h
    · split at he
      · injection he with he; exact he ▸ h
      · unfold State.receiveFrame at he
        split at he
        · next i hi =>
          refine h.exec (decode_frame_infoFits hi ?_) he
          rw [List.length_take]
          unfold State.maxFrame at h1
          omega
        · injection he with he; exact he ▸ h

theorem State.Kept.clearAcc (h : s.Kept) : State.Kept { s with rx := { s.rx with acc := [] } } :=
  h.setRx ⟨Nat.zero_le _, fun _ => rfl⟩

/-- A received byte keeps a legal state legal (40_framecodec.md R150 to R153). -/
theorem State.Kept.rxByte (h : s.Kept) {b : Byte} {t : State} (he : s.rxByte b = .next t) : t.Kept := by
  unfold State.rxByte at he
  split at he
  · split at he <;> injection he with he <;> subst he
    · exact h.openFrame
    · exact h
  · next hst =>
    split at he
    · split at he
      · injection he with he; exact he ▸ h.clearAcc
      · cases hc : s.complete s.rx.acc with
        | next u =>
          rw [hc] at he; injection he with he
          exact he ▸ (h.complete hc).clearAcc
        | fault r => rw [hc] at he; cases he
        | refused r => rw [hc] at he; cases he
    · split at he <;> injection he with he <;> subst he
      · exact h.setRx ⟨h.base.rx.acc, fun h => by cases h⟩
      · exact h.append (by rw [hst]; simp) _
  · split at he <;> injection he with he <;> subst he
    · exact h.openFrame
    · have hd : State.Kept { s with rx := { s.rx with state := .data } } :=
        h.setRx ⟨h.base.rx.acc, fun h => by cases h⟩
      exact hd.append (fun h => by cases h) _

/-! ### Tick (44_arq_data.md R292, 43_arq_connection.md R239) -/

theorem tickDown_ne_zero {t : Half} (h0 : t ≠ 0) (h1 : t ≠ 1) : tickDown t ≠ 0 := by
  unfold tickDown
  rw [if_neg h0]
  intro h
  exact h1 (by rw [← sub_add_cancel t 1, h]; rfl)

theorem tickDown_ne_zero_imp {t : Half} (h : tickDown t ≠ 0) : t ≠ 0 := by
  rintro rfl; exact h rfl

/-- What a tick's counting keeps: all but the timers. -/
theorem State.Base.countTick (h : s.Base) : s.countTick.Base := by
  obtain ⟨⟨x1, x2, x3, x4⟩, ⟨b1, b2, b3, b4⟩, ⟨c1, c2⟩, ⟨⟨hempty, hbuf, hdist⟩, ⟨hpos, hidle, hwire, horph, howned, hfirst⟩,
    ⟨hlen, hpend, hnodup, hdel⟩⟩, ⟨d1, d2⟩⟩ := h
  have e1 : s.countTick.nbuf = s.nbuf := rfl
  refine ⟨⟨x1, x2, x3, x4⟩, ⟨b1, b2, b3, b4⟩, ⟨c1, c2⟩, ⟨⟨?_, ?_, ?_⟩, ⟨hpos, hidle, hwire, ?_, ?_, ?_⟩, ⟨hlen, ?_, hnodup, hdel⟩⟩,
    ⟨d1, d2⟩⟩ <;> simp only [countTick_slot]
  · intro q hq; rw [hempty q hq]; rfl
  · exact hbuf
  · exact hdist
  · exact horph
  · exact howned
  · exact hfirst
  · exact hpend

theorem State.LinkLegal.countTick (h : s.LinkLegal) (hu : s.uTimer ≠ 1) : s.countTick.LinkLegal := by
  obtain ⟨a1, a2, a3, a4, a5, a6, a7, a8, a9⟩ := h
  refine ⟨a1, ?_, a3, fun hx => a4 (tickDown_ne_zero_imp hx), a5, a6, a7, a8, a9⟩
  show tickDown s.uTimer ≠ 0 ↔ _
  rw [show (s.countTick.conn = .connecting ∨ s.countTick.conn = .disconnecting) ↔ s.uTimer ≠ 0 from a2.symm]
  exact ⟨tickDown_ne_zero_imp, fun h => tickDown_ne_zero h hu⟩

theorem State.SlotsKeyed.countTick (h : s.SlotsKeyed) : s.countTick.SlotsKeyed := by
  intro q
  rw [countTick_slot]; exact h q

/-- A count in the retry budget can be raised without wrapping (44_arq_data.md R286). -/
theorem retry_succ_le {a b : BitVec 8} (h : a.toNat ≤ b.toNat) (hne : a ≠ b) : (a + 1).toNat ≤ b.toNat := by
  have : a.toNat ≠ b.toNat := fun e => hne (BitVec.eq_of_toNat_eq e)
  have hb := b.isLt
  rw [BitVec.toNat_add, show (1 : BitVec 8).toNat = 1 from rfl]
  omega

/-- `slot_expire` restarts the timers that have run out, so a legal state results (44_arq_data.md R286). -/
theorem State.Kept.slotExpire {q : SeqNum} (hb : s.Base) (hl : s.LinkLegal) (hk : s.SlotsKeyed) (hq : (s.slot q).valid = true)
    (ht : ∀ r, (s.slot r).valid = true → (r - s.va).toNat < (q - s.va).toNat → (s.slot r).timer ≠ 0) :
    (s.slotExpire q).Kept := by
  unfold State.slotExpire
  split
  · exact hb.enterDisconnected.signal _
  · next hr =>
    obtain ⟨hc, hage⟩ := (hk q).1 hq
    have hage' : (q - s.va).toNat < (s.vs - s.va).toNat := hage
    have hal : ∀ r, (r - q).toNat < (s.vs - q).toNat ↔ (q - s.va).toNat ≤ (r - s.va).toNat ∧ (r - s.va).toNat < (s.vs - s.va).toNat := by
      intro r
      simp only [BitVec.toNat_sub] at hage' ⊢
      have := q.isLt; have := s.va.isLt; have := s.vs.isLt; have := r.isLt
      omega
    generalize hu : ({ s with retry := s.retry + 1 } : State) = u
    have e1 : u.slots = s.slots := by rw [← hu]
    have hs : ∀ r, u.slot r = s.slot r := fun r => by simp only [State.slot, e1]
    have hub : u.Base := by apply hb.congr <;> rw [← hu]
    have evs : u.vs = s.vs := by rw [← hu]
    have eva : u.va = s.va := by rw [← hu]
    have ecf : u.cfg = s.cfg := by rw [← hu]
    have hul : u.LinkLegal := by
      obtain ⟨a1, a2, a3, a4, a5, a6, a7, a8, a9⟩ := hl
      rw [← hu]
      refine ⟨fun hd => ?_, a2, a3, a4, a5, a6, a7, a8, retry_succ_le a9 hr⟩
      rw [show s.conn = .disconnected from hd] at hc; cases hc
    have huk : u.SlotsKeyed := by
      intro r
      rw [hs, ← hu]; exact hk r
    have ho := hub.owned.goBackN (q := q) fun r hr => by
      rw [hs]; rw [evs] at hr
      exact (hk r).2 ⟨hc, ((hal r).1 hr).2⟩
    have hn := goBackN_nbuf u q
    have hval : ∀ r, ((u.goBackN q).slot r).valid = (u.slot r).valid := fun r => by rw [goBackN_slot]; split <;> rfl
    obtain ⟨⟨x1, x2, x3, x4⟩, ⟨b1, b2, b3, b4⟩, ⟨c1, c2⟩, _, ⟨d1, d2⟩⟩ := hub
    obtain ⟨a1, a2, a3, a4, a5, a6, a7, a8, a9⟩ := hul
    refine ⟨⟨?_, ?_, ?_, ho, ?_⟩, ?_, ?_, ?_⟩
    · constructor <;> simp only [hn, goBackN_params] <;> assumption
    · constructor <;> simp only [goBackN_params, goBackN_cfg] <;> assumption
    · constructor <;> simp only [hn, goBackN_params, goBackN_bmem] <;> assumption
    · constructor <;> simp only [goBackN_params, goBackN_rx] <;> assumption
    · constructor <;> simp only [goBackN_cfg, goBackN_conn, goBackN_vs, goBackN_vr, goBackN_va, goBackN_retry,
        goBackN_uTimer, goBackN_ackPending, goBackN_ackTimer, goBackN_rejPending, goBackN_sabmPending,
        goBackN_discPending, State.outstanding] <;> assumption
    · intro r
      have := huk r
      simpa only [hval, goBackN_conn, State.age, State.outstanding, goBackN_va, goBackN_vs] using this
    · intro r hr
      rw [hval, hs] at hr
      rw [goBackN_slot]
      split
      · exact b4
      · next hlt =>
        rw [hs]
        rw [evs, hal] at hlt
        have := ((hk r).1 hr).2
        have : (r - s.va).toNat < (s.vs - s.va).toNat := this
        exact ht r hr (by omega)

/-- `u_expire` keeps a legal state legal (43_arq_connection.md R239). -/
theorem State.Kept.uExpire (hb : s.Base) (hc : s.conn = .connecting ∨ s.conn = .disconnecting)
    (hl : ∀ x : Half, x ≠ 0 → State.LinkLegal { s with uTimer := x }) (hk : s.SlotsKeyed) : s.uExpire.Kept := by
  unfold State.uExpire
  split
  · split
    · exact hb.enterDisconnected.signal _
    · exact hb.enterDisconnected
  · next hr =>
    have hto := hb.cfg.timeout_ne
    obtain ⟨a1, a2, a3, a4, a5, a6, a7, a8, a9⟩ := hl s.cfg.timeout hto
    have hv : ∀ q, (s.slot q).valid ≠ true := fun q hq => by
      have := ((hk q).1 hq).1
      rcases hc with h | h <;> rw [h] at this <;> cases this
    have hd : s.conn ≠ .disconnected := by rcases hc with h | h <;> rw [h] <;> simp
    dsimp only
    split
    · next hcc =>
      refine ⟨by apply hb.congr <;> rfl, ⟨fun h => absurd h hd, a2, a3, a4, a5, fun _ => hcc, a7, a8, retry_succ_le a9 hr⟩, hk,
        fun q hq => absurd hq (hv q)⟩
    · next hcc =>
      refine ⟨by apply hb.congr <;> rfl, ⟨fun h => absurd h hd, a2, a3, a4, a5, a6, fun _ => hc.resolve_left hcc, a8,
        retry_succ_le a9 hr⟩, hk, fun q hq => absurd hq (hv q)⟩

theorem expiring_iff (v : Slot) : v.expiring = true ↔ v.valid = true ∧ v.timer = 1 := by
  simp [Slot.expiring]

/-- A tick keeps a legal state legal (44_arq_data.md R292). -/
theorem State.Kept.tick (h : s.Kept) : s.tick.Kept := by
  have hcb := h.base.countTick
  have hck := h.keyed.countTick
  have hcc : s.countTick.conn = s.conn := rfl
  have hsl : ∀ q, (s.slot q).valid = false → (s.slot q).expiring = false := fun q hq => by simp [Slot.expiring, hq]
  unfold State.tick
  dsimp only
  by_cases hu : s.uTimer = 1 ∧ (s.countTick.conn = .connecting ∨ s.countTick.conn = .disconnecting)
  · rw [if_pos hu]
    have hcon : s.conn = .connecting ∨ s.conn = .disconnecting := hu.2
    have hno := h.no_slot (by rcases hcon with h | h <;> rw [h] <;> simp)
    have hkept : s.countTick.uExpire.Kept := by
      refine State.Kept.uExpire hcb hu.2 (fun x hx => ?_) hck
      obtain ⟨a1, a2, a3, a4, a5, a6, a7, a8, a9⟩ := h.link
      exact ⟨a1, ⟨fun _ => hcon, fun _ => hx⟩, a3, fun hx => a4 (tickDown_ne_zero_imp hx), a5, a6, a7, a8, a9⟩
    split
    · next q hq =>
      have := (oldest_eq_some.1 hq).1
      rw [hsl q (hno q)] at this; cases this
    · exact hkept
  · rw [if_neg hu]
    have hu1 : s.uTimer ≠ 1 := fun h1 => hu ⟨h1, h.link.uTimer.1 (by rw [h1]; decide)⟩
    have hcl := h.link.countTick hu1
    have hne : ∀ q, (s.slot q).valid = true → (s.slot q).expiring = false → tickDown (s.slot q).timer ≠ 0 := by
      intro q hv hx
      refine tickDown_ne_zero (h.timers q hv) fun h1 => ?_
      rw [(expiring_iff _).2 ⟨hv, h1⟩] at hx; cases hx
    split
    · next q hq =>
      obtain ⟨hq1, hq2⟩ := oldest_eq_some.1 hq
      have hqv := (expiring_iff _).1 hq1
      split
      · refine State.Kept.slotExpire hcb hcl hck (by rw [countTick_slot]; exact hqv.1) fun r hr hlt => ?_
        rw [countTick_slot] at hr ⊢
        exact hne r hr (hq2 r hlt)
      · next hc => exact absurd ((h.keyed q).1 hqv.1).1 hc
    · next hq =>
      refine ⟨hcb, hcl, hck, fun q hv => ?_⟩
      rw [countTick_slot] at hv ⊢
      exact hne q hv (oldest_eq_none.1 hq q)

/-! ### Host bus (45_host_interface.md R330 to R336) -/

theorem State.Kept.hostRead (h : s.Kept) (a : BitVec 20) (n : BitVec 2) : (s.hostRead a n).Kept := by
  have hr : (s.afterRead a n).Kept := by
    unfold State.afterRead
    split
    · next r _ =>
      cases r <;> first | exact h | (unfold State.afterRegRead; apply h.congr <;> rfl)
    · exact h
    · exact h.signal _
  apply hr.congr <;> rfl

/-- While DISCONNECTED, no invariant but `CfgLegal` looks at the configuration registers (10_state.md R24). -/
theorem State.Kept.lockedWrite (h : s.Kept) {c : CfgRegs} (hc : State.CfgLegal { s with cfg := c }) :
    (s.lockedWrite c).Kept := by
  unfold State.lockedWrite
  split
  · next hd =>
    obtain ⟨⟨⟨x1, x2, x3, x4⟩, _, ⟨c1, c2⟩, ho, ⟨d1, d2⟩⟩, ⟨a1, a2, a3, a4, a5, a6, a7, a8, a9⟩, hk, ht⟩ := h
    refine ⟨⟨⟨x1, x2, x3, x4⟩, hc, ⟨c1, c2⟩, ho.congr rfl rfl rfl rfl rfl, ⟨d1, d2⟩⟩, ⟨a1, a2, a3, a4, a5, a6, a7, ?_, ?_⟩, hk, ht⟩
    · intro hx
      rw [show s.conn = .connected from hx] at hd; cases hd
    · show s.retry.toNat ≤ _
      rw [(a1 hd).2.2.2]; exact Nat.zero_le _
  · exact h.signal _

theorem legalWindow_ne (v : BitVec 3) : legalWindow v ≠ 0 := by revert v; decide

theorem legalTimeout_ne (v : Half) : legalTimeout v ≠ 0 := by
  unfold legalTimeout
  split
  · decide
  · assumption

theorem legalMtu_toNat {cap : Nat} (h1 : 1 ≤ cap) (h2 : cap ≤ 4096) (v : Half) :
    1 ≤ (legalMtu cap v).toNat ∧ (legalMtu cap v).toNat ≤ cap := by
  unfold legalMtu
  split
  · exact ⟨Nat.le_refl _, h1⟩
  · next hv =>
    have : v.toNat ≠ 0 := fun e => hv (BitVec.eq_of_toNat_eq e)
    rw [BitVec.toNat_ofNat]
    omega

theorem State.Kept.bufWrite (h : s.Kept) {i j n : Nat} {l : List Byte} (hi : i < s.nbuf) (hj : j + n ≤ s.params.bufcap)
    (hl : l.length ≤ n) : (s.bufWriteBytes i j l).Kept := by
  obtain ⟨⟨⟨x1, x2, x3, x4⟩, ⟨b1, b2, b3, b4⟩, ⟨c1, c2⟩, ho, ⟨d1, d2⟩⟩, ⟨a1, a2, a3, a4, a5, a6, a7, a8, a9⟩, hk, ht⟩ := h
  refine ⟨⟨⟨x1, x2, x3, x4⟩, ⟨b1, b2, b3, b4⟩, ⟨Memory.wf_memWriteBytes c1 _ _, fun c hc => ?_⟩, ho.congr rfl rfl rfl rfl rfl, ⟨d1, d2⟩⟩,
    ⟨a1, a2, a3, a4, a5, a6, a7, a8, a9⟩, hk, ht⟩
  rcases mem_memWriteBytes hc with hr | hr
  · refine ⟨i, c.1 - bufAddr i 0, hi, ?_, ?_⟩
    · show _ < s.params.bufcap
      unfold bufAddr at *; omega
    · unfold bufAddr at *; omega
  · exact c2 c hr

@[simp] theorem lanes_length (n : Nat) (v : Word) : (lanes n v).length = n := by
  induction n generalizing v with
  | zero => rfl
  | succ n ih => simp [lanes, ih]

/-- What the checks of 20_memory.md R72 and R77 make sure of for an access that reaches the window. -/
theorem target_window {a : BitVec 20} {z : BitVec 2} {i j n : Nat} (h : s.target a z = .window i j n) :
    i < s.nbuf ∧ j + n ≤ s.params.bufcap ∧ s.bstate i = .app := by
  unfold State.target at h
  split at h
  · cases h
  split at h
  · cases h
  split at h
  · unfold State.regTarget at h
    split at h
    · split at h <;> cases h
    · cases h
  split at h
  · unfold State.windowTarget at h
    dsimp only at h
    split at h
    · cases h
    · next hx =>
      split at h
      · next hb => cases h; exact ⟨by omega, by omega, hb⟩
      · cases h
  · cases h

/-- A host write keeps a legal state legal (45_host_interface.md R331, R336). -/
theorem State.Kept.hostWrite (h : s.Kept) {a : BitVec 20} {n : BitVec 2} {v : Word} {t : State}
    (he : s.hostWrite a n v = .next t) : t.Kept := by
  obtain ⟨b1, b2, b3, b4⟩ := h.base.cfg
  unfold State.hostWrite at he
  split at he
  · next r _ =>
    unfold State.regWrite at he
    cases r <;> dsimp only at he
    case cfg => injection he with he; exact he ▸ h.lockedWrite ⟨legalWindow_ne _, b2, b3, b4⟩
    case cfgMtu =>
      injection he with he
      have hm := legalMtu_toNat h.base.sizes.bufcap_pos h.base.sizes.bufcap_le (v.extractLsb' 0 16)
      refine he ▸ h.lockedWrite ⟨b1, fun h0 => ?_, hm.2, b4⟩
      have h0 : legalMtu s.params.bufcap (v.extractLsb' 0 16) = 0 := h0
      rw [h0] at hm; exact absurd hm.1 (by decide)
    case cfgTimeout => injection he with he; exact he ▸ h.lockedWrite ⟨b1, b2, b3, legalTimeout_ne _⟩
    case cfgAckDelay => injection he with he; exact he ▸ h.lockedWrite ⟨b1, b2, b3, b4⟩
    case cmd =>
      refine h.exec ?_ he
      unfold decodeCommand
      dsimp only
      repeat' split
      all_goals exact trivial
    case irqEn => injection he with he; subst he; apply h.congr <;> rfl
    case cntLost => injection he with he; subst he; apply h.congr <;> rfl
    case cntOversize => injection he with he; subst he; apply h.congr <;> rfl
    all_goals injection he with he; exact he ▸ h
  · next i j m hw =>
    obtain ⟨h1, h2, -⟩ := target_window hw
    injection he with he
    exact he ▸ h.bufWrite h1 h2 (by simp)
  · injection he with he; exact he ▸ h.signal _

end Sys2Proof.Machine
end

