-- ==== Sys2Proof/Laws/EncoderFrame.lean ====
section
/-! SUPPORT. What the encoder load and the frame end leave unchanged (40_framecodec.md R141 to R145). -/

namespace Sys2Proof.Machine

variable (s : State)

/-- A load changes only request flags, the acknowledgment timer, `needs_tx` of one slot, and the encoder. -/
theorem load_eq (k : Due) : s.load k = { s with
    uaPending := (s.load k).uaPending, sabmPending := (s.load k).sabmPending, discPending := (s.load k).discPending,
    rejPending := (s.load k).rejPending, ackPending := (s.load k).ackPending, ackTimer := (s.load k).ackTimer,
    slots := (s.load k).slots, enc := s.loadedEncoder k } := by
  cases k <;> rfl

/-- With the encoder busy, nothing is loaded (40_framecodec.md R141). -/
theorem encoderLoad_of_active (h : s.enc.active = true) : s.encoderLoad = s := by
  unfold State.encoderLoad; rw [if_pos h]

/-- With nothing due, nothing is loaded (40_framecodec.md R141). -/
theorem encoderLoad_of_eager (h : s.Eager) : s.encoderLoad = s := by
  unfold State.encoderLoad
  split
  · rfl
  · next ha => rw [h (by simpa using ha)]

/-- The encoder load in full: it leaves the state alone, or loads the frame that is due. -/
theorem encoderLoad_cases :
    s.encoderLoad = s ∨ (s.enc.active = false ∧ ∃ k, s.nextFrame = some k ∧ s.encoderLoad = s.load k) := by
  unfold State.encoderLoad
  split
  · exact .inl rfl
  · next ha =>
    split
    · next k hk => exact .inr ⟨by simpa using ha, k, hk, rfl⟩
    · exact .inl rfl

/-- What the encoder load never changes. -/
theorem encoderLoad_eq : s.encoderLoad = { s with
    uaPending := s.encoderLoad.uaPending, sabmPending := s.encoderLoad.sabmPending,
    discPending := s.encoderLoad.discPending, rejPending := s.encoderLoad.rejPending,
    ackPending := s.encoderLoad.ackPending, ackTimer := s.encoderLoad.ackTimer, slots := s.encoderLoad.slots,
    enc := s.encoderLoad.enc } := by
  rcases encoderLoad_cases s with h | ⟨-, k, -, h⟩ <;> rw [h]
  cases k <;> rfl

@[simp] theorem encoderLoad_params : s.encoderLoad.params = s.params := by rw [encoderLoad_eq]
@[simp] theorem encoderLoad_cfg : s.encoderLoad.cfg = s.cfg := by rw [encoderLoad_eq]
@[simp] theorem encoderLoad_irqEn : s.encoderLoad.irqEn = s.irqEn := by rw [encoderLoad_eq]
@[simp] theorem encoderLoad_result : s.encoderLoad.result = s.result := by rw [encoderLoad_eq]
@[simp] theorem encoderLoad_event : s.encoderLoad.event = s.event := by rw [encoderLoad_eq]
@[simp] theorem encoderLoad_cntLost : s.encoderLoad.cntLost = s.cntLost := by rw [encoderLoad_eq]
@[simp] theorem encoderLoad_cntOversize : s.encoderLoad.cntOversize = s.cntOversize := by rw [encoderLoad_eq]
@[simp] theorem encoderLoad_conn : s.encoderLoad.conn = s.conn := by rw [encoderLoad_eq]
@[simp] theorem encoderLoad_vs : s.encoderLoad.vs = s.vs := by rw [encoderLoad_eq]
@[simp] theorem encoderLoad_vr : s.encoderLoad.vr = s.vr := by rw [encoderLoad_eq]
@[simp] theorem encoderLoad_va : s.encoderLoad.va = s.va := by rw [encoderLoad_eq]
@[simp] theorem encoderLoad_retry : s.encoderLoad.retry = s.retry := by rw [encoderLoad_eq]
@[simp] theorem encoderLoad_uTimer : s.encoderLoad.uTimer = s.uTimer := by rw [encoderLoad_eq]
@[simp] theorem encoderLoad_pool : s.encoderLoad.pool = s.pool := by rw [encoderLoad_eq]
@[simp] theorem encoderLoad_bmem : s.encoderLoad.bmem = s.bmem := by rw [encoderLoad_eq]
@[simp] theorem encoderLoad_rxq : s.encoderLoad.rxq = s.rxq := by rw [encoderLoad_eq]
@[simp] theorem encoderLoad_rx : s.encoderLoad.rx = s.rx := by rw [encoderLoad_eq]
@[simp] theorem encoderLoad_env : s.encoderLoad.env = s.env := by rw [encoderLoad_eq]
@[simp] theorem encoderLoad_nbuf : s.encoderLoad.nbuf = s.nbuf := by rw [State.nbuf, encoderLoad_pool]; rfl
@[simp] theorem encoderLoad_bstate (i : Nat) : s.encoderLoad.bstate i = s.bstate i := by
  simp only [State.bstate, State.desc, encoderLoad_pool]
@[simp] theorem encoderLoad_blen (i : Nat) : s.encoderLoad.blen i = s.blen i := by
  simp only [State.blen, State.desc, encoderLoad_pool]
@[simp] theorem encoderLoad_bufRead (i j : Nat) : s.encoderLoad.bufRead i j = s.bufRead i j := by
  simp only [State.bufRead, encoderLoad_bmem]

/-- What the frame end never changes (40_framecodec.md R145). -/
theorem frameEnd_eq : s.frameEnd = { s with
    enc := s.enc.ended, pool := s.frameEnd.pool, event := s.frameEnd.event } := by
  unfold State.frameEnd
  dsimp only
  repeat' split
  all_goals rfl

end Sys2Proof.Machine
end

