-- ==== Sys2Proof/Laws/Exec.lean ====
section
/-! SUPPORT. Every meaning, every part of a step and every step answers a next state (60_exceptions.md R360). -/

namespace Sys2Proof.Machine

theorem exec_next (i : Instr) (s : State) : ∃ t, exec i s = .next t := by
  cases i <;>
    simp only [exec, execNop, execAcquire, execRelease, execSend, execRead, execConnect, execDisconnect, execSoftReset,
      execReservedOpcode, execIFrame, execRr, execRej, execSabm, execUa, execDisc, execRnrReserved, execSrejReserved,
      execUReserved] <;>
    (repeat' split) <;> exact ⟨_, rfl⟩

theorem complete_next (s : State) (acc : List Byte) : ∃ t, s.complete acc = .next t := by
  unfold State.complete State.receiveFrame
  dsimp only
  split
  · exact ⟨_, rfl⟩
  split
  · exact ⟨_, rfl⟩
  split
  · exact ⟨_, rfl⟩
  split
  · exact exec_next _ _
  · exact ⟨_, rfl⟩

theorem andThen_next {o : Host.Outcome State Fault Refusal} (f : State → State) (h : ∃ t, o = .next t) :
    ∃ t, andThen o f = .next t := by
  obtain ⟨t, rfl⟩ := h
  exact ⟨_, rfl⟩

theorem andThen_eq_next {o : Host.Outcome State Fault Refusal} {f : State → State} {t : State}
    (h : andThen o f = .next t) : ∃ u, o = .next u ∧ f u = t := by
  cases o with
  | next u => injection h with h; exact ⟨u, rfl, h⟩
  | fault r => cases h
  | refused r => cases h

theorem rxByte_next (s : State) (b : Byte) : ∃ t, s.rxByte b = .next t := by
  unfold State.rxByte
  split
  · split <;> exact ⟨_, rfl⟩
  · split
    · apply andThen_next
      split
      · exact ⟨_, rfl⟩
      · exact complete_next _ _
    · split <;> exact ⟨_, rfl⟩
  · split <;> exact ⟨_, rfl⟩

theorem hostWrite_next (s : State) (a : BitVec 20) (z : BitVec 2) (v : Word) : ∃ t, s.hostWrite a z v = .next t := by
  unfold State.hostWrite
  split
  · next r _ =>
    cases r <;> first | exact exec_next _ _ | exact ⟨_, rfl⟩
  · exact ⟨_, rfl⟩
  · exact ⟨_, rfl⟩

theorem handle_next (s : State) (e : PortEvent) : ∃ t, s.handle e = .next t := by
  cases e with
  | reset => exact ⟨_, rfl⟩
  | hostRead a z => exact ⟨_, rfl⟩
  | hostWrite a z v => exact andThen_next _ (hostWrite_next s a z v)
  | rxByte b => exact andThen_next _ (rxByte_next s b)
  | tick => exact ⟨_, rfl⟩
  | txReady => simp only [State.handle]; split <;> exact ⟨_, rfl⟩

/-- What one step is, event by event; a step has no other outcome (10_state.md R22). -/
theorem handle_cases {s t : State} {e : PortEvent} (h : s.handle e = .next t) :
    (e = .reset ∧ t = s.hardReset) ∨
    (∃ a z, e = .hostRead a z ∧ t = (s.hostRead a z).encoderLoad) ∨
    (∃ a z v u, e = .hostWrite a z v ∧ s.hostWrite a z v = .next u ∧ t = u.encoderLoad) ∨
    (∃ b u, e = .rxByte b ∧ s.rxByte b = .next u ∧ t = u.encoderLoad) ∨
    (e = .tick ∧ t = s.tick.encoderLoad) ∨
    (e = .txReady ∧ s.enc.active = true ∧ t = s.txByte.encoderLoad) ∨
    (e = .txReady ∧ s.enc.active = false ∧ t = s) := by
  cases e with
  | reset => injection h with h; exact .inl ⟨rfl, h.symm⟩
  | hostRead a z => injection h with h; exact .inr (.inl ⟨a, z, rfl, h.symm⟩)
  | hostWrite a z v =>
    obtain ⟨u, h1, h2⟩ := andThen_eq_next h
    exact .inr (.inr (.inl ⟨a, z, v, u, rfl, h1, h2.symm⟩))
  | rxByte b =>
    obtain ⟨u, h1, h2⟩ := andThen_eq_next h
    exact .inr (.inr (.inr (.inl ⟨b, u, rfl, h1, h2.symm⟩)))
  | tick => injection h with h; exact .inr (.inr (.inr (.inr (.inl ⟨rfl, h.symm⟩))))
  | txReady =>
    simp only [State.handle] at h
    split at h <;> injection h with h
    · next ha => exact .inr (.inr (.inr (.inr (.inr (.inl ⟨rfl, ha, h.symm⟩)))))
    · next ha => exact .inr (.inr (.inr (.inr (.inr (.inr ⟨rfl, by simpa using ha, h.symm⟩)))))

end Sys2Proof.Machine
end

