-- ==== Sys2Proof/Laws/Extends.lean ====
section
/-! SUPPORT. What no operation takes back, resets and the read of EVENT apart: EVENT bits stay, a freed buffer is
signalled, a loaded frame stays loaded, the parameters stay (10_state.md R35, 42_buffer_pool.md R205, R206,
40_framecodec.md R140). One relation that composes, one lemma for each operation. -/

namespace Sys2Proof.Machine

/-- What `s` has and `t` still has. -/
structure State.Extends (s t : State) : Prop where
  params : t.params = s.params
  nbuf : t.nbuf = s.nbuf
  irqEn : t.irqEn = s.irqEn
  env : t.env = s.env
  event : ∀ i, s.event.getLsbD i = true → t.event.getLsbD i = true
  freed : ∀ i, s.bstate i ≠ .free → t.bstate i = .free → t.event.getLsbD 2 = true
  enc : s.enc.active = true → t.enc = { s.enc with orphan := t.enc.orphan }

variable {s t u : State}

theorem State.Extends.refl (s : State) : s.Extends s :=
  ⟨rfl, rfl, rfl, rfl, fun _ h => h, fun _ h1 h2 => absurd h2 h1, fun _ => rfl⟩

theorem State.Extends.trans (h1 : s.Extends t) (h2 : t.Extends u) : s.Extends u where
  params := h2.params.trans h1.params
  nbuf := h2.nbuf.trans h1.nbuf
  irqEn := h2.irqEn.trans h1.irqEn
  env := h2.env.trans h1.env
  event i h := h2.event i (h1.event i h)
  freed i h hu := by
    by_cases ht : t.bstate i = .free
    · exact h2.event 2 (h1.freed i h ht)
    · exact h2.freed i ht hu
  enc ha := by
    have e1 := h1.enc ha
    have e2 := h2.enc (by rw [e1]; exact ha)
    rw [e2, e1]

/-- Writing none of the fields that matter here. -/
theorem State.Extends.of_eq (h1 : t.params = s.params) (h2 : t.pool = s.pool) (h3 : t.irqEn = s.irqEn)
    (h4 : t.event = s.event) (h5 : t.enc = s.enc) (h6 : t.env = s.env) : s.Extends t where
  params := h1
  nbuf := by unfold State.nbuf; rw [h2]
  irqEn := h3
  env := h6
  event i h := by rw [h4]; exact h
  freed i h h' := by
    have : t.bstate i = s.bstate i := by simp only [State.bstate, State.desc, h2]
    exact absurd (this ▸ h') h
  enc _ := by rw [h5]

theorem State.Extends.setSlot (h : s.Extends t) (q : SeqNum) (v : Slot) : s.Extends (t.setSlot q v) :=
  h.trans (.of_eq rfl rfl rfl rfl rfl rfl)

theorem State.Extends.restartLink (h : s.Extends t) (c : Conn) : s.Extends (t.restartLink c) :=
  h.trans (.of_eq rfl rfl rfl rfl rfl rfl)

theorem State.Extends.setResult (h : s.Extends t) (c : Code) (b : BitVec 8) (n : BitVec 16) :
    s.Extends (t.setResult c b n) := h.trans (.of_eq rfl rfl rfl rfl rfl rfl)

theorem State.Extends.signal (h : s.Extends t) (e : Event) : s.Extends (t.signal e) where
  params := h.params
  nbuf := h.nbuf
  irqEn := h.irqEn
  env := h.env
  event i hi := (signal_added t e i).2 (.inl (h.event i hi))
  freed i h1 h2 := (signal_added t e 2).2 (.inl (h.freed i h1 h2))
  enc := h.enc

theorem State.Extends.setDesc (h : s.Extends t) (b : Nat) {d : BufDesc} (hd : d.state ≠ .free) :
    s.Extends (t.setDesc b d) :=
  h.trans
    { params := rfl, nbuf := setDesc_nbuf t b d, irqEn := rfl, env := rfl, event := fun _ h => h
      freed := fun i h1 h2 => by
        rw [setDesc_bstate] at h2
        split at h2
        · exact absurd h2 hd
        · exact absurd h2 h1
      enc := fun _ => rfl }

theorem State.Extends.freeBuffer (h : s.Extends t) (b : Nat) : s.Extends (t.freeBuffer b) where
  params := h.params
  nbuf := (freeBuffer_nbuf t b).trans h.nbuf
  irqEn := h.irqEn
  env := h.env
  event i hi := (signal_added (t.setBstate b .free) .poolFreed i).2 (.inl (h.event i hi))
  freed _ _ _ := (signal_added (t.setBstate b .free) .poolFreed 2).2 (.inr rfl)
  enc := h.enc

theorem State.Extends.retire (h : s.Extends t) (q : SeqNum) : s.Extends (t.retire q) := by
  have h1 := h.setSlot q {}
  unfold State.retire
  dsimp only
  split
  · exact h1.trans ⟨rfl, rfl, rfl, rfl, fun _ h => h, fun _ h1 h2 => absurd h2 h1, fun _ => rfl⟩
  · exact h1.freeBuffer _

theorem State.Extends.retireValid (h : s.Extends t) (l : List SeqNum) : s.Extends (t.retireValid l) := by
  induction l generalizing t with
  | nil => exact h
  | cons q l ih =>
    rw [State.retireValid]
    apply ih
    split
    · exact h.retire q
    · exact h

theorem State.Extends.flush (h : s.Extends t) : s.Extends t.flush := h.retireValid SeqNum.all

theorem State.Extends.retireOldest (h : s.Extends t) (n : Nat) : s.Extends (t.retireOldest n) := by
  induction n generalizing t with
  | zero => exact h
  | succ n ih => exact ih ((h.retire t.va).trans (.of_eq rfl rfl rfl rfl rfl rfl))

theorem State.Extends.ackProcess (h : s.Extends t) (nr : SeqNum) : s.Extends (t.ackProcess nr) := by
  unfold State.ackProcess
  split
  · exact h
  · have hr := h.retireOldest (nr - t.va).toNat
    dsimp only
    generalize t.retireOldest (nr - t.va).toNat = u at hr
    exact (hr.trans (.of_eq rfl rfl rfl rfl rfl rfl : u.Extends { u with retry := 0 })).signal _

theorem State.Extends.goBackN (h : s.Extends t) (q : SeqNum) : s.Extends (t.goBackN q) :=
  h.trans (.of_eq (by simp) (by simp) (by simp) (by simp) (by simp) (by simp))

theorem State.Extends.enterConnected (h : s.Extends t) : s.Extends t.enterConnected :=
  (h.restartLink .connected).signal _

theorem State.Extends.enterDisconnected (h : s.Extends t) : s.Extends t.enterDisconnected :=
  (h.flush.restartLink .disconnected).signal _

theorem State.Extends.startDisconnect (h : s.Extends t) : s.Extends t.startDisconnect := by
  have hf := h.flush
  unfold State.startDisconnect
  generalize t.flush = f at hf
  exact hf.trans (.of_eq rfl rfl rfl rfl rfl rfl)

theorem State.Extends.deliver (h : s.Extends t) (info : List Byte) : s.Extends (t.deliver info) := by
  unfold State.deliver
  split
  · exact h.trans (.of_eq rfl rfl rfl rfl rfl rfl)
  · next b _ =>
    unfold State.deliverTo
    dsimp only
    have h1 : s.Extends (t.bufWriteBytes b 0 info) := h.trans (.of_eq rfl rfl rfl rfl rfl rfl)
    have h2 := h1.setDesc b (d := { state := .delivered, len := BitVec.ofNat 16 info.length }) (by simp)
    generalize (t.bufWriteBytes b 0 info).setDesc b _ = u at h2
    have h3 := (h2.trans (.of_eq rfl rfl rfl rfl rfl rfl :
      u.Extends { u with rxq := u.rxq ++ [b], vr := u.vr + 1 })).signal .rxDelivered
    split
    · exact h3
    · exact h3.trans (.of_eq rfl rfl rfl rfl rfl rfl)

/-- Every instruction but SOFT_RESET. -/
theorem exec_extends {i : Instr} (hi : ∀ buf len, i ≠ .softReset buf len) (he : exec i s = .next t) : s.Extends t := by
  have r := State.Extends.refl s
  have ua : s.Extends { s with uaPending := true } := .of_eq rfl rfl rfl rfl rfl rfl
  cases i with
  | softReset buf len => exact absurd rfl (hi buf len)
  | nop buf len => injection he with he; subst he; exact r.setResult _ _ _
  | reservedOpcode op buf len => injection he with he; subst he; exact r.setResult _ _ _
  | rnrReserved nr pf info => injection he with he; subst he; exact r
  | srejReserved nr pf info => injection he with he; subst he; exact r
  | uReserved m pf info => injection he with he; subst he; exact r
  | acquire buf len =>
    simp only [exec, execAcquire] at he
    split at he <;> injection he with he <;> subst he
    · exact r.setResult _ _ _
    · exact (r.setDesc _ (by simp)).setResult _ _ _
  | release buf len =>
    simp only [exec, execRelease] at he
    split at he <;> injection he with he <;> subst he
    · exact (r.freeBuffer _).setResult _ _ _
    · exact r.setResult _ _ _
  | read buf len =>
    simp only [exec, execRead] at he
    split at he <;> injection he with he <;> subst he
    · exact r.setResult _ _ _
    · next b q _ =>
      have h1 : s.Extends { s with rxq := q } := .of_eq rfl rfl rfl rfl rfl rfl
      exact (h1.setDesc _ (by simp)).setResult _ _ _
  | send buf len =>
    simp only [exec, execSend] at he
    repeat' split at he
    all_goals injection he with he; subst he
    · exact r.setResult _ _ _
    · exact r.setResult _ _ _
    · exact r.setResult _ _ _
    · have h2 := (r.setSlot s.vs
        { valid := true, buf := bufOperand buf, needsTx := true, timer := s.cfg.timeout }).setDesc (bufOperand buf)
        (d := { state := .pendTx, len := len }) (by simp)
      have h3 : s.Extends (s.enqueue (bufOperand buf) len) := h2.trans (.of_eq rfl rfl rfl rfl rfl rfl)
      exact h3.setResult _ _ _
  | connect buf len =>
    simp only [exec, execConnect] at he
    split at he <;> injection he with he <;> subst he
    all_goals exact .of_eq rfl rfl rfl rfl rfl rfl
  | disconnect buf len =>
    simp only [exec, execDisconnect] at he
    have hd := r.startDisconnect
    generalize s.startDisconnect = d at he hd
    split at he <;> injection he with he <;> subst he
    · exact hd.setResult _ _ _
    · exact r.setResult _ _ _
  | iFrame ns nr pf info =>
    simp only [exec, execIFrame] at he
    injection he with he; subst he
    unfold State.rxI
    dsimp only
    split
    · exact r
    split
    · exact r
    split
    · exact (r.ackProcess nr).trans (.of_eq rfl rfl rfl rfl rfl rfl)
    · exact (r.ackProcess nr).deliver info
  | rr nr pf info =>
    simp only [exec, execRr] at he
    split at he <;> injection he with he <;> subst he
    · unfold State.rxRr
      split
      · exact r
      · exact r.ackProcess nr
    · exact r
  | rej nr pf info =>
    simp only [exec, execRej] at he
    split at he <;> injection he with he <;> subst he
    · unfold State.rxRej
      dsimp only
      split
      · exact r
      · exact (r.ackProcess nr).goBackN _
    · exact r
  | sabm pf info =>
    simp only [exec, execSabm] at he
    split at he <;> injection he with he <;> subst he
    · unfold State.rxSabm
      split
      · exact ua.enterConnected
      · exact ua.enterConnected
      · have hf := r.flush
        generalize s.flush = f at hf
        have h1 : s.Extends { f with uaPending := true } := hf.trans (.of_eq rfl rfl rfl rfl rfl rfl)
        exact h1.enterConnected.signal _
      · exact r
    · exact r
  | ua pf info =>
    simp only [exec, execUa] at he
    split at he <;> injection he with he <;> subst he
    · unfold State.rxUa
      split
      · exact r.enterConnected
      · exact r.enterDisconnected
      · exact r
      · exact r
    · exact r
  | disc pf info =>
    simp only [exec, execDisc] at he
    split at he <;> injection he with he <;> subst he
    · unfold State.rxDisc
      dsimp only
      split
      · exact ua
      · exact ua.enterDisconnected.signal _
      · exact ua.enterDisconnected
      · exact ua.enterDisconnected
    · exact r

theorem encoderLoad_extends (s : State) : s.Extends s.encoderLoad where
  params := by simp
  nbuf := by simp
  irqEn := by simp
  env := by simp
  event i h := by simpa using h
  freed i h1 h2 := absurd (by simpa using h2) h1
  enc ha := by rw [encoderLoad_of_active s ha]

theorem tick_extends (s : State) : s.Extends s.tick := by
  have hc : s.Extends s.countTick := .of_eq rfl rfl rfl rfl rfl rfl
  have hu : s.Extends s.countTick.uExpire := by
    unfold State.uExpire
    dsimp only
    repeat' split
    · exact hc.enterDisconnected.signal _
    · exact hc.enterDisconnected
    · exact hc.trans (.of_eq rfl rfl rfl rfl rfl rfl)
    · exact hc.trans (.of_eq rfl rfl rfl rfl rfl rfl)
  have key : ∀ v : State, s.Extends v → ∀ q, s.Extends (v.slotExpire q) := fun v hv q => by
    unfold State.slotExpire
    split
    · exact hv.enterDisconnected.signal _
    · exact (hv.trans (.of_eq rfl rfl rfl rfl rfl rfl : v.Extends { v with retry := v.retry + 1 })).goBackN q
  have hv : ∀ v : State, s.Extends v → s.Extends (match oldest v.va fun q => (s.slot q).expiring with
      | some q => if v.conn = .connected then v.slotExpire q else v
      | none => v) := fun v hv => by
    split
    · split
      · exact key v hv _
      · exact hv
    · exact hv
  unfold State.tick
  dsimp only
  apply hv
  split
  · exact hu
  · exact hc

/-- Only the command SOFT_RESET decodes to its instruction (30_encoding.md R110). -/
theorem decodeCommand_softReset {w : Word} {buf : BitVec 8} {len : BitVec 16}
    (h : decodeCommand w = .softReset buf len) : w.toNat % 256 = 0x0F := by
  unfold decodeCommand at h
  dsimp only at h
  repeat' split at h
  all_goals try cases h
  rename_i hw
  have := congrArg BitVec.toNat hw
  simpa using this

/-- No frame decodes to a command (30_encoding.md R107). -/
theorem decode_frame_ne_softReset {body : List Byte} {i : Instr} (h : decode .frame body = .ok i) (buf : BitVec 8)
    (len : BitVec 16) : i ≠ .softReset buf len := by
  rintro rfl
  cases body with
  | nil => cases h
  | cons c info =>
    injection h with h
    unfold classify at h
    dsimp only at h
    repeat' split at h
    all_goals cases h

theorem append_extends (s : State) (x : Byte) : s.Extends (s.append x) := by
  unfold State.append
  split <;> exact .of_eq rfl rfl rfl rfl rfl rfl

theorem complete_extends {acc : List Byte} (he : s.complete acc = .next t) : s.Extends t := by
  unfold State.complete State.receiveFrame at he
  dsimp only at he
  split at he
  · injection he with he; subst he; exact .of_eq rfl rfl rfl rfl rfl rfl
  split at he
  · injection he with he; subst he; exact .refl s
  split at he
  · injection he with he; subst he; exact .refl s
  split at he
  · next i hd => exact exec_extends (decode_frame_ne_softReset hd) he
  · injection he with he; subst he; exact .refl s

theorem rxByte_extends {b : Byte} (he : s.rxByte b = .next t) : s.Extends t := by
  have ho : s.Extends s.openFrame := .of_eq rfl rfl rfl rfl rfl rfl
  unfold State.rxByte at he
  split at he
  · split at he <;> injection he with he <;> subst he
    · exact ho
    · exact .refl s
  · split at he
    · obtain ⟨u, h1, h2⟩ := andThen_eq_next he
      subst h2
      refine State.Extends.trans (t := u) ?_ (.of_eq rfl rfl rfl rfl rfl rfl)
      split at h1
      · injection h1 with h1; subst h1; exact .refl s
      · exact complete_extends h1
    · split at he <;> injection he with he <;> subst he
      · exact .of_eq rfl rfl rfl rfl rfl rfl
      · exact append_extends s b
  · split at he <;> injection he with he <;> subst he
    · exact ho
    · have h1 : s.Extends { s with rx := { s.rx with state := .data } } := .of_eq rfl rfl rfl rfl rfl rfl
      exact h1.trans (append_extends _ _)

theorem lockedWrite_extends (s : State) (c : CfgRegs) : s.Extends (s.lockedWrite c) := by
  unfold State.lockedWrite
  split
  · exact .of_eq rfl rfl rfl rfl rfl rfl
  · exact (State.Extends.refl s).signal _

/-- A host write that is neither SOFT_RESET nor a write of IRQ_EN. -/
theorem hostWrite_extends {a : BitVec 20} {z : BitVec 2} {v : Word} (he : s.hostWrite a z v = .next t)
    (h1 : ∀ buf len, s.target a z = .reg .cmd → decodeCommand v ≠ .softReset buf len)
    (h2 : s.target a z ≠ .reg .irqEn) : s.Extends t := by
  unfold State.hostWrite at he
  split at he
  · next r hr =>
    cases r
    case cmd => exact exec_extends (fun buf len => h1 buf len hr) he
    case irqEn => exact absurd hr h2
    all_goals
      injection he with he; subst he
      first | exact lockedWrite_extends s _ | exact .of_eq rfl rfl rfl rfl rfl rfl
  · injection he with he; subst he; exact .of_eq rfl rfl rfl rfl rfl rfl
  · injection he with he; subst he; exact (State.Extends.refl s).signal _

/-- The frame end frees a buffer only with its signal (40_framecodec.md R145). -/
theorem frameEnd_freed (s : State) (i : Nat) (h1 : s.bstate i ≠ .free) (h2 : s.frameEnd.bstate i = .free) :
    s.frameEnd.event.getLsbD 2 = true := by
  unfold State.frameEnd at h2 ⊢
  dsimp only at h2 ⊢
  split at h2
  · next hk =>
    rw [if_pos hk]
    split at h2
    · next ho =>
      rw [if_pos ho]
      have e : s.bstate i ≠ .free := h1
      exact (signal_added _ .poolFreed 2).2 (.inr rfl)
    · next ho =>
      rw [if_neg ho]
      split at h2
      · next hb =>
        rw [setBstate_bstate] at h2
        split at h2
        · cases h2
        · exact absurd h2 h1
      · exact absurd h2 h1
  · exact absurd h2 h1

end Sys2Proof.Machine
end

