-- ==== Sys2Proof/Laws/PerInstr.lean ====
section
/-! SUPPORT. Facts about each instruction as syntax, one lemma for each constructor. Family `Shape`: how many bytes
encode an instruction, and which place it comes from (30_encoding.md R103, R104, R110). -/

namespace Sys2Proof.Laws.Shape

/-- A command is four bytes; a well-formed frame body is its control byte and an info field that fits. -/
def Statement (i : Instr) : Prop :=
  i.wellFormed = true → (i.source = .command ∧ (encode i).length = 4) ∨
    (i.source = .frame ∧ ∃ c info, encode i = c :: info ∧ info.length ≤ maxInfo)

theorem nop (buf : BitVec 8) (len : BitVec 16) : Statement (.nop buf len) := fun _ => .inl ⟨rfl, rfl⟩
theorem acquire (buf : BitVec 8) (len : BitVec 16) : Statement (.acquire buf len) := fun _ => .inl ⟨rfl, rfl⟩
theorem release (buf : BitVec 8) (len : BitVec 16) : Statement (.release buf len) := fun _ => .inl ⟨rfl, rfl⟩
theorem send (buf : BitVec 8) (len : BitVec 16) : Statement (.send buf len) := fun _ => .inl ⟨rfl, rfl⟩
theorem read (buf : BitVec 8) (len : BitVec 16) : Statement (.read buf len) := fun _ => .inl ⟨rfl, rfl⟩
theorem connect (buf : BitVec 8) (len : BitVec 16) : Statement (.connect buf len) := fun _ => .inl ⟨rfl, rfl⟩
theorem disconnect (buf : BitVec 8) (len : BitVec 16) : Statement (.disconnect buf len) := fun _ => .inl ⟨rfl, rfl⟩
theorem softReset (buf : BitVec 8) (len : BitVec 16) : Statement (.softReset buf len) := fun _ => .inl ⟨rfl, rfl⟩
theorem reservedOpcode (op buf : BitVec 8) (len : BitVec 16) : Statement (.reservedOpcode op buf len) :=
  fun _ => .inl ⟨rfl, rfl⟩
theorem iFrame (ns nr : SeqNum) (pf : Bool) (info : List Byte) : Statement (.iFrame ns nr pf info) :=
  fun h => .inr ⟨rfl, _, info, rfl, of_decide_eq_true h⟩
theorem rr (nr : SeqNum) (pf : Bool) (info : List Byte) : Statement (.rr nr pf info) :=
  fun h => .inr ⟨rfl, _, info, rfl, of_decide_eq_true h⟩
theorem rej (nr : SeqNum) (pf : Bool) (info : List Byte) : Statement (.rej nr pf info) :=
  fun h => .inr ⟨rfl, _, info, rfl, of_decide_eq_true h⟩
theorem sabm (pf : Bool) (info : List Byte) : Statement (.sabm pf info) :=
  fun h => .inr ⟨rfl, _, info, rfl, of_decide_eq_true h⟩
theorem ua (pf : Bool) (info : List Byte) : Statement (.ua pf info) :=
  fun h => .inr ⟨rfl, _, info, rfl, of_decide_eq_true h⟩
theorem disc (pf : Bool) (info : List Byte) : Statement (.disc pf info) :=
  fun h => .inr ⟨rfl, _, info, rfl, of_decide_eq_true h⟩
theorem rnrReserved (nr : SeqNum) (pf : Bool) (info : List Byte) : Statement (.rnrReserved nr pf info) :=
  fun h => .inr ⟨rfl, _, info, rfl, of_decide_eq_true h⟩
theorem srejReserved (nr : SeqNum) (pf : Bool) (info : List Byte) : Statement (.srejReserved nr pf info) :=
  fun h => .inr ⟨rfl, _, info, rfl, of_decide_eq_true h⟩
theorem uReserved (m : BitVec 5) (pf : Bool) (info : List Byte) : Statement (.uReserved m pf info) :=
  fun h => .inr ⟨rfl, _, info, rfl, of_decide_eq_true (Bool.and_eq_true_iff.1 h).2⟩

end Sys2Proof.Laws.Shape
end

