-- ==== Sys2Proof/Tests/Slice0.lean ====
section
/-! SUPPORT. Tests of the model. The expected results are those of 95_test_vectors.md (named at each test) or worked
out by hand from the rule named; the words are written out from the encodings of 30_encoding.md. After them, for every
statement with hypotheses, a state and operands that meet them. -/

namespace Sys2Proof.Tests

open Sys2Proof Sys2Proof.Machine

/-! ### Well-formed instructions -/

theorem test_reserved_opcode_range :
    (Instr.reservedOpcode 0x07 0 0).wellFormed = true ∧ (Instr.reservedOpcode 0x0E 0 0).wellFormed = true ∧
    (Instr.reservedOpcode 0x10 0 0).wellFormed = true ∧ (Instr.reservedOpcode 0xFF 0 0).wellFormed = true ∧
    (Instr.reservedOpcode 0x00 0 0).wellFormed = false ∧ (Instr.reservedOpcode 0x06 0 0).wellFormed = false ∧
    (Instr.reservedOpcode 0x0F 0 0).wellFormed = false := by decide

theorem test_used_modifier_refused :
    (Instr.uReserved 0b00111 false []).wellFormed = false ∧ (Instr.uReserved 0b01000 false []).wellFormed = false ∧
    (Instr.uReserved 0b01100 false []).wellFormed = false ∧ (Instr.uReserved 0b00000 false []).wellFormed = true := by
  decide

theorem test_long_info_refused :
    (Instr.iFrame 0 0 false (List.replicate 4097 0)).wellFormed = false ∧
    (Instr.rr 0 false (List.replicate 4097 0)).wellFormed = false ∧
    (Instr.rej 0 false (List.replicate 4097 0)).wellFormed = false ∧
    (Instr.sabm false (List.replicate 4097 0)).wellFormed = false ∧
    (Instr.ua false (List.replicate 4097 0)).wellFormed = false ∧
    (Instr.disc false (List.replicate 4097 0)).wellFormed = false ∧
    (Instr.rnrReserved 0 false (List.replicate 4097 0)).wellFormed = false ∧
    (Instr.srejReserved 0 false (List.replicate 4097 0)).wellFormed = false ∧
    (Instr.uReserved 0 false (List.replicate 4097 0)).wellFormed = false := by
  simp only [Instr.wellFormed, maxInfo, List.length_replicate]; decide

theorem test_longest_info_accepted (c : Byte) :
    (Instr.iFrame 0 0 false (List.replicate 4096 c)).wellFormed = true ∧
    (Instr.uReserved 0 false (List.replicate 4096 c)).wellFormed = true := by
  simp only [Instr.wellFormed, maxInfo, List.length_replicate]; decide

/-! ### Decoding: CMD words, lowest byte first (R110), and control bytes bit by bit (R104, R105, R106) -/

theorem test_decode_commands :
    decode .command [0x00#8, 0x12#8, 0x34#8, 0x56#8] = .ok (.nop 0x12 0x5634) ∧
    decode .command [0x01#8, 0x00#8, 0x00#8, 0x00#8] = .ok (.acquire 0 0) ∧
    decode .command [0x02#8, 0x07#8, 0x00#8, 0x00#8] = .ok (.release 7 0) ∧
    decode .command [0x03#8, 0x01#8, 0x20#8, 0x01#8] = .ok (.send 1 0x0120) ∧
    decode .command [0x04#8, 0xFF#8, 0xFF#8, 0xFF#8] = .ok (.read 0xFF 0xFFFF) ∧
    decode .command [0x05#8, 0x00#8, 0x00#8, 0x00#8] = .ok (.connect 0 0) ∧
    decode .command [0x06#8, 0x00#8, 0x00#8, 0x00#8] = .ok (.disconnect 0 0) ∧
    decode .command [0x0F#8, 0x00#8, 0x00#8, 0x00#8] = .ok (.softReset 0 0) ∧
    decode .command [0x07#8, 0x00#8, 0x00#8, 0x00#8] = .ok (.reservedOpcode 0x07 0 0) ∧
    decode .command [0x0E#8, 0x00#8, 0x00#8, 0x00#8] = .ok (.reservedOpcode 0x0E 0 0) ∧
    decode .command [0x10#8, 0x56#8, 0x34#8, 0x12#8] = .ok (.reservedOpcode 0x10 0x56 0x1234) := by decide

theorem test_decode_frames :
    decode .frame [0b10110110#8, 0x41#8, 0x42#8] = .ok (.iFrame 3 5 true [0x41, 0x42]) ∧
    decode .frame [0b01100001#8] = .ok (.rr 3 false []) ∧
    decode .frame [0b11101001#8] = .ok (.rej 7 false []) ∧
    decode .frame [0b00101111#8] = .ok (.sabm false []) ∧ decode .frame [0b00111111#8] = .ok (.sabm true []) ∧
    decode .frame [0b01100011#8] = .ok (.ua false []) ∧ decode .frame [0b01110011#8] = .ok (.ua true []) ∧
    decode .frame [0b01000011#8] = .ok (.disc false []) ∧ decode .frame [0b01010011#8] = .ok (.disc true []) ∧
    decode .frame [0b00110101#8] = .ok (.rnrReserved 1 true []) ∧
    decode .frame [0b10001101#8] = .ok (.srejReserved 4 false []) ∧
    decode .frame [0b10011111#8] = .ok (.uReserved 0b10011 true []) := by decide

theorem test_decode_refuses_by_name :
    decode .command [0x00#8, 0x00#8] = .error .commandNotFourBytes ∧
    decode .frame [] = .error .frameHasNoControlByte ∧ decodeTableWord 16 0 = none := by decide

theorem test_decode_table_word :
    decodeTableWord 32 0x00020003 = some (.send 0 2) ∧ decodeTableWord 8 0x21 = some (.rr 1 false []) := by decide

/-! ### Checks and frames -/

/-- Parameters with the default checksum functions. -/
def dflt : Params := { bufcap := 64, fcs8 := .dflt, fcs16 := .dflt, fcs32 := .dflt }

/-- FCS-4. -/
theorem test_connection_frames_16 :
    build dflt .crc16 0x3F [] = [0x7E, 0x3F, 0x0C, 0x39, 0x7E] ∧
    build dflt .crc16 0x73 [] = [0x7E, 0x73, 0x64, 0xB1, 0x7E] ∧
    build dflt .crc16 0x53 [] = [0x7E, 0x53, 0x66, 0x90, 0x7E] := by decide

/-- FCS-4. -/
theorem test_connection_frames_32 :
    build dflt .crc32 0x3F [] = [0x7E, 0x3F, 0xB0, 0xC2, 0x64, 0x64, 0x7E] ∧
    build dflt .crc32 0x53 [] = [0x7E, 0x53, 0xC3, 0xEF, 0x60, 0x20, 0x7E] := by
  set_option maxRecDepth 20000 in decide

/-- FCS-4 and FCS-5. -/
theorem test_stuffed_checks :
    build dflt .sum8 0x73 [] = [0x7E, 0x73, 0x8C, 0x7E] ∧ build dflt .sum8 0x81 [] = [0x7E, 0x81, 0x7D, 0x5E, 0x7E] ∧
    build dflt .sum8 0x82 [] = [0x7E, 0x82, 0x7D, 0x5D, 0x7E] ∧
    build dflt .crc16 0x60 [] = [0x7E, 0x60, 0x7D, 0x5E, 0x93, 0x7E] := by decide

/-- CODEC-TX-2, the row `7E 7D 20 5E`. -/
theorem test_stuffed_info :
    build dflt .off 0 [0x7E, 0x7D, 0x20, 0x5E] = [0x7E, 0x00, 0x7D, 0x5E, 0x7D, 0x5D, 0x20, 0x5E, 0x7E] ∧
    build dflt .sum8 0 [0x7E, 0x7D, 0x20, 0x5E] = [0x7E, 0x00, 0x7D, 0x5E, 0x7D, 0x5D, 0x20, 0x5E, 0x86, 0x7E] := by
  decide

/-! ### One instruction each -/

/-- The state after an instruction. -/
def run (i : Instr) (s : State) : State :=
  match exec i s with
  | .next t => t
  | .fault _ => s
  | .refused _ => s

/-- S_RST: four buffers of 64 bytes. -/
def rst : State := State.reset

/-- S_CONN. -/
def link : State := { rst with conn := .connected, rx := { state := .data, acc := [] } }

/-- The descriptors of four buffers. -/
def bufs (a b c d : BufDesc) : List BufDesc := [a, b, c, d]

/-- S_CONN with one frame of one byte outstanding and sent, in buffer 0 (DATA-4 before its RR). -/
def sentOne : State :=
  { link with
    vs := 1, pool := bufs { state := .pendAck, len := 1 } {} {} {},
    slots := #v[{ valid := true, buf := 0, timer := 200 }, {}, {}, {}, {}, {}, {}, {}] }

/-- HOST-6. -/
theorem test_nop : (run (.nop 0xCD 0xAB) { rst with result := 5 }).result = 0 := by decide

/-- HOST-6. -/
theorem test_reserved_opcode : (run (.reservedOpcode 0x10 0x56 0x1234) rst).result = 5 := by decide

/-- POOL-1. -/
theorem test_acquire :
    let s := { rst with pool := bufs { state := .app } { len := 9 } {} {} }
    (run (.acquire 0 0) s).result = 0x100 ∧ (run (.acquire 0 0) s).desc 1 = { state := .app, len := 0 } := by decide

/-- POOL-1. -/
theorem test_acquire_empty_pool :
    (run (.acquire 0 0) { rst with pool := List.replicate 4 { state := .app } }).result = 1 := by decide

/-- POOL-1. -/
theorem test_release :
    let s := { rst with pool := bufs {} {} { state := .app, len := 3 } {} }
    (run (.release 2 0) s).result = 0x200 ∧ (run (.release 2 0) s).desc 2 = { state := .free, len := 3 } ∧
    (run (.release 2 0) s).event = 0x4 := by decide

/-- POOL-1. -/
theorem test_release_refused : (run (.release 2 0) rst).result = 0x204 ∧ (run (.release 7 0) rst).result = 0x704 := by
  decide

/-- POOL-3. -/
theorem test_read :
    let s := { link with pool := bufs { state := .delivered, len := 1 } {} {} {}, rxq := [0] }
    (run (.read 0 0) s).result = 0x00010000 ∧ (run (.read 0 0) s).bstate 0 = .app ∧ (run (.read 0 0) s).rxq = [] := by
  decide

/-- POOL-3. -/
theorem test_read_empty : (run (.read 0 0) link).result = 1 := by decide

/-- DATA-1. -/
theorem test_send :
    let t := run (.send 0 2) { link with pool := bufs { state := .app } {} {} {} }
    t.result = 0x00020000 ∧ t.desc 0 = { state := .pendTx, len := 2 } ∧ t.vs = 1 ∧
    t.slot 0 = { valid := true, buf := 0, needsTx := true, timer := 200 } := by decide

/-- DATA-2 and DATA-3. -/
theorem test_send_refused :
    let held := bufs { state := .app } {} {} {}
    (run (.send 0 2) rst).result = 0x00020004 ∧ (run (.send 0 2) { rst with pool := held }).result = 0x00020003 ∧
    (run (.send 0 33) { rst with pool := held }).result = 0x00210004 ∧ (run (.send 4 1) rst).result = 0x00010404 ∧
    (run (.send 0 1) { link with pool := held, vs := 2, va := 3 }).result = 0x00010002 := by decide

/-- CONN-1. -/
theorem test_connect :
    let t := run (.connect 0 0) rst
    t.result = 0 ∧ t.conn = .connecting ∧ t.sabmPending = true ∧ t.uTimer = 200 := by decide

/-- CONN-1 and CONN-2. -/
theorem test_connect_refused : (run (.connect 0 0) link).result = 3 := by decide

/-- CONN-4. -/
theorem test_disconnect :
    let t := run (.disconnect 0 0) sentOne
    t.result = 0 ∧ t.conn = .disconnecting ∧ t.desc 0 = { state := .free, len := 1 } ∧ t.event = 0x4 ∧
    t.discPending = true := by decide

/-- CONN-4 and CONN-11. -/
theorem test_disconnect_refused : (run (.disconnect 0 0) rst).result = 3 := by decide

/-- HOST-8. -/
theorem test_soft_reset :
    let s := { sentOne with irqEn := 0x7FF, event := 0x21, cfg := { sentOne.cfg with window := 3 }, rxq := [1] }
    run (.softReset 0 0) s = { rst with irqEn := 0x7FF, cfg := { rst.cfg with window := 3 } } := by decide

/-- RX-1: I(0,0) with info 41. -/
theorem test_i_frame :
    let t := run (.iFrame 0 0 false [0x41]) link
    t.rxq = [0] ∧ t.desc 0 = { state := .delivered, len := 1 } ∧ t.bufRead 0 0 = 0x41 ∧ t.vr = 1 ∧ t.event = 0x1 ∧
    t.ackPending = true ∧ t.ackTimer = 10 := by decide

/-- DATA-10 and DATA-6. -/
theorem test_i_frame_dropped :
    (run (.iFrame 0 0 false [0x41]) { link with pool := List.replicate 4 { state := .app } }).cntLost = 1 ∧
    run (.iFrame 0 0 false [0x41]) { link with vr := 1 } = { link with vr := 1, rejPending := true } := by decide

/-- DATA-4. -/
theorem test_rr :
    let t := run (.rr 1 false []) sentOne
    t.va = 1 ∧ t.desc 0 = { state := .free, len := 1 } ∧ t.event = 0x6 ∧ (t.slot 0).valid = false := by decide

/-- DATA-5: N(R) = 2 beyond V(S) = 1. -/
theorem test_rr_invalid : run (.rr 2 false []) sentOne = sentOne := by decide

/-- DATA-7, with two frames of the three. -/
theorem test_rej :
    let s := { sentOne with
      vs := 2, pool := bufs { state := .pendAck, len := 1 } { state := .pendAck, len := 1 } {} {},
      slots := #v[{ valid := true, buf := 0, timer := 7 }, { valid := true, buf := 1, timer := 7 }, {}, {}, {}, {}, {},
        {}] }
    let t := run (.rej 1 false []) s
    t.va = 1 ∧ t.bstate 0 = .free ∧ t.bstate 1 = .pendAck ∧
    t.slot 1 = { valid := true, buf := 1, needsTx := true, timer := 200 } ∧ t.event = 0x6 := by decide

/-- RX-12: a REJ with an info field. -/
theorem test_rej_with_info : run (.rej 1 false [0x41]) sentOne = sentOne := by decide

/-- CONN-3. -/
theorem test_sabm :
    let t := run (.sabm true []) rst
    t.conn = .connected ∧ t.uaPending = true ∧ t.event = 0x8 := by decide

/-- CONN-6, without the delivered frame. -/
theorem test_sabm_connected :
    let t := run (.sabm true []) sentOne
    t.conn = .connected ∧ t.vs = 0 ∧ t.bstate 0 = .free ∧ t.event = 0x8C ∧ t.uaPending = true := by decide

/-- CONN-1. -/
theorem test_ua :
    let t := run (.ua true []) { rst with conn := .connecting, uTimer := 5, retry := 1 }
    t.conn = .connected ∧ t.uTimer = 0 ∧ t.retry = 0 ∧ t.event = 0x8 := by decide

/-- CONN-13. -/
theorem test_ua_connected : run (.ua true []) link = link := by decide

/-- CONN-5. -/
theorem test_disc :
    let t := run (.disc true []) link
    t.conn = .disconnected ∧ t.uaPending = true ∧ t.event = 0x10 := by decide

/-- CONN-9. -/
theorem test_disc_connecting : (run (.disc true []) { rst with conn := .connecting, uTimer := 5 }).event = 0x50 := by
  decide

/-- RX-12. -/
theorem test_reserved_frames :
    run (.rnrReserved 0 false []) sentOne = sentOne ∧ run (.srejReserved 1 true []) sentOne = sentOne ∧
    run (.uReserved 0b10011 true []) sentOne = sentOne := by decide

/-! ### One port event each -/

/-- The state after a port event. -/
def after (s : State) (e : PortEvent) : State :=
  match s.handle e with
  | .next t => t
  | .fault _ => s
  | .refused _ => s

/-- What a read of a register returns. -/
def rd (s : State) (a : BitVec 20) : Option Word := (after s (.hostRead a 2)).env.reads.getLast?

/-- HOST-1. -/
theorem test_reset_registers :
    rd rst 0x000 = some 0x54504C45 ∧ rd rst 0x004 = some 0x00400004 ∧ rd rst 0x008 = some 0x0000021E ∧
    rd rst 0x00C = some 0x20 ∧ rd rst 0x010 = some 0xC8 ∧ rd rst 0x014 = some 0xA ∧ rd rst 0x020 = some 0x00000410 ∧
    rd rst 0x034 = some 0 ∧ rd rst 0x10C = some 0 := by decide

/-- S_CONN, and DATA-4 before its RR: `STATUS` and `SEQ`. -/
theorem test_status_and_seq :
    rd link 0x020 = some 0x0000045A ∧ rd sentOne 0x034 = some 0x00001001 ∧ rd sentOne 0x100 = some 0x00010003 := by
  decide

/-- HOST-2. -/
theorem test_bus_errors :
    (after rst (.hostRead 0x038 2)).event = 0x400 ∧ (after rst (.hostRead 0x020 0)).event = 0x400 ∧
    (after rst (.hostRead 0x002 2)).event = 0x400 ∧ (after rst (.hostRead 0x200 2)).event = 0x400 ∧
    (after rst (.hostRead 0x110 2)).event = 0x400 ∧ (after rst (.hostRead 0x14000 0)).event = 0x400 ∧
    (after rst (.hostRead 0x10040 2)).event = 0x400 ∧ (after rst (.hostRead 0x50000 2)).event = 0x400 ∧
    (after rst (.hostWrite 0x0FC 2 1)).event = 0x400 := by decide

/-- HOST-4. -/
theorem test_legalised_writes :
    rd (after rst (.hostWrite 0x008 2 0xFFFFFF00)) 0x008 = some 0x0000FF04 ∧
    rd (after rst (.hostWrite 0x00C 2 0xFFFF)) 0x00C = some 0x40 ∧
    rd (after rst (.hostWrite 0x00C 2 0)) 0x00C = some 1 ∧ rd (after rst (.hostWrite 0x010 2 0)) 0x010 = some 1 ∧
    rd (after rst (.hostWrite 0x028 2 0xFFFFFFFF)) 0x028 = some 0x7FF := by decide

/-- HOST-3. -/
theorem test_locked_write :
    (after link (.hostWrite 0x008 2 0x10D)).event = 0x200 ∧ (after link (.hostWrite 0x008 2 0x10D)).cfg = link.cfg := by
  decide

/-- DATA-12, its third tick: two frames expire together, one retry. -/
theorem test_two_expire :
    let s := { sentOne with
      vs := 2, pool := bufs { state := .pendAck, len := 1 } { state := .pendAck, len := 1 } {} {},
      slots := #v[{ valid := true, buf := 0, timer := 1 }, { valid := true, buf := 1, timer := 1 }, {}, {}, {}, {}, {},
        {}] }
    (after s .tick).seqWord = 0x00012002 := by decide

/-- RX-10, its sixth byte (MTU 2, mode 2). -/
theorem test_oversize :
    let s := { rst with cfg := { rst.cfg with mtu := 2 }, rx := { state := .data, acc := [0, 1, 2, 3, 4] } }
    (after s (.rxByte 5)).cntOversize = 1 ∧ (after s (.rxByte 5)).rx = { state := .hunt, acc := [] } := by decide

/-- 10_state.md R22: the inputs of one cycle, in their order. -/
theorem test_cycle_order :
    Cycle.events { host := some (.hostRead 0 2), rx := some 0x7E, tick := true, txReady := true } =
      [.hostRead 0 2, .rxByte 0x7E, .tick, .txReady] ∧
    Cycle.events { rst := true, rx := some 0x7E, tick := true } = [.reset] := by decide

/-! ### Legal states for the witnesses -/

theorem after_legal {s : State} (h : s.Legal) (e : PortEvent) : (after s e).Legal := by
  unfold after
  cases e with
  | reset => exact (State.hardReset_kept h.sizes h.mem).legal (fun _ => rfl)
  | hostRead a z => exact (h.kept.hostRead a z).encoderLoad
  | hostWrite a z v =>
    cases hw : s.hostWrite a z v with
    | next u => simpa [State.handle, hw, andThen] using (h.kept.hostWrite hw).encoderLoad
    | fault r => cases r
    | refused r => simpa [State.handle, hw, andThen] using h
  | rxByte b =>
    cases hw : s.rxByte b with
    | next u => simpa [State.handle, hw, andThen] using (h.kept.rxByte hw).encoderLoad
    | fault r => cases r
    | refused r => simpa [State.handle, hw, andThen] using h
  | tick => exact h.kept.tick.encoderLoad
  | txReady =>
    by_cases ha : s.enc.active = true
    · simpa [State.handle, ha] using (h.kept.txByte ha).encoderLoad
    · simpa [State.handle, ha] using h

/-- The state after port events. -/
def afterAll (s : State) : List PortEvent → State
  | [] => s
  | e :: es => afterAll (after s e) es

theorem afterAll_legal {s : State} (h : s.Legal) (es : List PortEvent) : (afterAll s es).Legal := by
  induction es generalizing s with
  | nil => exact h
  | cons e es ih => exact ih (after_legal h e)

/-- A write of CMD. -/
def cmd (w : Word) : PortEvent := .hostWrite 0x018 2 w

/-- Received bytes. -/
def rxs (bs : List Byte) : List PortEvent := bs.map .rxByte

/-- `n` bytes handed over. -/
def txs (n : Nat) : List PortEvent := List.replicate n .txReady

/-- A block of two buffers of 8 bytes, right after reset. -/
def start : State := State.afterReset { bufcap := 8, fcs8 := .dflt, fcs16 := .dflt, fcs32 := .dflt } 2 [] {}

theorem start_legal : start.Legal := by
  refine State.Kept.legal (afterReset_kept (p := { bufcap := 8, fcs8 := .dflt, fcs16 := .dflt, fcs32 := .dflt })
    (n := 2) (m := []) (e := {}) (c := CfgRegs.reset 8) (q := 0) ?_ ?_ ?_) (fun _ => rfl)
  · constructor <;> decide
  · constructor
    · decide
    · intro c hc; cases hc
  · constructor <;> decide

/-- Mode 0, window 1, one retry, TIMEOUT 2, ACK_DELAY 1. -/
def idle : State :=
  afterAll start [.hostWrite 0x008 2 0x104, .hostWrite 0x010 2 2, .hostWrite 0x014 2 1]
/-- CONNECT, its SABM on the wire. -/
def calling : State := after idle (cmd 0x05)
/-- CONNECT, its SABM sent. -/
def called : State := afterAll calling (txs 3)
/-- One tick before the first expiry. -/
def callDue : State := after called .tick
/-- One tick before the last expiry. -/
def callLast : State := afterAll callDue ([.tick] ++ txs 3 ++ [.tick])
/-- CONNECTED by a passive open, with nothing to do. -/
def conn : State := afterAll idle (rxs [0x7E, 0x3F, 0x7E] ++ txs 3 ++ [.hostRead 0x024 2])
/-- The host holds buffer 0, whose first byte is 41. -/
def held : State := afterAll conn [cmd 0x01, .hostWrite 0x10000 0 0x41]
/-- The host holds both buffers. -/
def full : State := after held (cmd 0x01)
/-- A frame of one byte on the wire. -/
def sending : State := after held (cmd 0x00010003)
/-- That frame sent and not acknowledged. -/
def sent : State := afterAll sending (txs 4)
/-- One tick before its first expiry. -/
def sentDue : State := after sent .tick
/-- One tick before its last expiry. -/
def sentLast : State := afterAll sentDue ([.tick] ++ txs 4 ++ [.tick])
/-- The frame on the wire, acknowledged: its last byte hands the buffer back. -/
def orphaned : State := afterAll sending (txs 3 ++ rxs [0x21, 0x7E])
/-- Retransmitted: its buffer is PEND_ACK while it is on the wire. -/
def resending : State := after sentDue .tick
/-- DISCONNECT, its DISC on the wire. -/
def closing : State := after conn (cmd 0x06)
/-- DISCONNECT, its DISC sent. -/
def closed : State := afterAll closing (txs 3)
/-- One tick before DISC is given up. -/
def closeLast : State := afterAll closed ([.tick, .tick] ++ txs 3 ++ [.tick])
/-- A received frame in the delivered queue. -/
def delivered : State := afterAll conn (rxs [0x00, 0x41, 0x7E])

theorem idle_legal : idle.Legal := afterAll_legal start_legal _
theorem calling_legal : calling.Legal := after_legal idle_legal _
theorem called_legal : called.Legal := afterAll_legal calling_legal _
theorem callDue_legal : callDue.Legal := after_legal called_legal _
theorem callLast_legal : callLast.Legal := afterAll_legal callDue_legal _
theorem conn_legal : conn.Legal := afterAll_legal idle_legal _
theorem held_legal : held.Legal := afterAll_legal conn_legal _
theorem full_legal : full.Legal := after_legal held_legal _
theorem sending_legal : sending.Legal := after_legal held_legal _
theorem sent_legal : sent.Legal := afterAll_legal sending_legal _
theorem sentDue_legal : sentDue.Legal := after_legal sent_legal _
theorem sentLast_legal : sentLast.Legal := afterAll_legal sentDue_legal _
theorem orphaned_legal : orphaned.Legal := afterAll_legal sending_legal _
theorem resending_legal : resending.Legal := after_legal sentDue_legal _
theorem closing_legal : closing.Legal := after_legal conn_legal _
theorem closed_legal : closed.Legal := afterAll_legal closing_legal _
theorem closeLast_legal : closeLast.Legal := afterAll_legal closed_legal _
theorem delivered_legal : delivered.Legal := afterAll_legal conn_legal _

theorem handle_after (s : State) (e : PortEvent) : s.handle e = .next (after s e) := by
  obtain ⟨t, h⟩ := handle_next s e
  simp [after, h]

/-! ### Witnesses: the hypotheses of each statement, met -/

theorem witness_DecodeOfEncode :
    (Instr.send 0xFF 0xFFFF).wellFormed = true ∧ (Instr.reservedOpcode 0xFF 1 2).wellFormed = true ∧
    (Instr.iFrame 7 0 true [0x7E]).wellFormed = true ∧ (Instr.uReserved 0b11111 true []).wellFormed = true := by decide

theorem witness_EncodeOfDecode :
    decode .command [0x03#8, 0x05#8, 0x34#8, 0x12#8] = .ok (.send 0x05 0x1234) ∧
    decode .frame [0b00111111#8] = .ok (.sabm true []) ∧ ([0b00111111#8] : List Byte).length ≤ 4097 := by decide

theorem witness_Stuffing :
    (0x7E : Byte) = 0x7E ∧ ((0x41 : Byte) ≠ 0x7E ∧ (0x41 : Byte) ≠ 0x7D) ∧ (stuff [0x41, 0x7D])[1]? = some 0x7D := by
  decide

/-- Both starting places of the de-stuffer, and an info field of MTU bytes. -/
theorem witness_RoundTripOnTheWire :
    (start.Eager ∧ start.rx.state = .hunt ∧ (List.replicate 8 (0x7E : Byte)).length ≤ start.cfg.mtu.toNat) ∧
    (conn.Eager ∧ conn.rx.state = .data ∧ conn.rx.acc = []) ∧
    decode .frame (0x00 :: List.replicate 8 0x7E) = .ok (.iFrame 0 0 false (List.replicate 8 0x7E)) :=
  ⟨⟨start_legal.eager, by decide⟩, ⟨conn_legal.eager, by decide⟩, by decide⟩

/-- The first and the last byte of a longest frame, in mode 2. -/
theorem witness_OneByteErrorDiscarded :
    start.params.fcs8 = .dflt ∧ start.params.fcs16 = .dflt ∧ start.params.fcs32 = .dflt ∧
    start.cfg.fcsMode ≠ .off ∧ (List.replicate 8 (0 : Byte)).length ≤ start.cfg.mtu.toNat ∧
    (let u := unstuffed start.params start.cfg.fcsMode 0x00 (List.replicate 8 0)
     (0 < u.length ∧ u[0]? ≠ some 0x01) ∧ 10 < u.length ∧ u[10]? ≠ some 0x00) := by
  set_option maxRecDepth 20000 in decide

/-- A de-stuffer in state `st` with `n` bytes. -/
def filling (st : RxState) (n : Nat) : State := { idle with rx := { state := st, acc := List.replicate n 0 } }

/-- Each state of the de-stuffer; the accumulator one byte short of full (9 bytes, mode 0 and MTU 8), and full. -/
theorem witness_DeStuffer :
    (filling .hunt 0).rx.state = .hunt ∧ (filling .data 8).rx.state = .data ∧ (filling .esc 8).rx.state = .esc ∧
    (filling .data 8).rx.acc.length < 1 + idle.cfg.mtu.toNat + idle.cfg.fcsMode.fcsLen ∧
    1 + idle.cfg.mtu.toNat + idle.cfg.fcsMode.fcsLen ≤ (filling .data 9).rx.acc.length ∧
    1 + idle.cfg.mtu.toNat + idle.cfg.fcsMode.fcsLen ≤ (filling .esc 9).rx.acc.length := by decide

theorem witness_DelimitersOpenAndClose :
    ((filling .data 1).rx.state = .data ∧ (filling .data 1).rx.acc ≠ []) ∧
    (conn.Eager ∧ conn.rx = { state := .data, acc := [] }) ∧ (idle.Eager ∧ idle.rx.state = .hunt) :=
  ⟨by decide, ⟨conn_legal.eager, by decide⟩, idle_legal.eager, by decide⟩

/-- In mode 2 and MTU 8: too long (12 bytes), too short (2), a failing and a good check. -/
theorem witness_FrameCompletion :
    1 + start.cfg.mtu.toNat + start.cfg.fcsMode.fcsLen < (List.replicate 12 (0 : Byte)).length ∧
    (List.replicate 2 (0 : Byte)).length < 1 + start.cfg.fcsMode.fcsLen ∧
    ([0x0C, 0x39] : List Byte).length = start.cfg.fcsMode.fcsLen ∧
    ([0x3F] ++ [0x0C, 0x39] : List Byte).length ≤ 1 + start.cfg.mtu.toNat + start.cfg.fcsMode.fcsLen ∧
    fcs start.params start.cfg.fcsMode [0x3F] = [0x0C, 0x39] ∧
    fcs start.params start.cfg.fcsMode [0x3F] ≠ [0x0C, 0x38] := by decide

theorem witness_StepRunsCommand :
    let s := idle.offerFirst [.hostWrite 0x018 2 0x00000005]
    s.env.inbox = [.hostWrite 0x018 2 0x00000005] ∧
    decode .command (wordBytes 0x00000005) = .ok (.connect 0 0) := by decide

theorem witness_StepRunsFrame :
    let s := State.offerFirst { start with rx := { state := .data, acc := [0x3F, 0x0C, 0x39] } } [.rxByte 0x7E]
    s.env.inbox = [.rxByte 0x7E] ∧ s.rx.state = .data ∧
    s.rx.acc = [0x3F] ++ fcs s.params s.cfg.fcsMode [0x3F] ∧ ([0x3F] : List Byte).length ≤ 1 + s.cfg.mtu.toNat ∧
    decode .frame [0x3F#8] = .ok (.sabm true []) := by decide

theorem witness_FetchedWordRuns :
    decodeTableWord 32 0x00000001 = some (.acquire 0 0) ∧ decodeTableWord 8 0x3F = some (.sabm true []) := by decide

theorem witness_EveryStepCompletes : idle.env.inbox = [] ∧ idle.enc.active = false := by decide

/-- The four ends of the two reserved ranges. -/
theorem witness_NopAndReservedOpcode :
    (0x07 ≤ (0x07#8).toNat ∧ (0x07#8).toNat ≤ 0x0E) ∧ (0x07 ≤ (0x0E#8).toNat ∧ (0x0E#8).toNat ≤ 0x0E) ∧
    0x10 ≤ (0x10#8).toNat ∧ 0x10 ≤ (0xFF#8).toNat := by decide

theorem witness_Acquire :
    (∀ i, i < full.nbuf → full.bstate i ≠ .free) ∧
    (1 < held.nbuf ∧ held.bstate 1 = .free ∧ ∀ i, i < 1 → held.bstate i ≠ .free) := by decide

theorem witness_Release :
    (1 < full.nbuf ∧ full.bstate 1 = .app) ∧ full.nbuf ≤ 2 ∧ held.bstate 1 ≠ .app := by decide

theorem witness_Read : (conn.Legal ∧ conn.rxq = []) ∧ delivered.Legal ∧ delivered.rxq = [0] :=
  ⟨⟨conn_legal, by decide⟩, delivered_legal, by decide⟩

/-- Refused for its buffer, its length (9, MTU 8), its state, its window (1); accepted at length MTU. -/
theorem witness_Send :
    (idle.bstate 0 ≠ .app) ∧ idle.nbuf ≤ 2 ∧ held.cfg.mtu.toNat < 9 ∧
    (let s := after idle (cmd 0x01); s.bstate 0 = .app ∧ s.conn ≠ .connected) ∧
    (let s := after sent (cmd 0x01)
     s.bstate 1 = .app ∧ s.conn = .connected ∧ s.cfg.window.toNat ≤ (s.vs - s.va).toNat) ∧
    (0 < held.nbuf ∧ held.bstate 0 = .app ∧ 8 ≤ held.cfg.mtu.toNat ∧ held.conn = .connected ∧
      (held.vs - held.va).toNat < held.cfg.window.toNat) := by decide

theorem witness_Connect : idle.conn = .disconnected ∧ conn.conn ≠ .disconnected := by decide

theorem witness_Disconnect :
    (sent.Legal ∧ sent.conn = .connected) ∧ (called.Legal ∧ called.conn = .connecting) ∧
    (idle.Legal ∧ idle.conn = .disconnected) ∧ closing.Legal ∧ closing.conn = .disconnecting :=
  ⟨⟨sent_legal, by decide⟩, ⟨called_legal, by decide⟩, ⟨idle_legal, by decide⟩, closing_legal, by decide⟩

theorem witness_ReceivedSabm :
    (idle.Legal ∧ idle.conn = .disconnected) ∧ (called.Legal ∧ called.conn = .connecting) ∧
    (sending.Legal ∧ sending.conn = .connected) ∧ closing.Legal ∧ closing.conn = .disconnecting :=
  ⟨⟨idle_legal, by decide⟩, ⟨called_legal, by decide⟩, ⟨sending_legal, by decide⟩, closing_legal, by decide⟩

theorem witness_ReceivedUa :
    (called.Legal ∧ called.conn = .connecting) ∧ (closed.Legal ∧ closed.conn = .disconnecting) ∧
    (idle.Legal ∧ idle.conn = .disconnected) ∧ sent.Legal ∧ sent.conn = .connected :=
  ⟨⟨called_legal, by decide⟩, ⟨closed_legal, by decide⟩, ⟨idle_legal, by decide⟩, sent_legal, by decide⟩

theorem witness_ReceivedDisc :
    (idle.Legal ∧ idle.conn = .disconnected) ∧ (called.Legal ∧ called.conn ≠ .disconnected) ∧
    sent.Legal ∧ sent.conn ≠ .disconnected :=
  ⟨⟨idle_legal, by decide⟩, ⟨called_legal, by decide⟩, sent_legal, by decide⟩

/-- An info field of one byte; a state other than CONNECTED; an N(R) one beyond V(S). -/
theorem witness_DiscardedFrames :
    ([0x41] : List Byte) ≠ [] ∧ idle.conn ≠ .connected ∧
    sent.conn = .connected ∧ (sent.vs - sent.va).toNat < ((2 : SeqNum) - sent.va).toNat := by decide

/-- After an acknowledgment that frees the buffer it then takes (N(R) = V(S)); and with N(R) = V(A). -/
theorem witness_IFrameExpected :
    (Memory.wf sent.bmem = true ∧ sent.conn = .connected ∧
      ((1 : SeqNum) - sent.va).toNat ≤ (sent.vs - sent.va).toNat ∧ (0 : SeqNum) = sent.vr) ∧
    sent.Acked 1 (sent.ackProcess 1) ∧ (0 < (sent.ackProcess 1).nbuf ∧ (sent.ackProcess 1).bstate 0 = .free) ∧
    sent.Acked 0 (sent.ackProcess 0) ∧ (1 < (sent.ackProcess 0).nbuf ∧ (sent.ackProcess 0).bstate 1 = .free ∧
      ∀ i, i < 1 → (sent.ackProcess 0).bstate i ≠ .free) :=
  ⟨by decide, ackProcess_acked _ 1, by decide, ackProcess_acked _ 0, by decide⟩

theorem witness_IFrameExpected_dropped :
    Memory.wf full.bmem = true ∧ full.conn = .connected ∧ ((0 : SeqNum) - full.va).toNat ≤ (full.vs - full.va).toNat ∧ (0 : SeqNum) = full.vr ∧
    full.Acked 0 (full.ackProcess 0) ∧
    ∀ i, i < (full.ackProcess 0).nbuf → (full.ackProcess 0).bstate i ≠ .free :=
  ⟨by decide, by decide, by decide, by decide, ackProcess_acked _ 0, by decide⟩

theorem witness_IFrameOutOfSequence :
    sent.conn = .connected ∧ ((1 : SeqNum) - sent.va).toNat ≤ (sent.vs - sent.va).toNat ∧ (7 : SeqNum) ≠ sent.vr := by
  decide

/-- N(R) = V(A), N(R) = V(S), and one beyond. -/
theorem witness_ReceivedRr :
    (sent.conn = .connected ∧ ((0 : SeqNum) - sent.va).toNat ≤ (sent.vs - sent.va).toNat) ∧
    (sent.conn = .connected ∧ ((1 : SeqNum) - sent.va).toNat ≤ (sent.vs - sent.va).toNat) ∧
    ¬ (sent.conn = .connected ∧ ((2 : SeqNum) - sent.va).toNat ≤ (sent.vs - sent.va).toNat) := by decide

/-- A slot at N(R) = V(A) is marked; the slot after the last outstanding one is not. Outside CONNECTED none is. -/
theorem witness_ReceivedRej :
    (sent.conn = .connected ∧ ((0 : SeqNum) - sent.va).toNat ≤ (sent.vs - sent.va).toNat) ∧
    ¬ (idle.conn = .connected ∧ ((0 : SeqNum) - idle.va).toNat ≤ (idle.vs - idle.va).toNat) ∧
    ((0 : SeqNum) - 0).toNat < (sent.vs - 0).toNat ∧ (sent.vs - 0).toNat ≤ ((1 : SeqNum) - 0).toNat := by decide

theorem witness_TickCounts :
    (sent.uTimer ≠ 1 ∧ ∀ q, (sent.slot q).valid = true → (sent.slot q).timer ≠ 1) ∧
    called.uTimer = 2 ∧ ∀ q, (called.slot q).valid = true → (called.slot q).timer ≠ 1 := by decide

theorem witness_SlotExpiry :
    (sentDue.Legal ∧ (sentDue.slot 0).valid = true ∧ (sentDue.slot 0).timer = 1 ∧
      (∀ r, (sentDue.slot r).valid = true → (sentDue.slot r).timer = 1 →
        ((0 : SeqNum) - sentDue.va).toNat ≤ (r - sentDue.va).toNat) ∧ sentDue.retry ≠ sentDue.cfg.maxRetries) ∧
    (sentLast.Legal ∧ (sentLast.slot 0).valid = true ∧ (sentLast.slot 0).timer = 1 ∧
      (∀ r, (sentLast.slot r).valid = true → (sentLast.slot r).timer = 1 →
        ((0 : SeqNum) - sentLast.va).toNat ≤ (r - sentLast.va).toNat) ∧ sentLast.retry = sentLast.cfg.maxRetries) :=
  ⟨⟨sentDue_legal, by decide⟩, sentLast_legal, by decide⟩

theorem witness_RequestExpiry :
    (callDue.Legal ∧ callDue.uTimer = 1 ∧ callDue.retry ≠ callDue.cfg.maxRetries) ∧
    (callLast.Legal ∧ callLast.uTimer = 1 ∧ callLast.retry = callLast.cfg.maxRetries) ∧
    closeLast.Legal ∧ closeLast.uTimer = 1 ∧ closeLast.retry = closeLast.cfg.maxRetries :=
  ⟨⟨callDue_legal, by decide⟩, ⟨callLast_legal, by decide⟩, closeLast_legal, by decide⟩

/-- Two retries' worth of ticks, 2 · 2: one fewer, and exactly as many. -/
theorem witness_ConnectGivesUp :
    idle.Legal ∧ idle.conn = .disconnected ∧
    (let es : List PortEvent := [.tick, .txReady, .tick, .tick]
     (∀ e ∈ es, e = .tick ∨ e = .txReady) ∧
       es.count .tick < (idle.cfg.maxRetries.toNat + 1) * idle.cfg.timeout.toNat) ∧
    (let es : List PortEvent := [.tick, .txReady, .tick, .tick, .tick]
     (∀ e ∈ es, e = .tick ∨ e = .txReady) ∧
       (idle.cfg.maxRetries.toNat + 1) * idle.cfg.timeout.toNat ≤ es.count .tick) :=
  ⟨idle_legal, by decide⟩

/-- A busy encoder; then a UA, a SABM, a DISC, a REJ, an I-frame, an RR, and nothing due. -/
theorem witness_EncoderLoad :
    sending.enc.active = true ∧
    (let s := { rst with uaPending := true }; s.enc.active = false ∧ s.uaPending = true) ∧
    (let s := { rst with conn := .connecting, sabmPending := true }
     s.enc.active = false ∧ s.uaPending = false ∧ s.conn = .connecting ∧ s.sabmPending = true) ∧
    (let s := { rst with conn := .disconnecting, discPending := true }
     s.enc.active = false ∧ s.uaPending = false ∧ s.conn = .disconnecting ∧ s.discPending = true) ∧
    (let s := { link with rejPending := true }
     s.enc.active = false ∧ s.uaPending = false ∧ s.conn = .connected ∧ s.rejPending = true) ∧
    (let s := { sentOne with slots := #v[{ valid := true, needsTx := true }, {}, {}, {}, {}, {}, {}, {}] }
     s.enc.active = false ∧ s.uaPending = false ∧ s.conn = .connected ∧ s.rejPending = false ∧
       ((s.slot 0).valid = true ∧ (s.slot 0).needsTx = true) ∧
       ∀ r, (s.slot r).valid = true ∧ (s.slot r).needsTx = true → ((0 : SeqNum) - s.va).toNat ≤ (r - s.va).toNat) ∧
    (let s := { link with ackPending := true }
     s.enc.active = false ∧ s.uaPending = false ∧ s.conn = .connected ∧ s.rejPending = false ∧
       (∀ q, ¬ ((s.slot q).valid = true ∧ (s.slot q).needsTx = true)) ∧ s.ackPending = true ∧ s.ackTimer = 0) ∧
    (let s := { link with ackPending := true, ackTimer := 1 }
     s.enc.active = false ∧ s.uaPending = false ∧ s.sabmPending = false ∧ s.discPending = false ∧
       s.rejPending = false ∧ (∀ q, ¬ ((s.slot q).valid = true ∧ (s.slot q).needsTx = true)) ∧
       (s.ackPending = true → s.ackTimer ≠ 0)) := by decide

/-- The byte before the last; then the last byte of an orphaned I-frame, of a first and of a repeated transmission,
and of a frame of another kind. -/
theorem witness_ByteHandOff :
    (sending.Legal ∧ sending.enc.active = true ∧ sending.enc.pos + 1 < sending.enc.wire.length) ∧
    (orphaned.Legal ∧ orphaned.enc.active = true ∧ orphaned.enc.pos + 1 = orphaned.enc.wire.length ∧
      orphaned.enc.kind = .i ∧ orphaned.enc.orphan = true) ∧
    (let s := afterAll sending (txs 3)
     s.Legal ∧ s.enc.active = true ∧ s.enc.pos + 1 = s.enc.wire.length ∧ s.enc.kind = .i ∧ s.enc.orphan = false ∧
       s.bstate s.enc.buf = .pendTx) ∧
    (let s := afterAll resending (txs 3)
     s.Legal ∧ s.enc.active = true ∧ s.enc.pos + 1 = s.enc.wire.length ∧ s.enc.kind = .i ∧ s.enc.orphan = false ∧
       s.bstate s.enc.buf ≠ .pendTx) ∧
    (let s := afterAll calling (txs 2)
     s.Legal ∧ s.enc.active = true ∧ s.enc.pos + 1 = s.enc.wire.length ∧ s.enc.kind ≠ .i) :=
  ⟨⟨sending_legal, by decide⟩, ⟨orphaned_legal, by decide⟩, ⟨afterAll_legal sending_legal _, by decide⟩,
    ⟨afterAll_legal resending_legal _, by decide⟩, afterAll_legal calling_legal _, by decide⟩

/-- A tick is no reset. -/
theorem tick_not_reset : ¬ PortEvent.IsReset .tick := by
  rintro (h | ⟨v, h, _⟩) <;> cases h

/-- A `TxByte` is no reset. -/
theorem txReady_not_reset : ¬ PortEvent.IsReset .txReady := by
  rintro (h | ⟨v, h, _⟩) <;> cases h

theorem witness_FrameNeverTruncated :
    (sending.enc.active = true ∧ sending.handle .tick = .next (after sending .tick) ∧ ¬ PortEvent.IsReset .tick) ∧
    sending.handle .txReady = .next (after sending .txReady) ∧ ¬ PortEvent.IsReset .txReady ∧
    sending.enc.pos + 1 < sending.enc.wire.length :=
  ⟨⟨by decide, handle_after _ _, tick_not_reset⟩, handle_after _ _, txReady_not_reset, by decide⟩

/-- The first and the last register of the table. -/
theorem witness_RegisterReads :
    delivered.Legal ∧ ((0x000#20).toNat, 0x54504C45) ∈ delivered.registerTable ∧
    ((0x104#20).toNat, 0) ∈ delivered.registerTable := ⟨delivered_legal, by decide⟩

theorem witness_RegisterWrites :
    idle.SizesLegal ∧ idle.conn = .disconnected ∧ conn.SizesLegal ∧ conn.conn ≠ .disconnected ∧ 1 < conn.nbuf :=
  ⟨idle_legal.sizes, by decide, conn_legal.sizes, by decide⟩

/-- A reserved size; misaligned; a register by halfword; the ends of the reserved register words; BUF_STATE beyond
P_NBUF = 2; the gaps' ends; a buffer that does not exist; beyond P_BUFCAP = 8. -/
theorem witness_BusErrors :
    conn.BusError 0x000 3 ∧ conn.BusError 0x002 2 ∧ conn.BusError 0x020 1 ∧ conn.BusError 0x038 2 ∧
    conn.BusError 0x0FC 2 ∧ conn.BusError 0x108 2 ∧ conn.BusError 0x200 2 ∧ conn.BusError 0x0FFFC 2 ∧
    conn.BusError 0x50000 0 ∧ conn.BusError 0xFFFFF 0 ∧ conn.BusError 0x12000 0 ∧ conn.BusError 0x10008 0 := by
  refine ⟨?_, ?_, ?_, ?_, ?_, ?_, ?_, ?_, ?_, ?_, ?_, ?_⟩ <;> unfold State.BusError <;> decide

theorem witness_OwnershipErrors :
    ¬ conn.BusError 0x10000 2 ∧ ¬ conn.BusError 0x11007 0 ∧ 0x10000 ≤ (0x10000#20).toNat ∧
    conn.bstate (((0x10000#20).toNat - 0x10000) / 0x1000) ≠ .app ∧
    conn.bstate (((0x11007#20).toNat - 0x10000) / 0x1000) ≠ .app :=
  ⟨by unfold State.BusError; decide, by unfold State.BusError; decide, by decide⟩

/-- The first and the last word of a held buffer, its last halfword and byte. -/
theorem witness_BufferAccess :
    full.Legal ∧ ¬ full.BusError 0x10000 2 ∧ ¬ full.BusError 0x10004 2 ∧ ¬ full.BusError 0x10006 1 ∧
    ¬ full.BusError 0x11007 0 ∧ 0x10000 ≤ (0x10000#20).toNat ∧
    full.bstate (((0x10000#20).toNat - 0x10000) / 0x1000) = .app ∧
    full.bstate (((0x11007#20).toNat - 0x10000) / 0x1000) = .app :=
  ⟨full_legal, by unfold State.BusError; decide, by unfold State.BusError; decide, by unfold State.BusError; decide,
    by unfold State.BusError; decide, by decide⟩

theorem witness_InterruptLevel :
    (let s := { rst with irqEn := 0x400, event := 0x400 }
     s.irq = true ∧ s.event.getLsbD 10 = true ∧ s.irqEn.getLsbD 10 = true ∧
     s.handle (.hostRead 0x024 2) = .next (after s (.hostRead 0x024 2)) ∧
     (after s (.hostRead 0x024 2)).irq = false) := ⟨by decide, by decide, by decide, handle_after _ _, by decide⟩

theorem witness_EventsSticky :
    (let s := { rst with event := 0x401 }
     s.handle .tick = .next (after s .tick) ∧ ¬ PortEvent.IsReset .tick ∧ PortEvent.tick ≠ .hostRead 0x024 2 ∧
     s.event.getLsbD 0 = true ∧ s.event.getLsbD 10 = true) :=
  ⟨handle_after _ _, tick_not_reset, by decide, by decide, by decide⟩

/-- Each change of the table: reset, ACQUIRE, RELEASE, SEND, READ, a freed buffer by each of its causes, the end of a
first transmission, a delivery. -/
theorem witness_OwnershipTransitions :
    (held.Legal ∧ (after held .reset).bstate 0 ≠ held.bstate 0) ∧
    (conn.Legal ∧ (after conn (cmd 0x01)).bstate 0 ≠ conn.bstate 0) ∧
    (full.Legal ∧ (after full (cmd 0x102)).bstate 1 ≠ full.bstate 1) ∧
    (held.Legal ∧ (after held (cmd 0x00010003)).bstate 0 ≠ held.bstate 0) ∧
    (delivered.Legal ∧ (after delivered (cmd 0x04)).bstate 0 ≠ delivered.bstate 0) ∧
    (sent.Legal ∧ (after sent (cmd 0x06)).bstate 0 ≠ sent.bstate 0) ∧
    (sentLast.Legal ∧ (after sentLast .tick).bstate 0 ≠ sentLast.bstate 0) ∧
    (orphaned.Legal ∧ (after orphaned .txReady).bstate 0 ≠ orphaned.bstate 0) ∧
    (let s := after sent (.rxByte 0x21); s.Legal ∧ (after s (.rxByte 0x7E)).bstate 0 ≠ s.bstate 0) ∧
    (let s := afterAll sending (txs 3); s.Legal ∧ (after s .txReady).bstate 0 ≠ s.bstate 0) ∧
    (let s := after conn (.rxByte 0x00); s.Legal ∧ (after s (.rxByte 0x7E)).bstate 0 ≠ s.bstate 0) :=
  ⟨⟨held_legal, by decide⟩, ⟨conn_legal, by decide⟩, ⟨full_legal, by decide⟩, ⟨held_legal, by decide⟩,
    ⟨delivered_legal, by decide⟩, ⟨sent_legal, by decide⟩, ⟨sentLast_legal, by decide⟩, ⟨orphaned_legal, by decide⟩,
    ⟨after_legal sent_legal _, by decide⟩, ⟨afterAll_legal sending_legal _, by decide⟩,
    after_legal conn_legal _, by decide⟩

theorem witness_FreeingIsSignalled :
    sentLast.handle .tick = .next (after sentLast .tick) ∧ ¬ PortEvent.IsReset .tick ∧
    sentLast.bstate 0 ≠ .free ∧ (after sentLast .tick).bstate 0 = .free :=
  ⟨handle_after _ _, tick_not_reset, by set_option maxRecDepth 20000 in decide,
    by set_option maxRecDepth 20000 in decide⟩

/-- Each change of the connection state's table. -/
theorem witness_ConnectionTransitions :
    (idle.Legal ∧ (after idle (cmd 0x05)).conn ≠ idle.conn) ∧
    (let s := afterAll idle (rxs [0x7E, 0x3F]); s.Legal ∧ (after s (.rxByte 0x7E)).conn ≠ s.conn) ∧
    (let s := afterAll called (rxs [0x7E, 0x73]); s.Legal ∧ (after s (.rxByte 0x7E)).conn ≠ s.conn) ∧
    (called.Legal ∧ (after called (cmd 0x06)).conn ≠ called.conn) ∧
    (callLast.Legal ∧ (after callLast .tick).conn ≠ callLast.conn) ∧
    (conn.Legal ∧ (after conn (cmd 0x06)).conn ≠ conn.conn) ∧
    (sentLast.Legal ∧ (after sentLast .tick).conn ≠ sentLast.conn) ∧
    (let s := after conn (.rxByte 0x53); s.Legal ∧ (after s (.rxByte 0x7E)).conn ≠ s.conn) ∧
    (closeLast.Legal ∧ (after closeLast .tick).conn ≠ closeLast.conn) ∧
    (conn.Legal ∧ (after conn (cmd 0x0F)).conn ≠ conn.conn) :=
  ⟨⟨idle_legal, by decide⟩, ⟨afterAll_legal idle_legal _, by decide⟩, ⟨afterAll_legal called_legal _, by decide⟩,
    ⟨called_legal, by decide⟩, ⟨callLast_legal, by decide⟩, ⟨conn_legal, by decide⟩, ⟨sentLast_legal, by decide⟩,
    ⟨after_legal conn_legal _, by decide⟩, ⟨closeLast_legal, by decide⟩, conn_legal, by decide⟩

theorem witness_ParametersConstant :
    step (rst.offerFirst [.tick]) = .next (after (rst.offerFirst [.tick]).dropEvent .tick) :=
  handle_after (rst.offerFirst [.tick]).dropEvent .tick

/-- A delivery, a READ, a reset, and a SABM received while CONNECTED, which restarts V(R) = 1 at 0. -/
theorem witness_InOrderDelivery :
    (let s := afterAll conn (rxs [0x00, 0x41])
     s.Legal ∧ s.handle (.rxByte 0x7E) = .next (after s (.rxByte 0x7E)) ∧ (after s (.rxByte 0x7E)).rxq = [0]) ∧
    (delivered.Legal ∧ delivered.handle (cmd 0x04) = .next (after delivered (cmd 0x04))) ∧
    delivered.handle .reset = .next (after delivered .reset) ∧
    (let s := after delivered (.rxByte 0x3F)
     s.Legal ∧ s.handle (.rxByte 0x7E) = .next (after s (.rxByte 0x7E)) ∧ s.conn = .connected ∧ s.vr = 1 ∧
       (after s (.rxByte 0x7E)).vr = 0) :=
  ⟨⟨afterAll_legal conn_legal _, handle_after _ _, by decide⟩, ⟨delivered_legal, handle_after _ _⟩, handle_after _ _,
    after_legal delivered_legal _, handle_after _ _, by decide⟩

/-- A host write, and a delivery; the first byte of buffer 0 of two, and the last of eight. -/
theorem witness_SingleWriter :
    (full.Legal ∧ full.handle (.hostWrite 0x10007 0 0x55) = .next (after full (.hostWrite 0x10007 0 0x55)) ∧
      0 < full.nbuf ∧ 7 < full.params.bufcap ∧
      (after full (.hostWrite 0x10007 0 0x55)).bufRead 0 7 ≠ full.bufRead 0 7) ∧
    (let s := afterAll conn (rxs [0x00, 0x41])
     s.Legal ∧ s.handle (.rxByte 0x7E) = .next (after s (.rxByte 0x7E)) ∧ 0 < s.nbuf ∧ 0 < s.params.bufcap ∧
       (after s (.rxByte 0x7E)).bufRead 0 0 ≠ s.bufRead 0 0) :=
  ⟨⟨full_legal, handle_after _ _, by decide⟩, afterAll_legal conn_legal _, handle_after _ _, by decide⟩

theorem witness_LegalKeptByEveryStep :
    idle.Legal ∧ step idle = .next idle ∧ idle.nbuf = 2 := ⟨idle_legal, rfl, by decide⟩

theorem witness_Handshake :
    let p : Pair := { a := idle, b := idle }
    p.a.Legal ∧ p.b.Legal ∧ p.a.params.SameChecks p.b.params ∧ p.a.cfg.fcsMode = p.b.cfg.fcsMode ∧
    p.a.conn = .disconnected ∧ p.b.conn = .disconnected ∧ p.a.enc.active = false ∧ p.b.enc.active = false ∧
    p.a.rx.acc = [] ∧ p.a.rx.state ≠ .esc ∧ p.b.rx.acc = [] ∧ p.b.rx.state ≠ .esc ∧ 12 ≤ 12 :=
  ⟨idle_legal, idle_legal, ⟨rfl, rfl, rfl⟩, by decide⟩

theorem witness_PayloadCrossesTheLink :
    let p : Pair := { a := held, b := conn }
    p.a.Legal ∧ p.b.Legal ∧ p.a.params.SameChecks p.b.params ∧ p.a.cfg.fcsMode = p.b.cfg.fcsMode ∧
    p.a.conn = .connected ∧ p.b.conn = .connected ∧ p.a.enc.active = false ∧ p.b.enc.active = false ∧
    p.b.rx.acc = [] ∧ p.b.rx.state ≠ .esc ∧ p.a.vs = p.a.va ∧ p.b.vs = p.b.va ∧ p.a.vs = p.b.vr ∧ p.a.vr = p.b.va ∧
    (0x00#8).toNat < p.a.nbuf ∧ p.a.bstate (0x00#8).toNat = .app ∧ (8#16).toNat ≤ p.a.cfg.mtu.toNat ∧
    (8#16).toNat ≤ p.b.cfg.mtu.toNat ∧ 0 < p.b.nbuf ∧ p.b.bstate 0 = .free ∧
    2 + 2 * (1 + (8#16).toNat + p.a.cfg.fcsMode.fcsLen) ≤ 20 :=
  ⟨held_legal, conn_legal, ⟨rfl, rfl, rfl⟩, by decide⟩

end Sys2Proof.Tests
end

/-! SUPPORT. Invariants of every step: a legal state stays legal (10_state.md R54), and EVENT bits stay set but for the
read of EVENT and the resets (10_state.md R35, 60_exceptions.md R364). -/

namespace Sys2Proof.Machine

variable {s t : State}

/-! ### One step -/

/-- What `step` is: nothing while no event is offered, else the step of the oldest one (10_state.md R22, log 3). -/
theorem step_cases (h : step s = .next t) :
    t = s ∨ ∃ e es, s.env.inbox = e :: es ∧ s.dropEvent.handle e = .next t := by
  unfold step at h
  split at h
  · injection h with h; exact .inl h.symm
  · next e es hin => exact .inr ⟨e, es, hin, h⟩

/-! ### Legal states -/

theorem State.Legal.hardReset (h : s.Legal) : s.hardReset.Legal :=
  (State.hardReset_kept h.sizes h.mem).legal fun _ => rfl

/-- Every port event keeps a legal state legal: its own part keeps all but the eager load, which its encoder load
restores. -/
theorem State.Legal.handle (h : s.Legal) {e : PortEvent} (he : s.handle e = .next t) : t.Legal := by
  rcases handle_cases he with ⟨-, rfl⟩ | ⟨a, z, -, rfl⟩ | ⟨a, z, v, u, -, hw, rfl⟩ | ⟨b, u, -, hb, rfl⟩ | ⟨-, rfl⟩ |
    ⟨-, ha, rfl⟩ | ⟨-, -, rfl⟩
  · exact h.hardReset
  · exact (h.kept.hostRead a z).encoderLoad
  · exact (h.kept.hostWrite hw).encoderLoad
  · exact (h.kept.rxByte hb).encoderLoad
  · exact h.kept.tick.encoderLoad
  · exact (h.kept.txByte ha).encoderLoad
  · exact h

/-- Settles O54: the step of the oldest offered event, by `State.Legal.handle`. -/
theorem legalKeptByEveryStep : Obligations.LegalKeptByEveryStep := by
  intro s t h he
  rcases step_cases he with rfl | ⟨e, es, -, he⟩
  · exact h
  · exact h.dropEvent.handle he

/-! ### Addresses of the registers -/

/-- The address of a register (10_state.md R23). -/
def Reg.addr : Reg → Nat
  | .id => 0x000
  | .param => 0x004
  | .cfg => 0x008
  | .cfgMtu => 0x00C
  | .cfgTimeout => 0x010
  | .cfgAckDelay => 0x014
  | .cmd => 0x018
  | .result => 0x01C
  | .status => 0x020
  | .event => 0x024
  | .irqEn => 0x028
  | .cntLost => 0x02C
  | .cntOversize => 0x030
  | .seq => 0x034
  | .bufState i => 0x100 + 4 * i

/-- A register is decoded at its own address only (10_state.md R23, 45_host_interface.md R330). -/
theorem regAt_addr {nbuf a : Nat} {r : Reg} (h : regAt nbuf a = some r) (ha : a % 4 = 0) : a = r.addr := by
  simp only [regAt, ite_eq_iff, Option.some.injEq, reduceCtorEq, and_false, or_false] at h
  -- the fourteen registers at a fixed address, then the buffers' descriptors
  iterate 14
    rcases h with ⟨h, rfl⟩ | ⟨-, h⟩
    · exact h
  obtain ⟨⟨hlo, -⟩, rfl⟩ := h
  show a = 0x100 + 4 * ((a - 0x100) / 4)
  omega

/-- A transaction that reaches a register moves four bytes at the register's address (20_memory.md R73, R75). -/
theorem target_reg {a : BitVec 20} {z : BitVec 2} {r : Reg} (h : s.target a z = .reg r) :
    z = 2 ∧ a.toNat = r.addr := by
  unfold State.target at h
  split_ifs at h with _ halign
  · unfold State.regTarget at h
    split_ifs at h with hn
    split at h
    · next r' hr =>
      injection h with h
      subst h
      rw [hn] at halign
      have hz : ∀ z : BitVec 2, busBytes z = 4 → z = 2 := by decide
      exact ⟨hz z hn, regAt_addr hr (by omega)⟩
    · cases h
  · unfold State.windowTarget at h
    dsimp only at h
    split_ifs at h

/-! ### EVENT bits stay set (10_state.md R35) -/

theorem afterRegRead_event {r : Reg} (hr : r ≠ .event) : (s.afterRegRead r).event = s.event := by
  cases r with
  | event => exact absurd rfl hr
  | _ => rfl

/-- A read transaction other than the 4-byte read of EVENT clears no EVENT bit (45_host_interface.md R330, R335). -/
theorem hostRead_keeps_event {a : BitVec 20} {z : BitVec 2} (hne : PortEvent.hostRead a z ≠ .hostRead 0x024 2) {i : Nat}
    (hi : s.event.getLsbD i = true) : (s.hostRead a z).event.getLsbD i = true := by
  show (s.afterRead a z).event.getLsbD i = true
  unfold State.afterRead
  split
  · next r hr =>
    obtain ⟨hz, ha⟩ := target_reg hr
    rwa [afterRegRead_event]
    rintro rfl
    exact hne (by rw [hz, show a = 0x024 from BitVec.eq_of_toNat_eq ha])
  · exact hi
  · next e _ => exact (signal_added s e i).2 (.inl hi)

/-- A host write other than the command SOFT_RESET clears no EVENT bit (45_host_interface.md R331, R336). -/
theorem hostWrite_keeps_event {a : BitVec 20} {z : BitVec 2} {v : Word} (he : s.hostWrite a z v = .next t)
    (hne : ¬ (PortEvent.hostWrite a z v).IsCommand 0x0F) {i : Nat} (hi : s.event.getLsbD i = true) :
    t.event.getLsbD i = true := by
  by_cases hirq : s.target a z = .reg .irqEn
  · unfold State.hostWrite at he
    rw [hirq] at he
    injection he with he
    exact he ▸ hi
  · refine (hostWrite_extends he (fun buf len hcmd hdec => hne ⟨v, ?_, decodeCommand_softReset hdec⟩) hirq).event i hi
    obtain ⟨hz, ha⟩ := target_reg hcmd
    rw [hz, show a = 0x018 from BitVec.eq_of_toNat_eq ha]

/-- The frame end touches EVENT only to signal a freed buffer (40_framecodec.md R145). -/
theorem frameEnd_event (s : State) :
    s.frameEnd.event = s.event ∨ s.frameEnd.event = s.event ||| Event.poolFreed.flag := by
  unfold State.frameEnd
  dsimp only
  split
  · split
    · exact .inr rfl
    · split <;> exact .inl rfl
  · exact .inl rfl

theorem frameEnd_keeps_event {i : Nat} (hi : s.event.getLsbD i = true) : s.frameEnd.event.getLsbD i = true := by
  rcases frameEnd_event s with h | h <;> simp [h, hi]

/-- A hand-off clears no EVENT bit (40_framecodec.md R144). -/
theorem txByte_keeps_event {i : Nat} (hi : s.event.getLsbD i = true) : s.txByte.event.getLsbD i = true := by
  unfold State.txByte
  dsimp only
  split
  · exact frameEnd_keeps_event hi
  · exact hi

/-- Settles O46, event by event; the encoder load leaves EVENT alone. -/
theorem eventsSticky : Obligations.EventsSticky := by
  intro s t e i he hreset hread hi
  rcases handle_cases he with ⟨rfl, -⟩ | ⟨a, z, rfl, rfl⟩ | ⟨a, z, v, u, rfl, hw, rfl⟩ | ⟨b, u, -, hb, rfl⟩ | ⟨-, rfl⟩ |
    ⟨-, -, rfl⟩ | ⟨-, -, rfl⟩
  · exact absurd (.inl rfl) hreset
  · rw [encoderLoad_event]
    exact hostRead_keeps_event hread hi
  · rw [encoderLoad_event]
    exact hostWrite_keeps_event hw (fun hcmd => hreset (.inr hcmd)) hi
  · rw [encoderLoad_event]
    exact (rxByte_extends hb).event i hi
  · rw [encoderLoad_event]
    exact (tick_extends s).event i hi
  · rw [encoderLoad_event]
    exact txByte_keeps_event hi
  · exact hi

end Sys2Proof.Machine

/-! SUPPORT. Host bus transactions as the checks decide them: a refused one only signals its error, one that reaches a
buffer moves the bytes of its lanes (20_memory.md R72 to R78, 60_exceptions.md R366). -/

namespace Sys2Proof.Machine

variable {s : State} {a : BitVec 20} {z : BitVec 2}

/-! ### The checks -/

/-- The gap after SEQ and the words past the last buffer's BUF_STATE are reserved (10_state.md R25). -/
theorem regAt_eq_none {nbuf x : Nat} (h : (0x038 ≤ x ∧ x < 0x100) ∨ 0x100 + 4 * nbuf ≤ x) : regAt nbuf x = none := by
  unfold regAt
  iterate 15 rw [if_neg (by omega)]

/-- The bus errors of 20_memory.md R73, R75 and R76 are those of the checks, branch by branch. -/
theorem target_of_busError (h : s.BusError a z) : s.target a z = .error .busErr := by
  unfold State.BusError at h
  dsimp only at h
  unfold State.target busBytes
  generalize 2 ^ z.toNat = n at h ⊢
  split_ifs with hz halign hreg hwin
  · rfl
  · rfl
  · replace h := (h.resolve_left hz).resolve_left halign
    unfold State.regTarget
    split_ifs with hn
    · subst hn
      rw [regAt_eq_none (by omega)]
    · rfl
  · replace h := (h.resolve_left hz).resolve_left halign
    exact if_pos (by omega)
  · rfl

/-- A transaction in the buffer window that is no bus error reaches its bytes if the host holds the buffer, and is an
ownership error otherwise (20_memory.md R72, R77). -/
theorem target_of_window (h : ¬ s.BusError a z) (ha : 0x10000 ≤ a.toNat) :
    s.target a z = if s.bstate ((a.toNat - 0x10000) / 0x1000) = .app then
      .window ((a.toNat - 0x10000) / 0x1000) (a.toNat % 0x1000) (2 ^ z.toNat) else .error .ownErr := by
  unfold State.BusError at h
  dsimp only at h
  push Not at h
  obtain ⟨hz, halign, -, -, htop, hbuf⟩ := h
  obtain ⟨hi, hj⟩ := hbuf ha htop
  unfold State.target busBytes
  rw [if_neg hz, if_neg (not_not.2 halign), if_neg (by omega), if_pos ⟨ha, htop⟩]
  exact if_neg (not_or.2 ⟨Nat.not_le.2 hi, Nat.not_lt.2 hj⟩)

/-! ### Refused transactions -/

/-- A refused transaction answers 0 to a read, writes nothing, and only signals its error (20_memory.md R76, R77). -/
theorem handle_of_target_error {e : Event} (h : s.target a z = .error e) (v : Word) :
    (∃ t, s.handle (.hostRead a z) = .next t.encoderLoad ∧ t.env.reads = s.env.reads ++ [0] ∧
      s.EventsAdded t (fun i => i = e.bit) ∧ s.MemorySame t ∧
      t = { s with event := t.event, env := { s.env with reads := t.env.reads } }) ∧
    (∃ t, s.handle (.hostWrite a z v) = .next t.encoderLoad ∧ s.EventsAdded t (fun i => i = e.bit) ∧ s.MemorySame t ∧
      t = { s with event := t.event }) := by
  have hread : s.hostRead a z = { s.signal e with env := { s.env with reads := s.env.reads ++ [0] } } := by
    simp only [State.hostRead, State.afterRead, State.readValue, h, signal_env]
  have hwrite : s.hostWrite a z v = .next (s.signal e) := by
    simp only [State.hostWrite, h]
  constructor
  · refine ⟨s.hostRead a z, rfl, ?_⟩
    rw [hread]
    exact ⟨rfl, signal_added s e, fun _ => rfl, rfl⟩
  · exact ⟨s.signal e, by rw [State.handle, hwrite, andThen], signal_added s e, fun _ => rfl, rfl⟩

/-- Settles O42: the checks refuse every bus error. -/
theorem busErrors : Obligations.BusErrors := fun _ _ _ v h => handle_of_target_error (target_of_busError h) v

/-- Settles O43: past the bus-error checks, only the buffer's state decides. -/
theorem ownershipErrors : Obligations.OwnershipErrors := fun _ _ _ v h ha happ =>
  handle_of_target_error ((target_of_window h ha).trans (if_neg happ)) v

/-! ### Lanes and bytes (20_memory.md R74) -/

/-- Lane k of a bus word holds byte k, and 0 where there is no such byte. -/
theorem laneWord_lane (l : List Byte) {k : Nat} (hk : k < 4) : (laneWord l).extractLsb' (8 * k) 8 = l.getD k 0 := by
  induction l generalizing k with
  | nil => simp [laneWord]
  | cons b l ih =>
    cases k with
    | zero =>
      ext i hi
      simp [laneWord, show i < 32 by omega, hi]
    | succ k =>
      rw [List.getD_cons_succ, ← ih (by omega)]
      ext i hi
      simp [laneWord, show 8 * (k + 1) + i < 32 by omega, show ¬ 8 * (k + 1) + i < 8 by omega,
        show 8 * (k + 1) + i - 8 = 8 * k + i by omega, show 8 * k + i < 32 by omega,
        BitVec.getLsbD_of_ge b (8 * (k + 1) + i) (by omega)]

theorem lanes_getElem? (v : Word) {n k : Nat} (hk : k < n) : (lanes n v)[k]? = some (v.extractLsb' (8 * k) 8) := by
  induction n generalizing v k with
  | zero => omega
  | succ n ih =>
    cases k with
    | zero => rfl
    | succ k =>
      rw [lanes, List.getElem?_cons_succ, ih _ (by omega)]
      congr 1
      ext i hi
      simp [show 8 + (8 * k + i) = 8 * (k + 1) + i by omega]

theorem memReadBytes_getElem? (m : List Host.Cell) (x : Nat) {n k : Nat} (hk : k < n) :
    (memReadBytes m x n)[k]? = some (memRead m (x + k)) := by
  induction n generalizing x k with
  | zero => omega
  | succ n ih =>
    cases k with
    | zero => rfl
    | succ k => rw [memReadBytes, List.getElem?_cons_succ, ih _ (by omega), Nat.add_right_comm, Nat.add_assoc]

theorem memRead_memWriteBytes_of_inside {m : List Host.Cell} (hm : Memory.wf m = true) (x : Nat) (l : List Byte)
    {k : Nat} (hk : k < l.length) : some (memRead (memWriteBytes m x l) (x + k)) = l[k]? := by
  rw [← memReadBytes_getElem? _ _ hk, memReadBytes_memWriteBytes_eq hm]

theorem bufAddr_add (i j k : Nat) : bufAddr i (j + k) = bufAddr i j + k := (Nat.add_assoc _ _ _).symm

/-- Lane k of what a read of n bytes of a buffer returns. -/
theorem bufReadBytes_lane (s : State) (i j n : Nat) {k : Nat} (hk : k < 4) :
    (laneWord (s.bufReadBytes i j n)).extractLsb' (8 * k) 8 = if k < n then s.bufRead i (j + k) else 0 := by
  rw [laneWord_lane _ hk, List.getD_eq_getElem?_getD, State.bufReadBytes]
  split_ifs with hn
  · rw [memReadBytes_getElem? _ _ hn, State.bufRead, bufAddr_add, Option.getD_some]
  · rw [List.getElem?_eq_none (by rw [memReadBytes_length]; omega), Option.getD_none]

/-- What a write of the n low lanes leaves at the bytes written. -/
theorem bufWriteBytes_lanes_bufRead (hm : Memory.wf s.bmem = true) (i j : Nat) (v : Word) {n k : Nat} (hk : k < n) :
    (s.bufWriteBytes i j (lanes n v)).bufRead i (j + k) = v.extractLsb' (8 * k) 8 := by
  apply Option.some.inj
  rw [← lanes_getElem? v hk, State.bufRead, bufAddr_add]
  exact memRead_memWriteBytes_of_inside hm _ _ (by rwa [lanes_length])

/-- A write to buffer memory leaves every byte outside the range written. -/
theorem bufWriteBytes_memorySameOutside (s : State) (i j : Nat) (l : List Byte) :
    s.MemorySameOutside (s.bufWriteBytes i j l) (bufAddr i j) l.length := fun _ hx =>
  memRead_memWriteBytes_of_outside _ _ _ hx

/-! ### Performed transactions to a buffer -/

/-- A read of a buffer changes nothing but the record of returned words, so nothing is due after it either
(20_memory.md R78, 40_framecodec.md R141). -/
theorem handle_hostRead_of_window (hs : s.Eager) {i j n : Nat} (h : s.target a z = .window i j n) :
    s.handle (.hostRead a z) =
      .next { s with env := { s.env with reads := s.env.reads ++ [laneWord (s.bufReadBytes i j n)] } } := by
  have hread : s.hostRead a z =
      { s with env := { s.env with reads := s.env.reads ++ [laneWord (s.bufReadBytes i j n)] } } := by
    simp only [State.hostRead, State.afterRead, State.readValue, h]
  rw [State.handle, hread]
  exact congrArg Host.Outcome.next (encoderLoad_of_eager _ hs)

/-- A write to a buffer stores the low lanes and changes nothing else, so nothing is due after it either
(20_memory.md R78, 40_framecodec.md R141). -/
theorem handle_hostWrite_of_window (hs : s.Eager) {i j n : Nat} (h : s.target a z = .window i j n) (v : Word) :
    s.handle (.hostWrite a z v) = .next (s.bufWriteBytes i j (lanes n v)) := by
  have hwrite : s.hostWrite a z v = .next (s.bufWriteBytes i j (lanes n v)) := by
    simp only [State.hostWrite, h]
  rw [State.handle, hwrite]
  exact congrArg Host.Outcome.next (encoderLoad_of_eager _ hs)

/-- Settles O44: the transaction reaches its bytes, and the lanes are read and written one by one. -/
theorem bufferAccess : Obligations.BufferAccess := by
  intro s a z v hs hbus ha happ i j n
  have htarget : s.target a z = .window i j n := (target_of_window hbus ha).trans (if_pos happ)
  refine ⟨?_, ⟨_, handle_hostRead_of_window hs.eager htarget, ?_, fun _ => rfl, rfl⟩,
    ⟨_, handle_hostWrite_of_window hs.eager htarget v, ?_, ?_, rfl⟩⟩
  · show 0x10000 + 0x1000 * ((a.toNat - 0x10000) / 0x1000) + a.toNat % 0x1000 = a.toNat
    omega
  · exact ⟨_, rfl, fun k hk => bufReadBytes_lane s i j n hk⟩
  · exact fun k hk => bufWriteBytes_lanes_bufRead hs.mem.wf i j v hk
  · simpa using bufWriteBytes_memorySameOutside s i j (lanes n v)

end Sys2Proof.Machine

/-! SUPPORT. The decoder and the encoder agree (30_encoding.md R104 to R107, R110, R113). Every CMD word and every
control byte is written by one of the encoder's formats, and what the decoder answers on that format is read off a
table: opcodes, S-frame kinds, U-frame modifiers. Each table is inverted by the encoder. -/

namespace Sys2Proof

/-! ### The tables -/

/-- The command of an opcode (30_encoding.md R110, R113). -/
def commandInstr (op buf : BitVec 8) (len : BitVec 16) : Instr :=
  if op = 0x00 then .nop buf len
  else if op = 0x01 then .acquire buf len
  else if op = 0x02 then .release buf len
  else if op = 0x03 then .send buf len
  else if op = 0x04 then .read buf len
  else if op = 0x05 then .connect buf len
  else if op = 0x06 then .disconnect buf len
  else if op = 0x0F then .softReset buf len
  else .reservedOpcode op buf len

/-- The S-frame of the kind SS (30_encoding.md R105, R106). -/
def sInstr (ss : BitVec 2) (nr : SeqNum) (pf : Bool) (info : List Byte) : Instr :=
  if ss = 0b00 then .rr nr pf info
  else if ss = 0b10 then .rej nr pf info
  else if ss = 0b01 then .rnrReserved nr pf info
  else .srejReserved nr pf info

/-- The U-frame of the modifier M (30_encoding.md R105, R106). -/
def uInstr (m : BitVec 5) (pf : Bool) (info : List Byte) : Instr :=
  if m = 0b00111 then .sabm pf info
  else if m = 0b01000 then .disc pf info
  else if m = 0b01100 then .ua pf info
  else .uReserved m pf info

/-- The reserved opcodes are those without a command of their own (30_encoding.md R113). -/
theorem opReserved_iff : ∀ op : BitVec 8, opReserved op = true ↔
    op ≠ 0x00 ∧ op ≠ 0x01 ∧ op ≠ 0x02 ∧ op ≠ 0x03 ∧ op ≠ 0x04 ∧ op ≠ 0x05 ∧ op ≠ 0x06 ∧ op ≠ 0x0F := by decide

theorem modifierUsed_eq_false_iff (m : BitVec 5) :
    modifierUsed m = false ↔ m ≠ 0b00111 ∧ m ≠ 0b01000 ∧ m ≠ 0b01100 := by
  simp [modifierUsed, and_assoc]

theorem commandInstr_of_reserved {op : BitVec 8} (h : opReserved op = true) (buf : BitVec 8) (len : BitVec 16) :
    commandInstr op buf len = .reservedOpcode op buf len := by
  obtain ⟨h0, h1, h2, h3, h4, h5, h6, hF⟩ := (opReserved_iff op).1 h
  simp only [commandInstr, h0, h1, h2, h3, h4, h5, h6, hF, if_false]

theorem uInstr_of_unused {m : BitVec 5} (h : modifierUsed m = false) (pf : Bool) (info : List Byte) :
    uInstr m pf info = .uReserved m pf info := by
  obtain ⟨hsabm, hdisc, hua⟩ := (modifierUsed_eq_false_iff m).1 h
  simp only [uInstr, hsabm, hdisc, hua, if_false]

/-! ### The decoder reads the tables -/

theorem decodeCommand_commandWord (op buf : BitVec 8) (len : BitVec 16) :
    decodeCommand (commandWord op buf len) = commandInstr op buf len := by
  unfold decodeCommand
  rw [commandWord_op, commandWord_buf, commandWord_len]
  rfl

theorem decode_commandWord (op buf : BitVec 8) (len : BitVec 16) :
    decode .command (wordBytes (commandWord op buf len)) = .ok (commandInstr op buf len) := by
  rw [decode_wordBytes, decodeCommand_commandWord]

theorem classify_ctrlI (nr ns : SeqNum) (pf : Bool) (info : List Byte) :
    classify (ctrlI nr ns pf) info = .iFrame ns nr pf info := by
  obtain ⟨hkind, hnr, hns, hpf⟩ := ctrlI_fields nr ns pf
  simp only [classify, hkind, hnr, hns, hpf, if_true]

/-- A byte with bit 0 set is no I control byte (30_encoding.md R105). -/
theorem and_one_ne_zero {c : Byte} (h : c &&& 0x01 = 0x01) : c &&& 0x01 ≠ 0x00 := by
  rw [h]; decide

/-- No S control byte has the pattern of a U-frame (30_encoding.md R105). -/
theorem ctrlS_not_u : ∀ (nr : SeqNum) (pf : Bool) (ss : BitVec 2), ctrlS nr pf ss &&& 0xEF ≠ 0x2F ∧
    ctrlS nr pf ss &&& 0xEF ≠ 0x43 ∧ ctrlS nr pf ss &&& 0xEF ≠ 0x63 := by decide

theorem sKind_cases : ∀ ss : BitVec 2, ss = 0b00 ∨ ss = 0b10 ∨ ss = 0b01 ∨ ss = 0b11 := by decide

theorem classify_ctrlS (nr : SeqNum) (pf : Bool) (ss : BitVec 2) (info : List Byte) :
    classify (ctrlS nr pf ss) info = sInstr ss nr pf info := by
  obtain ⟨hodd, hpattern, hnr, hpf⟩ := ctrlS_fields nr pf ss
  obtain ⟨hsabm, hdisc, hua⟩ := ctrlS_not_u nr pf ss
  simp only [classify, and_one_ne_zero hodd, hpattern, hnr, hpf, hsabm, hdisc, hua, if_false]
  rcases sKind_cases ss with rfl | rfl | rfl | rfl <;> rfl

/-- The U patterns of 30_encoding.md R105, by the modifier. -/
theorem ctrlU_eq_iff : ∀ m : BitVec 5, (ctrlU m false = 0x2F ↔ m = 0b00111) ∧
    (ctrlU m false = 0x43 ↔ m = 0b01000) ∧ (ctrlU m false = 0x63 ↔ m = 0b01100) := by decide

/-- No U control byte has the pattern of an S-frame (30_encoding.md R105). -/
theorem ctrlU_not_s : ∀ (m : BitVec 5) (pf : Bool), ctrlU m pf &&& 0x0F ≠ 0x01 ∧ ctrlU m pf &&& 0x0F ≠ 0x09 ∧
    ctrlU m pf &&& 0x0F ≠ 0x05 ∧ ctrlU m pf &&& 0x0F ≠ 0x0D := by decide

theorem classify_ctrlU (m : BitVec 5) (pf : Bool) (info : List Byte) :
    classify (ctrlU m pf) info = uInstr m pf info := by
  obtain ⟨hodd, -, hpattern, hm, hpf⟩ := ctrlU_fields m pf
  obtain ⟨hrr, hrej, hrnr, hsrej⟩ := ctrlU_not_s m pf
  obtain ⟨hsabm, hdisc, hua⟩ := ctrlU_eq_iff m
  simp only [classify, uInstr, and_one_ne_zero hodd, hrr, hrej, hrnr, hsrej, hpattern, hsabm, hdisc, hua, hm, hpf,
    if_false]

/-- Settles O1: each constructor's encoding is one of the formats, and the decoder reads its table there. -/
theorem decodeOfEncode : Obligations.DecodeOfEncode := by
  intro i hwf
  cases i with
  | nop buf len => exact decode_commandWord 0x00 buf len
  | acquire buf len => exact decode_commandWord 0x01 buf len
  | release buf len => exact decode_commandWord 0x02 buf len
  | send buf len => exact decode_commandWord 0x03 buf len
  | read buf len => exact decode_commandWord 0x04 buf len
  | connect buf len => exact decode_commandWord 0x05 buf len
  | disconnect buf len => exact decode_commandWord 0x06 buf len
  | softReset buf len => exact decode_commandWord 0x0F buf len
  | reservedOpcode op buf len =>
    exact (decode_commandWord op buf len).trans (congrArg Except.ok (commandInstr_of_reserved hwf buf len))
  | iFrame ns nr pf info => exact congrArg Except.ok (classify_ctrlI nr ns pf info)
  | rr nr pf info => exact congrArg Except.ok (classify_ctrlS nr pf 0b00 info)
  | rej nr pf info => exact congrArg Except.ok (classify_ctrlS nr pf 0b10 info)
  | sabm pf info => exact congrArg Except.ok (classify_ctrlU 0b00111 pf info)
  | ua pf info => exact congrArg Except.ok (classify_ctrlU 0b01100 pf info)
  | disc pf info => exact congrArg Except.ok (classify_ctrlU 0b01000 pf info)
  | rnrReserved nr pf info => exact congrArg Except.ok (classify_ctrlS nr pf 0b01 info)
  | srejReserved nr pf info => exact congrArg Except.ok (classify_ctrlS nr pf 0b11 info)
  | uReserved m pf info =>
    obtain ⟨hm, -⟩ := Bool.and_eq_true_iff.1 hwf
    have hm : modifierUsed m = false := by simpa using hm
    exact congrArg Except.ok ((classify_ctrlU m pf info).trans (uInstr_of_unused hm pf info))

/-! ### The encoder inverts the tables -/

/-- Every control byte is the I, the S or the U control byte of its own fields (30_encoding.md R104). -/
theorem ctrl_eq_fields : ∀ c : Byte,
    c = ctrlI (c.extractLsb' 5 3) (c.extractLsb' 1 3) (c.getLsbD 4) ∨
    c = ctrlS (c.extractLsb' 5 3) (c.getLsbD 4) (c.extractLsb' 2 2) ∨
    c = ctrlU (c.extractLsb' 5 3 ++ c.extractLsb' 2 2) (c.getLsbD 4) := by decide

/-- What it is for bytes to be the encoding of an instruction at a source: `Obligations.EncodeOfDecode` for one
instruction. 4097 bytes are the longest body, the control byte and `maxInfo` bytes. -/
def Instr.EncodedAs (i : Instr) (src : Source) (bytes : List Byte) : Prop :=
  i.source = src ∧ encode i = bytes ∧ (bytes.length ≤ 4097 → i.wellFormed = true)

theorem commandInstr_encodedAs (op buf : BitVec 8) (len : BitVec 16) :
    (commandInstr op buf len).EncodedAs .command (wordBytes (commandWord op buf len)) := by
  unfold commandInstr
  split_ifs with h0 h1 h2 h3 h4 h5 h6 hF
  case neg => exact ⟨rfl, rfl, fun _ => (opReserved_iff op).2 ⟨h0, h1, h2, h3, h4, h5, h6, hF⟩⟩
  all_goals subst op; exact ⟨rfl, rfl, fun _ => rfl⟩

/-- An info field fits if its frame body does (30_encoding.md R103). -/
theorem infoFits_of_body {c : Byte} {info : List Byte} (h : (c :: info).length ≤ 4097) :
    decide (info.length ≤ maxInfo) = true :=
  decide_eq_true (Nat.le_of_succ_le_succ h)

theorem iFrame_encodedAs (nr ns : SeqNum) (pf : Bool) (info : List Byte) :
    (Instr.iFrame ns nr pf info).EncodedAs .frame (ctrlI nr ns pf :: info) :=
  ⟨rfl, rfl, infoFits_of_body⟩

theorem sInstr_encodedAs (ss : BitVec 2) (nr : SeqNum) (pf : Bool) (info : List Byte) :
    (sInstr ss nr pf info).EncodedAs .frame (ctrlS nr pf ss :: info) := by
  rcases sKind_cases ss with rfl | rfl | rfl | rfl <;> exact ⟨rfl, rfl, infoFits_of_body⟩

theorem uInstr_encodedAs (m : BitVec 5) (pf : Bool) (info : List Byte) :
    (uInstr m pf info).EncodedAs .frame (ctrlU m pf :: info) := by
  unfold uInstr
  split_ifs with hsabm hdisc hua
  case neg =>
    have hm := (modifierUsed_eq_false_iff m).2 ⟨hsabm, hdisc, hua⟩
    exact ⟨rfl, rfl, fun h => by rw [Instr.wellFormed, hm]; exact infoFits_of_body h⟩
  all_goals subst m; exact ⟨rfl, rfl, infoFits_of_body⟩

theorem classify_encodedAs (c : Byte) (info : List Byte) : (classify c info).EncodedAs .frame (c :: info) := by
  rcases ctrl_eq_fields c with hc | hc | hc
  · rw [hc, classify_ctrlI]; exact iFrame_encodedAs _ _ _ info
  · rw [hc, classify_ctrlS]; exact sInstr_encodedAs _ _ _ info
  · rw [hc, classify_ctrlU]; exact uInstr_encodedAs _ _ info

theorem decodeCommand_encodedAs (w : Word) : (decodeCommand w).EncodedAs .command (wordBytes w) := by
  rw [← commandWord_fields w, decodeCommand_commandWord]
  exact commandInstr_encodedAs _ _ _

/-- Four bytes are the bytes of their word (20_memory.md R74). -/
theorem wordBytes_append (b0 b1 b2 b3 : Byte) : wordBytes (b3 ++ b2 ++ b1 ++ b0) = [b0, b1, b2, b3] := by
  simp only [wordBytes, List.cons.injEq, and_true]
  refine ⟨?_, ?_, ?_, ?_⟩
  all_goals
    apply BitVec.eq_of_getLsbD_eq
    intro i hi
    simp only [BitVec.getLsbD_append, BitVec.getLsbD_extractLsb']
    grind

/-- Settles O2: the bytes are a CMD word or a control byte with an info field, and the encoder inverts the table that
each is decoded by. -/
theorem encodeOfDecode : Obligations.EncodeOfDecode := by
  intro src bytes i h
  show i.EncodedAs src bytes
  unfold decode at h
  split at h
  · next b0 b1 b2 b3 =>
    injection h with h
    rw [← h, ← wordBytes_append b0 b1 b2 b3]
    exact decodeCommand_encodedAs _
  · cases h
  · cases h
  · next c info =>
    injection h with h
    exact h ▸ classify_encodedAs c info

/-- Settles O3: the decoder evaluated on each string of bytes. -/
theorem sampleWordsDecode : Obligations.SampleWordsDecode := by
  unfold Obligations.SampleWordsDecode
  decide

end Sys2Proof

/-! SUPPORT. What a stuffed string holds, byte by byte (30_encoding.md R102), and the operand fields the commands ignore
(R112). -/

namespace Sys2Proof.Machine

theorem delim_notMem_stuff (s : List Byte) : delim ∉ stuff s := by
  induction s with
  | nil => exact List.not_mem_nil
  | cons b s ih =>
    rw [stuff_cons, List.mem_append, not_or]
    exact ⟨delim_notMem_stuffByte b, ih⟩

/-- A masked byte is the second byte of its pair, and not an ESC (30_encoding.md R102). -/
theorem masked_cases {b : Byte} (h : b = delim ∨ b = esc) : b ^^^ mask = 0x5E ∨ b ^^^ mask = 0x5D := by
  rcases h with rfl | rfl <;> decide

theorem masked_ne_esc {b : Byte} (h : b = delim ∨ b = esc) : b ^^^ mask ≠ esc := by
  rcases h with rfl | rfl <;> decide

/-- In a stuffed string, ESC is followed by a masked DELIM or a masked ESC (30_encoding.md R102). -/
theorem stuff_after_esc {s : List Byte} {i : Nat} (h : (stuff s)[i]? = some esc) :
    (stuff s)[i + 1]? = some 0x5E ∨ (stuff s)[i + 1]? = some 0x5D := by
  induction s generalizing i with
  | nil => cases h
  | cons b s ih =>
    rw [stuff_cons] at h ⊢
    rcases stuffByte_cases b with ⟨-, hesc, hb⟩ | ⟨hspecial, hb⟩ <;> rw [hb] at h ⊢
    · match i with
      | 0 => exact absurd (Option.some.inj h) hesc
      | i + 1 => exact ih h
    · match i with
      | 0 => exact (masked_cases hspecial).imp (congrArg some) (congrArg some)
      | 1 => exact absurd (Option.some.inj h) (masked_ne_esc hspecial)
      | i + 2 => exact ih h

theorem stuffByte_length (b : Byte) : (stuffByte b).length = 1 + if b == 0x7E || b == 0x7D then 1 else 0 := by
  revert b; decide

theorem stuff_length (s : List Byte) :
    (stuff s).length = s.length + s.countP fun b => b == 0x7E || b == 0x7D := by
  induction s with
  | nil => rfl
  | cons b s ih =>
    rw [stuff_cons, List.length_append, ih, stuffByte_length, List.length_cons, List.countP_cons]
    omega

/-- Settles O4: the equations are those of one byte; the rest is by induction on the string. -/
theorem stuffing : Obligations.Stuffing := by
  refine ⟨stuff_nil, fun b s h => ?_, fun b s hdelim hesc => ?_, delim_notMem_stuff, fun s i => stuff_after_esc,
    stuff_length⟩
  · exact congrArg (· ++ stuff s) (if_pos h)
  · exact congrArg (· ++ stuff s) (if_neg (not_or.2 ⟨hdelim, hesc⟩))

/-- Settles O17: no command's own function reads the fields its row does not list. -/
theorem unusedOperandsIgnored : Obligations.UnusedOperandsIgnored := fun _ _ _ _ _ =>
  ⟨rfl, rfl, rfl, rfl, rfl, rfl, rfl⟩

end Sys2Proof.Machine

/-! SUPPORT. The de-stuffer byte by byte (40_framecodec.md R151 to R154), the end of a received frame (R155), and a whole
wire frame fed to the block (R156). -/

namespace Sys2Proof.Machine

variable {s t : State} {b : Byte}

/-! ### One received byte -/

/-- `s` with the de-stuffer in state `st`, the bytes `acc` accumulated. -/
def State.withRx (s : State) (st : RxState) (acc : List Byte) : State := { s with rx := { state := st, acc := acc } }

theorem withRx_self {st : RxState} {acc : List Byte} (hst : s.rx.state = st) (hacc : s.rx.acc = acc) :
    s.withRx st acc = s := by
  subst hst hacc; rfl

theorem append_of_lt (h : s.rx.acc.length < s.maxFrame) (x : Byte) :
    s.append x = s.withRx s.rx.state (s.rx.acc ++ [x]) := if_neg (Nat.not_le.2 h)

theorem append_of_ge (h : s.maxFrame ≤ s.rx.acc.length) (x : Byte) : s.append x = s.countOversize.withRx .hunt [] :=
  if_pos h

theorem rxByte_hunt_delim (h : s.rx.state = .hunt) : s.rxByte delim = .next (s.withRx .data []) := by
  simp only [State.rxByte, h, if_true]
  rfl

theorem rxByte_hunt_of_ne (h : s.rx.state = .hunt) (hd : b ≠ delim) : s.rxByte b = .next s := by
  simp only [State.rxByte, h, if_neg hd]

theorem rxByte_data_delim_of_nil (h : s.rx.state = .data) (hacc : s.rx.acc = []) : s.rxByte delim = .next s := by
  simp only [State.rxByte, h, hacc, if_true, andThen]
  exact congrArg _ (withRx_self h hacc)

theorem rxByte_data_delim_of_complete (h : s.rx.state = .data) (hacc : s.rx.acc ≠ [])
    (hc : s.complete s.rx.acc = .next t) : s.rxByte delim = .next (t.withRx t.rx.state []) := by
  simp only [State.rxByte, h, if_true, if_neg hacc, hc, andThen]
  rfl

theorem rxByte_data_esc (h : s.rx.state = .data) : s.rxByte esc = .next (s.withRx .esc s.rx.acc) := by
  simp only [State.rxByte, h, if_neg (show esc ≠ delim by decide), if_true]
  rfl

theorem rxByte_data_of_ne (h : s.rx.state = .data) (hd : b ≠ delim) (he : b ≠ esc) : s.rxByte b = .next (s.append b) := by
  simp only [State.rxByte, h, if_neg hd, if_neg he]

theorem rxByte_esc_delim (h : s.rx.state = .esc) : s.rxByte delim = .next (s.withRx .data []) := by
  simp only [State.rxByte, h, if_true]
  rfl

theorem rxByte_esc_of_ne (h : s.rx.state = .esc) (hd : b ≠ delim) :
    s.rxByte b = .next ((s.withRx .data s.rx.acc).append (b ^^^ mask)) := by
  simp only [State.rxByte, h, if_neg hd]
  rfl

/-- Settles O8: the de-stuffer's state and the byte's class decide, then the room left in the accumulator. -/
theorem deStuffer : Obligations.DeStuffer := by
  refine ⟨fun _ => rfl, fun s b => ?_⟩
  intro room
  refine ⟨rxByte_hunt_of_ne, fun h hb => ?_, fun h hb => ?_, fun h hd he hroom => ?_, fun h hb => ?_,
    fun h hd hroom => ?_, fun h hroom => ?_⟩
  · subst hb; exact rxByte_hunt_delim h
  · subst hb; exact rxByte_data_esc h
  · rw [rxByte_data_of_ne h hd he, append_of_lt hroom, h]; rfl
  · subst hb; exact rxByte_esc_delim h
  · rw [rxByte_esc_of_ne h hd, append_of_lt (s := s.withRx .data s.rx.acc) hroom]; rfl
  · rcases h with ⟨h, hd, he⟩ | ⟨h, hd⟩
    · rw [rxByte_data_of_ne h hd he, append_of_ge hroom]; rfl
    · rw [rxByte_esc_of_ne h hd, append_of_ge (s := s.withRx .data s.rx.acc) hroom]; rfl

/-! ### The end of a frame (40_framecodec.md R155) -/

theorem complete_of_gt {acc : List Byte} (h : s.maxFrame < acc.length) : s.complete acc = .next s.countOversize := if_pos h

theorem complete_of_lt {acc : List Byte} (hroom : acc.length ≤ s.maxFrame) (h : acc.length < 1 + s.cfg.fcsMode.fcsLen) :
    s.complete acc = .next s := (if_neg (Nat.not_lt.2 hroom)).trans (if_pos h)

/-- An accumulator of legal length is a body and the bytes to check it by. -/
theorem complete_of_body {body check : List Byte} (hcheck : check.length = s.cfg.fcsMode.fcsLen) (hbody : body ≠ [])
    (hroom : (body ++ check).length ≤ s.maxFrame) :
    s.complete (body ++ check) = if s.fcsNow body ≠ check then .next s else s.receiveFrame body := by
  have hpos := List.length_pos_iff.2 hbody
  have hn : (body ++ check).length - s.cfg.fcsMode.fcsLen = body.length := by
    rw [List.length_append, hcheck, Nat.add_sub_cancel]
  have hlong : ¬ (body ++ check).length < 1 + s.cfg.fcsMode.fcsLen := by
    rw [List.length_append, hcheck]; omega
  simp only [State.complete, if_neg (Nat.not_lt.2 hroom), if_neg hlong, hn, List.take_left, List.drop_left]

theorem receiveFrame_of_decode {body : List Byte} {i : Instr} (h : decode .frame body = .ok i) :
    s.receiveFrame body = exec i s := by
  simp only [State.receiveFrame, h]

/-- Only the empty body does not decode (30_encoding.md R107). -/
theorem decode_frame_isOk {body : List Byte} : (∃ i, decode .frame body = .ok i) ↔ body ≠ [] := by
  cases body with
  | nil => exact ⟨fun ⟨_, h⟩ => (nomatch h), fun h => absurd rfl h⟩
  | cons c info => exact ⟨fun _ => List.cons_ne_nil c info, fun _ => ⟨_, rfl⟩⟩

/-- A good frame runs its instruction. -/
theorem complete_of_good {body : List Byte} {i : Instr} (hdec : decode .frame body = .ok i)
    (hroom : body.length ≤ 1 + s.cfg.mtu.toNat) : s.complete (body ++ s.fcsNow body) = exec i s := by
  have hlen : (s.fcsNow body).length = s.cfg.fcsMode.fcsLen := fcs_length ..
  rw [complete_of_body hlen (decode_frame_isOk.1 ⟨i, hdec⟩), if_neg (not_not.2 rfl), receiveFrame_of_decode hdec]
  rw [List.length_append, hlen]
  exact Nat.add_le_add_right hroom _

/-- Settles O10: the two length bounds, then the check. -/
theorem frameCompletion : Obligations.FrameCompletion := by
  intro s acc n room
  refine ⟨complete_of_gt, complete_of_lt, ?_⟩
  rintro body check rfl hcheck hbody hroom
  rw [complete_of_body hcheck hbody hroom]
  constructor
  · exact fun h => if_pos h
  · intro h
    obtain ⟨i, hi⟩ := decode_frame_isOk.2 hbody
    exact ⟨i, hi, (if_neg (not_not.2 h)).trans (receiveFrame_of_decode hi)⟩

/-- The closing DELIM of a good frame runs its instruction and empties the accumulator (40_framecodec.md R152, R155). -/
theorem rxByte_delim_of_good {body : List Byte} {i : Instr} (hst : s.rx.state = .data)
    (hacc : s.rx.acc = body ++ s.fcsNow body) (hroom : body.length ≤ 1 + s.cfg.mtu.toNat)
    (hdec : decode .frame body = .ok i) :
    ∃ t, exec i s = .next t ∧ s.rxByte delim = .next (t.withRx t.rx.state []) := by
  obtain ⟨t, ht⟩ := exec_next i s
  refine ⟨t, ht, rxByte_data_delim_of_complete hst ?_ ?_⟩
  · rw [hacc]
    exact List.append_ne_nil_of_left_ne_nil (decode_frame_isOk.1 ⟨i, hdec⟩) _
  · rw [hacc, complete_of_good hdec hroom, ht]

/-! ### Steps with a received byte -/

theorem handle_rxByte_of_next (h : s.rxByte b = .next t) : s.handle (.rxByte b) = .next t.encoderLoad := by
  rw [State.handle, h, andThen]

theorem handle_rxByte_of_eager (ht : t.Eager) (h : s.rxByte b = .next t) : s.handle (.rxByte b) = .next t := by
  rw [handle_rxByte_of_next h, encoderLoad_of_eager t ht]

theorem State.Eager.withRx (h : s.Eager) (st : RxState) (acc : List Byte) : (s.withRx st acc).Eager := h

theorem step_of_inbox {e : PortEvent} {later : List PortEvent} (h : s.env.inbox = e :: later) :
    step s = State.handle { s with env := { s.env with inbox := later } } e := by
  simp only [step, State.dropEvent, h, List.tail_cons]

/-- Settles O12: the step of the closing DELIM. -/
theorem stepRunsFrame : Obligations.StepRunsFrame := by
  intro s body later i hin hst hacc hroom hdec
  rw [step_of_inbox hin]
  obtain ⟨t, ht, hrx⟩ := rxByte_delim_of_good (s := { s with env := { s.env with inbox := later } }) hst hacc hroom hdec
  exact ⟨t, ht, handle_rxByte_of_next hrx⟩

/-- Settles O14: every step answers a next state; the two idle cases are the definitions' own. -/
theorem everyStepCompletes : Obligations.EveryStepCompletes := by
  refine ⟨fun s => ?_, fun s hin => ?_, fun s ha => ?_⟩
  · cases hin : s.env.inbox with
    | nil => exact ⟨s, by simp only [step, hin]⟩
    | cons e later => rw [step_of_inbox hin]; exact handle_next _ e
  · simp only [step, hin]
  · simp only [State.handle, ha, Bool.false_eq_true, if_false]

/-! ### Runs of events -/

theorem handleAll_cons_of_next {e : PortEvent} (h : s.handle e = .next t) (es : List PortEvent) :
    s.handleAll (e :: es) = t.handleAll es := by
  rw [State.handleAll, h]

theorem handleAll_append_of_next {es : List PortEvent} (h : s.handleAll es = .next t) (es' : List PortEvent) :
    s.handleAll (es ++ es') = t.handleAll es' := by
  induction es generalizing s with
  | nil => injection h with h; rw [h]; rfl
  | cons e es ih =>
    obtain ⟨u, hu⟩ := handle_next s e
    rw [List.cons_append, handleAll_cons_of_next hu]
    rw [handleAll_cons_of_next hu] at h
    exact ih h

/-- From HUNT, or in DATA with nothing accumulated, a DELIM leaves the de-stuffer ready for a frame. -/
theorem handle_delim_opens (hs : s.Eager) (h : s.rx.state = .hunt ∨ (s.rx.state = .data ∧ s.rx.acc = [])) :
    s.handle (.rxByte delim) = .next (s.withRx .data []) := by
  refine handle_rxByte_of_eager (hs.withRx _ _) ?_
  rcases h with h | ⟨h, hacc⟩
  · exact rxByte_hunt_delim h
  · rw [rxByte_data_delim_of_nil h hacc, withRx_self h hacc]

theorem handleAll_delims (hs : s.Eager) (hst : s.rx.state = .data) (hacc : s.rx.acc = []) (n : Nat) :
    s.handleAll (List.replicate n (.rxByte delim)) = .next s := by
  induction n with
  | zero => rfl
  | succ n ih =>
    rw [List.replicate_succ, handleAll_cons_of_next (handle_delim_opens hs (.inr ⟨hst, hacc⟩)), withRx_self hst hacc, ih]

/-- Settles O9: the DELIM that completes, and by induction the runs that do not. -/
theorem delimitersOpenAndClose : Obligations.DelimitersOpenAndClose := by
  refine ⟨fun s hst hacc => ?_, fun s n hs hrx => ?_, fun s n hs hst => ?_⟩
  · obtain ⟨t, ht⟩ := complete_next s s.rx.acc
    exact ⟨t, ht, rxByte_data_delim_of_complete hst hacc ht⟩
  · exact handleAll_delims hs (congrArg Destuffer.state hrx) (congrArg Destuffer.acc hrx) n
  · rw [List.replicate_succ]
    exact (handleAll_cons_of_next (handle_delim_opens hs (.inl hst)) _).trans
      (handleAll_delims (hs.withRx .data []) rfl rfl n)

/-! ### A wire frame (40_framecodec.md R156) -/

/-- The stuffed form of one byte appends that byte. -/
theorem handleAll_stuffByte (hs : s.Eager) {acc : List Byte} (hroom : acc.length < s.maxFrame) (b : Byte) :
    (s.withRx .data acc).handleAll ((stuffByte b).map .rxByte) = .next (s.withRx .data (acc ++ [b])) := by
  rcases stuffByte_cases b with ⟨hd, he, hb⟩ | ⟨hspecial, hb⟩ <;> rw [hb]
  · refine handleAll_cons_of_next (handle_rxByte_of_eager (hs.withRx _ _) ?_) []
    rw [rxByte_data_of_ne rfl hd he, append_of_lt hroom]; rfl
  · have hmasked : b ^^^ mask ≠ delim ∧ b ^^^ mask ^^^ mask = b := by rcases hspecial with rfl | rfl <;> decide
    refine (handleAll_cons_of_next (t := s.withRx .esc acc)
      (handle_rxByte_of_eager (hs.withRx _ _) (rxByte_data_esc rfl)) _).trans ?_
    refine handleAll_cons_of_next (handle_rxByte_of_eager (hs.withRx _ _) ?_) []
    rw [rxByte_esc_of_ne rfl hmasked.1, append_of_lt hroom, hmasked.2]; rfl

/-- The stuffed form of a string of bytes that fits appends that string. -/
theorem handleAll_stuff (hs : s.Eager) {acc : List Byte} (l : List Byte) (hroom : acc.length + l.length ≤ s.maxFrame) :
    (s.withRx .data acc).handleAll ((stuff l).map .rxByte) = .next (s.withRx .data (acc ++ l)) := by
  induction l generalizing acc with
  | nil => rw [List.append_nil]; rfl
  | cons b l ih =>
    rw [List.length_cons] at hroom
    rw [stuff_cons, List.map_append, handleAll_append_of_next (handleAll_stuffByte hs (by omega) b),
      ih (by rw [List.length_append, List.length_singleton]; omega), List.append_assoc, List.singleton_append]

/-- Settles O5: the opening DELIM empties the accumulator, the stuffed bytes fill it, the closing DELIM runs the frame. -/
theorem roundTripOnTheWire : Obligations.RoundTripOnTheWire := by
  intro s c info i hs hmtu hrx hdec w filled
  have hw : w = (delim :: stuff (unstuffed s.params s.cfg.fcsMode c info)) ++ [delim] := rfl
  have hfill : s.handleAll (w.dropLast.map .rxByte) = .next filled := by
    rw [hw, List.dropLast_concat, List.map_cons, handleAll_cons_of_next (handle_delim_opens hs hrx)]
    refine handleAll_stuff hs _ ?_
    rw [unstuffed_length, State.maxFrame, List.length_nil]
    omega
  obtain ⟨t, ht, hclose⟩ := rxByte_delim_of_good (s := filled) (body := c :: info) rfl rfl
    (by rw [List.length_cons, Nat.add_comm]; exact Nat.add_le_add_left hmtu 1) hdec
  refine ⟨by rw [hw, List.getLast?_concat]; rfl, hfill, t, ht, ?_⟩
  rw [hw, List.dropLast_concat] at hfill
  rw [hw, List.map_append, handleAll_append_of_next hfill]
  exact handleAll_cons_of_next (handle_rxByte_of_next hclose) []

end Sys2Proof.Machine

/-! SUPPORT. The transmit half of the FrameCodec: which frame an idle encoder loads (40_framecodec.md R141, R142), the
hand-off of one byte (R144, R145), and a loaded frame that only a reset stops (R140). -/

namespace Sys2Proof.Machine

variable {s t : State}

/-! ### The encoder load -/

theorem encoderLoad_of_nextFrame (ha : s.enc.active = false) {k : Due} (h : s.nextFrame = some k) :
    s.encoderLoad = s.load k := by
  simp only [State.encoderLoad, ha, h, Bool.false_eq_true, if_false]

theorem encoderLoad_of_none (h : s.nextFrame = none) : s.encoderLoad = s := encoderLoad_of_eager s fun _ => h

theorem nextFrame_of_ua (h : s.uaPending = true) : s.nextFrame = some .ua := if_pos h

section
variable (hua : s.uaPending = false)
include hua

theorem nextFrame_of_sabm (h : s.conn = .connecting ∧ s.sabmPending = true) : s.nextFrame = some .sabm := by
  simp only [State.nextFrame, hua, Bool.false_eq_true, if_false, if_pos h]

theorem nextFrame_of_disc (h : s.conn = .disconnecting ∧ s.discPending = true) : s.nextFrame = some .disc := by
  simp [State.nextFrame, hua, h.1, h.2]

theorem nextFrame_of_connected (h : s.conn = .connected) : s.nextFrame = s.nextDataFrame := by
  simp [State.nextFrame, hua, h]

theorem nextFrame_of_not_connected (h : s.conn ≠ .connected) (hsabm : ¬ (s.conn = .connecting ∧ s.sabmPending = true))
    (hdisc : ¬ (s.conn = .disconnecting ∧ s.discPending = true)) : s.nextFrame = none := by
  simp only [State.nextFrame, hua, Bool.false_eq_true, if_false, if_neg hsabm, if_neg hdisc, if_neg h]

end

theorem nextDataFrame_of_rej (h : s.rejPending = true) : s.nextDataFrame = some .rej := if_pos h

theorem due_iff (v : Slot) : v.due = true ↔ v.valid = true ∧ v.needsTx = true := Bool.and_eq_true_iff

/-- The I-frame that is due is the oldest one waiting. -/
theorem nextDataFrame_of_oldest (hrej : s.rejPending = false) {q : SeqNum} (hq : (s.slot q).due = true)
    (hold : ∀ r, (s.slot r).due = true → (q - s.va).toNat ≤ (r - s.va).toNat) : s.nextDataFrame = some (.i q) := by
  have h : s.oldestDue = some q :=
    oldest_eq_some.2 ⟨hq, fun r hr => Bool.eq_false_iff.2 fun hd => Nat.not_lt.2 (hold r hd) hr⟩
  simp only [State.nextDataFrame, hrej, h, Bool.false_eq_true, if_false]

theorem nextDataFrame_of_none_waiting (hrej : s.rejPending = false) (hidle : ∀ q, ¬ (s.slot q).due = true) :
    s.nextDataFrame = if s.ackPending = true ∧ s.ackTimer = 0 then some .rr else none := by
  have h : s.oldestDue = none := oldest_eq_none.2 fun q => Bool.eq_false_iff.2 (hidle q)
  simp only [State.nextDataFrame, hrej, h, Bool.false_eq_true, if_false, Bool.and_eq_true, beq_iff_eq]

/-- The control bytes of the S-frames and of the I-frame, as numbers (30_encoding.md R104, R108). -/
theorem ctrl_rej : ∀ vr : SeqNum, Due.rej.ctrl vr = BitVec.ofNat 8 (32 * vr.toNat + 9) := by decide

theorem ctrl_rr : ∀ vr : SeqNum, Due.rr.ctrl vr = BitVec.ofNat 8 (32 * vr.toNat + 1) := by decide

theorem ctrl_i : ∀ vr q : SeqNum, (Due.i q).ctrl vr = BitVec.ofNat 8 (32 * vr.toNat + 2 * q.toNat) := by decide

theorem load_rej : s.load .rej = { s with
    rejPending := false, ackPending := false, ackTimer := 0,
    enc := { s.enc with
      active := true, kind := .rej, orphan := false, pos := 0,
      wire := build s.params s.cfg.fcsMode (BitVec.ofNat 8 (32 * s.vr.toNat + 9)) [] } } := by
  rw [← ctrl_rej]; rfl

theorem load_rr : s.load .rr = { s with
    ackPending := false,
    enc := { s.enc with
      active := true, kind := .rr, orphan := false, pos := 0,
      wire := build s.params s.cfg.fcsMode (BitVec.ofNat 8 (32 * s.vr.toNat + 1)) [] } } := by
  rw [← ctrl_rr]; rfl

theorem load_i (q : SeqNum) : s.load (.i q) = { s with
    ackPending := false, ackTimer := 0, slots := (s.load (.i q)).slots,
    enc := { active := true, kind := .i, seq := q, buf := (s.slot q).buf, orphan := false, pos := 0,
             wire := build s.params s.cfg.fcsMode (BitVec.ofNat 8 (32 * s.vr.toNat + 2 * q.toNat))
               (s.payload (s.slot q).buf) } } := by
  rw [← ctrl_i]; rfl

theorem load_i_slot (q r : SeqNum) :
    (s.load (.i q)).slot r = if q = r then { s.slot q with needsTx := false } else s.slot r :=
  setSlot_slot s q r _

theorem payload_length (b : Nat) : (s.payload b).length = (s.blen b).toNat := memReadBytes_length ..

theorem payload_getElem? (b : Nat) {j : Nat} (hj : j < (s.payload b).length) :
    (s.payload b)[j]? = some (s.bufRead b j) := by
  rw [payload_length] at hj
  exact memReadBytes_getElem? _ _ hj

/-- Settles O37: `nextFrame` in its order of priority, then the load of each kind. -/
theorem encoderLoad : Obligations.EncoderLoad := by
  refine ⟨encoderLoad_of_active, fun s ha => ?_⟩
  intro loaded sabm disc waiting
  have hdue : ∀ {q}, (s.slot q).due = true ↔ waiting q := due_iff _
  refine ⟨fun hua => ?_, fun hua hsabm => ?_, fun hua hdisc => ?_, fun hua hc hrej => ?_, fun q hua hc hrej hq hold => ?_,
    fun hua hc hrej hidle hack htimer => ?_, fun hua hsabm hdisc hdata => ?_⟩
  · exact encoderLoad_of_nextFrame ha (nextFrame_of_ua hua)
  · exact encoderLoad_of_nextFrame ha (nextFrame_of_sabm hua hsabm)
  · exact encoderLoad_of_nextFrame ha (nextFrame_of_disc hua hdisc)
  · rw [encoderLoad_of_nextFrame ha ((nextFrame_of_connected hua hc).trans (nextDataFrame_of_rej hrej))]
    exact load_rej
  · rw [encoderLoad_of_nextFrame ha ((nextFrame_of_connected hua hc).trans
      (nextDataFrame_of_oldest hrej (hdue.2 hq) fun r hr => hold r (hdue.1 hr)))]
    refine ⟨s.payload (s.slot q).buf, payload_length _, fun j => payload_getElem? _, ?_, fun r hr => ?_, load_i q⟩
    · rw [load_i_slot, if_pos rfl]
    · rw [load_i_slot, if_neg hr.symm]
  · rw [encoderLoad_of_nextFrame ha ((nextFrame_of_connected hua hc).trans
      ((nextDataFrame_of_none_waiting hrej fun q hq => hidle q (hdue.1 hq)).trans (if_pos ⟨hack, htimer⟩)))]
    exact load_rr
  · apply encoderLoad_of_none
    by_cases hc : s.conn = .connected
    · obtain ⟨hrej, hidle, hack⟩ := hdata hc
      rw [nextFrame_of_connected hua hc, nextDataFrame_of_none_waiting hrej fun q hq => hidle q (hdue.1 hq)]
      exact if_neg fun h => hack h.1 h.2
    · exact nextFrame_of_not_connected hua hc hsabm hdisc

/-! ### The hand-off of a byte (40_framecodec.md R144, R145) -/

theorem handle_txReady_of_active (ha : s.enc.active = true) : s.handle .txReady = .next s.txByte.encoderLoad := if_pos ha

/-- `s` with the byte on the port handed over. -/
def State.advanced (s : State) : State := { s.emit s.txData with enc := { s.enc with pos := s.enc.pos + 1 } }

theorem txByte_of_ne (h : s.enc.pos + 1 ≠ s.enc.wire.length) : s.txByte = s.advanced := if_neg h

theorem txByte_of_eq (h : s.enc.pos + 1 = s.enc.wire.length) : s.txByte = s.advanced.frameEnd := if_pos h

/-- The byte handed over is the next of the wire. -/
theorem getElem?_pos_eq_txData (h : s.enc.pos < s.enc.wire.length) : s.enc.wire[s.enc.pos]? = some s.txData := by
  rw [State.txData, List.getD_eq_getElem?_getD, List.getElem?_eq_getElem h, Option.getD_some]

/-- The end of an orphaned I-frame frees its buffer. -/
theorem frameEnd_of_orphan (hk : s.enc.kind = .i) (ho : s.enc.orphan = true) :
    s.frameEnd = State.freeBuffer { s with enc := s.enc.ended } s.enc.buf :=
  (if_pos hk).trans (if_pos ho)

/-- The end of the first transmission of an I-frame leaves its buffer waiting for the acknowledgment. -/
theorem frameEnd_of_pendTx (hk : s.enc.kind = .i) (ho : s.enc.orphan = false) (hb : s.bstate s.enc.buf = .pendTx) :
    s.frameEnd = State.setBstate { s with enc := s.enc.ended } s.enc.buf .pendAck := by
  refine (if_pos hk).trans ((if_neg ?_).trans (if_pos hb))
  rw [ho]; decide

/-- The end of any other frame leaves the buffers alone. -/
theorem frameEnd_of_other (h : s.enc.kind ≠ .i ∨ (s.enc.orphan = false ∧ s.bstate s.enc.buf ≠ .pendTx)) :
    s.frameEnd = { s with enc := s.enc.ended } := by
  by_cases hk : s.enc.kind = .i
  · obtain ⟨ho, hb⟩ := h.resolve_left (not_not.2 hk)
    refine (if_pos hk).trans ((if_neg ?_).trans (if_neg hb))
    rw [ho]; decide
  · exact if_neg hk

@[simp] theorem frameEnd_env (s : State) : s.frameEnd.env = s.env := by rw [frameEnd_eq]
@[simp] theorem frameEnd_enc (s : State) : s.frameEnd.enc = s.enc.ended := by rw [frameEnd_eq]
@[simp] theorem frameEnd_bmem (s : State) : s.frameEnd.bmem = s.bmem := by rw [frameEnd_eq]

/-- The three ends of a frame. -/
theorem frameEnd_cases (s : State) :
    (s.enc.kind = .i ∧ s.enc.orphan = true) ∨
    (s.enc.kind = .i ∧ s.enc.orphan = false ∧ s.bstate s.enc.buf = .pendTx) ∨
    (s.enc.kind ≠ .i ∨ (s.enc.orphan = false ∧ s.bstate s.enc.buf ≠ .pendTx)) := by
  by_cases hk : s.enc.kind = .i
  · cases ho : s.enc.orphan
    · by_cases hb : s.bstate s.enc.buf = .pendTx
      · exact .inr (.inl ⟨hk, rfl, hb⟩)
      · exact .inr (.inr (.inr ⟨rfl, hb⟩))
    · exact .inl ⟨hk, rfl⟩
  · exact .inr (.inr (.inl hk))

theorem setBstate_desc_self {i : Nat} (h : i < s.nbuf) (b : BufState) :
    (s.setBstate i b).desc i = { s.desc i with state := b } := by
  rw [State.setBstate, setDesc_desc, if_pos ⟨rfl, h⟩]

theorem freeBuffer_desc_self {i : Nat} (h : i < s.nbuf) : (s.freeBuffer i).desc i = { s.desc i with state := .free } :=
  setBstate_desc_self h .free

theorem freeBuffer_added (s : State) (i : Nat) : s.EventsAdded (s.freeBuffer i) fun j => j = 2 :=
  signal_added (s.setBstate i .free) .poolFreed

theorem setDesc_poolSameBut (s : State) (i : Nat) (d : BufDesc) : s.PoolSameBut (s.setDesc i d) i :=
  ⟨setDesc_nbuf s i d, fun j hj => by rw [setDesc_desc, if_neg fun h => hj h.1.symm]⟩

theorem frameEnd_frees (hk : s.enc.kind = .i) (ho : s.enc.orphan = true) (hlt : s.enc.buf < s.nbuf) :
    s.frameEnd.desc s.enc.buf = { s.desc s.enc.buf with state := .free } ∧ s.EventsAdded s.frameEnd fun i => i = 2 := by
  rw [frameEnd_of_orphan hk ho]
  exact ⟨freeBuffer_desc_self (s := { s with enc := s.enc.ended }) hlt, freeBuffer_added { s with enc := s.enc.ended } _⟩

theorem frameEnd_awaits_ack (hk : s.enc.kind = .i) (ho : s.enc.orphan = false) (hb : s.bstate s.enc.buf = .pendTx) :
    s.frameEnd.desc s.enc.buf = { s.desc s.enc.buf with state := .pendAck } ∧ s.frameEnd.event = s.event := by
  rw [frameEnd_of_pendTx hk ho hb]
  have hlt : s.enc.buf < s.nbuf := lt_of_bstate_ne_free s fun hfree => nomatch hb.symm.trans hfree
  exact ⟨setBstate_desc_self (s := { s with enc := s.enc.ended }) hlt .pendAck, rfl⟩

theorem frameEnd_poolSameBut (s : State) : s.PoolSameBut s.frameEnd s.enc.buf := by
  rcases frameEnd_cases s with ⟨hk, ho⟩ | ⟨hk, ho, hb⟩ | h
  · rw [frameEnd_of_orphan hk ho]
    exact setDesc_poolSameBut { s with enc := s.enc.ended } ..
  · rw [frameEnd_of_pendTx hk ho hb]
    exact setDesc_poolSameBut { s with enc := s.enc.ended } ..
  · rw [frameEnd_of_other h]
    exact ⟨rfl, fun _ _ => rfl⟩

/-- Settles O38: the byte on the port, then the frame end where it is the last. -/
theorem byteHandOff : Obligations.ByteHandOff := by
  intro s hs ha e idle
  have hpos := hs.enc.pos ha
  refine ⟨s.txData, s.txByte, getElem?_pos_eq_txData hpos, handle_txReady_of_active ha, ?_⟩
  by_cases hlast : s.enc.pos + 1 = s.enc.wire.length
  · rw [txByte_of_eq hlast]
    refine ⟨frameEnd_env s.advanced, fun a => ?_, fun h => absurd hlast (Nat.ne_of_lt h), fun _ =>
      ⟨frameEnd_enc s.advanced, frameEnd_poolSameBut s.advanced, ?_, fun hk ho => ?_, fun hk ho hb => ?_, fun h => ?_⟩⟩
    · exact congrArg (memRead · a) (frameEnd_bmem s.advanced)
    · rw [frameEnd_env]
      exact frameEnd_eq s.advanced
    · obtain ⟨-, hlt, -⟩ := hs.enc.orphan ho
      exact frameEnd_frees (s := s.advanced) hk ho hlt
    · exact frameEnd_awaits_ack (s := s.advanced) hk ho hb
    · rw [frameEnd_of_other (s := s.advanced) h]
      exact ⟨rfl, rfl⟩
  · rw [txByte_of_ne hlast]
    exact ⟨rfl, fun _ => rfl, fun _ => rfl, fun h => absurd h hlast⟩

/-! ### A loaded frame (40_framecodec.md R140) -/

/-- Nothing is handed over, and the frame on the wire is the same, orphaned or not. -/
structure State.KeepsFrame (s t : State) : Prop where
  sent : t.env.sent = s.env.sent
  enc : t.enc = { s.enc with orphan := t.enc.orphan }

theorem State.Extends.keepsFrame (h : s.Extends t) (ha : s.enc.active = true) : s.KeepsFrame t :=
  ⟨congrArg Env.sent h.env, h.enc ha⟩

/-- A frame on the wire keeps the encoder load from doing anything. -/
theorem State.KeepsFrame.encoderLoad (h : s.KeepsFrame t) (ha : s.enc.active = true) : s.KeepsFrame t.encoderLoad := by
  have : t.enc.active = true := by rw [h.enc]; exact ha
  rwa [encoderLoad_of_active t this]

theorem hostRead_keepsFrame (s : State) (a : BitVec 20) (z : BitVec 2) : s.KeepsFrame (s.hostRead a z) := by
  suffices h : (s.afterRead a z).env = s.env ∧ (s.afterRead a z).enc = s.enc by
    refine ⟨?_, ?_⟩
    · show (s.afterRead a z).env.sent = s.env.sent
      rw [h.1]
    · show (s.afterRead a z).enc = { s.enc with orphan := (s.afterRead a z).enc.orphan }
      rw [h.2]
  unfold State.afterRead
  split
  · next r _ => cases r <;> exact ⟨rfl, rfl⟩
  · exact ⟨rfl, rfl⟩
  · exact ⟨rfl, rfl⟩

/-- Only the command SOFT_RESET decodes to a reset: its write reaches CMD (45_host_interface.md R332). -/
theorem decodeCommand_ne_softReset {a : BitVec 20} {z : BitVec 2} {v : Word}
    (h : ¬ (PortEvent.hostWrite a z v).IsCommand 0x0F) (buf : BitVec 8) (len : BitVec 16)
    (hcmd : s.target a z = .reg .cmd) : decodeCommand v ≠ .softReset buf len := by
  intro hdec
  obtain ⟨hz, ha⟩ := target_reg hcmd
  refine h ⟨v, ?_, decodeCommand_softReset hdec⟩
  rw [hz, show a = 0x018 from BitVec.eq_of_toNat_eq ha]

theorem hostWrite_keepsFrame {a : BitVec 20} {z : BitVec 2} {v : Word} (hw : s.hostWrite a z v = .next t)
    (h : ¬ (PortEvent.hostWrite a z v).IsCommand 0x0F) (ha : s.enc.active = true) : s.KeepsFrame t := by
  by_cases hirq : s.target a z = .reg .irqEn
  · rw [State.hostWrite, hirq] at hw
    injection hw with hw
    subst hw
    exact ⟨rfl, rfl⟩
  · exact (hostWrite_extends hw (decodeCommand_ne_softReset h) hirq).keepsFrame ha

/-- Every event but the resets and the hand-off of a byte leaves the frame on the wire as it is. -/
theorem handle_keepsFrame {e : PortEvent} (ha : s.enc.active = true) (he : s.handle e = .next t) (hreset : ¬ e.IsReset)
    (hne : e ≠ .txReady) : s.KeepsFrame t := by
  rcases handle_cases he with ⟨rfl, -⟩ | ⟨a, z, rfl, rfl⟩ | ⟨a, z, v, u, rfl, hw, rfl⟩ | ⟨b, u, -, hb, rfl⟩ | ⟨-, rfl⟩ |
    ⟨rfl, -, -⟩ | ⟨rfl, -, -⟩
  · exact absurd (.inl rfl) hreset
  · exact (hostRead_keepsFrame s a z).encoderLoad ha
  · exact (hostWrite_keepsFrame hw (fun hcmd => hreset (.inr hcmd)) ha).encoderLoad ha
  · exact ((rxByte_extends hb).keepsFrame ha).encoderLoad ha
  · exact ((tick_extends s).keepsFrame ha).encoderLoad ha
  · exact absurd rfl hne
  · exact absurd rfl hne

/-- Settles O39: events other than the hand-off keep the frame; a hand-off before the last byte only advances it. -/
theorem frameNeverTruncated : Obligations.FrameNeverTruncated := by
  intro s t e ha he hreset
  constructor
  · intro hne
    obtain ⟨hsent, henc⟩ := handle_keepsFrame ha he hreset hne
    rw [henc]
    exact ⟨hsent, ha, rfl, rfl, rfl, rfl, rfl⟩
  · rintro rfl hlt
    rw [handle_txReady_of_active ha, txByte_of_ne (Nat.ne_of_lt hlt), encoderLoad_of_active s.advanced ha] at he
    injection he with he
    exact he ▸ ⟨rfl, rfl⟩

end Sys2Proof.Machine

/-! SUPPORT. The default checksum functions tell apart two byte strings that differ in one byte (41_fcs.md R182 to R184,
R187): a sum and a CRC register are injective in each of their bytes and in their starting value. -/

namespace Sys2Proof.Machine

/-! ### The byte sum -/

theorem byteSum_set_ne {l : List Byte} {k : Nat} {b : Byte} (hk : k < l.length) (hb : l[k] ≠ b) :
    byteSum (l.set k b) ≠ byteSum l := by
  induction l generalizing k with
  | nil => exact absurd hk (Nat.not_lt_zero k)
  | cons a l ih =>
    cases k with
    | zero => exact fun h => hb (add_right_cancel h).symm
    | succ k => exact fun h => ih (Nat.lt_of_succ_lt_succ hk) hb (add_left_cancel h)

/-! ### The CRC register -/

theorem setWidth_injective {v w : Nat} (hw : v ≤ w) : Function.Injective (BitVec.setWidth w : BitVec v → BitVec w) := by
  intro x y h
  apply BitVec.eq_of_toNat_eq
  rw [← BitVec.toNat_setWidth_of_le hw, h, BitVec.toNat_setWidth_of_le hw]

section
variable {w : Nat} {poly : BitVec w} (hpoly : poly.msb = true)
include hpoly

/-- The bit that a round shifts out can be read back from the top: the polynomial's top bit is 1. -/
theorem msb_crcRounds_one (x : BitVec w) : (crcRounds poly 1 x).msb = x.getLsbD 0 := by
  cases hbit : x.getLsbD 0 <;> simp [crcRounds, hbit, hpoly]

theorem crcRounds_one_injective : Function.Injective (crcRounds poly 1) := by
  intro x y h
  have hbit : x.getLsbD 0 = y.getLsbD 0 := by rw [← msb_crcRounds_one hpoly, h, msb_crcRounds_one hpoly]
  have hshift : x >>> 1 = y >>> 1 := by
    simp only [crcRounds, hbit] at h
    split at h
    · exact (BitVec.xor_left_inj _).1 h
    · exact h
  refine BitVec.eq_of_getLsbD_eq fun i _ => ?_
  cases i with
  | zero => exact hbit
  | succ i => simpa [Nat.add_comm] using congrArg (·.getLsbD i) hshift

theorem crcRounds_injective (n : Nat) : Function.Injective (crcRounds poly n) := by
  induction n with
  | zero => exact Function.injective_id
  | succ n ih => exact ih.comp (crcRounds_one_injective hpoly)

theorem crcBytes_injective (l : List Byte) : Function.Injective (crcBytes poly · l) := by
  induction l with
  | nil => exact Function.injective_id
  | cons a l ih => exact fun x y h => (BitVec.xor_left_inj _).1 (crcRounds_injective hpoly 8 (ih h))

theorem crcBytes_set_ne (hw : 8 ≤ w) (x : BitVec w) {l : List Byte} {k : Nat} {b : Byte} (hk : k < l.length)
    (hb : l[k] ≠ b) : crcBytes poly x (l.set k b) ≠ crcBytes poly x l := by
  induction l generalizing x k with
  | nil => exact absurd hk (Nat.not_lt_zero k)
  | cons a l ih =>
    cases k with
    | zero =>
      intro h
      have hwide : b.setWidth w = a.setWidth w :=
        (BitVec.xor_right_inj _).1 (crcRounds_injective hpoly 8 (crcBytes_injective hpoly l h))
      exact hb (setWidth_injective hw hwide).symm
    | succ k => exact ih _ (Nat.lt_of_succ_lt_succ hk) hb

end

/-! ### The FCS bytes -/

/-- The library's fact at width 16, beside `word_of_bytes` (41_fcs.md R185). -/
theorem halfword_of_bytes (v : BitVec 16) : (v.extractLsb' 8 8 ++ v.extractLsb' 0 8 : BitVec 16) = v :=
  BitVec.extractLsb'_append_extractLsb'

section
variable {p : Params} {l l' : List Byte}

theorem byteSum_eq_of_fcs (h : p.fcs8 = .dflt) (heq : fcs p .sum8 l = fcs p .sum8 l') : byteSum l = byteSum l' := by
  simp only [fcs, Params.fcs8Fn, h, defaultFcs8, List.cons.injEq, and_true] at heq
  exact BitVec.not_inj.1 heq

theorem crcBytes_eq_of_fcs16 (h : p.fcs16 = .dflt) (heq : fcs p .crc16 l = fcs p .crc16 l') :
    crcBytes 0x8408#16 0xFFFF#16 l = crcBytes 0x8408#16 0xFFFF#16 l' := by
  simp only [fcs, Params.fcs16Fn, h, List.cons.injEq, and_true] at heq
  obtain ⟨h0, h1⟩ := heq
  have hword : defaultFcs16 l = defaultFcs16 l' := by
    rw [← halfword_of_bytes (defaultFcs16 l), h0, h1, halfword_of_bytes]
  exact (BitVec.xor_left_inj _).1 hword

theorem crcBytes_eq_of_fcs32 (h : p.fcs32 = .dflt) (heq : fcs p .crc32 l = fcs p .crc32 l') :
    crcBytes 0xEDB88320#32 0xFFFFFFFF#32 l = crcBytes 0xEDB88320#32 0xFFFFFFFF#32 l' := by
  simp only [fcs, Params.fcs32Fn, h, List.cons.injEq, and_true] at heq
  obtain ⟨h0, h1, h2, h3⟩ := heq
  have hword : defaultFcs32 l = defaultFcs32 l' := by
    rw [← word_of_bytes (defaultFcs32 l), h0, h1, h2, h3, word_of_bytes]
  exact (BitVec.xor_left_inj _).1 hword

end

/-- A changed byte of the body changes the FCS of every mode with a check (41_fcs.md R187). -/
theorem fcs_set_ne {p : Params} {m : FcsMode} (h8 : p.fcs8 = .dflt) (h16 : p.fcs16 = .dflt) (h32 : p.fcs32 = .dflt)
    (hm : m ≠ .off) {l : List Byte} {k : Nat} {b : Byte} (hk : k < l.length) (hb : l[k] ≠ b) :
    fcs p m (l.set k b) ≠ fcs p m l := by
  intro h
  cases m with
  | off => exact hm rfl
  | sum8 => exact byteSum_set_ne hk hb (byteSum_eq_of_fcs h8 h)
  | crc16 => exact crcBytes_set_ne (by decide) (by decide) _ hk hb (crcBytes_eq_of_fcs16 h16 h)
  | crc32 => exact crcBytes_set_ne (by decide) (by decide) _ hk hb (crcBytes_eq_of_fcs32 h32 h)

/-! ### A frame with one wrong byte (41_fcs.md R186, R187) -/

/-- A frame whose check is not the FCS of its body has no effect (40_framecodec.md R155). -/
theorem complete_of_bad {s : State} {body check : List Byte} (hcheck : check.length = s.cfg.fcsMode.fcsLen)
    (hbody : body ≠ []) (hroom : body.length ≤ 1 + s.cfg.mtu.toNat) (hne : s.fcsNow body ≠ check) :
    s.complete (body ++ check) = .next s := by
  rw [complete_of_body hcheck hbody, if_pos hne]
  rw [List.length_append, hcheck]
  exact Nat.add_le_add_right hroom _

theorem set_ne_self {α : Type} {l : List α} {k : Nat} {a : α} (hk : k < l.length) (ha : l[k] ≠ a) : l.set k a ≠ l :=
  fun h => ha ((List.getElem_of_eq h.symm hk).trans (List.getElem_set_self _))

/-- Where a good frame has a wrong byte: a wrong byte of the body changes the FCS that is expected, a wrong byte of the
check is compared with the right one. -/
theorem complete_set_of_good {s : State} (h8 : s.params.fcs8 = .dflt) (h16 : s.params.fcs16 = .dflt)
    (h32 : s.params.fcs32 = .dflt) (hm : s.cfg.fcsMode ≠ .off) {body : List Byte} (hbody : body ≠ [])
    (hroom : body.length ≤ 1 + s.cfg.mtu.toNat) {k : Nat} {b : Byte} (hk : k < (body ++ s.fcsNow body).length)
    (hb : (body ++ s.fcsNow body)[k] ≠ b) : s.complete ((body ++ s.fcsNow body).set k b) = .next s := by
  have hlen : (s.fcsNow body).length = s.cfg.fcsMode.fcsLen := fcs_length ..
  rcases Nat.lt_or_ge k body.length with hin | hin
  · rw [List.getElem_append_left hin] at hb
    rw [List.set_append_left _ _ hin]
    refine complete_of_bad hlen ?_ ?_ (fcs_set_ne h8 h16 h32 hm hin hb)
    · simpa using hbody
    · rwa [List.length_set]
  · rw [List.getElem_append_right hin] at hb
    rw [List.set_append_right _ _ hin]
    exact complete_of_bad (List.length_set.trans hlen) hbody hroom (set_ne_self _ hb).symm

/-- Settles O7: the sent frame is a good one, with its control byte and info field as the body. -/
theorem oneByteErrorDiscarded : Obligations.OneByteErrorDiscarded := by
  intro s c info k b h8 h16 h32 hm hmtu u hk hb
  have hroom : (c :: info).length ≤ 1 + s.cfg.mtu.toNat := by
    rw [List.length_cons]; omega
  exact complete_set_of_good h8 h16 h32 hm (List.cons_ne_nil c info) hroom hk
    fun h => hb ((List.getElem?_eq_getElem hk).trans (congrArg some h))

/-! ### Check values (41_fcs.md R182 to R185) -/

/-- Settles O6: the functions are run on the digits and on the empty string. -/
theorem fcsCheckValues : Obligations.FcsCheckValues := by
  unfold Obligations.FcsCheckValues
  set_option maxRecDepth 20000 in decide

end Sys2Proof.Machine

/-! SUPPORT. The frame-buffer pool (42_buffer_pool.md): its three commands, what a step can do to a buffer's ownership
state, and who writes its bytes. -/

namespace Sys2Proof.Machine

variable {s t u : State} {e : PortEvent} {i : Nat} {buf : BitVec 8} {len : BitVec 16}

/-! ### The commands of the pool (42_buffer_pool.md R200 to R203) -/

theorem acquire_of_none (h : s.poolAcquire = none) : exec (.acquire buf len) s = .next (s.setResult .none 0 0) := by
  simp only [exec, execAcquire, h]

theorem acquire_of_some {b : Nat} (h : s.poolAcquire = some b) : exec (.acquire buf len) s =
    .next ((s.setDesc b { state := .app, len := 0 }).setResult .ok (BitVec.ofNat 8 b) 0) := by
  simp only [exec, execAcquire, h]

theorem release_of_owned (h : s.hostOwns buf.toNat = true) :
    exec (.release buf len) s = .next ((s.freeBuffer buf.toNat).setResult .ok buf 0) := if_pos h

theorem release_of_not_owned (h : s.hostOwns buf.toNat ≠ true) :
    exec (.release buf len) s = .next (s.setResult .badArg buf 0) := if_neg h

theorem read_of_nil (h : s.rxq = []) : exec (.read buf len) s = .next (s.setResult .none 0 0) := by
  simp only [exec, execRead, h]

theorem read_of_cons {b : Nat} {queue : List Nat} (h : s.rxq = b :: queue) : exec (.read buf len) s =
    .next ((State.setBstate { s with rxq := queue } b .app).setResult .ok (BitVec.ofNat 8 b) (s.blen b)) := by
  simp only [exec, execRead, h]

/-- Settles O18: the pool has no FREE buffer, or a FREE one of least index. -/
theorem acquire : Obligations.Acquire := by
  intro s buf len
  refine ⟨fun hnone => acquire_of_none ((poolAcquire_eq_none s).2 hnone), fun b hb hfree hleast => ?_⟩
  refine ⟨_, acquire_of_some ((poolAcquire_eq_some s).2 ⟨hb, hfree, hleast⟩), ?_, ?_, ?_, fun _ => rfl, rfl⟩
  · rw [setResult_desc, setDesc_desc, if_pos ⟨rfl, hb⟩]
  · simpa [Code.num] using setResult_is (s.setDesc b { state := .app, len := 0 }) .ok (BitVec.ofNat 8 b) 0
  · exact setDesc_poolSameBut s b _

/-- Settles O19: the host holds the buffer, or it does not. -/
theorem release : Obligations.Release := by
  intro s buf len
  constructor
  · intro happ
    refine ⟨_, release_of_owned ((hostOwns_iff s _).2 happ), ?_, ?_, ?_, ?_, fun _ => rfl, rfl⟩
    · exact freeBuffer_desc_self happ.1
    · simpa [Code.num] using setResult_is (s.freeBuffer buf.toNat) .ok buf 0
    · exact freeBuffer_added s buf.toNat
    · exact setDesc_poolSameBut s buf.toNat _
  · intro hnot
    refine ⟨_, release_of_not_owned (fun hown => ?_), ?_, fun _ => rfl, rfl⟩
    · obtain ⟨hlt, happ⟩ := (hostOwns_iff s _).1 hown
      exact hnot.elim (Nat.not_le.2 hlt) (· happ)
    · simpa [Code.num] using setResult_is s .badArg buf 0

/-- In a legal state a delivered buffer exists, so its index fits the 8 bits of RESULT (10_state.md R50). -/
theorem State.Legal.rxq_lt (hs : s.Legal) {b : Nat} (hb : b ∈ s.rxq) : b < s.nbuf ∧ b < 2 ^ 8 := by
  obtain ⟨hlt, -⟩ := (hs.pool.delivered b).1 hb
  have := hs.sizes.nbuf_le
  omega

/-- Settles O20: the delivered queue is empty, or it has a head. -/
theorem read : Obligations.Read := by
  intro s buf len hs
  refine ⟨read_of_nil, fun b queue hq => ?_⟩
  obtain ⟨hlt, hbits⟩ := hs.rxq_lt (b := b) (by rw [hq]; exact List.mem_cons_self)
  refine ⟨_, read_of_cons hq, ?_, ?_, rfl, ?_, fun _ => rfl, rfl⟩
  · exact setBstate_desc_self (s := { s with rxq := queue }) hlt .app
  · have h := setResult_is (State.setBstate { s with rxq := queue } b .app) .ok (BitVec.ofNat 8 b) (s.blen b)
    rwa [BitVec.toNat_ofNat, Nat.mod_eq_of_lt hbits] at h
  · exact setDesc_poolSameBut { s with rxq := queue } b _

/-! ### What a step keeps: the parameters, and the signal of a freed buffer (42_buffer_pool.md R205, R206) -/

/-- A read transaction writes EVENT and the record of returned words only (45_host_interface.md R330, R335). -/
theorem hostRead_eq (s : State) (a : BitVec 20) (z : BitVec 2) :
    s.hostRead a z = { s with event := (s.hostRead a z).event, env := (s.hostRead a z).env } := by
  unfold State.hostRead State.afterRead
  dsimp only
  split
  · next r _ => cases r <;> rfl
  · rfl
  · rfl

/-- A host write in full: SOFT_RESET, a write of IRQ_EN, or an operation that takes nothing back. -/
theorem hostWrite_cases {a : BitVec 20} {z : BitVec 2} {v : Word} (hw : s.hostWrite a z v = .next t) :
    ((PortEvent.hostWrite a z v).IsCommand 0x0F ∧ t = s.softReset.setResult .ok 0 0) ∨
    t = { s with irqEn := v.extractLsb' 0 11 } ∨ s.Extends t := by
  by_cases hreset : s.target a z = .reg .cmd ∧ ∃ buf len, decodeCommand v = .softReset buf len
  · obtain ⟨hcmd, buf, len, hdec⟩ := hreset
    refine .inl ⟨by_contra fun hne => decodeCommand_ne_softReset hne buf len hcmd hdec, ?_⟩
    simp only [State.hostWrite, hcmd, State.regWrite, State.execute, hdec] at hw
    injection hw with hw
    exact hw.symm
  by_cases hirq : s.target a z = .reg .irqEn
  · simp only [State.hostWrite, hirq, State.regWrite] at hw
    injection hw with hw
    exact .inr (.inl hw.symm)
  · exact .inr (.inr (hostWrite_extends hw (fun buf len hcmd hdec => hreset ⟨hcmd, buf, len, hdec⟩) hirq))

theorem txByte_cases (s : State) : s.txByte = s.advanced ∨ s.txByte = s.advanced.frameEnd := by
  by_cases h : s.enc.pos + 1 = s.enc.wire.length
  · exact .inr (txByte_of_eq h)
  · exact .inl (txByte_of_ne h)

theorem txByte_params (s : State) : s.txByte.params = s.params ∧ s.txByte.nbuf = s.nbuf := by
  rcases txByte_cases s with h | h <;> rw [h]
  · exact ⟨rfl, rfl⟩
  · exact ⟨by rw [frameEnd_eq]; rfl, (frameEnd_poolSameBut s.advanced).1⟩

/-- Every port event, resets included, keeps the parameters and the number of buffers. -/
theorem handle_params (he : s.handle e = .next t) : t.params = s.params ∧ t.nbuf = s.nbuf := by
  rcases handle_cases he with ⟨-, rfl⟩ | ⟨a, z, -, rfl⟩ | ⟨a, z, v, u, -, hw, rfl⟩ | ⟨b, u, -, hb, rfl⟩ | ⟨-, rfl⟩ |
    ⟨-, -, rfl⟩ | ⟨-, -, rfl⟩
  · exact ⟨rfl, afterReset_nbuf ..⟩
  · rw [encoderLoad_params, encoderLoad_nbuf, hostRead_eq]
    exact ⟨rfl, rfl⟩
  · rw [encoderLoad_params, encoderLoad_nbuf]
    rcases hostWrite_cases hw with ⟨-, rfl⟩ | rfl | hext
    · exact ⟨rfl, afterReset_nbuf s.params s.nbuf s.bmem s.env⟩
    · exact ⟨rfl, rfl⟩
    · exact ⟨hext.params, hext.nbuf⟩
  · rw [encoderLoad_params, encoderLoad_nbuf]
    exact ⟨(rxByte_extends hb).params, (rxByte_extends hb).nbuf⟩
  · rw [encoderLoad_params, encoderLoad_nbuf]
    exact ⟨(tick_extends s).params, (tick_extends s).nbuf⟩
  · rw [encoderLoad_params, encoderLoad_nbuf]
    exact txByte_params s
  · exact ⟨rfl, rfl⟩

/-- Settles O50: the step of the oldest offered event. -/
theorem parametersConstant : Obligations.ParametersConstant := by
  intro s t he
  rcases step_cases he with rfl | ⟨e, es, -, he⟩
  · exact ⟨rfl, rfl⟩
  · exact handle_params (s := s.dropEvent) he

theorem txByte_freed (h : s.bstate i ≠ .free) (ht : s.txByte.bstate i = .free) :
    s.txByte.event.getLsbD 2 = true := by
  rcases txByte_cases s with hx | hx <;> rw [hx] at ht ⊢
  · exact absurd ht h
  · exact frameEnd_freed s.advanced i h ht

/-- Settles O48, event by event; the encoder load leaves the pool and EVENT alone. -/
theorem freeingIsSignalled : Obligations.FreeingIsSignalled := by
  intro s t e i he hreset hs ht
  rcases handle_cases he with ⟨rfl, -⟩ | ⟨a, z, -, rfl⟩ | ⟨a, z, v, u, rfl, hw, rfl⟩ | ⟨b, u, -, hb, rfl⟩ | ⟨-, rfl⟩ |
    ⟨-, -, rfl⟩ | ⟨-, -, rfl⟩
  · exact absurd (.inl rfl) hreset
  · rw [encoderLoad_bstate, hostRead_eq] at ht
    exact absurd ht hs
  · rw [encoderLoad_bstate] at ht
    rw [encoderLoad_event]
    rcases hostWrite_cases hw with ⟨hcmd, -⟩ | rfl | hext
    · exact absurd (.inr hcmd) hreset
    · exact absurd ht hs
    · exact hext.freed i hs ht
  · rw [encoderLoad_bstate] at ht
    rw [encoderLoad_event]
    exact (rxByte_extends hb).freed i hs ht
  · rw [encoderLoad_bstate] at ht
    rw [encoderLoad_event]
    exact (tick_extends s).freed i hs ht
  · rw [encoderLoad_bstate] at ht
    rw [encoderLoad_event]
    exact txByte_freed hs ht
  · exact absurd ht hs

end Sys2Proof.Machine

/-! SUPPORT. Ownership of the buffers (42_buffer_pool.md R204): what the engine can do to a buffer's state and bytes, in
its three kinds (it gives buffers back, it ends a transmission, it delivers), then each port event. -/

namespace Sys2Proof.Machine

variable {s t u : State} {e : PortEvent} {i : Nat}

/-! ### Buffers the engine gives back -/

/-- From `s` to `t` the engine has only given buffers back to the pool. -/
def State.GivesBack (s t : State) : Prop :=
  ∀ i, t.bstate i = s.bstate i ∨ (s.pending i ∧ t.bstate i = .free)

theorem bstate_of_pool (h : t.pool = s.pool) (i : Nat) : t.bstate i = s.bstate i := by
  simp only [State.bstate, State.desc, h]

theorem State.GivesBack.of_pool (h : t.pool = s.pool) : s.GivesBack t := fun i => .inl (bstate_of_pool h i)

/-- Only the pool matters, before and after. -/
theorem State.GivesBack.congr {s' t' : State} (h : s.GivesBack t) (hs : s'.pool = s.pool) (ht : t'.pool = t.pool) :
    s'.GivesBack t' := by
  intro i
  rw [State.pending, bstate_of_pool hs, bstate_of_pool ht]
  exact h i

theorem State.GivesBack.trans (h1 : s.GivesBack t) (h2 : t.GivesBack u) : s.GivesBack u := by
  intro i
  rcases h2 i with h | ⟨hp, h⟩
  · rw [h]; exact h1 i
  · rcases h1 i with h' | ⟨hp', -⟩
    · rw [State.pending, h'] at hp
      exact .inr ⟨hp, h⟩
    · exact .inr ⟨hp', h⟩

/-- A flush gives the abandoned buffers back, which were those of slots (43_arq_connection.md R234). -/
theorem State.Owned.flush_givesBack (h : s.Owned) : s.GivesBack s.flush := by
  intro i
  by_cases ha : s.Abandoned i
  · obtain ⟨⟨q, hq, rfl⟩, -⟩ := id ha
    exact .inr ⟨(h.slots.buf q hq).2, (flush_flushed h).freed _ ha⟩
  · exact .inl ((flush_flushed h).kept i ha)

theorem State.Owned.enterDisconnected_givesBack (h : s.Owned) : s.GivesBack s.enterDisconnected :=
  h.flush_givesBack.congr rfl (by simp only [State.enterDisconnected, signal_pool, restartLink_pool])

/-- A cumulative acknowledgment gives back the buffers of the slots it empties (44_arq_data.md R283). -/
theorem State.Kept.ackProcess_givesBack (h : s.Kept) (hc : s.conn = .connected) {nr : SeqNum}
    (hv : s.nrValid nr = true) : s.GivesBack (s.ackProcess nr) := by
  have hack := ackProcess_acked s nr
  intro i
  by_cases hr : s.Released nr i
  · obtain ⟨⟨q, hq, rfl⟩, -⟩ := id hr
    have hvalid : (s.slot q).valid = true := h.valid_of_age hc (Nat.lt_of_lt_of_le hq ((nrValid_iff nr).1 hv))
    exact .inr ⟨(h.base.owned.slots.buf q hvalid).2, hack.freed _ hr⟩
  · exact .inl (hack.kept i hr)

theorem State.Owned.rxSabm_givesBack (h : s.Owned) : s.GivesBack s.rxSabm := by
  unfold State.rxSabm
  split
  · exact .of_pool (by simp)
  · exact .of_pool (by simp)
  · exact h.flush_givesBack.congr rfl (by simp)
  · exact .of_pool rfl

theorem State.Owned.rxUa_givesBack (h : s.Owned) : s.GivesBack s.rxUa := by
  unfold State.rxUa
  split
  · exact .of_pool (by simp)
  · exact h.enterDisconnected_givesBack
  · exact .of_pool rfl
  · exact .of_pool rfl

theorem State.Owned.rxDisc_givesBack (h : s.Owned) : s.GivesBack s.rxDisc := by
  have hdown : s.GivesBack (State.enterDisconnected { s with uaPending := true }) :=
    (h.congr rfl rfl rfl rfl rfl : State.Owned { s with uaPending := true }).enterDisconnected_givesBack
  unfold State.rxDisc
  dsimp only
  split
  · exact .of_pool rfl
  · exact hdown.congr rfl (by simp only [signal_pool])
  · exact hdown
  · exact hdown

theorem State.Kept.rxRr_givesBack (h : s.Kept) (nr : SeqNum) : s.GivesBack (s.rxRr nr) := by
  unfold State.rxRr
  split_ifs with hn
  · exact .of_pool rfl
  · simp only [not_or, not_not, Bool.not_eq_false] at hn
    exact h.ackProcess_givesBack hn.1 hn.2

theorem State.Kept.rxRej_givesBack (h : s.Kept) (nr : SeqNum) : s.GivesBack (s.rxRej nr) := by
  unfold State.rxRej
  split_ifs with hn
  · exact .of_pool rfl
  · simp only [not_or, not_not, Bool.not_eq_false] at hn
    exact (h.ackProcess_givesBack hn.1 hn.2).congr rfl (by simp)

/-! ### Ticks (44_arq_data.md R286, R292, 43_arq_connection.md R239) -/

theorem State.Owned.uExpire_givesBack (h : s.Owned) : s.GivesBack s.uExpire := by
  unfold State.uExpire
  dsimp only
  split_ifs
  · exact h.enterDisconnected_givesBack.congr rfl (by simp only [signal_pool])
  · exact h.enterDisconnected_givesBack
  · exact .of_pool rfl
  · exact .of_pool rfl

theorem State.Owned.slotExpire_givesBack (h : s.Owned) (q : SeqNum) : s.GivesBack (s.slotExpire q) := by
  unfold State.slotExpire
  split_ifs
  · exact h.enterDisconnected_givesBack.congr rfl (by simp only [signal_pool])
  · exact .of_pool (by simp)

theorem State.Base.uExpire (h : s.Base) : s.uExpire.Base := by
  unfold State.uExpire
  dsimp only
  split_ifs
  · exact (h.enterDisconnected.signal _).base
  · exact h.enterDisconnected.base
  all_goals apply h.congr <;> rfl

/-- A tick in its two parts: the timer of the request, then the oldest slot that expires. -/
theorem tick_cases (s : State) : ∃ u, (u = s.countTick ∨ u = s.countTick.uExpire) ∧
    (s.tick = u ∨ ∃ q, s.tick = u.slotExpire q) := by
  unfold State.tick
  dsimp only
  generalize hu : (if s.uTimer = 1 ∧ (s.countTick.conn = .connecting ∨ s.countTick.conn = .disconnecting) then
    s.countTick.uExpire else s.countTick) = u
  refine ⟨u, ?_, ?_⟩
  · subst hu
    split_ifs
    · exact .inr rfl
    · exact .inl rfl
  · split
    · split_ifs
      · exact .inr ⟨_, rfl⟩
      · exact .inl rfl
    · exact .inl rfl

theorem State.Kept.tick_givesBack (h : s.Kept) : s.GivesBack s.tick := by
  have hcount := h.base.countTick
  obtain ⟨u, hu, ht⟩ := tick_cases s
  have hfirst : s.GivesBack u ∧ u.Owned := by
    rcases hu with rfl | rfl
    · exact ⟨.of_pool rfl, hcount.owned⟩
    · exact ⟨hcount.owned.uExpire_givesBack.congr rfl rfl, hcount.uExpire.owned⟩
  rcases ht with ht | ⟨q, ht⟩ <;> rw [ht]
  · exact hfirst.1
  · exact hfirst.1.trans (hfirst.2.slotExpire_givesBack q)

theorem uExpire_bmem (s : State) : s.uExpire.bmem = s.bmem := by
  unfold State.uExpire
  dsimp only
  split_ifs <;> simp

theorem slotExpire_bmem (s : State) (q : SeqNum) : (s.slotExpire q).bmem = s.bmem := by
  unfold State.slotExpire
  split_ifs <;> simp

theorem tick_bmem (s : State) : s.tick.bmem = s.bmem := by
  obtain ⟨u, hu, ht⟩ := tick_cases s
  have hfirst : u.bmem = s.bmem := by
    rcases hu with rfl | rfl
    · rfl
    · exact uExpire_bmem s.countTick
  rcases ht with ht | ⟨q, ht⟩ <;> rw [ht]
  · exact hfirst
  · exact (slotExpire_bmem u q).trans hfirst

/-! ### Hand-off of a byte (40_framecodec.md R144, R145) -/

/-- The frame end gives an orphan's buffer back, or takes one from PEND_TX to PEND_ACK. -/
theorem frameEnd_bstate (h : s.enc.orphan = true → s.pending s.enc.buf) (i : Nat) :
    s.frameEnd.bstate i = s.bstate i ∨ (s.pending i ∧ s.frameEnd.bstate i = .free) ∨
      (s.bstate i = .pendTx ∧ s.frameEnd.bstate i = .pendAck) := by
  by_cases hi : i = s.enc.buf
  · subst hi
    rcases frameEnd_cases s with ⟨hk, ho⟩ | ⟨hk, ho, hb⟩ | hother
    · have hd := (frameEnd_frees hk ho (State.pending_lt (h ho))).1
      exact .inr (.inl ⟨h ho, congrArg BufDesc.state hd⟩)
    · exact .inr (.inr ⟨hb, congrArg BufDesc.state (frameEnd_awaits_ack hk ho hb).1⟩)
    · rw [frameEnd_of_other hother]
      exact .inl rfl
  · exact .inl (congrArg BufDesc.state ((frameEnd_poolSameBut s).2 i hi))

theorem State.Owned.txByte_bstate (h : s.Owned) (i : Nat) :
    s.txByte.bstate i = s.bstate i ∨ (s.pending i ∧ s.txByte.bstate i = .free) ∨
      (s.bstate i = .pendTx ∧ s.txByte.bstate i = .pendAck) := by
  rcases txByte_cases s with hx | hx <;> rw [hx]
  · exact .inl rfl
  · refine frameEnd_bstate (s := s.advanced) (fun ho => ?_) i
    obtain ⟨-, -, hp, -⟩ := h.enc.orphan ho
    exact hp

theorem txByte_bmem (s : State) : s.txByte.bmem = s.bmem := by
  rcases txByte_cases s with h | h <;> rw [h]
  · rfl
  · exact frameEnd_bmem s.advanced

/-! ### Received bytes (44_arq_data.md R280, R281) -/

/-- From `s` to `t` the engine has given buffers back, and then perhaps delivered one payload that fits a buffer. -/
inductive State.Serves (s t : State) : Prop
  | givesBack (hpool : s.GivesBack t) (hmem : t.bmem = s.bmem)
  | delivers (u : State) (b : Nat) (info : List Byte) (hpool : s.GivesBack u) (hmem : u.bmem = s.bmem)
    (hfree : u.poolAcquire = some b) (hfits : info.length ≤ s.params.bufcap)
    (hpool' : t.pool = (u.deliverTo b info).pool) (hmem' : t.bmem = (u.deliverTo b info).bmem)

theorem State.Serves.congr (h : s.Serves t) (hpool : u.pool = t.pool) (hmem : u.bmem = t.bmem) : s.Serves u := by
  cases h with
  | givesBack h hm => exact .givesBack (h.congr rfl hpool) (hmem.trans hm)
  | delivers w b info h hm hf hl hp' hm' => exact .delivers w b info h hm hf hl (hpool.trans hp') (hmem.trans hm')

theorem State.Serves.of_eq (hpool : t.pool = s.pool) (hmem : t.bmem = s.bmem) : s.Serves t :=
  .givesBack (.of_pool hpool) hmem

theorem deliverTo_pool (s : State) (b : Nat) (info : List Byte) : (s.deliverTo b info).pool =
    (s.setDesc b { state := .delivered, len := BitVec.ofNat 16 info.length }).pool := by
  unfold State.deliverTo
  dsimp only
  split_ifs <;> rfl

theorem deliverTo_bmem (s : State) (b : Nat) (info : List Byte) : (s.deliverTo b info).bmem =
    (s.bufWriteBytes b 0 info).bmem := by
  unfold State.deliverTo
  dsimp only
  split_ifs <;> rfl

theorem State.Kept.rxI_serves (h : s.Kept) (ns nr : SeqNum) {info : List Byte} (hi : info.length ≤ s.cfg.mtu.toNat) :
    s.Serves (s.rxI ns nr info) := by
  unfold State.rxI
  dsimp only
  split_ifs with hc hv hns
  · exact .of_eq rfl rfl
  · exact .of_eq rfl rfl
  · exact .givesBack ((h.ackProcess_givesBack (not_not.1 hc) (by simpa using hv)).congr rfl rfl) (by simp)
  · have hback := h.ackProcess_givesBack (not_not.1 hc) (by simpa using hv)
    unfold State.deliver
    split
    · exact .givesBack (hback.congr rfl rfl) (by simp)
    · next b hb => exact .delivers _ b info hback (by simp) hb (hi.trans h.base.cfg.mtu_le) rfl rfl

/-- What a received frame does, instruction by instruction (44_arq_data.md R289). -/
theorem State.Kept.exec_serves (h : s.Kept) {ins : Instr} (hsrc : ins.source = .frame)
    (hi : Instr.infoFits s.cfg.mtu ins) (he : Machine.exec ins s = .next t) : s.Serves t := by
  have hidle : s.Serves s := .of_eq rfl rfl
  have ho := h.base.owned
  cases ins with
  | iFrame ns nr pf info => injection he with he; exact he ▸ h.rxI_serves ns nr hi
  | rr nr pf info =>
    simp only [Machine.exec, execRr] at he
    split_ifs at he <;> injection he with he <;> subst he
    · exact .givesBack (h.rxRr_givesBack nr) (by unfold State.rxRr; split_ifs <;> simp)
    · exact hidle
  | rej nr pf info =>
    simp only [Machine.exec, execRej] at he
    split_ifs at he <;> injection he with he <;> subst he
    · exact .givesBack (h.rxRej_givesBack nr) (by unfold State.rxRej; split_ifs <;> simp)
    · exact hidle
  | sabm pf info =>
    simp only [Machine.exec, execSabm] at he
    split_ifs at he <;> injection he with he <;> subst he
    · exact .givesBack ho.rxSabm_givesBack (by unfold State.rxSabm; split <;> simp)
    · exact hidle
  | ua pf info =>
    simp only [Machine.exec, execUa] at he
    split_ifs at he <;> injection he with he <;> subst he
    · exact .givesBack ho.rxUa_givesBack (by unfold State.rxUa; split <;> simp)
    · exact hidle
  | disc pf info =>
    simp only [Machine.exec, execDisc] at he
    split_ifs at he <;> injection he with he <;> subst he
    · exact .givesBack ho.rxDisc_givesBack (by unfold State.rxDisc; dsimp only; split <;> simp)
    · exact hidle
  | rnrReserved nr pf info => injection he with he; exact he ▸ hidle
  | srejReserved nr pf info => injection he with he; exact he ▸ hidle
  | uReserved m pf info => injection he with he; exact he ▸ hidle
  | _ => cases hsrc

theorem State.Kept.complete_serves (h : s.Kept) {acc : List Byte} (he : s.complete acc = .next t) : s.Serves t := by
  unfold State.complete State.receiveFrame at he
  dsimp only at he
  split_ifs at he with hlong
  · injection he with he; exact he ▸ .of_eq rfl rfl
  · injection he with he; exact he ▸ .of_eq rfl rfl
  · injection he with he; exact he ▸ .of_eq rfl rfl
  · split at he
    · next ins hdec =>
      refine h.exec_serves (encodeOfDecode _ _ _ hdec).1 (decode_frame_infoFits hdec ?_) he
      rw [List.length_take]
      unfold State.maxFrame at hlong
      omega
    · injection he with he; exact he ▸ .of_eq rfl rfl

theorem append_pool_bmem (s : State) (x : Byte) : (s.append x).pool = s.pool ∧ (s.append x).bmem = s.bmem := by
  unfold State.append
  split_ifs <;> exact ⟨rfl, rfl⟩

/-- What a received byte does: only a frame's closing DELIM does anything to the buffers. -/
theorem State.Kept.rxByte_serves (h : s.Kept) {b : Byte} (he : s.rxByte b = .next t) : s.Serves t := by
  unfold State.rxByte at he
  split at he
  · split_ifs at he <;> injection he with he <;> subst he <;> exact .of_eq rfl rfl
  · split_ifs at he
    · injection he with he; exact he ▸ .of_eq rfl rfl
    · obtain ⟨u, hu, rfl⟩ := andThen_eq_next he
      exact (h.complete_serves hu).congr rfl rfl
    · injection he with he; exact he ▸ .of_eq rfl rfl
    · injection he with he; exact he ▸ .of_eq (append_pool_bmem s b).1 (append_pool_bmem s b).2
  · split_ifs at he <;> injection he with he <;> subst he
    · exact .of_eq rfl rfl
    · exact .of_eq (append_pool_bmem _ _).1 (append_pool_bmem _ _).2

/-- A buffer that is FREE after some were given back was FREE or among them. -/
theorem State.GivesBack.free_or_pending (h : s.GivesBack t) (ht : t.bstate i = .free) :
    s.bstate i = .free ∨ s.pending i := by
  rcases h i with h | ⟨hp, -⟩
  · exact .inl (h.symm.trans ht)
  · exact .inr hp

theorem deliverTo_bstate (s : State) (b : Nat) (info : List Byte) (i : Nat) :
    (s.deliverTo b info).bstate i = if b = i ∧ b < s.nbuf then .delivered else s.bstate i := by
  rw [bstate_of_pool (deliverTo_pool s b info), setDesc_bstate]

/-- The ownership changes of a received byte. -/
theorem State.Serves.bstate (h : s.Serves t) (i : Nat) :
    t.bstate i = s.bstate i ∨ (s.pending i ∧ t.bstate i = .free) ∨
      ((s.bstate i = .free ∨ s.pending i) ∧ t.bstate i = .delivered) := by
  cases h with
  | givesBack h _ => exact (h i).imp_right .inl
  | delivers u b info h _ hfree _ hpool' _ =>
    obtain ⟨hlt, hb, -⟩ := (poolAcquire_eq_some u).1 hfree
    rw [bstate_of_pool hpool', deliverTo_bstate]
    split_ifs with hi
    · obtain ⟨rfl, -⟩ := hi
      exact .inr (.inr ⟨h.free_or_pending hb, rfl⟩)
    · exact (h i).imp_right .inl

/-! ### Bytes of a buffer (20_memory.md R72, R79) -/

/-- A write within one buffer leaves the bytes of every other buffer. -/
theorem bufWriteBytes_bufRead_ne {b k j : Nat} {l : List Byte} (hl : k + l.length ≤ 4096) (hj : j < 4096)
    (h : (s.bufWriteBytes b k l).bufRead i j ≠ s.bufRead i j) : i = b := by
  by_contra hne
  refine h (bufWriteBytes_memorySameOutside s b k l _ ?_)
  unfold bufAddr
  omega

theorem bufRead_of_bmem (h : t.bmem = s.bmem) (i j : Nat) : t.bufRead i j = s.bufRead i j := by
  simp only [State.bufRead, h]

/-- A received byte changes the bytes of the buffer it delivers into and no others. -/
theorem State.Serves.bufRead_ne (h : s.Serves t) (hcap : s.params.bufcap ≤ 4096) {j : Nat} (hj : j < 4096)
    (hne : t.bufRead i j ≠ s.bufRead i j) : (s.bstate i = .free ∨ s.pending i) ∧ t.bstate i = .delivered := by
  cases h with
  | givesBack _ hmem => exact absurd (bufRead_of_bmem hmem i j) hne
  | delivers u b info hback hmem hfree hfits hpool' hmem' =>
    obtain ⟨hlt, hb, -⟩ := (poolAcquire_eq_some u).1 hfree
    rw [bufRead_of_bmem (hmem'.trans (deliverTo_bmem u b info)), ← bufRead_of_bmem hmem] at hne
    obtain rfl := bufWriteBytes_bufRead_ne (by omega) hj hne
    refine ⟨hback.free_or_pending hb, ?_⟩
    rw [bstate_of_pool hpool', deliverTo_bstate, if_pos ⟨rfl, hlt⟩]

/-! ### Host writes -/

/-- The changes of the ownership state of buffer `i`, in `s` and by the event `e`, that the table of 42_buffer_pool.md
R204 has, and the state the buffer changes to. -/
inductive State.Changes (s : State) (e : PortEvent) (i : Nat) : BufState → Prop
  | reset (he : e.IsReset) : s.Changes e i .free
  | acquire (hb : s.bstate i = .free) (he : e.IsCommand 0x01) : s.Changes e i .app
  | release (hb : s.bstate i = .app) (he : e.IsCommand 0x02) : s.Changes e i .free
  | send (hb : s.bstate i = .app) (he : e.IsCommand 0x03) : s.Changes e i .pendTx
  | read (hb : s.bstate i = .delivered) (he : e.IsCommand 0x04) : s.Changes e i .app
  | giveBack (hb : s.pending i) (he : e.IsCommand 0x06 ∨ (∃ x, e = .rxByte x) ∨ e = .tick ∨ e = .txReady) :
    s.Changes e i .free
  | sent (hb : s.bstate i = .pendTx) (he : e = .txReady) : s.Changes e i .pendAck
  | deliver (hb : s.bstate i = .free ∨ s.pending i) (he : ∃ x, e = .rxByte x) : s.Changes e i .delivered

/-- A write that reaches CMD is the command of its opcode (10_state.md R32). -/
theorem isCommand_of_opcode {a : BitVec 20} {z : BitVec 2} {v : Word} {op : BitVec 8} (hcmd : s.target a z = .reg .cmd)
    (hop : v.extractLsb' 0 8 = op) : (PortEvent.hostWrite a z v).IsCommand op.toNat := by
  obtain ⟨hz, ha⟩ := target_reg hcmd
  refine ⟨v, by rw [hz, show a = 0x018 from BitVec.eq_of_toNat_eq ha], ?_⟩
  rw [← hop, BitVec.extractLsb'_toNat]
  rfl

theorem setDesc_bstate_cases (s : State) (b : Nat) (d : BufDesc) (i : Nat) :
    (s.setDesc b d).bstate i = s.bstate i ∨ (b = i ∧ (s.setDesc b d).bstate i = d.state) := by
  rw [setDesc_bstate]
  split_ifs with h
  · exact .inr ⟨h.1, rfl⟩
  · exact .inl rfl

theorem softReset_bstate (s : State) (i : Nat) : s.softReset.bstate i = .free := 
  afterReset_bstate s.params s.nbuf s.bmem s.env i

theorem acquire_buffers {buf : BitVec 8} {len : BitVec 16} (he : exec (.acquire buf len) s = .next t) :
    t.bmem = s.bmem ∧ ∀ i, t.bstate i = s.bstate i ∨ (s.bstate i = .free ∧ t.bstate i = .app) := by
  cases hb : s.poolAcquire with
  | none =>
    rw [acquire_of_none hb] at he
    injection he with he
    exact he ▸ ⟨rfl, fun _ => .inl rfl⟩
  | some b =>
    rw [acquire_of_some hb] at he
    injection he with he
    subst he
    obtain ⟨-, hfree, -⟩ := (poolAcquire_eq_some s).1 hb
    exact ⟨rfl, fun i => (setDesc_bstate_cases s b _ i).imp_right fun ⟨hi, h⟩ => ⟨hi ▸ hfree, h⟩⟩

theorem release_buffers {buf : BitVec 8} {len : BitVec 16} (he : exec (.release buf len) s = .next t) :
    t.bmem = s.bmem ∧ ∀ i, t.bstate i = s.bstate i ∨ (s.bstate i = .app ∧ t.bstate i = .free) := by
  by_cases hown : s.hostOwns buf.toNat = true
  · rw [release_of_owned hown] at he
    injection he with he
    subst he
    obtain ⟨-, happ⟩ := (hostOwns_iff s _).1 hown
    exact ⟨rfl, fun i => (setDesc_bstate_cases s buf.toNat _ i).imp_right fun ⟨hi, h⟩ => ⟨hi ▸ happ, h⟩⟩
  · rw [release_of_not_owned hown] at he
    injection he with he
    exact he ▸ ⟨rfl, fun _ => .inl rfl⟩

theorem send_buffers {buf : BitVec 8} {len : BitVec 16} (he : exec (.send buf len) s = .next t) :
    t.bmem = s.bmem ∧ ∀ i, t.bstate i = s.bstate i ∨ (s.bstate i = .app ∧ t.bstate i = .pendTx) := by
  simp only [exec, execSend] at he
  split_ifs at he with hbad <;> injection he with he <;> subst he
  · exact ⟨rfl, fun _ => .inl rfl⟩
  · exact ⟨rfl, fun _ => .inl rfl⟩
  · exact ⟨rfl, fun _ => .inl rfl⟩
  · simp only [not_or, Bool.not_eq_false] at hbad
    obtain ⟨-, happ⟩ := (hostOwns_iff s _).1 hbad.1
    exact ⟨rfl, fun i => (setDesc_bstate_cases _ _ _ i).imp_right fun ⟨hi, h⟩ => ⟨hi ▸ happ, h⟩⟩

theorem read_buffers (hs : s.PoolLegal) {buf : BitVec 8} {len : BitVec 16} (he : exec (.read buf len) s = .next t) :
    t.bmem = s.bmem ∧ ∀ i, t.bstate i = s.bstate i ∨ (s.bstate i = .delivered ∧ t.bstate i = .app) := by
  cases hq : s.rxq with
  | nil =>
    rw [read_of_nil hq] at he
    injection he with he
    exact he ▸ ⟨rfl, fun _ => .inl rfl⟩
  | cons b queue =>
    rw [read_of_cons hq] at he
    injection he with he
    subst he
    obtain ⟨-, hb⟩ := (hs.delivered b).1 (by rw [hq]; exact List.mem_cons_self)
    exact ⟨rfl, fun i => (setDesc_bstate_cases { s with rxq := queue } b _ i).imp_right fun ⟨hi, h⟩ => ⟨hi ▸ hb, h⟩⟩

theorem connect_buffers {buf : BitVec 8} {len : BitVec 16} (he : exec (.connect buf len) s = .next t) :
    t.bmem = s.bmem ∧ t.pool = s.pool := by
  simp only [exec, execConnect] at he
  split_ifs at he <;> injection he with he <;> exact he ▸ ⟨rfl, rfl⟩

theorem disconnect_buffers (hs : s.Owned) {buf : BitVec 8} {len : BitVec 16}
    (he : exec (.disconnect buf len) s = .next t) : t.bmem = s.bmem ∧ s.GivesBack t := by
  simp only [exec, execDisconnect] at he
  split_ifs at he <;> injection he with he <;> subst he
  · refine ⟨?_, hs.flush_givesBack.congr rfl ?_⟩
    · simp only [setResult_bmem, State.startDisconnect, flush_bmem]
    · simp only [setResult_pool, State.startDisconnect]
  · exact ⟨rfl, .of_pool rfl⟩

/-- A command does not write buffer memory, and makes the table's ownership changes for its opcode. -/
theorem State.Owned.execute_buffers (hs : s.Owned) {a : BitVec 20} {z : BitVec 2} {v : Word}
    (hcmd : s.target a z = .reg .cmd) (he : s.execute v = .next t) :
    t.bmem = s.bmem ∧ ∀ i, t.bstate i = s.bstate i ∨ s.Changes (.hostWrite a z v) i (t.bstate i) := by
  unfold State.execute decodeCommand at he
  dsimp only at he
  split_ifs at he with h0 h1 h2 h3 h4 h5 h6 hF
  · injection he with he
    exact he ▸ ⟨rfl, fun _ => .inl rfl⟩
  · exact (acquire_buffers he).imp_right fun hall i => (hall i).imp_right fun ⟨hb, ht⟩ => by
      rw [ht]; exact .acquire hb (isCommand_of_opcode hcmd h1)
  · exact (release_buffers he).imp_right fun hall i => (hall i).imp_right fun ⟨hb, ht⟩ => by
      rw [ht]; exact .release hb (isCommand_of_opcode hcmd h2)
  · exact (send_buffers he).imp_right fun hall i => (hall i).imp_right fun ⟨hb, ht⟩ => by
      rw [ht]; exact .send hb (isCommand_of_opcode hcmd h3)
  · exact (read_buffers hs.pool he).imp_right fun hall i => (hall i).imp_right fun ⟨hb, ht⟩ => by
      rw [ht]; exact .read hb (isCommand_of_opcode hcmd h4)
  · exact (connect_buffers he).imp_right fun hpool i => .inl (bstate_of_pool hpool i)
  · exact (disconnect_buffers hs he).imp_right fun hall i => (hall i).imp_right fun ⟨hb, ht⟩ => by
      rw [ht]; exact .giveBack hb (.inl (isCommand_of_opcode hcmd h6))
  · injection he with he
    subst he
    refine ⟨rfl, fun i => .inr ?_⟩
    rw [setResult_bstate, softReset_bstate]
    exact .reset (.inr (isCommand_of_opcode hcmd hF))
  · injection he with he
    exact he ▸ ⟨rfl, fun _ => .inl rfl⟩

/-- A host write that neither runs a command nor writes a buffer leaves the buffers alone. -/
theorem hostWrite_buffers {a : BitVec 20} {z : BitVec 2} {v : Word} (hw : s.hostWrite a z v = .next t) :
    (s.target a z = .reg .cmd ∧ s.execute v = .next t) ∨
    (∃ b k n, s.target a z = .window b k n ∧ t = s.bufWriteBytes b k (lanes n v)) ∨
    (t.pool = s.pool ∧ t.bmem = s.bmem) := by
  have hlocked : ∀ c, (s.lockedWrite c).pool = s.pool ∧ (s.lockedWrite c).bmem = s.bmem := fun c => by
    unfold State.lockedWrite
    split_ifs <;> exact ⟨rfl, rfl⟩
  unfold State.hostWrite at hw
  split at hw
  · next r hr =>
    cases r
    case cmd => exact .inl ⟨hr, hw⟩
    case cfg | cfgMtu | cfgTimeout | cfgAckDelay => injection hw with hw; exact .inr (.inr (hw ▸ hlocked _))
    all_goals injection hw with hw; exact .inr (.inr (hw ▸ ⟨rfl, rfl⟩))
  · next b k n hwin =>
    injection hw with hw
    exact .inr (.inl ⟨b, k, n, hwin, hw.symm⟩)
  · injection hw with hw
    exact .inr (.inr (hw ▸ ⟨rfl, rfl⟩))

/-! ### Every port event -/

/-- Every change of a buffer's ownership state is one of the table's (42_buffer_pool.md R204). -/
theorem State.Legal.handle_changes (hs : s.Legal) (he : s.handle e = .next t) (i : Nat) :
    t.bstate i = s.bstate i ∨ s.Changes e i (t.bstate i) := by
  have hk := hs.kept
  rcases handle_cases he with ⟨rfl, rfl⟩ | ⟨a, z, -, rfl⟩ | ⟨a, z, v, u, rfl, hw, rfl⟩ | ⟨b, u, rfl, hb, rfl⟩ | ⟨rfl, rfl⟩ |
    ⟨rfl, -, rfl⟩ | ⟨-, -, rfl⟩
  · rw [show s.hardReset.bstate i = .free from softReset_bstate s i]
    exact .inr (.reset (.inl rfl))
  · rw [encoderLoad_bstate, hostRead_eq]
    exact .inl rfl
  · rw [encoderLoad_bstate]
    rcases hostWrite_buffers hw with ⟨hcmd, hx⟩ | ⟨b, k, n, -, rfl⟩ | ⟨hpool, -⟩
    · exact (hk.base.owned.execute_buffers hcmd hx).2 i
    · exact .inl rfl
    · exact .inl (bstate_of_pool hpool i)
  · rw [encoderLoad_bstate]
    rcases (hk.rxByte_serves hb).bstate i with h | ⟨hp, h⟩ | ⟨hf, h⟩
    · exact .inl h
    · rw [h]; exact .inr (.giveBack hp (.inr (.inl ⟨b, rfl⟩)))
    · rw [h]; exact .inr (.deliver hf ⟨b, rfl⟩)
  · rw [encoderLoad_bstate]
    rcases hk.tick_givesBack i with h | ⟨hp, h⟩
    · exact .inl h
    · rw [h]; exact .inr (.giveBack hp (.inr (.inr (.inl rfl))))
  · rw [encoderLoad_bstate]
    rcases hk.base.owned.txByte_bstate i with h | ⟨hp, h⟩ | ⟨hp, h⟩
    · exact .inl h
    · rw [h]; exact .inr (.giveBack hp (.inr (.inr (.inr rfl))))
    · rw [h]; exact .inr (.sent hp rfl)
  · exact .inl rfl

/-- Settles O47: the rows of the table, one constructor of `State.Changes` each. -/
theorem ownershipTransitions : Obligations.OwnershipTransitions := by
  intro s t e i hs he hne
  have h := (hs.handle_changes he i).resolve_left hne
  generalize t.bstate i = b at h
  cases h with
  | reset he => exact .inl ⟨rfl, he⟩
  | acquire hb he => exact .inr (.inl ⟨hb, rfl, he⟩)
  | release hb he => exact .inr (.inr (.inl ⟨hb, rfl, he⟩))
  | send hb he => exact .inr (.inr (.inr (.inl ⟨hb, rfl, he⟩)))
  | read hb he => exact .inr (.inr (.inr (.inr (.inl ⟨hb, rfl, he⟩))))
  | giveBack hb he => exact .inr (.inr (.inr (.inr (.inr (.inl ⟨hb, rfl, he⟩)))))
  | sent hb he => exact .inr (.inr (.inr (.inr (.inr (.inr (.inl ⟨hb, rfl, he⟩))))))
  | deliver hb he => exact .inr (.inr (.inr (.inr (.inr (.inr (.inr ⟨hb, rfl, he⟩))))))

/-- Settles O52, event by event: only host writes and received bytes write buffer memory. -/
theorem singleWriter : Obligations.SingleWriter := by
  intro s t e i j hs he _ hj hne
  have hcap := hs.sizes.bufcap_le
  rcases handle_cases he with ⟨-, rfl⟩ | ⟨a, z, -, rfl⟩ | ⟨a, z, v, u, rfl, hw, rfl⟩ | ⟨b, u, rfl, hb, rfl⟩ | ⟨-, rfl⟩ |
    ⟨-, -, rfl⟩ | ⟨-, -, rfl⟩
  · exact absurd rfl hne
  · rw [encoderLoad_bufRead, hostRead_eq] at hne
    exact absurd rfl hne
  · rw [encoderLoad_bufRead] at hne
    rw [encoderLoad_bstate]
    rcases hostWrite_buffers hw with ⟨hcmd, hx⟩ | ⟨b, k, n, hwin, rfl⟩ | ⟨-, hmem⟩
    · exact absurd (bufRead_of_bmem (hs.kept.base.owned.execute_buffers hcmd hx).1 i j) hne
    · obtain ⟨-, hfits, happ⟩ := target_window hwin
      obtain rfl := bufWriteBytes_bufRead_ne (by rw [lanes_length]; omega) (by omega) hne
      exact .inl ⟨happ, happ, a, z, v, rfl⟩
    · exact absurd (bufRead_of_bmem hmem i j) hne
  · rw [encoderLoad_bufRead] at hne
    rw [encoderLoad_bstate]
    obtain ⟨hfrom, hto⟩ := (hs.kept.rxByte_serves hb).bufRead_ne hcap (by omega) hne
    refine .inr ⟨fun h => ?_, fun h => ?_, hto, b, rfl⟩ <;> simp [State.pending, h] at hfrom
  · rw [encoderLoad_bufRead] at hne
    exact absurd (bufRead_of_bmem (tick_bmem s) i j) hne
  · rw [encoderLoad_bufRead] at hne
    exact absurd (bufRead_of_bmem (txByte_bmem s) i j) hne
  · exact absurd rfl hne

end Sys2Proof.Machine

/-! SUPPORT. Connection management (43_arq_connection.md): what the commands and the received U-frames do, every change
of the connection state by its cause (R238), the request timer (R239), and the handshake of two blocks. -/

namespace Sys2Proof.Machine

variable {s t u : State} {e : PortEvent} {i : Instr}

/-! ### Received bytes and host writes, in the instruction they run (40_framecodec.md R155, 45_host_interface.md R332) -/

/-- The end of a received frame in full: it is discarded, or it is good and runs its instruction. -/
theorem complete_cases {acc : List Byte} (h : s.complete acc = .next t) :
    t = { s with cntOversize := t.cntOversize } ∨
    ∃ body i, acc = body ++ s.fcsNow body ∧ acc.length ≤ s.maxFrame ∧ decode .frame body = .ok i ∧
      exec i s = .next t := by
  by_cases hlong : s.maxFrame < acc.length
  · rw [complete_of_gt hlong] at h
    injection h with h
    exact .inl (h ▸ rfl)
  rw [Nat.not_lt] at hlong
  by_cases hshort : acc.length < 1 + s.cfg.fcsMode.fcsLen
  · rw [complete_of_lt hlong hshort] at h
    injection h with h
    exact .inl (h ▸ rfl)
  obtain ⟨body, check, rfl, hcheck⟩ : ∃ body check, acc = body ++ check ∧ check.length = s.cfg.fcsMode.fcsLen :=
    ⟨_, _, (List.take_append_drop (acc.length - s.cfg.fcsMode.fcsLen) acc).symm, by rw [List.length_drop]; omega⟩
  have hbody : body ≠ [] := by
    rintro rfl
    rw [List.nil_append, hcheck] at hshort
    omega
  rw [complete_of_body hcheck hbody hlong] at h
  split_ifs at h with hfcs
  · injection h with h
    exact .inl (h ▸ rfl)
  · obtain ⟨i, hi⟩ := decode_frame_isOk.2 hbody
    rw [receiveFrame_of_decode hi] at h
    exact .inr ⟨body, i, by rw [not_not.1 hfcs], hlong, hi, h⟩

theorem append_eq (s : State) (x : Byte) :
    s.append x = { s with rx := (s.append x).rx, cntOversize := (s.append x).cntOversize } := by
  unfold State.append
  split_ifs <;> rfl

/-- A received byte in full: it moves the de-stuffer only, or it closes a good frame and runs its instruction. -/
theorem rxByte_cases {b : Byte} (h : s.rxByte b = .next t) :
    t = { s with rx := t.rx, cntOversize := t.cntOversize } ∨
    ∃ i u, s.Receives (.rxByte b) i ∧ exec i s = .next u ∧ t = u.withRx u.rx.state [] := by
  unfold State.rxByte at h
  split at h
  · split_ifs at h <;> injection h with h <;> exact .inl (h ▸ rfl)
  · next hst =>
    split_ifs at h with hd hacc hesc
    · injection h with h
      exact .inl (h ▸ rfl)
    · obtain ⟨u, hu, rfl⟩ := andThen_eq_next h
      rcases complete_cases hu with hu | ⟨body, i, hbody, hlen, hdec, hu⟩
      · exact .inl (by rw [hu])
      · exact .inr ⟨i, u, ⟨congrArg _ hd, hst, body, hbody, hlen, hdec⟩, hu, rfl⟩
    · injection h with h
      exact .inl (h ▸ rfl)
    · injection h with h
      exact .inl (h ▸ append_eq s b)
  · split_ifs at h <;> injection h with h
    · exact .inl (h ▸ rfl)
    · exact .inl (h ▸ append_eq _ _)

theorem lockedWrite_eq (s : State) (c : CfgRegs) :
    s.lockedWrite c = { s with cfg := (s.lockedWrite c).cfg, event := (s.lockedWrite c).event } := by
  unfold State.lockedWrite
  split_ifs <;> rfl

/-- A host write in full: it runs a command, or it writes none of the state of the link. -/
theorem hostWrite_runs_or_keeps {a : BitVec 20} {z : BitVec 2} {v : Word} (h : s.hostWrite a z v = .next t) :
    (s.target a z = .reg .cmd ∧ exec (decodeCommand v) s = .next t) ∨
    t = { s with cfg := t.cfg, irqEn := t.irqEn, event := t.event, cntLost := t.cntLost, cntOversize := t.cntOversize,
                 bmem := t.bmem } := by
  unfold State.hostWrite at h
  split at h
  · next r hr =>
    cases r with
    | cmd => exact .inl ⟨hr, h⟩
    | cfg | cfgMtu | cfgTimeout | cfgAckDelay => injection h with h; exact .inr (by rw [← h, lockedWrite_eq])
    | _ => injection h with h; exact .inr (h ▸ rfl)
  · injection h with h
    exact .inr (h ▸ rfl)
  · injection h with h
    exact .inr (h ▸ rfl)

/-- A write that runs a command has the opcode of that command's word (10_state.md R32, 30_encoding.md R110). -/
theorem isCommand_of_encode {a : BitVec 20} {z : BitVec 2} {v : Word} {op buf : BitVec 8} {len : BitVec 16}
    (hcmd : s.target a z = .reg .cmd) (h : encode (decodeCommand v) = wordBytes (commandWord op buf len)) :
    (PortEvent.hostWrite a z v).IsCommand op.toNat := by
  obtain ⟨-, hv, -⟩ := decodeCommand_encodedAs v
  refine isCommand_of_opcode hcmd ?_
  rw [← commandWord_op op buf len]
  exact (List.cons.inj (hv.symm.trans h)).1

/-! ### What an instruction does to the connection state (43_arq_connection.md R230 to R237) -/

/-- The changes of the connection state, to `c`, that an instruction makes in `s`; `ev` is EVENT afterwards. -/
inductive State.Moves (s : State) (c : Conn) (ev : BitVec 11) : Instr → Prop
  | connect (buf : BitVec 8) (len : BitVec 16) (hs : s.conn = .disconnected) (ht : c = .connecting) :
    s.Moves c ev (.connect buf len)
  | disconnect (buf : BitVec 8) (len : BitVec 16) (hs : s.conn = .connected ∨ s.conn = .connecting)
    (ht : c = .disconnecting) : s.Moves c ev (.disconnect buf len)
  | softReset (buf : BitVec 8) (len : BitVec 16) (ht : c = .disconnected) (hev : ev = 0) :
    s.Moves c ev (.softReset buf len)
  | sabm (pf : Bool) (hs : s.conn = .disconnected ∨ s.conn = .connecting) (ht : c = .connected) :
    s.Moves c ev (.sabm pf [])
  | uaOpens (pf : Bool) (hs : s.conn = .connecting) (ht : c = .connected) : s.Moves c ev (.ua pf [])
  | uaCloses (pf : Bool) (hs : s.conn = .disconnecting) (ht : c = .disconnected) : s.Moves c ev (.ua pf [])
  | disc (pf : Bool) (hs : s.conn ≠ .disconnected) (ht : c = .disconnected)
    (hfail : s.conn = .connecting → ev.getLsbD 6 = true) : s.Moves c ev (.disc pf [])

theorem signal_getLsbD_bit (s : State) (e : Event) : (s.signal e).event.getLsbD e.bit = true :=
  (signal_added s e e.bit).2 (.inr rfl)

theorem rxSabm_moves (s : State) (pf : Bool) :
    s.rxSabm.conn = s.conn ∨ s.Moves s.rxSabm.conn s.rxSabm.event (.sabm pf []) := by
  unfold State.rxSabm
  split
  · next hc => exact .inr (.sabm pf (.inl hc) (enterConnected_conn _))
  · next hc => exact .inr (.sabm pf (.inr hc) (enterConnected_conn _))
  · next hc => exact .inl (by rw [signal_conn, enterConnected_conn, hc])
  · exact .inl rfl

theorem rxUa_moves (s : State) (pf : Bool) : s.rxUa.conn = s.conn ∨ s.Moves s.rxUa.conn s.rxUa.event (.ua pf []) := by
  unfold State.rxUa
  split
  · next hc => exact .inr (.uaOpens pf hc (enterConnected_conn s))
  · next hc => exact .inr (.uaCloses pf hc (enterDisconnected_conn s))
  · exact .inl rfl
  · exact .inl rfl

theorem rxDisc_moves (s : State) (pf : Bool) :
    s.rxDisc.conn = s.conn ∨ s.Moves s.rxDisc.conn s.rxDisc.event (.disc pf []) := by
  unfold State.rxDisc
  dsimp only
  split
  · exact .inl rfl
  · next hc => exact .inr (.disc pf (by simp [hc]) (by simp) fun _ => signal_getLsbD_bit _ .hsFail)
  · next hc => exact .inr (.disc pf (by simp [hc]) (by simp) (by simp [hc]))
  · next hc => exact .inr (.disc pf (by simp [hc]) (by simp) (by simp [hc]))

theorem deliver_conn (s : State) (info : List Byte) : (s.deliver info).conn = s.conn := by
  unfold State.deliver
  split
  · rfl
  · unfold State.deliverTo
    dsimp only
    split_ifs <;> rfl

theorem rxI_conn (s : State) (ns nr : SeqNum) (info : List Byte) : (s.rxI ns nr info).conn = s.conn := by
  unfold State.rxI
  dsimp only
  split_ifs <;> simp [deliver_conn]

theorem rxRr_conn (s : State) (nr : SeqNum) : (s.rxRr nr).conn = s.conn := by
  unfold State.rxRr
  split_ifs <;> simp

theorem rxRej_conn (s : State) (nr : SeqNum) : (s.rxRej nr).conn = s.conn := by
  unfold State.rxRej
  split_ifs <;> simp

/-- Every instruction keeps the connection state or makes one of its changes. -/
theorem exec_moves (h : exec i s = .next t) : t.conn = s.conn ∨ s.Moves t.conn t.event i := by
  cases i with
  | nop buf len => injection h with h; exact .inl (h ▸ rfl)
  | acquire buf len =>
    simp only [exec, execAcquire] at h
    split at h <;> injection h with h <;> exact .inl (h ▸ rfl)
  | release buf len =>
    simp only [exec, execRelease] at h
    split_ifs at h <;> injection h with h <;> exact .inl (h ▸ rfl)
  | send buf len =>
    simp only [exec, execSend] at h
    split_ifs at h <;> injection h with h <;> exact .inl (h ▸ rfl)
  | read buf len =>
    simp only [exec, execRead] at h
    split at h <;> injection h with h <;> exact .inl (h ▸ rfl)
  | connect buf len =>
    simp only [exec, execConnect] at h
    split_ifs at h with hc <;> injection h with h
    · exact .inr (.connect buf len hc (h ▸ rfl))
    · exact .inl (h ▸ rfl)
  | disconnect buf len =>
    simp only [exec, execDisconnect] at h
    split_ifs at h with hc <;> injection h with h
    · exact .inr (.disconnect buf len hc (h ▸ rfl))
    · exact .inl (h ▸ rfl)
  | softReset buf len => injection h with h; exact .inr (.softReset buf len (h ▸ rfl) (h ▸ rfl))
  | reservedOpcode op buf len => injection h with h; exact .inl (h ▸ rfl)
  | iFrame ns nr pf info => injection h with h; exact .inl (h ▸ rxI_conn s ns nr info)
  | rr nr pf info =>
    simp only [exec, execRr] at h
    split_ifs at h <;> injection h with h
    · exact .inl (h ▸ rxRr_conn s nr)
    · exact .inl (h ▸ rfl)
  | rej nr pf info =>
    simp only [exec, execRej] at h
    split_ifs at h <;> injection h with h
    · exact .inl (h ▸ rxRej_conn s nr)
    · exact .inl (h ▸ rfl)
  | sabm pf info =>
    simp only [exec, execSabm] at h
    split_ifs at h with hinfo <;> injection h with h
    · subst hinfo; exact h ▸ rxSabm_moves s pf
    · exact .inl (h ▸ rfl)
  | ua pf info =>
    simp only [exec, execUa] at h
    split_ifs at h with hinfo <;> injection h with h
    · subst hinfo; exact h ▸ rxUa_moves s pf
    · exact .inl (h ▸ rfl)
  | disc pf info =>
    simp only [exec, execDisc] at h
    split_ifs at h with hinfo <;> injection h with h
    · subst hinfo; exact h ▸ rxDisc_moves s pf
    · exact .inl (h ▸ rfl)
  | rnrReserved nr pf info => injection h with h; exact .inl (h ▸ rfl)
  | srejReserved nr pf info => injection h with h; exact .inl (h ▸ rfl)
  | uReserved m pf info => injection h with h; exact .inl (h ▸ rfl)

/-! ### Ticks, by connection state (44_arq_data.md R286, R292, 43_arq_connection.md R239) -/

theorem slots_ext (h : ∀ q, s.slot q = t.slot q) : s.slots = t.slots := by
  apply Vector.ext
  intro k hk
  have hq : (BitVec.ofNat 3 k).toNat = k := by rw [BitVec.toNat_ofNat]; omega
  simpa only [State.slot, hq] using h (BitVec.ofNat 3 k)

/-- `s` with this time left to the request timer. -/
def State.withUTimer (s : State) (x : Half) : State := { s with uTimer := x }

/-- Outside CONNECTED only the request timer runs: the slots are empty and no acknowledgment is pending. -/
theorem State.Kept.countTick_of_not_connected (h : s.Kept) (hc : s.conn ≠ .connected) :
    s.countTick = s.withUTimer (tickDown s.uTimer) := by
  have hslots : s.countTick.slots = s.slots := slots_ext fun q => by
    rw [countTick_slot, h.base.owned.slots.empty q (h.no_slot hc q)]
    rfl
  have hack : tickDown s.ackTimer = s.ackTimer := by
    by_cases h0 : s.ackTimer = 0
    · rw [h0]; rfl
    · exact absurd (h.link.ackPending (h.link.ackTimer h0)) hc
  calc s.countTick
      = { s with uTimer := tickDown s.uTimer, ackTimer := tickDown s.ackTimer, slots := s.countTick.slots } := rfl
    _ = s.withUTimer (tickDown s.uTimer) := by rw [hslots, hack]; rfl

theorem State.Kept.oldest_expiring_of_not_connected (h : s.Kept) (hc : s.conn ≠ .connected) (va : SeqNum) :
    (oldest va fun q => (s.slot q).expiring) = none :=
  oldest_eq_none.2 fun q => by simp [Slot.expiring, h.no_slot hc q]

/-- Outside CONNECTED a tick is the count, and the expiry of the request timer. -/
theorem State.Kept.tick_of_not_connected (h : s.Kept) (hc : s.conn ≠ .connected) :
    s.tick = if s.uTimer = 1 then (s.withUTimer 0).uExpire else s.withUTimer (tickDown s.uTimer) := by
  have hcount := h.countTick_of_not_connected hc
  have hnone := h.oldest_expiring_of_not_connected hc
  by_cases h1 : s.uTimer = 1
  · have hreq : s.countTick.conn = .connecting ∨ s.countTick.conn = .disconnecting :=
      h.link.uTimer.1 (by rw [h1]; decide)
    simp only [State.tick, hnone, if_pos (And.intro h1 hreq), if_pos h1]
    rw [hcount, h1]
    rfl
  · simp only [State.tick, hnone, h1, false_and, if_false, hcount]

/-- In CONNECTED a tick is the count, and the expiry of the oldest slot whose timer runs out. -/
theorem tick_of_connected (hc : s.conn = .connected) :
    s.tick = s.countTick ∨ ∃ q, s.tick = s.countTick.slotExpire q := by
  have hu : ¬ (s.uTimer = 1 ∧ (s.countTick.conn = .connecting ∨ s.countTick.conn = .disconnecting)) := by
    simp [hc]
  simp only [State.tick, if_neg hu]
  split
  · exact .inr ⟨_, if_pos hc⟩
  · exact .inl rfl

/-- The expiry of the request timer with the retries used up is the end of the attempt. -/
theorem uExpire_conn (s : State) : s.uExpire.conn = s.conn ∨
    (s.uExpire.conn = .disconnected ∧ s.retry = s.cfg.maxRetries ∧
      (s.conn = .connecting → s.uExpire.event.getLsbD 6 = true)) := by
  unfold State.uExpire
  dsimp only
  split_ifs with hr hc hc
  · exact .inr ⟨by simp, hr, fun _ => signal_getLsbD_bit _ .hsFail⟩
  · exact .inr ⟨by simp, hr, fun h => absurd h hc⟩
  · exact .inl rfl
  · exact .inl rfl

/-- The expiry of a slot with the retries used up is the end of the link. -/
theorem slotExpire_conn (s : State) (q : SeqNum) : (s.slotExpire q).conn = s.conn ∨
    ((s.slotExpire q).conn = .disconnected ∧ s.retry = s.cfg.maxRetries ∧
      (s.slotExpire q).event.getLsbD 5 = true) := by
  unfold State.slotExpire
  split_ifs with hr
  · exact .inr ⟨by simp, hr, signal_getLsbD_bit _ .linkFail⟩
  · exact .inl (by simp)

/-- A tick changes the connection state only where the retries are used up, and reports it. -/
theorem State.Kept.tick_conn (h : s.Kept) : s.tick.conn = s.conn ∨
    (s.tick.conn = .disconnected ∧ s.retry = s.cfg.maxRetries ∧
      (s.conn = .connecting → s.tick.event.getLsbD 6 = true) ∧
      (s.conn = .connected → s.tick.event.getLsbD 5 = true)) := by
  by_cases hc : s.conn = .connected
  · rcases tick_of_connected hc with ht | ⟨q, ht⟩ <;> rw [ht]
    · exact .inl rfl
    · exact (slotExpire_conn s.countTick q).imp_right fun ⟨hd, hr, hev⟩ =>
        ⟨hd, hr, by simp [hc], fun _ => hev⟩
  · rw [h.tick_of_not_connected hc]
    split_ifs
    · exact (uExpire_conn (s.withUTimer _)).imp_right fun ⟨hd, hr, hev⟩ => ⟨hd, hr, hev, fun h => absurd h hc⟩
    · exact .inl rfl

/-! ### The table of changes (43_arq_connection.md R238) -/

/-- A hand-off writes none of the state of the link. -/
theorem txByte_eq (s : State) : s.txByte = { s with
    enc := s.txByte.enc, pool := s.txByte.pool, event := s.txByte.event, env := s.txByte.env } := by
  rcases txByte_cases s with h | h <;> rw [h]
  · rfl
  · rw [frameEnd_eq]
    rfl

/-- The changes of the connection state, to `c`, that the event `e` makes in `s`, by cause; `ev` is EVENT afterwards. -/
inductive State.Turns (s : State) (e : PortEvent) (c : Conn) (ev : BitVec 11) : Prop
  | connect (hs : s.conn = .disconnected) (ht : c = .connecting) (he : e.IsCommand 0x05)
  | disconnect (hs : s.conn = .connected ∨ s.conn = .connecting) (ht : c = .disconnecting) (he : e.IsCommand 0x06)
  | sabm (hs : s.conn = .disconnected ∨ s.conn = .connecting) (ht : c = .connected)
    (he : ∃ pf, s.Receives e (.sabm pf []))
  | uaOpens (hs : s.conn = .connecting) (ht : c = .connected) (he : ∃ pf, s.Receives e (.ua pf []))
  | uaCloses (hs : s.conn = .disconnecting) (ht : c = .disconnected) (he : ∃ pf, s.Receives e (.ua pf []))
  | disc (hs : s.conn ≠ .disconnected) (ht : c = .disconnected) (he : ∃ pf, s.Receives e (.disc pf []))
    (hfail : s.conn = .connecting → ev.getLsbD 6 = true)
  | givesUp (ht : c = .disconnected) (he : e = .tick) (hr : s.retry = s.cfg.maxRetries)
    (hhs : s.conn = .connecting → ev.getLsbD 6 = true) (hlink : s.conn = .connected → ev.getLsbD 5 = true)
  | reset (ht : c = .disconnected) (he : e.IsReset) (hev : ev = 0)

section
variable {c : Conn} {ev : BitVec 11}

/-- The changes that commands make (43_arq_connection.md R230, R233, 45_host_interface.md R334). -/
theorem turns_of_command {a : BitVec 20} {z : BitVec 2} {v : Word} (hcmd : s.target a z = .reg .cmd)
    (hm : s.Moves c ev (decodeCommand v)) : s.Turns (.hostWrite a z v) c ev := by
  obtain ⟨hsource, -⟩ := decodeCommand_encodedAs v
  generalize hi : decodeCommand v = i at hm hsource
  cases hm with
  | connect buf len hs ht => exact .connect hs ht (isCommand_of_encode (op := 0x05) hcmd (congrArg encode hi))
  | disconnect buf len hs ht => exact .disconnect hs ht (isCommand_of_encode (op := 0x06) hcmd (congrArg encode hi))
  | softReset buf len ht hev => exact .reset ht (.inr (isCommand_of_encode (op := 0x0F) hcmd (congrArg encode hi))) hev
  | _ => cases hsource

/-- The changes that received frames make (43_arq_connection.md R235 to R237). -/
theorem turns_of_frame (hr : s.Receives e i) (hm : s.Moves c ev i) : s.Turns e c ev := by
  obtain ⟨-, -, body, -, -, hdec⟩ := id hr
  obtain ⟨hsource, -⟩ := encodeOfDecode _ _ _ hdec
  cases hm with
  | sabm pf hs ht => exact .sabm hs ht ⟨pf, hr⟩
  | uaOpens pf hs ht => exact .uaOpens hs ht ⟨pf, hr⟩
  | uaCloses pf hs ht => exact .uaCloses hs ht ⟨pf, hr⟩
  | disc pf hs ht hfail => exact .disc hs ht ⟨pf, hr⟩ hfail
  | _ => cases hsource

end

/-- Every step keeps the connection state or makes one of the changes, by its cause. -/
theorem State.Legal.handle_turns (hs : s.Legal) (he : s.handle e = .next t) :
    t.conn = s.conn ∨ s.Turns e t.conn t.event := by
  rcases handle_cases he with ⟨rfl, rfl⟩ | ⟨a, z, -, rfl⟩ | ⟨a, z, v, u, rfl, hw, rfl⟩ | ⟨b, u, rfl, hb, rfl⟩ | ⟨rfl, rfl⟩ |
    ⟨-, -, rfl⟩ | ⟨-, -, rfl⟩
  · exact .inr (.reset rfl (.inl rfl) rfl)
  · rw [encoderLoad_conn, hostRead_eq]
    exact .inl rfl
  · rw [encoderLoad_conn, encoderLoad_event]
    rcases hostWrite_runs_or_keeps hw with ⟨hcmd, hx⟩ | hkeep
    · exact (exec_moves hx).imp_right (turns_of_command hcmd)
    · exact .inl (by rw [hkeep])
  · rw [encoderLoad_conn, encoderLoad_event]
    rcases rxByte_cases hb with hkeep | ⟨i, u, hr, hx, rfl⟩
    · exact .inl (by rw [hkeep])
    · exact (exec_moves hx).imp_right (turns_of_frame hr)
  · rw [encoderLoad_conn, encoderLoad_event]
    exact hs.kept.tick_conn.imp_right fun ⟨ht, hr, hhs, hlink⟩ => .givesUp ht rfl hr hhs hlink
  · rw [encoderLoad_conn, txByte_eq]
    exact .inl rfl
  · exact .inl rfl

/-- Settles O49: each constructor of `State.Turns`, from each connection state it starts from, is a row of the table. -/
theorem connectionTransitions : Obligations.ConnectionTransitions := by
  intro s t e hs he hne sabm ua disc
  cases (hs.handle_turns he).resolve_left hne with
  | connect hs ht he => exact .inl ⟨hs, ht, he⟩
  | disconnect hs ht he =>
    rcases hs with hs | hs
    · exact .inr (.inr (.inr (.inr (.inr (.inl ⟨hs, ht, he⟩)))))
    · exact .inr (.inr (.inr (.inl ⟨hs, ht, he⟩)))
  | sabm hs ht he =>
    rcases hs with hs | hs
    · exact .inr (.inl ⟨hs, ht, he⟩)
    · exact .inr (.inr (.inl ⟨hs, ht, .inr he⟩))
  | uaOpens hs ht he => exact .inr (.inr (.inl ⟨hs, ht, .inl he⟩))
  | uaCloses hs ht he => exact .inr (.inr (.inr (.inr (.inr (.inr (.inr (.inl ⟨hs, ht, .inl he⟩)))))))
  | disc hs ht he hfail =>
    cases hc : s.conn with
    | disconnected => exact absurd hc hs
    | connecting => exact .inr (.inr (.inr (.inr (.inl ⟨rfl, ht, hfail hc, .inl he⟩))))
    | connected => exact .inr (.inr (.inr (.inr (.inr (.inr (.inl ⟨rfl, ht, .inl he⟩))))))
    | disconnecting => exact .inr (.inr (.inr (.inr (.inr (.inr (.inr (.inl ⟨rfl, ht, .inr (.inl he)⟩)))))))
  | givesUp ht he hr hhs hlink =>
    cases hc : s.conn with
    | disconnected => exact absurd (ht.trans hc.symm) hne
    | connecting => exact .inr (.inr (.inr (.inr (.inl ⟨rfl, ht, hhs hc, .inr ⟨he, hr⟩⟩))))
    | connected => exact .inr (.inr (.inr (.inr (.inr (.inr (.inl ⟨rfl, ht, .inr ⟨he, hr, hlink hc⟩⟩))))))
    | disconnecting => exact .inr (.inr (.inr (.inr (.inr (.inr (.inr (.inl ⟨rfl, ht, .inr (.inr ⟨he, hr⟩)⟩)))))))
  | reset ht he hev => exact .inr (.inr (.inr (.inr (.inr (.inr (.inr (.inr ⟨ht, hev, he⟩)))))))

/-! ### The commands (43_arq_connection.md R230, R233) -/

/-- The state after an accepted CONNECT. -/
def State.calling (s : State) : State :=
  { s with
    conn := .connecting, vs := 0, vr := 0, va := 0, retry := 0, sabmPending := true, uTimer := s.cfg.timeout,
    result := 0 }

theorem connect_of_disconnected (hc : s.conn = .disconnected) (buf : BitVec 8) (len : BitVec 16) :
    exec (.connect buf len) s = .next s.calling := if_pos hc

/-- Settles O22: the connection state decides. -/
theorem connect : Obligations.Connect := fun _ buf len =>
  ⟨fun hc => connect_of_disconnected hc buf len, fun hc => if_neg hc⟩

theorem disconnect_of_engaged (hc : s.conn = .connected ∨ s.conn = .connecting) (buf : BitVec 8) (len : BitVec 16) :
    exec (.disconnect buf len) s = .next (s.startDisconnect.setResult .ok 0 0) := if_pos hc

theorem disconnect_of_not_engaged (hc : s.conn = .disconnected ∨ s.conn = .disconnecting) (buf : BitVec 8)
    (len : BitVec 16) : exec (.disconnect buf len) s = .next (s.setResult .badState 0 0) :=
  if_neg (by rcases hc with hc | hc <;> simp [hc])

/-- Settles O23: the flush of R234, and the writes of R233. -/
theorem disconnect : Obligations.Disconnect := by
  intro s buf len hs
  refine ⟨fun hc => ⟨_, disconnect_of_engaged hc buf len, ?_⟩, fun hc => disconnect_of_not_engaged hc buf len⟩
  have hflushed := flush_flushed hs.kept.base.owned
  have hevents := flush_events s
  have hrest := flush_eq s
  unfold State.startDisconnect
  generalize s.flush = f at *
  refine ⟨hflushed.congr rfl rfl rfl, hevents, ?_, ?_⟩
  · rw [hrest]
    exact fun _ => rfl
  · rw [hrest]
    rfl

/-! ### The received U-frames (43_arq_connection.md R235 to R237) -/

theorem State.Kept.not_abandoned (h : s.Kept) (hc : s.conn ≠ .connected) : ¬ ∃ b, s.Abandoned b :=
  fun ⟨_, ⟨q, hq, _⟩, _⟩ => Bool.eq_false_iff.1 (h.no_slot hc q) hq

/-- `s` with a UA requested. -/
def State.asked (s : State) : State := { s with uaPending := true }

@[simp] theorem asked_params (s : State) : s.asked.params = s.params := rfl
@[simp] theorem asked_cfg (s : State) : s.asked.cfg = s.cfg := rfl
@[simp] theorem asked_enc (s : State) : s.asked.enc = s.enc := rfl
@[simp] theorem asked_slot (s : State) (q : SeqNum) : s.asked.slot q = s.slot q := rfl
@[simp] theorem asked_uaPending (s : State) : s.asked.uaPending = true := rfl

section
variable (pf : Bool)

theorem sabm_of_opening (hc : s.conn = .disconnected ∨ s.conn = .connecting) :
    exec (.sabm pf []) s = .next s.asked.enterConnected := by
  rcases hc with hc | hc <;> simp only [exec, execSabm, if_true, State.rxSabm, hc, State.asked]

theorem sabm_of_connected (hc : s.conn = .connected) :
    exec (.sabm pf []) s = .next (s.flush.asked.enterConnected.signal .peerReset) := by
  simp only [exec, execSabm, if_true, State.rxSabm, hc, State.asked]

theorem sabm_of_disconnecting (hc : s.conn = .disconnecting) : exec (.sabm pf []) s = .next s := by
  simp only [exec, execSabm, if_true, State.rxSabm, hc]

theorem ua_of_connecting (hc : s.conn = .connecting) : exec (.ua pf []) s = .next s.enterConnected := by
  simp only [exec, execUa, if_true, State.rxUa, hc]

theorem ua_of_disconnecting (hc : s.conn = .disconnecting) : exec (.ua pf []) s = .next s.enterDisconnected := by
  simp only [exec, execUa, if_true, State.rxUa, hc]

theorem ua_of_settled (hc : s.conn = .disconnected ∨ s.conn = .connected) : exec (.ua pf []) s = .next s := by
  rcases hc with hc | hc <;> simp only [exec, execUa, if_true, State.rxUa, hc]

theorem disc_of_disconnected (hc : s.conn = .disconnected) : exec (.disc pf []) s = .next s.asked := by
  simp only [exec, execDisc, if_true, State.rxDisc, hc, State.asked]

theorem disc_of_connecting (hc : s.conn = .connecting) :
    exec (.disc pf []) s = .next (s.asked.enterDisconnected.signal .hsFail) := by
  simp only [exec, execDisc, if_true, State.rxDisc, hc, State.asked]

theorem disc_of_linked (hc : s.conn = .connected ∨ s.conn = .disconnecting) :
    exec (.disc pf []) s = .next s.asked.enterDisconnected := by
  rcases hc with hc | hc <;> simp only [exec, execDisc, if_true, State.rxDisc, hc, State.asked]

end

/-- Settles O24: an entry to CONNECTED, in CONNECTED after a flush. -/
theorem receivedSabm : Obligations.ReceivedSabm := by
  intro s pf hs
  refine ⟨fun hc => ⟨_, sabm_of_opening pf hc, signal_added _ .connected, fun _ => rfl, rfl⟩,
    fun hc => ⟨_, sabm_of_connected pf hc, ?_⟩, sabm_of_disconnecting pf⟩
  have hflushed := flush_flushed hs.kept.base.owned
  have hevents := flush_events s
  have hrest := flush_eq s
  generalize s.flush = f at *
  have hentry : f.EventsAdded (f.asked.enterConnected.signal .peerReset) fun i => i = 3 ∨ i = 7 :=
    (signal_added (f.asked.restartLink .connected) .connected).trans (signal_added _ .peerReset)
  refine ⟨hflushed.congr rfl rfl rfl, (hevents.trans hentry).congr fun i => ?_, ?_, ?_⟩
  · rw [or_comm, or_assoc]
  · rw [hrest]
    exact fun _ => rfl
  · rw [hrest]
    rfl

/-- Settles O25: an entry to CONNECTED, or to DISCONNECTED. -/
theorem receivedUa : Obligations.ReceivedUa := by
  intro s pf hs
  exact ⟨fun hc => ⟨_, ua_of_connecting pf hc, signal_added _ .connected, fun _ => rfl, rfl⟩,
    fun hc => ⟨_, ua_of_disconnecting pf hc, enterDisconnected_down hs.kept.base.owned⟩, ua_of_settled pf⟩

/-- An entry to DISCONNECTED with a UA requested. -/
theorem State.Owned.asked_down (ho : s.Owned) : s.WentDown s.asked.enterDisconnected ∧
    s.asked.enterDisconnected.uaPending = true ∧
    s.EventsAdded s.asked.enterDisconnected fun i => i = 4 ∨ (i = 2 ∧ ∃ b, s.Abandoned b) := by
  obtain ⟨⟨hflushed, hrest, hmem⟩, hua, hev⟩ :=
    enterDisconnected_down (s := s.asked) (ho.congr rfl rfl rfl rfl rfl)
  exact ⟨⟨hflushed.congr_left rfl rfl rfl, hrest, hmem⟩, hua, hev⟩

/-- Settles O26: an entry to DISCONNECTED with a UA requested, and HS_FAIL where a CONNECT was under way. -/
theorem receivedDisc : Obligations.ReceivedDisc := by
  intro s pf hs
  refine ⟨disc_of_disconnected pf, fun hc => ?_⟩
  obtain ⟨hdown, hua, hev⟩ := hs.kept.base.owned.asked_down
  by_cases hopen : s.conn = .connecting
  · refine ⟨_, disc_of_connecting pf hopen, hdown.signal .hsFail, (signal_uaPending _ _).trans hua,
      (hev.trans (signal_added _ .hsFail)).congr fun i => ?_⟩
    simp only [hopen, Event.bit, and_true]
    rw [or_right_comm, or_assoc]
  · have hlinked : s.conn = .connected ∨ s.conn = .disconnecting := by
      cases h : s.conn <;> simp_all
    refine ⟨_, disc_of_linked pf hlinked, hdown, hua, hev.congr fun i => ?_⟩
    simp only [hopen, and_false, false_or]

/-! ### The expiry of the request timer (43_arq_connection.md R239) -/

theorem handle_tick (s : State) : s.handle .tick = .next s.tick.encoderLoad := rfl

/-- A request is outstanding in CONNECTING and in DISCONNECTING only. -/
theorem State.Kept.requesting (h : s.Kept) (hu : s.uTimer ≠ 0) : s.conn = .connecting ∨ s.conn = .disconnecting :=
  h.link.uTimer.1 hu

/-- The expiry, with the retries used up: an entry to DISCONNECTED, from which no buffer is freed. -/
theorem State.Kept.expiry_down (h : s.Kept) (hc : s.conn ≠ .connected) (x : Half) :
    s.WentDown (s.withUTimer x).enterDisconnected ∧
    (s.withUTimer x).enterDisconnected.uaPending = s.uaPending ∧
    s.EventsAdded (s.withUTimer x).enterDisconnected fun i => i = 4 := by
  obtain ⟨⟨hflushed, hrest, hmem⟩, hua, hev⟩ :=
    enterDisconnected_down (s := s.withUTimer x) (h.base.owned.congr rfl rfl rfl rfl rfl)
  have hnone : ¬ ∃ b, (s.withUTimer x).Abandoned b := h.not_abandoned hc
  refine ⟨⟨hflushed.congr_left rfl rfl rfl, hrest, hmem⟩, hua, fun i => (hev i).trans ?_⟩
  simp only [hnone, and_false, or_false]
  rfl

theorem uExpire_of_spent_connecting (hr : s.retry = s.cfg.maxRetries) (hc : s.conn = .connecting) :
    s.uExpire = s.enterDisconnected.signal .hsFail := by
  simp only [State.uExpire, if_pos hr, if_pos hc]

theorem uExpire_of_spent_closing (hr : s.retry = s.cfg.maxRetries) (hc : s.conn ≠ .connecting) :
    s.uExpire = s.enterDisconnected := by
  simp only [State.uExpire, if_pos hr, if_neg hc]

theorem uExpire_of_retry (hr : s.retry ≠ s.cfg.maxRetries) : s.uExpire = { s with
    retry := s.retry + 1, uTimer := s.cfg.timeout, sabmPending := s.sabmPending || s.conn == .connecting,
    discPending := s.discPending || s.conn != .connecting } := by
  by_cases hc : s.conn = .connecting <;> simp [State.uExpire, hr, hc]

/-- A retry that is left raises the counter by one (43_arq_connection.md R239). -/
theorem retry_succ_toNat {a b : BitVec 8} (h : a.toNat ≤ b.toNat) (hne : a ≠ b) : (a + 1).toNat = a.toNat + 1 := by
  have hlt : a.toNat ≠ b.toNat := fun e => hne (BitVec.eq_of_toNat_eq e)
  have := b.isLt
  rw [BitVec.toNat_add, show (1 : BitVec 8).toNat = 1 from rfl]
  omega

/-- Settles O35: outside CONNECTED the tick is the count and the expiry, whose branches are the rule's. -/
theorem requestExpiry : Obligations.RequestExpiry := by
  intro s hs hu
  have hk := hs.kept
  have hreq := hk.requesting (by rw [hu]; decide)
  have hc : s.conn ≠ .connected := by rcases hreq with h | h <;> simp [h]
  have htick : s.handle .tick = .next (s.withUTimer 0).uExpire.encoderLoad := by
    rw [handle_tick, hk.tick_of_not_connected hc, if_pos hu]
  refine ⟨fun hr => ?_, fun hr => ?_⟩
  · obtain ⟨hdown, hua, hev⟩ := hk.expiry_down hc 0
    by_cases hopen : s.conn = .connecting
    · rw [uExpire_of_spent_connecting (s := s.withUTimer 0) hr hopen] at htick
      refine ⟨_, htick, hdown.signal .hsFail, (signal_uaPending _ _).trans hua,
        (hev.trans (signal_added _ .hsFail)).congr fun i => ?_⟩
      simp only [hopen, Event.bit, and_true]
    · rw [uExpire_of_spent_closing (s := s.withUTimer 0) hr hopen] at htick
      refine ⟨_, htick, hdown, hua, hev.congr fun i => ?_⟩
      simp only [hopen, and_false, or_false]
  · rw [uExpire_of_retry (s := s.withUTimer 0) hr] at htick
    refine ⟨_, htick, retry_succ_toNat hk.link.retry hr, rfl, rfl, ?_, fun _ => rfl, rfl⟩
    rcases hreq with h | h <;> simp [h, State.withUTimer]

/-! ### An unanswered CONNECT (43_arq_connection.md R230, R239) -/

theorem target_cmd (s : State) : s.target 0x018 2 = .reg .cmd := rfl

/-- A 4-byte write of CMD is the step of the command its word decodes to (45_host_interface.md R332). -/
theorem handle_cmd {v : Word} (h : exec (decodeCommand v) s = .next t) :
    s.handle (.hostWrite 0x018 2 v) = .next t.encoderLoad := by
  simp only [State.handle, State.hostWrite, target_cmd, State.regWrite, State.execute, h, andThen]

theorem handle_connect (hc : s.conn = .disconnected) (buf : BitVec 8) (len : BitVec 16) :
    s.handle (.hostWrite 0x018 2 (commandWord 0x05 buf len)) = .next s.calling.encoderLoad := by
  refine handle_cmd ?_
  rw [decodeCommand_commandWord]
  exact connect_of_disconnected hc buf len

/-- Ticks until the retries of the request are used up. -/
def State.ticksLeft (s : State) : Nat :=
  (s.cfg.maxRetries.toNat - s.retry.toNat) * s.cfg.timeout.toNat + s.uTimer.toNat

/-- A legal state of a CONNECT that waits for its answer: so many ticks left, HS_FAIL as it was. -/
structure State.Waiting (s : State) (left : Nat) (fail : Bool) : Prop where
  legal : s.Legal
  conn : s.conn = .connecting
  left : s.ticksLeft = left
  fail : s.event.getLsbD 6 = fail

/-- A legal state in which a CONNECT has failed. -/
structure State.GaveUp (s : State) : Prop where
  legal : s.Legal
  conn : s.conn = .disconnected
  disconnected : s.event.getLsbD 4 = true
  fail : s.event.getLsbD 6 = true

/-- An accepted CONNECT waits for `(r + 1) · TIMEOUT` ticks (43_arq_connection.md R239). -/
theorem State.Legal.calling_waiting (hs : s.Legal) (hc : s.conn = .disconnected) :
    s.calling.encoderLoad.Waiting ((s.cfg.maxRetries.toNat + 1) * s.cfg.timeout.toNat) (s.event.getLsbD 6) where
  legal := hs.handle (handle_connect hc 0 0)
  conn := encoderLoad_conn s.calling
  left := by
    simp only [State.ticksLeft, encoderLoad_cfg, encoderLoad_retry, encoderLoad_uTimer]
    show (s.cfg.maxRetries.toNat - 0) * s.cfg.timeout.toNat + s.cfg.timeout.toNat = _
    rw [Nat.sub_zero, Nat.succ_mul]
  fail := by rw [encoderLoad_event]; rfl

/-- A hand-off touches EVENT only to signal a freed buffer (40_framecodec.md R144, R145). -/
theorem txByte_event (s : State) :
    s.txByte.event = s.event ∨ s.txByte.event = s.event ||| Event.poolFreed.flag := by
  rcases txByte_cases s with h | h <;> rw [h]
  · exact .inl rfl
  · exact frameEnd_event s.advanced

/-- Whether or not a byte is handed over, the state of the link and its timers stay. -/
theorem handle_txReady_keeps (he : s.handle .txReady = .next t) :
    t.conn = s.conn ∧ t.ticksLeft = s.ticksLeft ∧ (t.event = s.event ∨ t.event = s.event ||| Event.poolFreed.flag) := by
  by_cases ha : s.enc.active = true
  · rw [handle_txReady_of_active ha] at he
    injection he with he
    rw [← he, State.ticksLeft, encoderLoad_conn, encoderLoad_cfg, encoderLoad_retry, encoderLoad_uTimer,
      encoderLoad_event]
    refine ⟨?_, ?_, txByte_event s⟩ <;> rw [txByte_eq]
    rfl
  · have hidle : s.handle .txReady = .next s := if_neg ha
    rw [hidle] at he
    injection he with he
    exact he ▸ ⟨rfl, rfl, .inl rfl⟩

section
variable {left : Nat} {fail : Bool}

/-- Whatever bytes the transport takes, the CONNECT waits on. -/
theorem State.Waiting.txReady (hw : s.Waiting left fail) (he : s.handle .txReady = .next t) : t.Waiting left fail := by
  obtain ⟨hconn, hleft, hevent⟩ := handle_txReady_keeps he
  refine ⟨hw.legal.handle he, hconn.trans hw.conn, hleft.trans hw.left, ?_⟩
  rw [← hw.fail]
  rcases hevent with h | h <;> rw [h]
  simp [Event.flag, Event.bit]

theorem State.Waiting.not_connected (hw : s.Waiting left fail) : s.conn ≠ .connected := by
  rw [hw.conn]; decide

theorem State.Waiting.uTimer_ne (hw : s.Waiting left fail) : s.uTimer.toNat ≠ 0 := fun h =>
  hw.legal.link.uTimer.2 (.inl hw.conn) (BitVec.eq_of_toNat_eq h)

theorem State.Waiting.pos (hw : s.Waiting left fail) : 0 < left := by
  have := hw.uTimer_ne
  rw [← hw.left, State.ticksLeft]
  omega

theorem tickDown_toNat (x : Half) : (tickDown x).toNat = x.toNat - 1 := by
  unfold tickDown
  split_ifs with h
  · rw [h]; rfl
  · have hx : x.toNat ≠ 0 := fun h0 => h (BitVec.eq_of_toNat_eq h0)
    have := x.isLt
    rw [BitVec.toNat_sub, show (1 : Half).toNat = 1 from rfl]
    omega

/-- A tick in which the request timer runs on. -/
theorem State.Waiting.count (hw : s.Waiting (left + 1) fail) (h1 : s.uTimer ≠ 1) (he : s.handle .tick = .next t) :
    t.Waiting left fail := by
  have hlegal := hw.legal.handle he
  rw [handle_tick, hw.legal.kept.tick_of_not_connected hw.not_connected, if_neg h1] at he
  injection he with he
  subst he
  refine ⟨hlegal, by rw [encoderLoad_conn]; exact hw.conn, ?_, by rw [encoderLoad_event]; exact hw.fail⟩
  have hleft := hw.left
  have hpos := hw.uTimer_ne
  simp only [State.ticksLeft, encoderLoad_cfg, encoderLoad_retry, encoderLoad_uTimer] at hleft ⊢
  show _ + (tickDown s.uTimer).toNat = left
  rw [tickDown_toNat]
  show (s.cfg.maxRetries.toNat - s.retry.toNat) * s.cfg.timeout.toNat + _ = left
  omega

/-- A tick in which the request timer expires with a retry left. -/
theorem State.Waiting.repeated (hw : s.Waiting (left + 1) fail) (h1 : s.uTimer = 1) (hr : s.retry ≠ s.cfg.maxRetries)
    (he : s.handle .tick = .next t) : t.Waiting left fail := by
  have hlegal := hw.legal.handle he
  obtain ⟨u, hu, hretry, htimer, -, -, -, hrest⟩ := (requestExpiry s hw.legal h1).2 hr
  rw [hu] at he
  injection he with he
  subst he
  have hconn : u.conn = s.conn := by rw [hrest]
  have hevent : u.event = s.event := by rw [hrest]
  have hcfg : u.cfg = s.cfg := by rw [hrest]
  refine ⟨hlegal, by rw [encoderLoad_conn, hconn, hw.conn], ?_, by rw [encoderLoad_event, hevent, hw.fail]⟩
  have hle : s.retry.toNat + 1 ≤ s.cfg.maxRetries.toNat := by
    have hne : s.retry.toNat ≠ s.cfg.maxRetries.toNat := fun h => hr (BitVec.eq_of_toNat_eq h)
    have := hw.legal.link.retry
    omega
  have hleft := hw.left
  rw [State.ticksLeft, h1, show (1 : Half).toNat = 1 from rfl] at hleft
  rw [State.ticksLeft, encoderLoad_cfg, encoderLoad_retry, encoderLoad_uTimer, hcfg, hretry, htimer, ← Nat.succ_mul,
    show (s.cfg.maxRetries.toNat - (s.retry.toNat + 1)).succ = s.cfg.maxRetries.toNat - s.retry.toNat by omega]
  omega

/-- The tick in which the request timer expires with the retries used up is the last. -/
theorem State.Waiting.givesUp (hw : s.Waiting (left + 1) fail) (h1 : s.uTimer = 1) (hr : s.retry = s.cfg.maxRetries)
    (he : s.handle .tick = .next t) : left = 0 ∧ t.GaveUp := by
  have hlegal := hw.legal.handle he
  obtain ⟨u, hu, hdown, -, hev⟩ := (requestExpiry s hw.legal h1).1 hr
  rw [hu] at he
  injection he with he
  subst he
  have hleft := hw.left
  rw [State.ticksLeft, h1, hr, Nat.sub_self, Nat.zero_mul, show (1 : Half).toNat = 1 from rfl] at hleft
  refine ⟨by omega, hlegal, ?_, ?_, ?_⟩
  · rw [encoderLoad_conn, hdown.rest]
  · rw [encoderLoad_event]; exact (hev 4).2 (.inr (.inl rfl))
  · rw [encoderLoad_event]; exact (hev 6).2 (.inr (.inr ⟨rfl, hw.conn⟩))

/-- A tick leaves one fewer, and the last one ends the attempt. -/
theorem State.Waiting.tick (hw : s.Waiting (left + 1) fail) (he : s.handle .tick = .next t) :
    t.Waiting left fail ∨ (left = 0 ∧ t.GaveUp) := by
  by_cases h1 : s.uTimer = 1
  · by_cases hr : s.retry = s.cfg.maxRetries
    · exact .inr (hw.givesUp h1 hr he)
    · exact .inl (hw.repeated h1 hr he)
  · exact .inl (hw.count h1 he)

/-- Ticks and hand-offs after the end change nothing of it. -/
theorem State.GaveUp.handle (hg : s.GaveUp) (hev : e = .tick ∨ e = .txReady) (he : s.handle e = .next t) : t.GaveUp := by
  obtain ⟨hs, hc, h4, h6⟩ := hg
  have hsticky : ∀ i, s.event.getLsbD i = true → t.event.getLsbD i = true := fun i =>
    eventsSticky s t e i he (by rintro (rfl | ⟨v, rfl, -⟩) <;> simp at hev) (by rintro rfl; simp at hev)
  refine ⟨hs.handle he, ?_, hsticky 4 h4, hsticky 6 h6⟩
  rcases hev with rfl | rfl
  · rw [handle_tick] at he
    injection he with he
    rw [← he, encoderLoad_conn]
    exact hs.kept.tick_conn.elim (·.trans hc) (·.1)
  · exact (handle_txReady_keeps he).1.trans hc

theorem State.GaveUp.handleAll (hg : s.GaveUp) {es : List PortEvent} (hes : ∀ e ∈ es, e = .tick ∨ e = .txReady) :
    ∃ t, s.handleAll es = .next t ∧ t.GaveUp := by
  induction es generalizing s with
  | nil => exact ⟨s, rfl, hg⟩
  | cons e es ih =>
    obtain ⟨he, htail⟩ := List.forall_mem_cons.1 hes
    obtain ⟨u, hu⟩ := handle_next s e
    rw [handleAll_cons_of_next hu]
    exact ih (hg.handle he hu) htail

/-- A run of ticks and hand-offs: the attempt ends with the last tick it has left and not before. -/
theorem State.Waiting.handleAll (hw : s.Waiting left fail) {es : List PortEvent}
    (hes : ∀ e ∈ es, e = .tick ∨ e = .txReady) :
    ∃ t, s.handleAll es = .next t ∧ (es.count .tick < left → t.Waiting (left - es.count .tick) fail) ∧
      (left ≤ es.count .tick → t.GaveUp) := by
  induction es generalizing s left with
  | nil =>
    have := hw.pos
    exact ⟨s, rfl, fun _ => hw, fun h => by rw [List.count_nil] at h; omega⟩
  | cons e es ih =>
    obtain ⟨he, htail⟩ := List.forall_mem_cons.1 hes
    obtain ⟨u, hu⟩ := handle_next s e
    rw [handleAll_cons_of_next hu]
    rcases he with rfl | rfl
    · obtain ⟨left, rfl⟩ := Nat.exists_eq_succ_of_ne_zero (Nat.ne_of_gt hw.pos)
      rw [List.count_cons_self, Nat.succ_eq_add_one, Nat.add_lt_add_iff_right, Nat.add_le_add_iff_right,
        Nat.add_sub_add_right]
      rcases hw.tick hu with hw | ⟨rfl, hg⟩
      · exact ih hw htail
      · obtain ⟨t, ht, hg⟩ := hg.handleAll htail
        exact ⟨t, ht, fun h => absurd h (Nat.not_lt_zero _), fun _ => hg⟩
    · rw [List.count_cons_of_ne (by decide)]
      exact ih (hw.txReady hu) htail

end

/-- Settles O36: CONNECT starts a wait of `(r + 1) · TIMEOUT` ticks, and the run of events uses them up one by one. -/
theorem connectGivesUp : Obligations.ConnectGivesUp := by
  intro s buf len es hs hc hes limit
  rw [handleAll_cons_of_next (handle_connect hc buf len)]
  obtain ⟨t, ht, hwaits, hends⟩ := (hs.calling_waiting hc).handleAll hes
  exact ⟨t, ht, fun h => ⟨(hwaits h).conn, (hwaits h).fail⟩,
    fun h => ⟨(hends h).conn, (hends h).disconnected, (hends h).fail⟩⟩

/-! ### A frame carried over a link (40_framecodec.md R144, R156, 30_encoding.md R115) -/

theorem fcs_of_sameChecks {p q : Params} (h : p.SameChecks q) (m : FcsMode) (l : List Byte) : fcs p m l = fcs q m l := by
  obtain ⟨h8, h16, h32⟩ := h
  cases m <;> simp only [fcs, Params.fcs8Fn, Params.fcs16Fn, Params.fcs32Fn, h8, h16, h32]

/-- Blocks with the same checksum functions build the same frames (70_reset_and_hazards.md R396). -/
theorem build_of_sameChecks {p q : Params} (h : p.SameChecks q) (m : FcsMode) (c : Byte) (info : List Byte) :
    build p m c info = build q m c info := by
  simp only [build, unstuffed, fcs_of_sameChecks h]

/-- The pair of a source `s` on the side `src` and the destination `t` on the other. -/
def Pair.ofSides (src : Side) (s t : State) : Pair :=
  match src with
  | .a => { a := s, b := t }
  | .b => { a := t, b := s }

section
variable {s' t' : State} (src : Side)

theorem side_ofSides (s t : State) : (Pair.ofSides src s t).side src = s := by
  cases src <;> rfl

theorem handle_ofSides (t : State) (h : s.handle e = .next s') :
    (Pair.ofSides src s t).handle src e = .next (.ofSides src s' t) := by
  cases src <;> simp only [Pair.handle, Pair.ofSides, h]

theorem handle_other_ofSides (s : State) (h : t.handle e = .next t') :
    (Pair.ofSides src s t).handle src.other e = .next (.ofSides src s t') := by
  cases src <;> simp only [Pair.handle, Pair.ofSides, Side.other, h]

/-- One round of a link: the byte on the source's port reaches the destination. -/
theorem carry_ofSides (hs : s.handle .txReady = .next s') (ht : t.handle (.rxByte s.txData) = .next t') :
    (Pair.ofSides src s t).carry src = .next (.ofSides src s' t') := by
  simp only [Pair.carry, handle_ofSides src t hs, side_ofSides, handle_other_ofSides src s' ht]

theorem link_of_idle (t : State) (h : s.enc.active = false) (n : Nat) :
    (Pair.ofSides src s t).link src n = .next (.ofSides src s t) := by
  cases n with
  | zero => rfl
  | succ n => simp only [Pair.link, side_ofSides, State.txValid, h, Bool.false_eq_true, if_false]

theorem link_of_carry {n : Nat} (ha : s.enc.active = true)
    (hc : (Pair.ofSides src s t).carry src = .next (.ofSides src s' t')) :
    (Pair.ofSides src s t).link src (n + 1) = (Pair.ofSides src s' t').link src n := by
  simp only [Pair.link, side_ofSides, State.txValid, ha, if_true, hc]

end

/-- `s` with the rest of the loaded frame handed over, its end still to come. -/
def State.sentAll (s : State) : State :=
  { s with
    enc := { s.enc with pos := s.enc.wire.length }
    env := { s.env with sent := s.env.sent ++ s.enc.wire.drop s.enc.pos } }

/-- What is left of the wire is the byte on the port, and the rest after it. -/
theorem drop_pos_eq_cons (h : s.enc.pos < s.enc.wire.length) :
    s.enc.wire.drop s.enc.pos = s.txData :: s.enc.wire.drop (s.enc.pos + 1) := by
  rw [List.drop_eq_getElem_cons h]
  exact congrArg (· :: _) (Option.some.inj ((List.getElem?_eq_getElem h).symm.trans (getElem?_pos_eq_txData h)))

theorem advanced_sentAll (h : s.enc.pos < s.enc.wire.length) : s.advanced.sentAll = s.sentAll := by
  unfold State.sentAll
  rw [drop_pos_eq_cons h, List.append_cons]
  rfl

theorem advanced_of_last (h : s.enc.pos + 1 = s.enc.wire.length) : s.advanced = s.sentAll := by
  unfold State.sentAll
  rw [drop_pos_eq_cons (by omega), ← h, List.drop_eq_nil_of_le (Nat.le_of_eq h.symm)]
  rfl

/-- A link carries the loaded frame to its end, byte by byte, if nothing is due after it. -/
theorem link_carries (src : Side) {n : Nat} (ha : s.enc.active = true) (hpos : s.enc.pos < s.enc.wire.length)
    (hn : s.enc.wire.length - s.enc.pos ≤ n) (hdst : t.handleAll ((s.enc.wire.drop s.enc.pos).map .rxByte) = .next u)
    (hend : s.sentAll.frameEnd.nextFrame = none) :
    (Pair.ofSides src s t).link src n = .next (.ofSides src s.sentAll.frameEnd u) := by
  induction n generalizing s t with
  | zero => omega
  | succ n ih =>
    obtain ⟨t', ht'⟩ := handle_next t (.rxByte s.txData)
    rw [drop_pos_eq_cons hpos, List.map_cons, handleAll_cons_of_next ht'] at hdst
    have hsrc := handle_txReady_of_active ha
    by_cases hlast : s.enc.pos + 1 = s.enc.wire.length
    · rw [txByte_of_eq hlast, advanced_of_last hlast, encoderLoad_of_none hend] at hsrc
      rw [hlast, List.drop_length] at hdst
      injection hdst with hdst
      rw [link_of_carry src ha (carry_ofSides src hsrc ht'), hdst]
      exact link_of_idle src u (by rw [frameEnd_enc]; rfl) n
    · rw [txByte_of_ne hlast, encoderLoad_of_active s.advanced ha] at hsrc
      rw [link_of_carry src ha (carry_ofSides src hsrc ht'), ← advanced_sentAll hpos]
      rw [← advanced_sentAll hpos] at hend
      have hlt : s.enc.pos + 1 < s.enc.wire.length := by omega
      exact ih (s := s.advanced) ha hlt (show s.enc.wire.length - (s.enc.pos + 1) ≤ n by omega) hdst hend

/-- `t` with a frame received up to its closing DELIM. -/
def State.filled (t : State) (c : Byte) (info : List Byte) : State :=
  t.withRx .data (unstuffed t.params t.cfg.fcsMode c info)

/-- `u` with the accumulator emptied, after the closing DELIM. -/
def State.emptied (u : State) : State := u.withRx u.rx.state []

section
variable (s : State) (c : Byte) (info : List Byte)

@[simp] theorem filled_params : (s.filled c info).params = s.params := rfl
@[simp] theorem filled_cfg : (s.filled c info).cfg = s.cfg := rfl
@[simp] theorem filled_enc : (s.filled c info).enc = s.enc := rfl
@[simp] theorem filled_slot (q : SeqNum) : (s.filled c info).slot q = s.slot q := rfl
@[simp] theorem emptied_params : s.emptied.params = s.params := rfl
@[simp] theorem emptied_cfg : s.emptied.cfg = s.cfg := rfl
@[simp] theorem emptied_enc : s.emptied.enc = s.enc := rfl
@[simp] theorem emptied_uaPending : s.emptied.uaPending = s.uaPending := rfl

end

/-- A frame just loaded is carried, and the other side runs the instruction it holds (40_framecodec.md R156). -/
theorem link_loaded (src : Side) {n : Nat} {k : Due} (hsame : s.params.SameChecks t.params)
    (hmode : s.cfg.fcsMode = t.cfg.fcsMode) (ht : t.Eager) (hfits : (s.infoOf k).length ≤ t.cfg.mtu.toNat)
    (hrx : t.rx.acc = [] ∧ t.rx.state ≠ .esc) (hdec : decode .frame (k.ctrl s.vr :: s.infoOf k) = .ok i)
    (hn : (s.wireOf k).length ≤ n) (hend : (s.load k).sentAll.frameEnd.nextFrame = none)
    (hx : exec i (t.filled (k.ctrl s.vr) (s.infoOf k)) = .next u) :
    (Pair.ofSides src (s.load k) t).link src n =
      .next (.ofSides src (s.load k).sentAll.frameEnd u.emptied.encoderLoad) := by
  have hwire : (s.load k).enc.wire = build t.params t.cfg.fcsMode (k.ctrl s.vr) (s.infoOf k) := by
    rw [← build_of_sameChecks hsame, ← hmode]
    rfl
  have hopen : t.rx.state = .hunt ∨ (t.rx.state = .data ∧ t.rx.acc = []) := by
    obtain ⟨hacc, hesc⟩ := hrx
    cases hst : t.rx.state with
    | hunt => exact .inl rfl
    | data => exact .inr ⟨rfl, hacc⟩
    | esc => exact absurd hst hesc
  obtain ⟨-, -, u', hx', hall⟩ := roundTripOnTheWire t _ _ i ht hfits hopen hdec
  obtain rfl : u' = u := Host.Outcome.next.inj (hx'.symm.trans hx)
  refine link_carries src rfl ?_ hn ?_ hend
  · exact wireOf_length_pos k
  · rw [hwire]
    exact hall

/-! ### The handshake of two blocks (43_arq_connection.md R230, R235, R236) -/

/-- With the encoder idle and nothing due, no UA is requested (40_framecodec.md R141). -/
theorem State.Eager.uaPending_of_idle (h : s.Eager) (ha : s.enc.active = false) : s.uaPending = false := by
  by_contra hua
  have := (nextFrame_of_ua (by simpa using hua)).symm.trans (h ha)
  cases this

theorem Params.SameChecks.symm {p q : Params} (h : p.SameChecks q) : q.SameChecks p := by
  obtain ⟨h8, h16, h32⟩ := h
  exact ⟨h8.symm, h16.symm, h32.symm⟩

/-- CONNECTED at sequence number 0 with nothing to send: what a handshake leaves. -/
structure State.Fresh (s : State) : Prop where
  conn : s.conn = .connected
  vs : s.vs = 0
  vr : s.vr = 0
  va : s.va = 0
  event : s.event.getLsbD 3 = true
  rejPending : s.rejPending = false
  ackPending : s.ackPending = false
  slots : ∀ q, (s.slot q).valid = false

theorem State.Fresh.nextFrame (h : s.Fresh) (hua : s.uaPending = false) : s.nextFrame = none := by
  rw [nextFrame_of_connected hua h.conn, nextDataFrame_of_none_waiting h.rejPending fun q hq => ?_]
  · exact if_neg fun hack => Bool.eq_false_iff.1 h.ackPending hack.1
  · exact Bool.eq_false_iff.1 (h.slots q) ((due_iff _).1 hq).1

theorem enterConnected_fresh (hslots : ∀ q, (s.slot q).valid = false) : s.enterConnected.Fresh :=
  ⟨rfl, rfl, rfl, rfl, signal_getLsbD_bit (s.restartLink .connected) .connected, rfl, rfl, hslots⟩

theorem State.Fresh.emptied (h : s.Fresh) : s.emptied.Fresh :=
  ⟨h.conn, h.vs, h.vr, h.va, h.event, h.rejPending, h.ackPending, h.slots⟩

/-- `s` with a frame other than an I-frame loaded and handed over in full. -/
def State.afterPlain (s : State) (k : Due) : State :=
  { (s.load k).sentAll with enc := (s.load k).sentAll.enc.ended }

/-- A UA sent writes only its request, the encoder and the record of bytes. -/
theorem afterPlain_ua (s : State) : s.afterPlain .ua =
    { s with uaPending := false, enc := (s.afterPlain .ua).enc, env := (s.afterPlain .ua).env } := rfl

theorem State.Fresh.afterUa (h : s.Fresh) : (s.afterPlain .ua).Fresh := by
  rw [afterPlain_ua]
  exact ⟨h.conn, h.vs, h.vr, h.va, h.event, h.rejPending, h.ackPending, h.slots⟩

section
variable {k : Due} (hk : k.kind ≠ .i)
include hk

theorem infoOf_of_plain (s : State) : s.infoOf k = [] := by
  cases k with
  | i q => exact absurd rfl hk
  | _ => rfl

theorem frameEnd_of_plain (s : State) : (s.load k).sentAll.frameEnd = s.afterPlain k :=
  frameEnd_of_other (s := (s.load k).sentAll) (.inl hk)

/-- A frame without an info field is at most twelve bytes long on the wire. -/
theorem wireOf_length_le_of_plain (s : State) : (s.wireOf k).length ≤ 12 := by
  have hlen := build_length_le s.params s.cfg.fcsMode (k.ctrl s.vr) []
  have hfcs := FcsMode.fcsLen_le s.cfg.fcsMode
  rw [List.length_nil] at hlen
  rw [State.wireOf, infoOf_of_plain hk]
  omega

/-- A frame without an info field, just loaded, is carried within twelve rounds. -/
theorem link_plain (src : Side) {n : Nat} (hn : 12 ≤ n) (hsame : s.params.SameChecks t.params)
    (hmode : s.cfg.fcsMode = t.cfg.fcsMode) (ht : t.Eager) (hrx : t.rx.acc = [] ∧ t.rx.state ≠ .esc)
    (hdec : decode .frame [k.ctrl s.vr] = .ok i) (hend : (s.afterPlain k).nextFrame = none)
    (hx : exec i (t.filled (k.ctrl s.vr) []) = .next u) :
    (Pair.ofSides src (s.load k) t).link src n = .next (.ofSides src (s.afterPlain k) u.emptied.encoderLoad) := by
  have hinfo := infoOf_of_plain hk s
  rw [← frameEnd_of_plain hk s] at hend ⊢
  rw [← hinfo] at hdec hx
  refine link_loaded src hsame hmode ht ?_ hrx hdec ((wireOf_length_le_of_plain hk s).trans hn) hend hx
  rw [hinfo]
  exact Nat.zero_le _

end

/-- The U-frames of a handshake decode to their instructions (30_encoding.md R105, R108). -/
theorem decode_sabm (vr : SeqNum) : decode .frame [Due.sabm.ctrl vr] = .ok (.sabm true []) := by
  show decode .frame [0x3F] = _
  decide

theorem decode_ua (vr : SeqNum) : decode .frame [Due.ua.ctrl vr] = .ok (.ua true []) := by
  show decode .frame [0x73] = _
  decide

/-- The first half: the SABM crosses the link, and the other side enters CONNECTED and loads its UA. -/
theorem link_sabm (src : Side) {n : Nat} (hn : 12 ≤ n) (hsame : s.params.SameChecks t.params)
    (hmode : s.cfg.fcsMode = t.cfg.fcsMode) (hend : (s.afterPlain .sabm).nextFrame = none) (ht : t.Legal)
    (hc : t.conn = .disconnected) (hidle : t.enc.active = false) (hrx : t.rx.acc = [] ∧ t.rx.state ≠ .esc) :
    ∃ r : State, (Pair.ofSides src (s.load .sabm) t).link src n =
        .next (.ofSides src (s.afterPlain .sabm) (r.load .ua)) ∧
      r.params = t.params ∧ r.cfg = t.cfg ∧ r.Fresh := by
  have hslots := ht.kept.no_slot (by rw [hc]; decide)
  have hlink := link_plain (k := .sabm) (i := .sabm true []) (by decide) src hn hsame hmode ht.eager hrx
    (decode_sabm _) hend (sabm_of_opening (s := t.filled _ []) true (.inl hc))
  have hfresh := (enterConnected_fresh (s := (t.filled (Due.sabm.ctrl s.vr) []).asked) (by simpa using hslots)).emptied
  have hload := encoderLoad_of_nextFrame (s := (t.filled (Due.sabm.ctrl s.vr) []).asked.enterConnected.emptied)
    (by simpa using hidle) (nextFrame_of_ua (by simp))
  rw [hload] at hlink
  exact ⟨_, hlink, by simp, by simp, hfresh⟩

/-- The second half: the UA crosses the link, and the side that called enters CONNECTED. -/
theorem link_ua (src : Side) {n : Nat} (hn : 12 ≤ n) (hsame : s.params.SameChecks t.params)
    (hmode : s.cfg.fcsMode = t.cfg.fcsMode) (hend : (s.afterPlain .ua).nextFrame = none) (ht : t.Eager)
    (hc : t.conn = .connecting) (hidle : t.enc.active = false) (hslots : ∀ q, (t.slot q).valid = false)
    (hrx : t.rx.acc = [] ∧ t.rx.state ≠ .esc) :
    ∃ r : State, (Pair.ofSides src (s.load .ua) t).link src n = .next (.ofSides src (s.afterPlain .ua) r) ∧
      r.enc.active = false ∧ r.Fresh := by
  have hlink := link_plain (k := .ua) (i := .ua true []) (by decide) src hn hsame hmode ht hrx (decode_ua _) hend
    (ua_of_connecting (s := t.filled _ []) true hc)
  have hfresh : (t.filled (Due.ua.ctrl s.vr) []).enterConnected.emptied.Fresh :=
    (enterConnected_fresh (s := t.filled _ []) hslots).emptied
  rw [encoderLoad_of_none (hfresh.nextFrame (ht.uaPending_of_idle hidle))] at hlink
  exact ⟨_, hlink, hidle, hfresh⟩

/-- Settles O55: CONNECT loads the SABM, which crosses the link, and the UA that answers it crosses back. -/
theorem handshake : Obligations.Handshake := by
  intro p n ha hb hsame hmode hac hbc hai hbi hacc hesc hbacc hbesc hn
  have hua := ha.eager.uaPending_of_idle hai
  have hcall : p.handle .a (.hostWrite 0x018 2 (commandWord 0x05 0 0)) =
      .next (.ofSides .a (p.a.calling.load .sabm) p.b) := by
    refine handle_ofSides .a p.b ((handle_connect hac 0 0).trans ?_)
    rw [encoderLoad_of_nextFrame (s := p.a.calling) hai (nextFrame_of_sabm hua ⟨rfl, rfl⟩)]
  have hend : (p.a.calling.afterPlain .sabm).nextFrame = none :=
    nextFrame_of_not_connected hua (fun h => nomatch h) (fun h => nomatch h.2) fun h => nomatch h.1
  obtain ⟨r, hsabm, hparams, hcfg, hr⟩ := link_sabm .a (s := p.a.calling) hn hsame hmode hend hb hbc hbi ⟨hbacc, hbesc⟩
  have hsent := hr.afterUa
  obtain ⟨w, hanswer, hwi, hw⟩ := link_ua .b (s := r) (t := p.a.calling.afterPlain .sabm) hn
    (by rw [hparams]; exact hsame.symm) (by rw [hcfg]; exact hmode.symm) (hsent.nextFrame rfl) (fun _ => hend) rfl rfl
    (ha.kept.no_slot (by rw [hac]; decide)) ⟨hacc, hesc⟩
  exact ⟨_, _, _, hcall, hsabm, hanswer, hw.conn, hsent.conn, hw.vs, hw.vr, hw.va, hsent.vs, hsent.vr, hsent.va,
    hw.event, hsent.event, hwi, rfl⟩

end Sys2Proof.Machine

/-! SUPPORT. Data transfer (44_arq_data.md): SEND, the received I-, RR- and REJ-frames, the slot timers, in-order
delivery, and a payload carried over a link. -/

namespace Sys2Proof.Machine

variable {s t u : State} {e : PortEvent} {i : Instr}

/-! ### SEND (44_arq_data.md R270) -/

section
variable {buf : BitVec 8} {len : BitVec 16}

/-- The buffer is the host's and the payload fits the MTU, so BAD_ARG is not answered. -/
def State.Sendable (s : State) (buf : BitVec 8) (len : BitVec 16) : Prop :=
  buf.toNat < s.nbuf ∧ s.bstate buf.toNat = .app ∧ len.toNat ≤ s.cfg.mtu.toNat

theorem sendable_iff : s.Sendable buf len ↔
    ¬ (s.hostOwns (bufOperand buf) = false ∨ s.cfg.mtu.toNat < len.toNat) := by
  rw [not_or, Bool.not_eq_false, hostOwns_iff, Nat.not_lt, and_assoc]
  rfl

theorem send_of_not_sendable (h : ¬ s.Sendable buf len) :
    exec (.send buf len) s = .next (s.setResult .badArg buf len) :=
  if_pos (by rwa [sendable_iff, not_not] at h)

theorem send_of_not_connected (h : s.Sendable buf len) (hc : s.conn ≠ .connected) :
    exec (.send buf len) s = .next (s.setResult .badState buf len) :=
  (if_neg (sendable_iff.1 h)).trans (if_pos hc)

theorem send_of_full (h : s.Sendable buf len) (hc : s.conn = .connected)
    (hw : s.cfg.window.toNat ≤ (s.vs - s.va).toNat) :
    exec (.send buf len) s = .next (s.setResult .windowFull buf len) :=
  (if_neg (sendable_iff.1 h)).trans ((if_neg (not_not.2 hc)).trans (if_pos hw))

theorem send_of_open (h : s.Sendable buf len) (hc : s.conn = .connected)
    (hw : (s.vs - s.va).toNat < s.cfg.window.toNat) :
    exec (.send buf len) s = .next ((s.enqueue buf.toNat len).setResult .ok buf len) :=
  (if_neg (sendable_iff.1 h)).trans ((if_neg (not_not.2 hc)).trans (if_neg (Nat.not_le.2 hw)))

end

/-- SEND fills slot V(S) and no other. -/
theorem enqueue_slot (s : State) (b : Nat) (n : Half) (q : SeqNum) : (s.enqueue b n).slot q =
    if s.vs = q then { valid := true, buf := b, needsTx := true, timer := s.cfg.timeout } else s.slot q :=
  setSlot_slot s s.vs q _

theorem enqueue_desc_self (n : Half) {b : Nat} (h : b < s.nbuf) :
    (s.enqueue b n).desc b = { state := .pendTx, len := n } :=
  (setDesc_desc s b b _).trans (if_pos ⟨rfl, h⟩)

theorem enqueue_poolSameBut (s : State) (b : Nat) (n : Half) : s.PoolSameBut (s.enqueue b n) b :=
  setDesc_poolSameBut s b { state := .pendTx, len := n }

/-- Settles O21: the refusals in the order of `execSend`, then the writes of `State.enqueue`. -/
theorem send : Obligations.Send := by
  intro s buf len b held refused
  have hrefused : ∀ c : Code, exec (.send buf len) s = .next (s.setResult c buf len) → refused c.num.toNat :=
    fun c h => ⟨_, h, setResult_is s c buf len, fun _ => rfl, rfl⟩
  refine ⟨fun h => hrefused .badArg (send_of_not_sendable h), fun h hc => hrefused .badState (send_of_not_connected h hc),
    fun h hc hw => hrefused .windowFull (send_of_full h hc hw), fun h hc hw => ⟨_, send_of_open h hc hw, ?_⟩⟩
  refine ⟨setResult_is _ .ok buf len, ?_, fun q hq => ?_, enqueue_desc_self len h.1, rfl, enqueue_poolSameBut s b len,
    fun _ => rfl, rfl⟩
  · rw [setResult_slot, enqueue_slot, if_pos rfl]
  · rw [setResult_slot, enqueue_slot, if_neg hq.symm]

/-! ### The received I-, RR- and REJ-frames (44_arq_data.md R280, R287, R288) -/

section
variable {ns nr : SeqNum} {info : List Byte}

theorem not_nrValid_iff : s.nrValid nr = false ↔ (s.vs - s.va).toNat < (nr - s.va).toNat := by
  rw [← Nat.not_le, ← nrValid_iff, Bool.not_eq_true]

/-- What R280, R287 and R288 act on; they ignore the frame outside CONNECTED and with an N(R) beyond V(S). -/
theorem ignored_iff : (s.conn ≠ .connected ∨ s.nrValid nr = false) ↔
    ¬ (s.conn = .connected ∧ (nr - s.va).toNat ≤ (s.vs - s.va).toNat) := by
  rw [not_and_or, Nat.not_le, not_nrValid_iff]

variable (pf : Bool)

theorem iFrame_of_ignored (h : s.conn ≠ .connected ∨ s.nrValid nr = false) :
    exec (.iFrame ns nr pf info) s = .next s := by
  simp only [exec, execIFrame, State.rxI]
  rcases h with h | h
  · rw [if_pos h]
  · rw [h, if_pos rfl, ite_self]

theorem rr_of_ignored (h : s.conn ≠ .connected ∨ s.nrValid nr = false) : exec (.rr nr pf []) s = .next s :=
  congrArg Host.Outcome.next (if_pos h)

theorem rej_of_ignored (h : s.conn ≠ .connected ∨ s.nrValid nr = false) : exec (.rej nr pf []) s = .next s :=
  congrArg Host.Outcome.next (if_pos h)

variable (h : s.conn = .connected ∧ (nr - s.va).toNat ≤ (s.vs - s.va).toNat)
include h

theorem rr_of_valid : exec (.rr nr pf []) s = .next (s.ackProcess nr) :=
  congrArg Host.Outcome.next (if_neg (mt ignored_iff.1 (not_not.2 h)))

theorem rej_of_valid : exec (.rej nr pf []) s = .next ((s.ackProcess nr).goBackN nr) := by
  refine congrArg Host.Outcome.next ((if_neg (mt ignored_iff.1 (not_not.2 h))).trans ?_)
  exact congrArg (s.ackProcess nr).goBackN (ackProcess_va s nr)

theorem iFrame_of_expected (hns : ns = s.vr) :
    exec (.iFrame ns nr pf info) s = .next ((s.ackProcess nr).deliver info) := by
  refine congrArg Host.Outcome.next ((if_neg (not_not.2 h.1)).trans ((if_neg ?_).trans (if_neg ?_)))
  · rw [(nrValid_iff nr).2 h.2]; decide
  · rw [ackProcess_vr, not_not]; exact hns

theorem iFrame_of_unexpected (hns : ns ≠ s.vr) :
    exec (.iFrame ns nr pf info) s = .next { s.ackProcess nr with rejPending := true } := by
  refine congrArg Host.Outcome.next ((if_neg (not_not.2 h.1)).trans ((if_neg ?_).trans (if_pos ?_)))
  · rw [(nrValid_iff nr).2 h.2]; decide
  · rw [ackProcess_vr]; exact hns

end

/-- Settles O27: each instruction's own guard. -/
theorem discardedFrames : Obligations.DiscardedFrames := by
  intro s nr ns m pf info
  refine ⟨rfl, rfl, rfl, fun h => ⟨if_neg h, if_neg h, if_neg h, if_neg h, if_neg h⟩, fun h => ?_⟩
  rw [← not_nrValid_iff] at h
  exact ⟨iFrame_of_ignored pf h, rr_of_ignored pf h, rej_of_ignored pf h⟩

/-- Settles O28: no frame's own function reads its P/F bit. -/
theorem pollFinalIgnored : Obligations.PollFinalIgnored := fun _ _ _ _ _ _ => ⟨rfl, rfl, rfl, rfl, rfl, rfl⟩

/-- Settles O30: the acknowledgment, then the request of a REJ. -/
theorem iFrameOutOfSequence : Obligations.IFrameOutOfSequence := fun s _ nr pf _ hc hnr hns =>
  ⟨_, ackProcess_acked s nr, iFrame_of_unexpected pf ⟨hc, hnr⟩ hns⟩

/-- Settles O31: the acknowledgment, or nothing. -/
theorem receivedRr : Obligations.ReceivedRr := fun s nr pf =>
  ⟨fun h => ⟨_, ackProcess_acked s nr, rr_of_valid pf h⟩, fun h => rr_of_ignored pf (ignored_iff.2 h)⟩

/-- Go-back-N writes the slot file only (44_arq_data.md R285). -/
theorem goBackN_eq (s : State) (q : SeqNum) : s.goBackN q = { s with slots := (s.goBackN q).slots } := by
  apply State.eq_of_fields <;> simp

/-- Settles O32: the acknowledgment, then the go-back-N from N(R), or nothing. -/
theorem receivedRej : Obligations.ReceivedRej := by
  intro s nr pf
  refine ⟨fun h => ⟨_, _, ackProcess_acked s nr, rej_of_valid pf h, fun q hq => ?_, fun q hq => ?_, fun _ => ?_,
    goBackN_eq _ nr⟩, fun h => rej_of_ignored pf (ignored_iff.2 h)⟩
  · rw [goBackN_slot, ackProcess_vs, ackProcess_cfg, if_pos hq]
  · rw [goBackN_slot, ackProcess_vs, if_neg (Nat.not_lt.2 hq)]
  · rw [goBackN_bmem]

/-! ### Delivery (44_arq_data.md R281, R282) -/

/-- A delivery in full. -/
theorem deliverTo_eq (s : State) (b : Nat) (info : List Byte) : s.deliverTo b info = { s with
    bmem := (s.bufWriteBytes b 0 info).bmem
    pool := (s.setDesc b { state := .delivered, len := BitVec.ofNat 16 info.length }).pool
    rxq := s.rxq ++ [b], vr := s.vr + 1, event := (s.signal .rxDelivered).event, ackPending := true
    ackTimer := if s.ackPending then s.ackTimer else s.cfg.ackDelay } := by
  unfold State.deliverTo
  cases h : s.ackPending <;> simp [State.bufWriteBytes, State.setDesc, State.signal, h]

theorem deliver_of_none {info : List Byte} (h : s.poolAcquire = none) :
    s.deliver info = { s with cntLost := s.cntLost + 1 } := by
  simp only [State.deliver, h]

theorem deliver_of_some {info : List Byte} {b : Nat} (h : s.poolAcquire = some b) :
    s.deliver info = s.deliverTo b info := by
  simp only [State.deliver, h]

/-- Buffer b is DELIVERED and holds this payload. -/
structure State.Holds (s : State) (b : Nat) (info : List Byte) : Prop where
  desc : s.desc b = { state := .delivered, len := BitVec.ofNat 16 info.length }
  bytes : ∀ j, j < info.length → some (s.bufRead b j) = info[j]?

theorem State.Holds.congr {b : Nat} {info : List Byte} (h : s.Holds b info) (hpool : t.pool = s.pool)
    (hmem : t.bmem = s.bmem) : t.Holds b info where
  desc := by rw [State.desc, hpool]; exact h.desc
  bytes j hj := by rw [bufRead_of_bmem hmem]; exact h.bytes j hj

theorem deliverTo_holds (hm : Memory.wf s.bmem = true) {b : Nat} (hb : b < s.nbuf) (info : List Byte) :
    (s.deliverTo b info).Holds b info where
  desc := by
    rw [deliverTo_eq]
    exact (setDesc_desc s b b _).trans (if_pos ⟨rfl, hb⟩)
  bytes j hj := by
    rw [bufRead_of_bmem (deliverTo_bmem s b info), State.bufRead, ← Nat.zero_add j, bufAddr_add, Nat.zero_add]
    exact memRead_memWriteBytes_of_inside hm _ _ hj

/-- Settles O29: the acknowledgment, then the delivery into the buffer that `poolAcquire` finds. -/
theorem iFrameExpected : Obligations.IFrameExpected := by
  intro s ns nr pf info hm hc hnr hns
  refine ⟨_, ackProcess_acked s nr, fun b hb hfree hleast => ?_, fun hnone => ?_⟩
  · have hx := iFrame_of_expected (info := info) pf ⟨hc, hnr⟩ hns
    rw [deliver_of_some ((poolAcquire_eq_some _).2 ⟨hb, hfree, hleast⟩)] at hx
    have hmem : Memory.wf (s.ackProcess nr).bmem = true := by rwa [ackProcess_bmem]
    obtain ⟨hdesc, hbytes⟩ := deliverTo_holds hmem hb info
    refine ⟨_, hx, hdesc, ?_, ?_, ?_, ?_, ?_, hbytes, ?_, ?_, ?_⟩ <;> rw [deliverTo_eq]
    · rw [ackProcess_rxq]
    · rw [ackProcess_vr]
    · exact signal_added _ .rxDelivered
    · rw [ackProcess_ackPending, ackProcess_ackTimer, ackProcess_cfg]
    · exact bufWriteBytes_memorySameOutside _ b 0 info
    · exact setDesc_poolSameBut _ b _
  · rw [iFrame_of_expected pf ⟨hc, hnr⟩ hns, deliver_of_none ((poolAcquire_eq_none _).2 hnone)]

/-! ### Ticks (44_arq_data.md R286, R292) -/

theorem not_expiring_iff (v : Slot) : v.expiring = false ↔ (v.valid = true → v.timer ≠ 1) := by
  rw [← Bool.not_eq_true, expiring_iff, not_and]

/-- A tick in which no timer expires is the count (44_arq_data.md R292). -/
theorem tick_of_none_expiring (hu : s.uTimer ≠ 1) (hq : ∀ q, (s.slot q).expiring = false) : s.tick = s.countTick := by
  simp only [State.tick, if_neg (fun h => hu h.1 : ¬ (s.uTimer = 1 ∧ _)), oldest_eq_none.2 hq]

/-- A tick in which slot timers expire is the count and the expiry of the oldest slot (44_arq_data.md R292). -/
theorem tick_of_expiring (hc : s.conn = .connected) {q : SeqNum} (hq : (s.slot q).expiring = true)
    (hold : ∀ r, (s.slot r).expiring = true → (q - s.va).toNat ≤ (r - s.va).toNat) :
    s.tick = s.countTick.slotExpire q := by
  have hreq : ¬ (s.uTimer = 1 ∧ (s.countTick.conn = .connecting ∨ s.countTick.conn = .disconnecting)) := by simp [hc]
  have hfirst : (oldest s.countTick.va fun r => (s.slot r).expiring) = some q :=
    oldest_eq_some.2 ⟨hq, fun r hr => Bool.eq_false_iff.2 fun h => Nat.not_lt.2 (hold r h) hr⟩
  simp only [State.tick, if_neg hreq, hfirst]
  exact if_pos hc

/-- A slot whose timer has counted one tick. -/
theorem slot_counted {v w : Slot} (h : v = { w with timer := tickDown w.timer }) :
    v = { w with timer := v.timer } ∧ v.timer.toNat = w.timer.toNat - 1 := by
  subst h
  exact ⟨rfl, tickDown_toNat _⟩

/-- Settles O33: the tick is the count, timer by timer. -/
theorem tickCounts : Obligations.TickCounts := by
  intro s hu hq
  have htick := tick_of_none_expiring hu fun q => (not_expiring_iff _).2 (hq q)
  refine ⟨s.countTick, by rw [handle_tick, htick], tickDown_toNat _, tickDown_toNat _,
    fun q => slot_counted (countTick_slot s q), fun _ => rfl, rfl⟩

/-- A flush seen from a state with the same abandoned buffers, encoder and pool. -/
theorem State.Flushed.of_abandoned_iff (h : t.Flushed u) (ha : ∀ i, t.Abandoned i ↔ s.Abandoned i)
    (henc : t.enc = s.enc) (hpool : t.pool = s.pool) : s.Flushed u where
  slots := h.slots
  freed i hi := h.freed i ((ha i).2 hi)
  kept i hi := (h.kept i (mt (ha i).1 hi)).trans (bstate_of_pool hpool i)
  blen i := (h.blen i).trans (by simp only [State.blen, State.desc, hpool])
  nbuf := h.nbuf.trans (by simp only [State.nbuf, hpool])
  enc := henc ▸ h.enc

/-- The count of a tick leaves every slot its buffer. -/
theorem countTick_abandoned_iff (s : State) (i : Nat) : s.countTick.Abandoned i ↔ s.Abandoned i := by
  simp only [State.Abandoned, countTick_slot]
  rfl

/-- The entry to DISCONNECTED after the count of a tick, which it overwrites (43_arq_connection.md R232). -/
theorem State.Base.countTick_down (h : s.Base) : s.WentDown s.countTick.enterDisconnected ∧
    s.countTick.enterDisconnected.uaPending = s.uaPending ∧
    s.EventsAdded s.countTick.enterDisconnected fun i => i = 4 ∨ (i = 2 ∧ ∃ b, s.Abandoned b) := by
  obtain ⟨⟨hflushed, hrest, hmem⟩, hua, hev⟩ := enterDisconnected_down h.countTick.owned
  refine ⟨⟨hflushed.of_abandoned_iff (countTick_abandoned_iff s) rfl rfl, hrest, hmem⟩, hua, hev.congr fun i => ?_⟩
  simp only [countTick_abandoned_iff]

theorem slotExpire_of_spent (hr : s.retry = s.cfg.maxRetries) (q : SeqNum) :
    s.slotExpire q = s.enterDisconnected.signal .linkFail := if_pos hr

theorem slotExpire_of_retry (hr : s.retry ≠ s.cfg.maxRetries) (q : SeqNum) :
    s.slotExpire q = { s with retry := s.retry + 1, slots := (s.goBackN q).slots } := by
  refine (if_neg hr).trans ((goBackN_eq _ q).trans ?_)
  simp only [slots_ext fun r => (goBackN_slot { s with retry := s.retry + 1 } q r).trans (goBackN_slot s q r).symm]

/-- The slots from q to V(S) - 1, counted from V(A) or from q. -/
theorem age_between_iff {va vs q r : SeqNum} (hq : (q - va).toNat < (vs - va).toNat) :
    (r - q).toNat < (vs - q).toNat ↔ (q - va).toNat ≤ (r - va).toNat ∧ (r - va).toNat < (vs - va).toNat := by
  revert hq
  simp only [BitVec.toNat_sub]
  have := va.isLt; have := vs.isLt; have := q.isLt; have := r.isLt
  omega

/-- In CONNECTED no request is outstanding, so the count of a tick leaves its timer at 0 (44_arq_data.md R292). -/
theorem State.LinkLegal.uTimer_of_connected (h : s.LinkLegal) (hc : s.conn = .connected) : s.uTimer = 0 := by
  by_contra hu
  simpa [hc] using h.uTimer.1 hu

/-- A retry in CONNECTED, over the counted timers. -/
theorem slotExpire_countTick_of_retry (hu : s.uTimer = 0) (hr : s.retry ≠ s.cfg.maxRetries) (q : SeqNum) :
    s.countTick.slotExpire q = { s with
      retry := s.retry + 1, ackTimer := tickDown s.ackTimer, slots := (s.countTick.goBackN q).slots } := by
  have hcount : tickDown s.uTimer = s.uTimer := by rw [hu]; rfl
  calc s.countTick.slotExpire q
      = { s with
          retry := s.retry + 1, uTimer := tickDown s.uTimer, ackTimer := tickDown s.ackTimer,
          slots := (s.countTick.goBackN q).slots } := slotExpire_of_retry (s := s.countTick) hr q
    _ = _ := by rw [hcount]

/-- Settles O34: the oldest expiring slot ends the link, or goes back to itself, over the counted timers. -/
theorem slotExpiry : Obligations.SlotExpiry := by
  intro s q hs hv ht hold
  obtain ⟨hc, hage⟩ := (hs.keyed q).1 hv
  have htick : s.handle .tick = .next (s.countTick.slotExpire q).encoderLoad := by
    rw [handle_tick, tick_of_expiring hc ((expiring_iff _).2 ⟨hv, ht⟩) fun r hr => ?_]
    obtain ⟨hrv, hrt⟩ := (expiring_iff _).1 hr
    exact hold r hrv hrt
  refine ⟨fun hr => ?_, fun hr => ?_⟩
  · rw [slotExpire_of_spent (s := s.countTick) hr] at htick
    obtain ⟨hdown, hua, hev⟩ := hs.kept.base.countTick_down
    refine ⟨_, htick, hdown.signal .linkFail, (signal_uaPending _ _).trans hua,
      (hev.trans (signal_added _ .linkFail)).congr fun i => ?_⟩
    rw [or_right_comm, or_assoc]
    rfl
  · rw [slotExpire_countTick_of_retry (hs.link.uTimer_of_connected hc) hr] at htick
    have hslot := goBackN_slot s.countTick q
    have hretry := retry_succ_toNat hs.link.retry hr
    refine ⟨_, htick, hretry, tickDown_toNat s.ackTimer, fun r hle hlt => ?_, fun r hout => ?_,
      fun _ => rfl, rfl⟩
    · refine (hslot r).trans ((if_pos ((age_between_iff hage).2 ⟨hle, hlt⟩)).trans ?_)
      rw [countTick_slot]
      rfl
    · refine slot_counted ((hslot r).trans ((if_neg fun h => ?_).trans (countTick_slot s r)))
      obtain ⟨hle, hlt⟩ := (age_between_iff hage).1 h
      omega

/-! ### In-order delivery (44_arq_data.md R300) -/

/-- The delivered queue stays, and V(R) stays or restarts at 0 with a change of the connection state. -/
def State.KeepsQueue (s t : State) : Prop := t.rxq = s.rxq ∧ (t.vr = s.vr ∨ (t.vr = 0 ∧ t.conn ≠ s.conn))

theorem State.KeepsQueue.of_eq (hq : t.rxq = s.rxq) (hvr : t.vr = s.vr) : s.KeepsQueue t := ⟨hq, .inl hvr⟩

theorem State.KeepsQueue.signal (h : s.KeepsQueue t) (e : Event) : s.KeepsQueue (t.signal e) := h

theorem State.KeepsQueue.encoderLoad (h : s.KeepsQueue t) : s.KeepsQueue t.encoderLoad := by
  simpa only [State.KeepsQueue, encoderLoad_rxq, encoderLoad_vr, encoderLoad_conn] using h

/-- What the instruction, run in `s`, does to the delivered queue and V(R) (42_buffer_pool.md R203, 44_arq_data.md
R281, 43_arq_connection.md R231, R232). -/
inductive State.Queues (s t : State) : Instr → Prop
  | keeps (i : Instr) (h : s.KeepsQueue t) : s.Queues t i
  | sabm (pf : Bool) (hc : s.conn = .connected) (hq : t.rxq = s.rxq) (hvr : t.vr = 0) : s.Queues t (.sabm pf [])
  | read (buf : BitVec 8) (len : BitVec 16) (hne : s.rxq ≠ []) (hq : t.rxq = s.rxq.tail) (hvr : t.vr = s.vr) :
    s.Queues t (.read buf len)
  | softReset (buf : BitVec 8) (len : BitVec 16) (hq : t.rxq = []) (hvr : t.vr = 0) : s.Queues t (.softReset buf len)
  | delivers (nr : SeqNum) (pf : Bool) (info : List Byte) (b : Nat) (hc : s.conn = .connected) (ht : t.conn = .connected)
    (hb : b < s.nbuf) (hq : t.rxq = s.rxq ++ [b]) (hvr : t.vr = s.vr + 1) (hh : t.Holds b info) :
    s.Queues t (.iFrame s.vr nr pf info)

/-- What the end of a step changes does not matter. -/
theorem State.Queues.congr (h : s.Queues t i) (hq : u.rxq = t.rxq) (hvr : u.vr = t.vr) (hc : u.conn = t.conn)
    (hpool : u.pool = t.pool) (hmem : u.bmem = t.bmem) : s.Queues u i := by
  cases h with
  | keeps _ h => exact .keeps _ (by simpa only [State.KeepsQueue, hq, hvr, hc] using h)
  | sabm pf hcs hqt hvrt => exact .sabm pf hcs (hq.trans hqt) (hvr.trans hvrt)
  | read buf len hne hqt hvrt => exact .read buf len hne (hq.trans hqt) (hvr.trans hvrt)
  | softReset buf len hqt hvrt => exact .softReset buf len (hq.trans hqt) (hvr.trans hvrt)
  | delivers nr pf info b hcs hct hb hqt hvrt hh =>
    exact .delivers nr pf info b hcs (hc.trans hct) hb (hq.trans hqt) (hvr.trans hvrt) (hh.congr hpool hmem)

theorem State.Queues.encoderLoad (h : s.Queues t i) : s.Queues t.encoderLoad i :=
  h.congr (encoderLoad_rxq t) (encoderLoad_vr t) (encoderLoad_conn t) (encoderLoad_pool t) (encoderLoad_bmem t)

theorem enterConnected_keepsQueue (h : s.conn ≠ .connected) : s.KeepsQueue s.enterConnected :=
  ⟨enterConnected_rxq s, .inr ⟨enterConnected_vr s, fun hc => h (hc.symm.trans (enterConnected_conn s))⟩⟩

theorem enterDisconnected_keepsQueue (h : s.conn ≠ .disconnected) : s.KeepsQueue s.enterDisconnected :=
  ⟨enterDisconnected_rxq s, .inr ⟨enterDisconnected_vr s, fun hc => h (hc.symm.trans (enterDisconnected_conn s))⟩⟩

theorem rxSabm_queues (s : State) (pf : Bool) : s.Queues s.rxSabm (.sabm pf []) := by
  unfold State.rxSabm
  split
  · next hc => exact .keeps _ (enterConnected_keepsQueue (s := s.asked) (by simp [State.asked, hc]))
  · next hc => exact .keeps _ (enterConnected_keepsQueue (s := s.asked) (by simp [State.asked, hc]))
  · next hc => exact .sabm pf hc (by simp) (by simp)
  · exact .keeps _ (.of_eq rfl rfl)

theorem rxUa_keepsQueue (s : State) : s.KeepsQueue s.rxUa := by
  unfold State.rxUa
  split
  · next hc => exact enterConnected_keepsQueue (by simp [hc])
  · next hc => exact enterDisconnected_keepsQueue (by simp [hc])
  · exact .of_eq rfl rfl
  · exact .of_eq rfl rfl

theorem rxDisc_keepsQueue (s : State) : s.KeepsQueue s.rxDisc := by
  have hdown (hc : s.conn ≠ .disconnected) : s.KeepsQueue s.asked.enterDisconnected :=
    enterDisconnected_keepsQueue (s := s.asked) hc
  unfold State.rxDisc
  dsimp only
  split
  · exact .of_eq rfl rfl
  · next hc => exact (hdown (by simp [hc])).signal .hsFail
  · next hc => exact hdown (by simp [hc])
  · next hc => exact hdown (by simp [hc])

theorem rxRr_keepsQueue (s : State) (nr : SeqNum) : s.KeepsQueue (s.rxRr nr) := by
  unfold State.rxRr
  split_ifs
  · exact .of_eq rfl rfl
  · exact .of_eq (ackProcess_rxq s nr) (ackProcess_vr s nr)

theorem rxRej_keepsQueue (s : State) (nr : SeqNum) : s.KeepsQueue (s.rxRej nr) := by
  unfold State.rxRej
  split_ifs
  · exact .of_eq rfl rfl
  · exact .of_eq (by simp) (by simp)

/-- An I-frame that is not ignored is out of sequence, or finds no buffer, or is delivered (44_arq_data.md R280 to
R282). -/
theorem iFrame_queues (hm : Memory.wf s.bmem = true) {ns nr : SeqNum} {pf : Bool} {info : List Byte}
    (h : exec (.iFrame ns nr pf info) s = .next t) : s.Queues t (.iFrame ns nr pf info) := by
  by_cases hv : s.conn = .connected ∧ (nr - s.va).toNat ≤ (s.vs - s.va).toNat
  swap
  · rw [iFrame_of_ignored pf (ignored_iff.2 hv)] at h
    injection h with h
    exact h ▸ .keeps _ (.of_eq rfl rfl)
  by_cases hns : ns = s.vr
  swap
  · rw [iFrame_of_unexpected pf hv hns] at h
    injection h with h
    exact h ▸ .keeps _ (.of_eq (ackProcess_rxq s nr) (ackProcess_vr s nr))
  subst hns
  rw [iFrame_of_expected pf hv rfl] at h
  injection h with h
  cases hb : (s.ackProcess nr).poolAcquire with
  | none =>
    rw [deliver_of_none hb] at h
    exact h ▸ .keeps _ (.of_eq (ackProcess_rxq s nr) (ackProcess_vr s nr))
  | some b =>
    obtain ⟨hlt, -⟩ := (poolAcquire_eq_some _).1 hb
    have hh : t.Holds b info := by
      rw [← h, deliver_of_some hb]
      exact deliverTo_holds (by rwa [ackProcess_bmem]) hlt info
    rw [deliver_of_some hb, deliverTo_eq] at h
    subst h
    refine .delivers nr pf info b hv.1 ((ackProcess_conn s nr).trans hv.1) ?_ ?_ ?_ hh
    · rwa [ackProcess_nbuf] at hlt
    · rw [ackProcess_rxq]
    · rw [ackProcess_vr]

/-- Every instruction, by what it does to the delivered queue and V(R). -/
theorem exec_queues (hm : Memory.wf s.bmem = true) (h : exec i s = .next t) : s.Queues t i := by
  cases i with
  | nop buf len => injection h with h; exact h ▸ .keeps _ (.of_eq rfl rfl)
  | acquire buf len =>
    simp only [exec, execAcquire] at h
    split at h <;> injection h with h <;> exact h ▸ .keeps _ (.of_eq rfl rfl)
  | release buf len =>
    simp only [exec, execRelease] at h
    split_ifs at h <;> injection h with h <;> exact h ▸ .keeps _ (.of_eq rfl rfl)
  | send buf len =>
    simp only [exec, execSend] at h
    split_ifs at h <;> injection h with h <;> exact h ▸ .keeps _ (.of_eq rfl rfl)
  | read buf len =>
    cases hq : s.rxq with
    | nil =>
      rw [read_of_nil hq] at h
      injection h with h
      exact h ▸ .keeps _ (.of_eq rfl rfl)
    | cons b queue =>
      rw [read_of_cons hq] at h
      injection h with h
      exact h ▸ .read buf len (by simp [hq]) (by simp [hq]) rfl
  | connect buf len =>
    simp only [exec, execConnect] at h
    split_ifs at h with hc <;> injection h with h <;> subst h
    · exact .keeps _ ⟨rfl, .inr ⟨rfl, by simp [hc]⟩⟩
    · exact .keeps _ (.of_eq rfl rfl)
  | disconnect buf len =>
    simp only [exec, execDisconnect] at h
    split_ifs at h <;> injection h with h <;> subst h
    · exact .keeps _ (.of_eq (by simp [State.startDisconnect]) (by simp [State.startDisconnect]))
    · exact .keeps _ (.of_eq rfl rfl)
  | softReset buf len => injection h with h; exact h ▸ .softReset buf len rfl rfl
  | reservedOpcode op buf len => injection h with h; exact h ▸ .keeps _ (.of_eq rfl rfl)
  | iFrame ns nr pf info => exact iFrame_queues hm h
  | rr nr pf info =>
    simp only [exec, execRr] at h
    split_ifs at h <;> injection h with h
    · exact h ▸ .keeps _ (rxRr_keepsQueue s nr)
    · exact h ▸ .keeps _ (.of_eq rfl rfl)
  | rej nr pf info =>
    simp only [exec, execRej] at h
    split_ifs at h <;> injection h with h
    · exact h ▸ .keeps _ (rxRej_keepsQueue s nr)
    · exact h ▸ .keeps _ (.of_eq rfl rfl)
  | sabm pf info =>
    simp only [exec, execSabm] at h
    split_ifs at h with hinfo <;> injection h with h
    · subst hinfo; exact h ▸ rxSabm_queues s pf
    · exact h ▸ .keeps _ (.of_eq rfl rfl)
  | ua pf info =>
    simp only [exec, execUa] at h
    split_ifs at h <;> injection h with h
    · exact h ▸ .keeps _ (rxUa_keepsQueue s)
    · exact h ▸ .keeps _ (.of_eq rfl rfl)
  | disc pf info =>
    simp only [exec, execDisc] at h
    split_ifs at h <;> injection h with h
    · exact h ▸ .keeps _ (rxDisc_keepsQueue s)
    · exact h ▸ .keeps _ (.of_eq rfl rfl)
  | rnrReserved nr pf info => injection h with h; exact h ▸ .keeps _ (.of_eq rfl rfl)
  | srejReserved nr pf info => injection h with h; exact h ▸ .keeps _ (.of_eq rfl rfl)
  | uReserved m pf info => injection h with h; exact h ▸ .keeps _ (.of_eq rfl rfl)

theorem uExpire_keepsQueue (h : s.conn ≠ .disconnected) : s.KeepsQueue s.uExpire := by
  unfold State.uExpire
  dsimp only
  split_ifs
  · exact (enterDisconnected_keepsQueue h).signal .hsFail
  · exact enterDisconnected_keepsQueue h
  · exact .of_eq rfl rfl
  · exact .of_eq rfl rfl

theorem slotExpire_keepsQueue (h : s.conn ≠ .disconnected) (q : SeqNum) : s.KeepsQueue (s.slotExpire q) := by
  unfold State.slotExpire
  split_ifs
  · exact (enterDisconnected_keepsQueue h).signal .linkFail
  · exact .of_eq (by simp) (by simp)

/-- A tick restarts V(R) only at the end of the link or of an attempt (44_arq_data.md R286, 43_arq_connection.md
R239). -/
theorem State.Kept.tick_keepsQueue (h : s.Kept) : s.KeepsQueue s.tick := by
  by_cases hc : s.conn = .connected
  · rcases tick_of_connected hc with ht | ⟨q, ht⟩ <;> rw [ht]
    · exact .of_eq rfl rfl
    · exact slotExpire_keepsQueue (s := s.countTick) (by simp [hc]) q
  · rw [h.tick_of_not_connected hc]
    split_ifs with hu
    · refine uExpire_keepsQueue (s := s.withUTimer 0) ?_
      rcases h.requesting (by rw [hu]; decide) with hreq | hreq <;> simp [State.withUTimer, hreq]
    · exact .of_eq rfl rfl

/-- The payload of a frame that the receiver accepts fits the MTU (40_framecodec.md R155). -/
theorem State.Receives.infoFits (h : s.Receives e i) : Instr.infoFits s.cfg.mtu i := by
  obtain ⟨-, -, body, hacc, hlen, hdec⟩ := h
  refine decode_frame_infoFits hdec ?_
  have hfcs : (s.fcsNow body).length = s.cfg.fcsMode.fcsLen := fcs_length ..
  rw [hacc, List.length_append, hfcs] at hlen
  exact Nat.le_of_add_le_add_right hlen

/-- A payload within the MTU is stored with its whole length (10_state.md R48). -/
theorem State.Holds.blen_toNat {b : Nat} {info : List Byte} (h : t.Holds b info) {mtu : Half}
    (hfits : info.length ≤ mtu.toNat) : (t.blen b).toNat = info.length := by
  rw [State.blen, h.desc, BitVec.toNat_ofNat]
  exact Nat.mod_eq_of_lt (Nat.lt_of_le_of_lt hfits mtu.isLt)

/-- Settles O51, event by event: commands and frames by `exec_queues`, every other event keeps the queue. -/
theorem inOrderDelivery : Obligations.InOrderDelivery := by
  intro s t e hs he restarts
  have hkeep (h : s.KeepsQueue t) : t.rxq = s.rxq ∧ (t.vr = s.vr ∨ (t.vr = 0 ∧ restarts)) :=
    ⟨h.1, h.2.imp_right fun ⟨hvr, hc⟩ => ⟨hvr, .inl hc⟩⟩
  rcases handle_cases he with ⟨rfl, rfl⟩ | ⟨a, z, -, rfl⟩ | ⟨a, z, v, u, rfl, hw, rfl⟩ | ⟨b, u, rfl, hb, rfl⟩ | ⟨-, rfl⟩ |
    ⟨-, -, rfl⟩ | ⟨-, -, rfl⟩
  · exact .inr (.inr (.inl ⟨.inl rfl, rfl, rfl⟩))
  · refine .inl (hkeep (.encoderLoad ?_))
    rw [hostRead_eq]
    exact .of_eq rfl rfl
  · rcases hostWrite_runs_or_keeps hw with ⟨hcmd, hx⟩ | hkeeps
    · have hqueue := (exec_queues hs.mem.wf hx).encoderLoad
      obtain ⟨hsource, -⟩ := decodeCommand_encodedAs v
      generalize hi : decodeCommand v = i at hqueue hsource
      cases hqueue with
      | keeps _ h => exact .inl (hkeep h)
      | read buf len hne hq hvr =>
        exact .inr (.inl ⟨isCommand_of_encode (op := 0x04) hcmd (congrArg encode hi), hne, hq, hvr⟩)
      | softReset buf len hq hvr =>
        exact .inr (.inr (.inl ⟨.inr (isCommand_of_encode (op := 0x0F) hcmd (congrArg encode hi)), hq, hvr⟩))
      | _ => cases hsource
    · refine .inl (hkeep (.encoderLoad ?_))
      rw [hkeeps]
      exact .of_eq rfl rfl
  · rcases rxByte_cases hb with hkeeps | ⟨i, u, hr, hx, rfl⟩
    · refine .inl (hkeep (.encoderLoad ?_))
      rw [hkeeps]
      exact .of_eq rfl rfl
    · have hqueue := ((exec_queues hs.mem.wf hx).congr (u := u.withRx u.rx.state []) rfl rfl rfl rfl rfl).encoderLoad
      obtain ⟨-, -, body, -, -, hdec⟩ := id hr
      obtain ⟨hsource, -⟩ := encodeOfDecode _ _ _ hdec
      cases hqueue with
      | keeps _ h => exact .inl (hkeep h)
      | sabm pf hc hq hvr => exact .inl ⟨hq, .inr ⟨hvr, .inr ⟨hc, pf, hr⟩⟩⟩
      | delivers nr pf info b hc ht hlt hq hvr hh =>
        exact .inr (.inr (.inr ⟨nr, pf, info, b, hr, hc, ht, hlt, hq, hvr, congrArg BufDesc.state hh.desc,
          hh.blen_toNat hr.infoFits, hh.bytes⟩))
      | _ => cases hsource
  · exact .inl (hkeep hs.kept.tick_keepsQueue.encoderLoad)
  · refine .inl (hkeep (.encoderLoad ?_))
    rw [txByte_eq]
    exact .of_eq rfl rfl
  · exact .inl ⟨rfl, .inl rfl⟩

/-! ### A payload carried over a link (44_arq_data.md R270, R281, 40_framecodec.md R156) -/

/-- CONNECTED with nothing outstanding and nothing due. -/
structure State.Quiet (s : State) : Prop where
  conn : s.conn = .connected
  acked : s.vs = s.va
  slots : ∀ q, (s.slot q).valid = false
  uaPending : s.uaPending = false
  rejPending : s.rejPending = false

theorem State.Legal.quiet (hs : s.Legal) (hc : s.conn = .connected) (hi : s.enc.active = false) (hv : s.vs = s.va) :
    s.Quiet where
  conn := hc
  acked := hv
  slots q := by
    by_contra hq
    obtain ⟨-, hage⟩ := (hs.keyed q).1 (by simpa using hq)
    simp [State.outstanding, hv] at hage
  uaPending := hs.eager.uaPending_of_idle hi
  rejPending := by
    by_contra hrej
    have hnone := hs.eager hi
    rw [nextFrame_of_connected (hs.eager.uaPending_of_idle hi) hc,
      nextDataFrame_of_rej (by simpa using hrej)] at hnone
    cases hnone

theorem frameEnd_nextFrame (s : State) : s.frameEnd.nextFrame = s.nextFrame := by
  rw [frameEnd_eq]
  rfl

/-- With the only I-frame waiting loaded, which acknowledges too, nothing is due after it (40_framecodec.md R141). -/
theorem load_i_nextFrame (hua : s.uaPending = false) (hc : s.conn = .connected) (hrej : s.rejPending = false)
    {q : SeqNum} (honly : ∀ r, (s.slot r).due = true → q = r) : (s.load (.i q)).nextFrame = none := by
  rw [nextFrame_of_connected (s := s.load (.i q)) hua hc, nextDataFrame_of_none_waiting (s := s.load (.i q)) hrej]
  · exact if_neg fun hack => nomatch hack.1
  · intro r hr
    rw [load_i_slot] at hr
    split_ifs at hr with hqr
    · obtain ⟨-, hneeds⟩ := (due_iff _).1 hr
      cases hneeds
    · exact hqr (honly r hr)

/-- `s` after an accepted SEND. -/
def State.sendAccepted (s : State) (buf : BitVec 8) (len : BitVec 16) : State :=
  (s.enqueue buf.toNat len).setResult .ok buf len

section
variable (buf : BitVec 8) (len : BitVec 16)

theorem sendAccepted_slot (s : State) (q : SeqNum) : (s.sendAccepted buf len).slot q =
    if s.vs = q then { valid := true, buf := buf.toNat, needsTx := true, timer := s.cfg.timeout } else s.slot q :=
  enqueue_slot s buf.toNat len q

theorem sendAccepted_slot_self (s : State) : (s.sendAccepted buf len).slot s.vs =
    { valid := true, buf := buf.toNat, needsTx := true, timer := s.cfg.timeout } := by
  rw [sendAccepted_slot, if_pos rfl]

theorem State.Quiet.sendAccepted_due_iff (h : s.Quiet) (q : SeqNum) :
    ((s.sendAccepted buf len).slot q).due = true ↔ s.vs = q := by
  rw [sendAccepted_slot, due_iff]
  split_ifs with hq
  · simp [hq]
  · simp [hq, h.slots q]

/-- The frame sent is the only one due (40_framecodec.md R141). -/
theorem State.Quiet.sendAccepted_nextFrame (h : s.Quiet) : (s.sendAccepted buf len).nextFrame = some (.i s.vs) := by
  rw [nextFrame_of_connected (s := s.sendAccepted buf len) h.uaPending h.conn]
  refine nextDataFrame_of_oldest (s := s.sendAccepted buf len) h.rejPending
    ((h.sendAccepted_due_iff buf len s.vs).2 rfl) fun r hr => ?_
  rw [(h.sendAccepted_due_iff buf len r).1 hr]

variable {buf len}

/-- SEND with nothing outstanding loads its frame in the same step. -/
theorem State.Quiet.handle_send (h : s.Quiet) (hi : s.enc.active = false) (hw : s.cfg.window ≠ 0)
    (hsend : s.Sendable buf len) : s.handle (.hostWrite 0x018 2 (commandWord 0x03 buf len)) =
      .next ((s.sendAccepted buf len).load (.i s.vs)) := by
  have hopen : (s.vs - s.va).toNat < s.cfg.window.toNat := by
    rw [h.acked, sub_self]
    exact Nat.pos_of_ne_zero fun h0 => hw (BitVec.eq_of_toNat_eq h0)
  have hx : exec (decodeCommand (commandWord 0x03 buf len)) s = .next (s.sendAccepted buf len) := by
    rw [decodeCommand_commandWord]
    exact send_of_open hsend h.conn hopen
  rw [handle_cmd hx, encoderLoad_of_nextFrame (s := s.sendAccepted buf len) hi (h.sendAccepted_nextFrame buf len)]

/-- The frame sent carries the bytes of the buffer (40_framecodec.md R142). -/
theorem sendAccepted_infoOf (hb : buf.toNat < s.nbuf) :
    (s.sendAccepted buf len).infoOf (.i s.vs) = s.bufReadBytes buf.toNat 0 len.toNat := by
  have hlen : (s.sendAccepted buf len).blen buf.toNat = len := congrArg BufDesc.len (enqueue_desc_self len hb)
  rw [State.infoOf, sendAccepted_slot_self, State.payload, hlen]
  rfl

/-- The end of the frame sent leaves its buffer waiting for the acknowledgment (40_framecodec.md R145). -/
theorem sendAccepted_frameEnd (hb : buf.toNat < s.nbuf) :
    let f := ((s.sendAccepted buf len).load (.i s.vs)).sentAll.frameEnd
    f.vs = s.vs + 1 ∧ f.bstate buf.toNat = .pendAck := by
  have hbuf : ((s.sendAccepted buf len).load (.i s.vs)).sentAll.enc.buf = buf.toNat :=
    congrArg Slot.buf (sendAccepted_slot_self buf len s)
  have hpend : (s.sendAccepted buf len).bstate buf.toNat = .pendTx :=
    congrArg BufDesc.state (enqueue_desc_self len hb)
  have hend := (frameEnd_awaits_ack (s := ((s.sendAccepted buf len).load (.i s.vs)).sentAll) rfl rfl
    (by rw [hbuf]; exact hpend)).1
  rw [hbuf] at hend
  exact ⟨by rw [frameEnd_eq]; rfl, congrArg BufDesc.state hend⟩

end

/-- The control byte of an I-frame the block sends (30_encoding.md R104, R108). -/
theorem ctrl_i_eq_ctrlI : ∀ vr q : SeqNum, (Due.i q).ctrl vr = ctrlI vr q false := by decide

theorem decode_i (vr q : SeqNum) (info : List Byte) :
    decode .frame ((Due.i q).ctrl vr :: info) = .ok (.iFrame q vr false info) := by
  rw [ctrl_i_eq_ctrlI, decode, classify_ctrlI]

theorem ackProcess_self (s : State) : s.ackProcess s.va = s := if_pos rfl

/-- An I-frame in sequence that acknowledges nothing new is delivered into the FREE buffer of least index. -/
theorem iFrame_of_next (hc : s.conn = .connected) {b : Nat} (hb : s.poolAcquire = some b) (pf : Bool) (info : List Byte) :
    exec (.iFrame s.vr s.va pf info) s = .next (s.deliverTo b info) := by
  rw [iFrame_of_expected pf ⟨hc, by rw [sub_self]; exact Nat.zero_le _⟩ rfl, ackProcess_self, deliver_of_some hb]

/-- The receiving side's half: the payload is stored, and the end of the step changes nothing of that. -/
theorem filled_delivers (hm : Memory.wf t.bmem = true) (hc : t.conn = .connected) {b : Nat}
    (hb : t.poolAcquire = some b) (c : Byte) (info : List Byte) :
    ∃ r, exec (.iFrame t.vr t.va false info) (t.filled c info) = .next r ∧ r.emptied.encoderLoad.Holds b info ∧
      r.emptied.encoderLoad.rxq = t.rxq ++ [b] ∧ r.emptied.encoderLoad.vr = t.vr + 1 := by
  obtain ⟨hlt, -⟩ := (poolAcquire_eq_some t).1 hb
  refine ⟨_, iFrame_of_next (s := t.filled c info) hc hb false info, ?_, ?_, ?_⟩
  · exact (deliverTo_holds (s := t.filled c info) hm hlt info).congr (encoderLoad_pool _) (encoderLoad_bmem _)
  · rw [encoderLoad_rxq, deliverTo_eq]
    rfl
  · rw [encoderLoad_vr, deliverTo_eq]
    rfl

/-- Settles O56: SEND loads the I-frame, which crosses the link and is delivered. -/
theorem payloadCrossesTheLink : Obligations.PayloadCrossesTheLink := by
  intro p n src len dst ha hb hsame hmode hac hbc hai _ hacc hesc hav _ hvs hvr hsrc happ hfits hfits' hdst hfree hleast hn
  have hquiet := ha.quiet hac hai hav
  have hsend := handle_ofSides .a p.b (hquiet.handle_send hai ha.cfg.window_ne ⟨hsrc, happ, hfits⟩)
  obtain ⟨info, hinfo⟩ : ∃ info, info = p.a.bufReadBytes src.toNat 0 len.toNat := ⟨_, rfl⟩
  have hlen : info.length = len.toNat := by rw [hinfo]; exact memReadBytes_length ..
  have hsent : (p.a.sendAccepted src len).infoOf (.i p.a.vs) = info := (sendAccepted_infoOf hsrc).trans hinfo.symm
  have hend : ((p.a.sendAccepted src len).load (.i p.a.vs)).sentAll.frameEnd.nextFrame = none :=
    (frameEnd_nextFrame _).trans (load_i_nextFrame (s := p.a.sendAccepted src len) hquiet.uaPending hquiet.conn
      hquiet.rejPending fun r => (hquiet.sendAccepted_due_iff src len r).1)
  have hwire : ((p.a.sendAccepted src len).wireOf (.i p.a.vs)).length ≤ n := by
    refine (build_length_le _ _ _ _).trans ?_
    rw [hsent, hlen]
    exact hn
  obtain ⟨r, hx, hholds, hrxq, hnext'⟩ := filled_delivers hb.mem.wf hbc
    ((poolAcquire_eq_some p.b).2 ⟨hdst, hfree, hleast⟩) ((Due.i p.a.vs).ctrl p.a.vr) info
  rw [← hvs, ← hvr] at hx
  have hlink := link_loaded (s := p.a.sendAccepted src len) (k := .i p.a.vs) .a hsame hmode hb.eager
    (by rw [hsent, hlen]; exact hfits') ⟨hacc, hesc⟩ (by rw [hsent]; exact decode_i p.a.vr p.a.vs info) hwire hend
    (by rw [hsent]; exact hx)
  obtain ⟨hnext, hpend⟩ := sendAccepted_frameEnd (len := len) hsrc
  refine ⟨_, _, hsend, hlink, hrxq, congrArg BufDesc.state hholds.desc, ?_, hnext', hnext, hpend, fun j hj => ?_⟩
  · refine (congrArg BufDesc.len hholds.desc).trans ?_
    rw [hlen, BitVec.ofNat_toNat, BitVec.setWidth_eq]
  · refine Option.some.inj ((hholds.bytes j (by rwa [hlen])).trans ?_)
    rw [hinfo]
    exact memReadBytes_getElem? _ _ hj

end Sys2Proof.Machine

/-! SUPPORT. The host interface (45_host_interface.md): which address reaches which register, the value each register
reads as, what a write stores, the commands NOP and reserved opcode, and the interrupt output. -/

namespace Sys2Proof.Machine

variable {s t : State} {a : BitVec 20} {z : BitVec 2} {r : Reg} {v : Word} {e : PortEvent}

/-! ### Transactions to a register (10_state.md R23, 45_host_interface.md R330, R331) -/

/-- A block of `nbuf` buffers has the register; its address lies in the 0x200 bytes of the register part
(10_state.md R23, R25). -/
def Reg.Exists (nbuf : Nat) (r : Reg) : Prop := ∀ i, r = .bufState i → i < nbuf ∧ i < 64

theorem Reg.Exists.bufState (hs : s.SizesLegal) {i : Nat} (hi : i < s.nbuf) : (Reg.bufState i).Exists s.nbuf := by
  rintro _ ⟨⟩
  exact ⟨hi, Nat.lt_of_lt_of_le hi hs.nbuf_le⟩

theorem Reg.addr_mod_four (r : Reg) : r.addr % 4 = 0 := by
  cases r with
  | bufState i => show (0x100 + 4 * i) % 4 = 0; omega
  | _ => rfl

theorem Reg.Exists.addr_lt {nbuf : Nat} (h : r.Exists nbuf) : r.addr < 0x200 := by
  cases r with
  | bufState i =>
    obtain ⟨-, hi⟩ := h i rfl
    show 0x100 + 4 * i < 0x200
    omega
  | _ => decide

/-- A register the block has is decoded at its address: the converse of `regAt_addr`. -/
theorem Reg.Exists.regAt_addr {nbuf : Nat} (h : r.Exists nbuf) : regAt nbuf r.addr = some r := by
  cases r with
  | bufState i =>
    obtain ⟨hi, hi'⟩ := h i rfl
    show regAt nbuf (0x100 + 4 * i) = _
    unfold regAt
    iterate 14 rw [if_neg (by omega)]
    rw [show (0x100 + 4 * i - 0x100) / 4 = i by omega, if_pos ⟨by omega, by omega, hi⟩]
  | _ => rfl

/-- A 4-byte transaction at the address of a register reaches it: the converse of `target_reg`. -/
theorem Reg.Exists.target (h : r.Exists s.nbuf) (ha : a.toNat = r.addr) : s.target a 2 = .reg r := by
  have hbytes : busBytes 2 = 4 := rfl
  unfold State.target State.regTarget
  rw [if_neg (by decide), hbytes, ha, if_neg (not_not.2 r.addr_mod_four), if_pos h.addr_lt, if_pos rfl, h.regAt_addr]

/-- A read of a register returns its value, and clears EVENT if that is what it reads; `next_frame` does not depend on
EVENT, so nothing is due after it either (45_host_interface.md R335, 40_framecodec.md R141). -/
theorem handle_hostRead_of_reg (hs : s.Eager) (h : s.target a z = .reg r) :
    s.handle (.hostRead a z) = .next { s with
      event := if r = .event then 0 else s.event,
      env := { s.env with reads := s.env.reads ++ [s.regValue r] } } := by
  have hread : s.hostRead a z = { s with
      event := if r = .event then 0 else s.event,
      env := { s.env with reads := s.env.reads ++ [s.regValue r] } } := by
    simp only [State.hostRead, State.afterRead, State.readValue, h]
    cases r <;> rfl
  rw [State.handle, hread]
  exact congrArg Host.Outcome.next (encoderLoad_of_eager _ hs)

/-- A 4-byte write at the address of a register is that register's write (45_host_interface.md R331). -/
theorem handle_regWrite (r : Reg) (hr : r.Exists s.nbuf) (ha : a.toNat = r.addr) (hw : s.regWrite r v = .next t) :
    s.handle (.hostWrite a 2 v) = .next t.encoderLoad := by
  simp only [State.handle, State.hostWrite, hr.target ha, hw, andThen]

/-! ### Commands, NOP and reserved opcodes (45_host_interface.md R332, R333, 30_encoding.md R113) -/

/-- Settles O11: a 4-byte write of CMD reaches that register, whatever the block's sizes. -/
theorem stepRunsCommand : Obligations.StepRunsCommand := by
  intro s w later i hin hdec
  rw [decode_wordBytes] at hdec
  injection hdec with hdec
  obtain ⟨t, ht⟩ := exec_next i { s with env := { s.env with inbox := later } }
  refine ⟨t, ht, ?_⟩
  rw [step_of_inbox hin]
  refine handle_regWrite .cmd nofun rfl ?_
  rw [State.regWrite, State.execute, hdec, ht]

/-- Settles O16: both only answer a result code, and the opcodes named are those that R113 reserves. -/
theorem nopAndReservedOpcode : Obligations.NopAndReservedOpcode := by
  refine ⟨fun s buf len => rfl, fun s op buf len hop => ⟨?_, rfl⟩⟩
  have hreserved : opReserved op = true := by
    simpa only [opReserved, Bool.or_eq_true, Bool.and_eq_true, decide_eq_true_eq] using hop
  rw [decode_commandWord, commandInstr_of_reserved hreserved]

/-! ### The interrupt output (45_host_interface.md R337) -/

theorem irq_iff (s : State) : s.irq = true ↔ ∃ i, s.event.getLsbD i = true ∧ s.irqEn.getLsbD i = true := by
  have hzero : s.event &&& s.irqEn = 0 ↔ _ := BitVec.zero_iff_eq_false
  rw [State.irq, bne_iff_ne, ne_eq, hzero]
  simp only [BitVec.getLsbD_and, not_forall, Bool.not_eq_false, Bool.and_eq_true]

/-- Only a 4-byte write of IRQ_EN and the resets write IRQ_EN (10_state.md R36, 45_host_interface.md R336). -/
theorem handle_irqEn (he : s.handle e = .next t) (hreset : ¬ e.IsReset) (hne : ∀ v, e ≠ .hostWrite 0x028 2 v) :
    t.irqEn = s.irqEn := by
  rcases handle_cases he with ⟨rfl, -⟩ | ⟨a, z, -, rfl⟩ | ⟨a, z, v, u, rfl, hw, rfl⟩ | ⟨b, u, -, hb, rfl⟩ | ⟨-, rfl⟩ |
    ⟨-, -, rfl⟩ | ⟨-, -, rfl⟩
  · exact absurd (.inl rfl) hreset
  · rw [encoderLoad_irqEn, hostRead_eq]
  · rw [encoderLoad_irqEn]
    refine (hostWrite_extends hw (decodeCommand_ne_softReset fun hcmd => hreset (.inr hcmd)) fun hirq => ?_).irqEn
    obtain ⟨hz, ha⟩ := target_reg hirq
    exact hne v (by rw [hz, show a = 0x028 from BitVec.eq_of_toNat_eq ha])
  · rw [encoderLoad_irqEn, (rxByte_extends hb).irqEn]
  · rw [encoderLoad_irqEn, (tick_extends s).irqEn]
  · rw [encoderLoad_irqEn]
    rcases txByte_cases s with h | h <;> rw [h]
    · rfl
    · rw [frameEnd_eq]
      rfl
  · rfl

/-- Settles O45: the output stays 1 while its EVENT bit is sticky (O46) and IRQ_EN is not written. -/
theorem interruptLevel : Obligations.InterruptLevel := by
  refine ⟨irq_iff, fun s t e he hs ht => ?_⟩
  by_contra hne
  simp only [not_or, not_exists] at hne
  obtain ⟨hread, hwrite, hreset⟩ := hne
  obtain ⟨i, hevent, hen⟩ := (irq_iff s).1 hs
  have hirq : t.irq = true :=
    (irq_iff t).2 ⟨i, eventsSticky s t e i he hreset hread hevent, by rwa [handle_irqEn he hreset hwrite]⟩
  rw [ht] at hirq
  cases hirq

/-! ### The values of the registers (10_state.md R26 to R40) -/

/-- A concatenation as a number: the upper part counts in units of the lower part's size. -/
theorem toNat_append_add {m n : Nat} (x : BitVec m) (y : BitVec n) : (x ++ y).toNat = x.toNat * 2 ^ n + y.toNat := by
  rw [BitVec.toNat_append, ← Nat.shiftLeft_add_eq_or_of_lt y.isLt, Nat.shiftLeft_eq]

theorem FcsMode.code_toNat (m : FcsMode) : m.code.toNat = m.num := by cases m <;> rfl
theorem Conn.code_toNat (c : Conn) : c.code.toNat = c.num := by cases c <;> rfl
theorem RxState.code_toNat (x : RxState) : x.code.toNat = x.num := by cases x <;> rfl
theorem BufState.code_toNat (b : BufState) : b.code.toNat = b.num := by cases b <;> rfl

/-- The count over the descriptors is the count over the indices (10_state.md R34). -/
theorem freeCount_eq_numFree (s : State) : s.freeCount = s.numFree := by
  have hpool : s.pool = (List.range s.nbuf).map s.desc := by
    refine List.ext_getElem (by simp [State.nbuf]) fun i hi _ => ?_
    rw [List.getElem_map, List.getElem_range, desc_of_lt s hi]
  unfold State.freeCount
  rw [hpool, List.countP_map]
  rfl

theorem numFree_le (s : State) : s.numFree ≤ s.nbuf := by
  rw [← freeCount_eq_numFree]
  exact List.countP_le_length

/-- The delivered queue names distinct buffers, so it is no longer than the pool (10_state.md R50). -/
theorem State.PoolLegal.rxq_length_le (hs : s.PoolLegal) : s.rxq.length ≤ s.nbuf := by
  have hsub : s.rxq ⊆ List.range s.nbuf := fun i hi => List.mem_range.2 ((hs.delivered i).1 hi).1
  simpa using (hs.nodup.subperm hsub).length_le

theorem paramWord_toNat (hs : s.SizesLegal) : s.paramWord.toNat = s.nbuf + 65536 * s.params.bufcap := by
  have hn := hs.nbuf_le
  have hc := hs.bufcap_le
  simp only [State.paramWord, toNat_append_add, BitVec.toNat_ofNat]
  omega

theorem cfgWord_toNat (s : State) :
    s.cfgWord.toNat = s.cfg.fcsMode.num + 4 * s.cfg.window.toNat + 256 * s.cfg.maxRetries.toNat := by
  simp only [State.cfgWord, toNat_append_add, BitVec.toNat_ofNat, FcsMode.code_toNat]
  omega

theorem winOpen_eq (s : State) :
    s.winOpen = decide (s.conn = .connected ∧ s.outstanding.toNat < s.cfg.window.toNat) := by
  rw [Bool.decide_and]
  rfl

theorem statusWord_toNat (hs : s.Legal) : s.statusWord.toNat =
    s.conn.num + 4 * (decide (0 < s.rxq.length)).toNat +
      8 * (decide (s.conn = .connected ∧ s.outstanding.toNat < s.cfg.window.toNat)).toNat +
      16 * (decide (0 < s.numFree)).toNat + 32 * s.enc.active.toNat + 64 * s.rx.state.num +
      256 * s.numFree + 65536 * s.rxq.length := by
  have hn := hs.sizes.nbuf_le
  have hq := hs.pool.rxq_length_le
  have hfree := numFree_le s
  simp only [State.statusWord, toNat_append_add, BitVec.toNat_ofNat, BitVec.toNat_ofBool, Conn.code_toNat,
    RxState.code_toNat, freeCount_eq_numFree, winOpen_eq]
  omega

theorem seqWord_toNat (s : State) : s.seqWord.toNat =
    s.vs.toNat + 16 * s.vr.toNat + 256 * s.va.toNat + 4096 * s.outstanding.toNat + 65536 * s.retry.toNat +
      2 ^ 24 * s.ackPending.toNat + 2 ^ 25 * s.rejPending.toNat + 2 ^ 26 * s.uaPending.toNat +
      2 ^ 27 * s.sabmPending.toNat + 2 ^ 28 * s.discPending.toNat := by
  simp only [State.seqWord, toNat_append_add, BitVec.toNat_ofNat, BitVec.toNat_ofBool]
  omega

theorem bufStateWord_toNat (s : State) (i : Nat) :
    (s.bufStateWord i).toNat = (s.bstate i).num + 65536 * (s.blen i).toNat := by
  simp only [State.bufStateWord, toNat_append_add, BitVec.toNat_ofNat, BufState.code_toNat]
  omega

/-- Each row of the register table is a register the block has, with its address and its value. -/
theorem State.Legal.registerTable_reg (hs : s.Legal) {x n : Nat} (h : (x, n) ∈ s.registerTable) :
    ∃ r : Reg, r.Exists s.nbuf ∧ x = r.addr ∧ n = (s.regValue r).toNat := by
  rw [State.registerTable, List.mem_append, List.mem_map] at h
  rcases h with h | ⟨i, hi, h⟩
  · simp only [List.mem_cons, Prod.mk.injEq, List.not_mem_nil, or_false] at h
    rcases h with ⟨rfl, rfl⟩ | ⟨rfl, rfl⟩ | ⟨rfl, rfl⟩ | ⟨rfl, rfl⟩ | ⟨rfl, rfl⟩ | ⟨rfl, rfl⟩ | ⟨rfl, rfl⟩ | ⟨rfl, rfl⟩ |
      ⟨rfl, rfl⟩ | ⟨rfl, rfl⟩ | ⟨rfl, rfl⟩ | ⟨rfl, rfl⟩ | ⟨rfl, rfl⟩ | ⟨rfl, rfl⟩
    · exact ⟨.id, nofun, rfl, rfl⟩
    · exact ⟨.param, nofun, rfl, (paramWord_toNat hs.sizes).symm⟩
    · exact ⟨.cfg, nofun, rfl, (cfgWord_toNat s).symm⟩
    · exact ⟨.cfgMtu, nofun, rfl, (BitVec.toNat_setWidth_of_le (by decide)).symm⟩
    · exact ⟨.cfgTimeout, nofun, rfl, (BitVec.toNat_setWidth_of_le (by decide)).symm⟩
    · exact ⟨.cfgAckDelay, nofun, rfl, (BitVec.toNat_setWidth_of_le (by decide)).symm⟩
    · exact ⟨.cmd, nofun, rfl, rfl⟩
    · exact ⟨.result, nofun, rfl, rfl⟩
    · exact ⟨.status, nofun, rfl, (statusWord_toNat hs).symm⟩
    · exact ⟨.event, nofun, rfl, (BitVec.toNat_setWidth_of_le (by decide)).symm⟩
    · exact ⟨.irqEn, nofun, rfl, (BitVec.toNat_setWidth_of_le (by decide)).symm⟩
    · exact ⟨.cntLost, nofun, rfl, rfl⟩
    · exact ⟨.cntOversize, nofun, rfl, rfl⟩
    · exact ⟨.seq, nofun, rfl, (seqWord_toNat s).symm⟩
  · obtain ⟨rfl, rfl⟩ := Prod.mk.inj h
    exact ⟨.bufState i, .bufState hs.sizes (List.mem_range.1 hi), rfl, (bufStateWord_toNat s i).symm⟩

/-- EVENT is the register at its address (10_state.md R23). -/
theorem Reg.addr_eq_event_iff (r : Reg) : r.addr = 0x024 ↔ r = .event := by
  cases r with
  | bufState i => simp only [Reg.addr, reduceCtorEq, iff_false]; omega
  | _ => decide

/-- Settles O40: the address reaches its register, whose value is the table's. -/
theorem registerReads : Obligations.RegisterReads := by
  intro s a v hs hmem
  obtain ⟨r, hr, ha, rfl⟩ := hs.registerTable_reg hmem
  have hevent : a = 0x024 ↔ r = .event := by
    rw [← r.addr_eq_event_iff, ← ha]
    exact ⟨congrArg BitVec.toNat, BitVec.eq_of_toNat_eq (y := 0x024)⟩
  refine ⟨_, handle_hostRead_of_reg hs.eager (hr.target ha), ?_, (s.regValue r).isLt, fun _ => rfl, ?_⟩
  · rw [BitVec.ofNat_toNat, BitVec.setWidth_eq]
  · simp only [hevent]

/-! ### The values stored by a write (10_state.md R28 to R31, 45_host_interface.md R336) -/

theorem FcsMode.ofBits_num : ∀ b : BitVec 2, (FcsMode.ofBits b).num = b.toNat := by decide

theorem legalWindow_toNat : ∀ b : BitVec 3, (legalWindow b).toNat = if b.toNat = 0 then 1 else b.toNat := by decide

theorem half_eq_zero_iff (b : Half) : b = 0 ↔ b.toNat = 0 := BitVec.toNat_eq

theorem legalTimeout_toNat (b : Half) : (legalTimeout b).toNat = if b.toNat = 0 then 1 else b.toNat := by
  simp only [legalTimeout, half_eq_zero_iff]
  split_ifs <;> rfl

theorem legalMtu_toNat_eq (cap : Nat) (b : Half) :
    (legalMtu cap b).toNat = if b.toNat = 0 then 1 else min b.toNat cap := by
  simp only [legalMtu, half_eq_zero_iff]
  split_ifs
  · rfl
  · exact Nat.mod_eq_of_lt (Nat.lt_of_le_of_lt (Nat.min_le_left _ _) b.isLt)

/-- A bit field of a bus word as a number. -/
theorem field_toNat (v : Word) (i n : Nat) : (v.extractLsb' i n).toNat = v.toNat / 2 ^ i % 2 ^ n := by
  rw [BitVec.extractLsb'_toNat, Nat.shiftRight_eq_div_pow]

theorem lowField_toNat (v : Word) (n : Nat) : (v.extractLsb' 0 n).toNat = v.toNat % 2 ^ n := by
  rw [field_toNat, Nat.pow_zero, Nat.div_one]

/-! ### Writes of a register (10_state.md R24, 45_host_interface.md R336) -/

/-- The write of a configuration register outside DISCONNECTED only signals CFG_ERR (10_state.md R24). -/
theorem handle_locked (r : Reg) (hr : r.Exists s.nbuf) (ha : a.toNat = r.addr) {c : CfgRegs}
    (hw : s.regWrite r v = .next (s.lockedWrite c)) (hconn : s.conn ≠ .disconnected) :
    ∃ t, s.handle (.hostWrite a 2 v) = .next t.encoderLoad ∧ s.EventsAdded t (fun i => i = 9) ∧
      t = { s with event := t.event } := by
  rw [show s.lockedWrite c = s.signal .cfgErr from if_neg hconn] at hw
  exact ⟨_, handle_regWrite r hr ha hw, signal_added s .cfgErr, rfl⟩

/-- The write of a configuration register in DISCONNECTED stores the new configuration (10_state.md R24). -/
theorem handle_unlocked (r : Reg) (hr : r.Exists s.nbuf) (ha : a.toNat = r.addr) {c : CfgRegs}
    (hw : s.regWrite r v = .next (s.lockedWrite c)) (hconn : s.conn = .disconnected) :
    s.handle (.hostWrite a 2 v) = .next (State.encoderLoad { s with cfg := c }) := by
  rw [show s.lockedWrite c = { s with cfg := c } from if_pos hconn] at hw
  exact handle_regWrite r hr ha hw

/-- Settles O41: register by register, at its address; the values stored are the legalised fields of the word. -/
theorem registerWrites : Obligations.RegisterWrites := by
  intro s v hs half locked stores
  have hhalf : (v.extractLsb' 0 16).toNat = half := lowField_toNat v 16
  have hwindow : (v.extractLsb' 2 3).toNat = v.toNat / 4 % 8 := field_toNat v 2 3
  refine ⟨handle_locked .cfg nofun rfl rfl, handle_locked .cfgMtu nofun rfl rfl, handle_locked .cfgTimeout nofun rfl rfl,
    handle_locked .cfgAckDelay nofun rfl rfl, fun hconn => ⟨?cfg, ?cfgMtu, ?cfgTimeout, ?cfgAckDelay⟩, ?cmd, ?irqEn,
    handle_regWrite .cntLost nofun rfl rfl, handle_regWrite .cntOversize nofun rfl rfl,
    handle_regWrite .id nofun rfl rfl, handle_regWrite .param nofun rfl rfl, handle_regWrite .result nofun rfl rfl,
    handle_regWrite .status nofun rfl rfl, handle_regWrite .event nofun rfl rfl, handle_regWrite .seq nofun rfl rfl,
    fun i hi => handle_regWrite (.bufState i) (.bufState hs hi) ?bufState rfl⟩
  case cfg =>
    refine ⟨_, handle_unlocked .cfg nofun rfl rfl hconn, ?_, ?_, field_toNat v 8 8, rfl⟩
    · exact (FcsMode.ofBits_num _).trans (lowField_toNat v 2)
    · rw [← hwindow]
      exact legalWindow_toNat _
  case cfgMtu =>
    refine ⟨_, handle_unlocked .cfgMtu nofun rfl rfl hconn, ?_, rfl⟩
    rw [← hhalf]
    exact legalMtu_toNat_eq _ _
  case cfgTimeout =>
    refine ⟨_, handle_unlocked .cfgTimeout nofun rfl rfl hconn, ?_, rfl⟩
    rw [← hhalf]
    exact legalTimeout_toNat _
  case cfgAckDelay => exact ⟨_, handle_unlocked .cfgAckDelay nofun rfl rfl hconn, hhalf, rfl⟩
  case cmd =>
    obtain ⟨t, ht⟩ := exec_next (decodeCommand v) s
    exact ⟨t, handle_regWrite .cmd nofun rfl ht, ht⟩
  case irqEn => exact ⟨_, handle_regWrite .irqEn nofun rfl rfl, lowField_toNat v 11, rfl⟩
  case bufState =>
    have hnbuf := hs.nbuf_le
    exact Nat.mod_eq_of_lt (show 0x100 + 4 * i < 2 ^ 20 by omega)

end Sys2Proof.Machine

/-! SUPPORT. The two resets: the state they leave, as one state over the configuration registers and IRQ_EN that they
treat differently (70_reset_and_hazards.md R391, 45_host_interface.md R334). -/

namespace Sys2Proof.Machine

variable {s t : State}

/-- Whatever the configuration registers and IRQ_EN are left at, a reset of block `s` gives everything else its value of
the reset table (70_reset_and_hazards.md R391). -/
theorem resetWith_engineReset (s : State) (c : CfgRegs) (q : BitVec 11) :
    s.EngineReset (resetWith s.params s.nbuf s.bmem s.env c q) where
  conn := rfl
  seq := ⟨rfl, rfl, rfl, rfl⟩
  slots := afterReset_slot s.params s.nbuf s.bmem s.env
  timers := ⟨rfl, rfl, rfl⟩
  flags := ⟨rfl, rfl, rfl, rfl⟩
  pool := ⟨afterReset_nbuf s.params s.nbuf s.bmem s.env, fun i =>
    ⟨afterReset_bstate s.params s.nbuf s.bmem s.env i, afterReset_blen s.params s.nbuf s.bmem s.env i⟩⟩
  rxq := rfl
  enc := rfl
  rx := rfl
  counters := ⟨rfl, rfl, rfl, rfl⟩
  bmem := rfl
  others := ⟨rfl, rfl⟩

theorem hardReset_eq_resetWith (s : State) :
    s.hardReset = resetWith s.params s.nbuf s.bmem s.env (CfgRegs.reset s.params.bufcap) 0 := rfl

/-- The RESULT that SOFT_RESET answers is the reset value of RESULT (45_host_interface.md R334). -/
theorem exec_softReset (s : State) (buf : BitVec 8) (len : BitVec 16) :
    exec (.softReset buf len) s = .next (resetWith s.params s.nbuf s.bmem s.env s.cfg s.irqEn) := by
  have hresult : resultWord .ok 0 0 = 0 := by decide
  rw [exec, execSoftReset, State.setResult, hresult]
  rfl

theorem State.EngineReset.memorySame (h : s.EngineReset t) : s.MemorySame t := fun _ => by rw [h.bmem]

/-- PARAM shows only the construction-time parameters and the number of buffers (10_state.md R27). -/
theorem State.EngineReset.paramWord (h : s.EngineReset t) : t.paramWord = s.paramWord := by
  obtain ⟨hparams, -⟩ := h.others
  obtain ⟨hnbuf, -⟩ := h.pool
  rw [State.paramWord, State.paramWord, hparams, hnbuf]

/-- No frame is loaded after a reset (10_state.md R21). -/
theorem State.EngineReset.txValid (h : s.EngineReset t) : t.txValid = false := by rw [State.txValid, h.enc]

/-- No event is set after a reset, so none is enabled (10_state.md R36, 45_host_interface.md R337). -/
theorem State.EngineReset.irq (h : s.EngineReset t) : t.irq = false := by
  obtain ⟨-, hevent, -, -⟩ := h.counters
  simp [State.irq, hevent]

/-- Settles O15: both resets leave the state `resetWith`; the outputs, PARAM and buffer memory follow from what it
holds. -/
theorem resetAction : Obligations.ResetAction := by
  refine ⟨fun s => ⟨s.hardReset, rfl, ?_⟩, fun s buf len => ⟨_, exec_softReset s buf len, ?_⟩⟩
  · have h : s.EngineReset s.hardReset := hardReset_eq_resetWith s ▸ resetWith_engineReset s _ 0
    exact ⟨h, rfl, rfl, h.txValid, h.irq, rfl, h.paramWord, h.memorySame⟩
  · have h := resetWith_engineReset s s.cfg s.irqEn
    exact ⟨h, rfl, rfl, h.memorySame⟩

end Sys2Proof.Machine

/-! SUPPORT. The state after reset is legal (10_state.md R54, 70_reset_and_hazards.md R391), and what `withFetchWord`
places is what the next step runs (log 3, log 8). -/

namespace Sys2Proof.Machine

/-! ### The reset state -/

/-- The reference block has legal sizes (00_scope.md R7, log 1). -/
theorem reset_sizesLegal : State.reset.SizesLegal := by constructor <;> decide

/-- The reset state lists no byte of buffer memory (log 6). -/
theorem reset_memLegal : State.reset.MemLegal where
  wf := rfl
  exist := nofun

theorem hardReset_reset : State.reset.hardReset = State.reset := rfl

/-- Settles O53: the reset state is its own hardware reset, and after one no frame is due. -/
theorem legalAtReset : Obligations.LegalAtReset := by
  have hkept : State.reset.Kept := hardReset_reset ▸ State.hardReset_kept reset_sizesLegal reset_memLegal
  exact hkept.legal fun _ => rfl

/-! ### The instruction that `withFetchWord` places -/

/-- The event put first is the next step's, on the state it was put into. -/
theorem step_offerFirst (s : State) (e : PortEvent) : step (s.offerFirst [e]) = s.handle e := step_of_inbox rfl

/-- `s` with the de-stuffer at the end of a frame of this body, its closing DELIM still to come (40_framecodec.md
R155). -/
def State.withBody (s : State) (body : List Byte) : State := s.withRx .data (body ++ s.fcsNow body)

theorem withFetchWord_command (s : State) (w : Nat) :
    s.withFetchWord 32 w = s.offerFirst [.hostWrite 0x018 2 (BitVec.ofNat 32 w)] := rfl

theorem withFetchWord_frame (s : State) (w : Nat) :
    s.withFetchWord 8 w = (s.withBody [BitVec.ofNat 8 w]).offerFirst [.rxByte delim] := rfl

/-- A 32-bit table word is a CMD word (log 8). -/
theorem decodeTableWord_command (w : Nat) : decodeTableWord 32 w = some (decodeCommand (BitVec.ofNat 32 w)) := by
  rw [decodeTableWord, if_pos rfl, decode_wordBytes]
  rfl

/-- An 8-bit table word is the control byte of a frame with an empty info field (log 8). -/
theorem decodeTableWord_frame (w : Nat) : decodeTableWord 8 w = some (classify (BitVec.ofNat 8 w) []) := rfl

/-- Settles O13: a command by its CMD write, a frame by the closing DELIM of its one-byte body, which every MTU lets
pass. -/
theorem fetchedWordRuns : Obligations.FetchedWordRuns := by
  refine ⟨fun s w i hdec => ?_, fun s w i hdec => ?_⟩
  · rw [decodeTableWord_command] at hdec
    injection hdec with hdec
    obtain ⟨t, ht⟩ := exec_next i s
    rw [withFetchWord_command, step_offerFirst]
    exact ⟨t, ht, handle_cmd (hdec ▸ ht)⟩
  · rw [decodeTableWord_frame] at hdec
    injection hdec with hdec
    intro body
    have hroom : body.length ≤ 1 + s.cfg.mtu.toNat := Nat.le_add_right 1 _
    obtain ⟨t, ht, hrx⟩ := rxByte_delim_of_good (s := s.withBody body) rfl rfl hroom (congrArg Except.ok hdec)
    rw [withFetchWord_frame, step_offerFirst]
    exact ⟨t, ht, handle_rxByte_of_next hrx⟩

end Sys2Proof.Machine
